-- ==== Sys2Proof/Word.lean ====
section
/-! DEFINITION. The byte and check-word types, and a list of fixed length for the banks of like things. -/

namespace Sys2Proof

/-- One byte of a frame body, of wave memory or of the save memory. -/
abbrev Byte := BitVec 8

/-- A CRC-16 check value, or another 16-bit word the spec handles bit by bit. -/
abbrev Word16 := BitVec 16

/-- A result of the 12-bit converter, 0..4,095 (R1). -/
abbrev Count12 := Fin 4096

/-- `n` like things, numbered 0 to `n - 1`: voices, stream records, slots, event-table entries. -/
structure Tab (n : Nat) (α : Type) where
  /-- The things, thing 0 first. -/
  cells : List α
  /-- There are exactly `n` of them. -/
  size_eq : cells.length = n
  deriving DecidableEq, Repr

namespace Tab

variable {n : Nat} {α β : Type}

/-- `n` copies of one thing. -/
def replicate (n : Nat) (a : α) : Tab n α := ⟨List.replicate n a, List.length_replicate⟩

/-- Thing number `i`. -/
def get (t : Tab n α) (i : Fin n) : α := t.cells[i.val]'(t.size_eq.symm ▸ i.isLt)

/-- The table with thing `i` replaced. -/
def set (t : Tab n α) (i : Fin n) (a : α) : Tab n α :=
  ⟨t.cells.set i.val a, by rw [List.length_set, t.size_eq]⟩

/-- Every thing changed by `f`. -/
def map (f : α → β) (t : Tab n α) : Tab n β := ⟨t.cells.map f, by rw [List.length_map, t.size_eq]⟩

/-- Thing `i` changed by `f`. -/
def modify (t : Tab n α) (i : Fin n) (f : α → α) : Tab n α := t.set i (f (t.get i))

end Tab

/-- The numbers 0..n − 1 of a bank of like things, in rising order. -/
def numbers (n : Nat) : List (Fin n) := List.ofFn id

end Sys2Proof
end

