-- ==== Sys2Proof/Syntax.lean ====
section
/-! DEFINITION. The commands of the C48: one constructor of `Instr` for each row of spec/opcode_table.json,
with the fields that the row's rule names. -/

namespace Sys2Proof

/-- An enumerated field of a request: a value the spec names, or "any other value".
The codes of most enumerated fields are not given (log entry 25). -/
inductive Coded (α : Type) where
  | is (a : α)
  | other
  deriving DecidableEq, Repr

/-- Voice modes (R33). -/
inductive VoiceMode where
  | off | table | stream
  deriving DecidableEq, Repr

/-- A voice's own substitution, and the substitution in force (R33, R78). -/
inductive Substitution where
  | none | mute | hold
  deriving DecidableEq, Repr

/-- The mixer's global substitution (R75). -/
inductive GlobalSubstitution where
  | none | muteAll | holdAll
  deriving DecidableEq, Repr

/-- What playback does at the end of a wave (R33). -/
inductive LoopMode where
  | once | loop
  deriving DecidableEq, Repr

/-- Modes of Rumble Play (R93). -/
inductive PlayMode where
  | append | replace
  deriving DecidableEq, Repr

/-- Shapes of an effect step (R91). -/
inductive Shape where
  | hold | ramp
  deriving DecidableEq, Repr

/-- How a received frame ended badly (R170), or that its kind is 0x00 or 0x40..0xFF (R171).
ABORTED here is the escape followed directly by a delimiter; the rise of LSEL is LSEL_RISE's. -/
inductive DiscardCause where
  | short | badCheck | long | badEscape | aborted | badKind
  deriving DecidableEq, Repr

/-- The fields Voice Set may name (R50). `unassignedBit`: the naming field sets a bit with no row (R171). -/
structure VoiceSetFields where
  mode          : Option (Coded VoiceMode)
  volume        : Option Nat
  substitution  : Option (Coded Substitution)
  waveStart     : Option Nat
  waveLength    : Option Nat
  loopStart     : Option Nat
  loopMode      : Option (Coded LoopMode)
  pitchStep     : Option Nat
  attackRate    : Option Nat
  sustainLevel  : Option Nat
  releaseRate   : Option Nat
  unassignedBit : Bool
  deriving DecidableEq, Repr

/-- The settings Mix Set may name (R86). -/
structure MixSetFields where
  master        : Option Nat
  global        : Option (Coded GlobalSubstitution)
  tone          : Option (Coded Bool)
  amplitude     : Option Nat
  halfPeriod    : Option Nat
  unassignedBit : Bool
  deriving DecidableEq, Repr

/-- The settings Rumble Set may name (R90): the carrier in kHz, the trip current in mA. -/
structure RumbleSetFields where
  carrier       : Option Nat
  kick          : Option (Coded Bool)
  stall         : Option Nat
  trip          : Option Nat
  drainNotice   : Option (Coded Bool)
  unassignedBit : Bool
  deriving DecidableEq, Repr

/-- One step of Rumble Play or of a cue's rumble part (R93, R141). -/
structure StepFields where
  level  : Nat
  length : Nat
  shape  : Coded Shape
  deriving DecidableEq, Repr

/-- A date and a time of day (section 7.4). -/
structure DateTime where
  year   : Nat
  month  : Nat
  day    : Nat
  hour   : Nat
  minute : Nat
  second : Nat
  deriving DecidableEq, Repr

/-- The fields of Calendar Set (R117). `ticked` is no field of the body: it says that a second tick arrives together with the
request and that the game-day unit takes the clock-set event first (R119, R128; log entry 26). -/
structure CalendarSetFields where
  date   : DateTime
  ticked : Bool
  deriving DecidableEq, Repr

/-- What is taken while a supply-state change event is on its way: the event by one of the four blocks it goes to (R11), or
a period mark of the mixer or of the rumble driver that arrives together with it (R84, R106). -/
inductive SupplyTurn where
  | governor | mixer | rumble | save
  | mixerMark | rumbleMark
  deriving DecidableEq, Repr

/-- A VCART result (R9). `turns` is no part of the count: when the result changes the supply state, it gives the order in which
the blocks take the event, and the marks among them (R27, R77, R84, R106; log entry 33). -/
structure VcartFields where
  count : Count12
  turns : List SupplyTurn
  deriving DecidableEq, Repr

/-- The trigger of Event Set, with the value its kind takes (R137). -/
inductive TriggerFields where
  | gameDay  (value : Nat)
  | dateTime (date : DateTime)
  | daily    (hour minute second : Nat)
  | other
  deriving DecidableEq, Repr

/-- The sound part of Cue Define (R141). -/
structure SoundFields where
  voice        : Nat
  volume       : Nat
  waveStart    : Nat
  waveLength   : Nat
  loopStart    : Nat
  loopMode     : Coded LoopMode
  pitchStep    : Nat
  attackRate   : Nat
  sustainLevel : Nat
  releaseRate  : Nat
  keyOffAfter  : Option Nat
  deriving DecidableEq, Repr

/-- The rumble part of Cue Define (R141). -/
structure RumbleFields where
  priority : Nat
  steps    : List StepFields
  deriving DecidableEq, Repr

/-- The fields of Cue Define (R141); an absent part has no fields here, though the body has bytes for them (log entry 29). -/
structure CueFields where
  cue    : Nat
  sound  : Option SoundFields
  steal  : Coded Bool
  rumble : Option RumbleFields
  deriving DecidableEq, Repr

/-- The commands. A request's `tag` is the tag of its frame (R168). -/
inductive Instr where
  -- power and start-up
  | powerUp
  | cartridgeSupplyLoss
  | slotScan
  | startUpCatchUp
  -- cartridge link
  | lselFall
  | lselRise (begun : Bool)
  | requestFrame (kind tag : Byte) (body : List Byte)
  | streamBlock (q : Byte) (body : List Byte)
  | frameDiscarded (cause : DiscardCause)
  | requestHandOn
  | frameStart
  | frameTransmitComplete
  | partStatus (tag : Byte)
  | noticeMask (tag : Byte) (mask : Word16)
  | linkStatus (tag : Byte) (clear : Bool)
  | restart (tag : Byte)
  -- supply monitor and load governor
  | supplyRead (tag : Byte) (clear : Bool)
  | supplySet (tag : Byte) (low critical hysteresis battery : Nat)
  | calibrateMotorSense (tag : Byte)
  | calibrationConversion (raw : Count12)
  | budgetSet (tag : Byte) (budget imax : Nat)
  | budgetRead (tag : Byte)
  -- voice engine
  | voiceSet (tag : Byte) (voice : Nat) (fields : VoiceSetFields)
  | keyOn (tag : Byte) (voice : Nat)
  | keyOff (tag : Byte) (voice : Nat)
  | voiceRead (tag : Byte) (voice : Nat)
  | waveWrite (tag : Byte) (address : Nat) (bytes : List Byte)
  | waveRead (tag : Byte) (address count : Nat)
  -- stream buffers
  | streamOpen (tag : Byte) (voice start depth limit : Nat)
  | streamClose (tag : Byte) (voice : Nat)
  | streamStatus (tag : Byte) (voice : Nat) (clear : Bool)
  -- mixer
  | mixSet (tag : Byte) (fields : MixSetFields)
  | mixStatus (tag : Byte) (clear : Bool)
  -- rumble driver
  | rumblePlay (tag : Byte) (mode : Coded PlayMode) (priority : Nat) (steps : List StepFields)
  | rumbleStop (tag : Byte)
  | rumbleSet (tag : Byte) (fields : RumbleSetFields)
  | rumbleClear (tag : Byte)
  | rumbleStatus (tag : Byte)
  -- calendar, game days, event table
  | calendarGet (tag : Byte)
  | calendarSet (tag : Byte) (fields : CalendarSetFields)
  | gameDayStart (tag : Byte) (start rollover cap : Nat)
  | gameDayGet (tag : Byte)
  | gameDayClearRewind (tag : Byte)
  | eventSet (tag : Byte) (entry : Nat) (trigger : TriggerFields) (cue : Option Nat) (quantize : Coded Bool)
  | eventClear (tag : Byte) (entry : Nat)
  | eventList (tag : Byte)
  -- cues
  | cueDefine (tag : Byte) (fields : CueFields)
  | cueStart (tag : Byte) (cue : Nat) (quantize : Coded Bool)
  | cueCancel (tag : Byte) (cue : Nat)
  | cueStatus (tag : Byte)
  -- save store
  | stageWrite (tag : Byte) (offset : Nat) (bytes : List Byte)
  | stageRead (tag : Byte) (offset count : Nat)
  | stageLoad (tag : Byte) (slot : Nat)
  | commit (tag : Byte) (slot length : Nat)
  | commitAbort (tag : Byte)
  | slotRead (tag : Byte) (slot offset count : Nat)
  | slotInfo (tag : Byte) (slot : Nat)
  | slotVerify (tag : Byte) (slot : Nat)
  | slotErase (tag : Byte) (slot : Nat)
  | loadComplete
  | copyComplete
  | sealComplete
  | verifyComplete
  -- converter results and the coast window
  | roundStart
  | vcartResult (fields : VcartFields)
  | vbatResult (count : Count12)
  | imotResult (count : Count12)
  | bemfResult (raw : Count12)
  | coastWindow
  -- period marks, output samples, measures
  | voiceLatch
  | streamPlayout
  | mixerLatch
  | outputSample
  | rumblePeriodMark
  | cuePeriodMark
  | keyOffCountdown (voice : Nat)
  | measureMark
  -- calendar ticks and the backup domain
  | secondTick
  | backupDomainPowerLoss
  | backupDomainPowerReturn
  | huntDelimiter
  deriving DecidableEq, Repr

end Sys2Proof
end

