-- ==== Sys2Proof/Machine/State.lean ====
section
/-! DEFINITION. The state of the C48 as plain data, and its value right after reset.
Each structure is one block of section 0.3; the rule that gives each field stands beside it. -/

namespace Sys2Proof.Machine

/-- A memory of bytes: (address, byte) pairs, addresses strictly rising, no entry 0; an unlisted address
reads as 0 (R49 for wave memory, R153 for staging; log entry 8 for the bank payloads). -/
abbrev Memory := List Host.Cell

/-! ## Supply monitor (chapter 1) -/

/-- The supply state (section 1.5). -/
inductive SupplyState where
  | normal | low | critical
  deriving DecidableEq, Repr

/-- The battery state (section 1.6). -/
inductive BatteryState where
  | unknown | good | weak
  deriving DecidableEq, Repr

/-- The channels of the regular round (R2). -/
inductive Channel where
  | vcart | vbat | imot
  deriving DecidableEq, Repr

/-- The one injected BEMF request (R4, R5): none outstanding, being converted, or held by a calibration. -/
inductive Injected where
  | idle | converting | held
  deriving DecidableEq, Repr

/-- Who asked for a calibration: core start-up, or the Calibrate Motor Sense with this tag (R6, R7). -/
inductive CalibrationOrigin where
  | startUp
  | requested (tag : Byte)
  deriving DecidableEq, Repr

/-- A calibration in progress (R6): conversions taken, 0..7, and their sum. -/
structure Calibration where
  origin : CalibrationOrigin
  taken  : Nat
  sum    : Nat
  deriving DecidableEq, Repr

/-- The supply monitor (R1 to R15). -/
structure SupplyMonitor where
  vcart           : Nat
  vbat            : Nat
  imot            : Nat
  bemfRaw         : Nat
  bemfCorrected   : Nat
  zeroOffset      : Nat
  low             : Nat
  critical        : Nat
  hysteresis      : Nat
  battThreshold   : Nat
  supply          : SupplyState
  supplyRecovery  : Nat
  /-- whether the first VCART result since the reset has been taken (R10) -/
  firstVcart      : Bool
  battery         : BatteryState
  batteryRecovery : Nat
  skipped         : Nat
  /-- the conversions the running round has still to deliver; empty when no round runs (R2) -/
  round           : List Channel
  injected        : Injected
  calibration     : Option Calibration
  deriving DecidableEq, Repr

/-- R15; the start-up calibration has begun (R6). -/
def SupplyMonitor.reset : SupplyMonitor :=
  { vcart := 0, vbat := 0, imot := 0, bemfRaw := 0, bemfCorrected := 0, zeroOffset := 0
    low := 1500, critical := 1400, hysteresis := 25, battThreshold := 2600
    supply := .low, supplyRecovery := 0, firstVcart := false
    battery := .unknown, batteryRecovery := 0, skipped := 0
    round := [], injected := .idle, calibration := some ⟨.startUp, 0, 0⟩ }

/-! ## Load governor (chapter 2) -/

/-- The grant record (R18). -/
structure GrantRecord where
  supply   : SupplyState
  mceil    : Nat
  dceil    : Nat
  reserve  : Bool
  audio    : Nat
  headroom : Nat
  deriving DecidableEq, Repr

/-- The governor's inputs and its record (R18). -/
structure Governor where
  supply : SupplyState
  volume : Nat
  busy   : Bool
  budget : Nat
  imax   : Nat
  record : GrantRecord
  deriving DecidableEq, Repr

/-- R19. -/
def Governor.reset : Governor :=
  { supply := .low, volume := 128, busy := false, budget := 200, imax := 150
    record := { supply := .low, mceil := 160, dceil := 96, reserve := false, audio := 27, headroom := 143 } }

/-! ## Voice engine (chapter 3) -/

/-- Envelope states (R33). -/
inductive EnvelopeState where
  | attack | sustain | release
  deriving DecidableEq, Repr

/-- A pending key (R35). -/
inductive Key where
  | on | off
  deriving DecidableEq, Repr

/-- A voice record (R33); the position is `posInt` + `posFrac` / 256. -/
structure VoiceRecord where
  mode         : VoiceMode
  volume       : Nat
  substitution : Substitution
  waveStart    : Nat
  waveLength   : Nat
  loopStart    : Nat
  loopMode     : LoopMode
  pitchStep    : Nat
  posInt       : Nat
  posFrac      : Nat
  envState     : EnvelopeState
  envLevel     : Nat
  attackRate   : Nat
  sustainLevel : Nat
  releaseRate  : Nat
  deriving DecidableEq, Repr

/-- The reset column of R33. -/
def VoiceRecord.reset : VoiceRecord :=
  { mode := .off, volume := 127, substitution := .none, waveStart := 0, waveLength := 1, loopStart := 0
    loopMode := .once, pitchStep := 256, posInt := 0, posFrac := 0, envState := .release, envLevel := 0
    attackRate := 255, sustainLevel := 255, releaseRate := 255 }

/-- A voice's pending record (R35). -/
structure PendingVoice where
  volume       : Option Nat
  substitution : Option Substitution
  waveStart    : Option Nat
  waveLength   : Option Nat
  loopStart    : Option Nat
  loopMode     : Option LoopMode
  pitchStep    : Option Nat
  attackRate   : Option Nat
  sustainLevel : Option Nat
  releaseRate  : Option Nat
  mode         : Option VoiceMode
  key          : Option Key
  streamOpen   : Bool
  deriving DecidableEq, Repr

/-- An empty pending record with the stream-open mark clear (R37 step 6, R53). -/
def PendingVoice.empty : PendingVoice := ⟨none, none, none, none, none, none, none, none, none, none, none, none, false⟩

/-- The voice engine with its wave memory (R33, R35, R48). -/
structure VoiceEngine where
  voices   : Tab 8 VoiceRecord
  pendings : Tab 8 PendingVoice
  wave     : Memory
  deriving DecidableEq, Repr

/-- R53. -/
def VoiceEngine.reset : VoiceEngine :=
  { voices := .replicate 8 .reset, pendings := .replicate 8 .empty, wave := [] }

/-! ## Stream buffers (chapter 4) -/

/-- Stream states (R54). -/
inductive StreamState where
  | closed | fill | play | starved
  deriving DecidableEq, Repr

/-- A held block: its sequence number and its 64 samples, each a signed byte (R54, R56). -/
structure Block where
  seq     : Byte
  samples : List Byte
  deriving DecidableEq, Repr

/-- The nine counters of a stream record (R73). -/
structure StreamCounters where
  played    : Nat
  lost      : Nat
  late      : Nat
  duplicate : Nat
  overrun   : Nat
  exhausted : Nat
  reordered : Nat
  resync    : Nat
  unbound   : Nat
  deriving DecidableEq, Repr

def StreamCounters.zero : StreamCounters := ⟨0, 0, 0, 0, 0, 0, 0, 0, 0⟩

/-- A stream record (R54); `held` stands in order of increasing distance from `x`. -/
structure StreamRecord where
  state        : StreamState
  x            : Byte
  depth        : Nat
  limit        : Nat
  held         : List Block
  missingRun   : Nat
  lastPlayed   : List Byte
  periodValues : List Byte
  counters     : StreamCounters
  deriving DecidableEq, Repr

/-- 64 samples of 0. -/
def silence : List Byte := List.replicate 64 0

/-- The reset column of R54. -/
def StreamRecord.reset : StreamRecord :=
  { state := .closed, x := 0, depth := 2, limit := 2, held := [], missingRun := 0
    lastPlayed := silence, periodValues := silence, counters := .zero }

/-- The stream buffers (R54 to R56); `sampleIndex` is the output sample of the period that comes next (R63). -/
structure StreamBuffers where
  records     : Tab 8 StreamRecord
  freeSlots   : Nat
  stray       : Nat
  sampleIndex : Nat
  deriving DecidableEq, Repr

/-- R74. -/
def StreamBuffers.reset : StreamBuffers :=
  { records := .replicate 8 .reset, freeSlots := 48, stray := 0, sampleIndex := 0 }

/-! ## Mixer (chapter 5) -/

/-- The five settings (R75). -/
structure MixSettings where
  master     : Nat
  global     : GlobalSubstitution
  tone       : Bool
  amplitude  : Nat
  halfPeriod : Nat
  deriving DecidableEq, Repr

/-- The pending settings record (R75). -/
structure PendingMix where
  master     : Option Nat
  global     : Option GlobalSubstitution
  tone       : Option Bool
  amplitude  : Option Nat
  halfPeriod : Option Nat
  deriving DecidableEq, Repr

def PendingMix.empty : PendingMix := ⟨none, none, none, none, none⟩

/-- The CRITICAL override (R84). -/
inductive Override where
  | clear | held | releasing
  deriving DecidableEq, Repr

/-- What the mixer keeps for one voice (R79): the last contribution, the held value, and the substitution
in force at the most recent output sample (log entry 20). -/
structure MixChannel where
  last    : Int
  held    : Int
  lastSub : Substitution
  deriving DecidableEq, Repr

/-- The mixer (R75). -/
structure Mixer where
  inForce      : MixSettings
  pending      : PendingMix
  latchedMceil : Nat
  override     : Override
  channels     : Tab 8 MixChannel
  tonePositive : Bool
  toneCount    : Nat
  clipCount    : Nat
  clipNow      : Bool
  clipLast     : Bool
  code         : Nat
  deriving DecidableEq, Repr

/-- R88. -/
def Mixer.reset : Mixer :=
  { inForce := { master := 128, global := .none, tone := false, amplitude := 128, halfPeriod := 32 }
    pending := .empty, latchedMceil := 0, override := .clear
    channels := .replicate 8 ⟨0, 0, .none⟩
    tonePositive := true, toneCount := 0, clipCount := 0, clipNow := false, clipLast := false, code := 512 }

/-! ## Rumble driver (chapter 6) -/

/-- Driver states (R89). -/
inductive DriverState where
  | idle | running | fault
  deriving DecidableEq, Repr

/-- Fault causes (R89). -/
inductive FaultCause where
  | none | stall | trip
  deriving DecidableEq, Repr

/-- A step of the effect queue (R91). -/
structure EffectStep where
  level   : Nat
  length  : Nat
  shape   : Shape
  elapsed : Nat
  start   : Nat
  deriving DecidableEq, Repr

/-- The settings of the driver (R90); the trip current is kept in IMOT counts. -/
structure RumbleSettings where
  carrier     : Nat
  kick        : Bool
  stall       : Nat
  trip        : Nat
  drainNotice : Bool
  deriving DecidableEq, Repr

/-- The rumble driver (R89 to R91). -/
structure Rumble where
  state          : DriverState
  calibrating    : Bool
  supplyHold     : Bool
  latchedCeiling : Nat
  latchedReserve : Bool
  requested      : Nat
  applied        : Nat
  historyOlder   : Nat
  historyNewer   : Nat
  bemfRun        : Nat
  cause          : FaultCause
  settings       : RumbleSettings
  pendingCarrier : Option Nat
  queue          : List EffectStep
  priority       : Option Nat
  /-- whether the coast window of the present period is open (R101) -/
  coastOpen      : Bool
  deriving DecidableEq, Repr

/-- R109; the start-up calibration has begun (R107). -/
def Rumble.reset : Rumble :=
  { state := .idle, calibrating := true, supplyHold := false, latchedCeiling := 0, latchedReserve := false
    requested := 0, applied := 0, historyOlder := 0, historyNewer := 0, bemfRun := 0, cause := .none
    settings := { carrier := 8, kick := true, stall := 40, trip := 1000, drainNotice := false }
    pendingCarrier := none, queue := [], priority := none, coastOpen := false }

/-! ## Calendar (chapter 7) -/

/-- An instant: a day number and a second of the day (R110). -/
structure Instant where
  day    : Nat
  second : Nat
  deriving DecidableEq, Repr

/-- The calendar (R110) with its second divider (R112). -/
structure Calendar where
  now     : Instant
  valid   : Bool
  ended   : Bool
  divider : Nat
  deriving DecidableEq, Repr

/-- The values of a backup loss (R120) and of power that comes back (R111). -/
def Calendar.restarted : Calendar := { now := ⟨0, 0⟩, valid := false, ended := false, divider := 0 }

/-! ## Game days and the event table (chapter 8) -/

/-- The game-day record (R122); the CRC-16 check is held as whether it matches (log entry 9). -/
structure GameDayRecord where
  valid        : Bool
  counter      : Nat
  start        : Nat
  highWater    : Int
  startMark    : Int
  rollover     : Nat
  cap          : Nat
  forfeited    : Nat
  rewind       : Bool
  checkMatches : Bool
  deriving DecidableEq, Repr

/-- The backup-loss values (R139, R153). -/
def GameDayRecord.lost : GameDayRecord :=
  { valid := false, counter := 0, start := 0, highWater := -1, startMark := -1, rollover := 0, cap := 1
    forfeited := 0, rewind := false, checkMatches := true }

/-- Entry states (R132). -/
inductive EntryState where
  | free | armed | fired
  deriving DecidableEq, Repr

/-- A trigger: its kind with its value (R132). -/
inductive Trigger where
  | gameDay  (value : Nat)
  | dateTime (instant : Instant)
  | daily    (time : Nat)
  deriving DecidableEq, Repr

/-- The kind of a trigger, as the EVENTS notice carries it (R136). -/
inductive TriggerKind where
  | gameDay | dateTime | daily
  deriving DecidableEq, Repr

/-- The due instant (R132): only DAILY entries have one. -/
inductive Due where
  | absent
  | at (instant : Instant)
  | beyondRange
  deriving DecidableEq, Repr

/-- An entry of the event table (R132). -/
structure EventEntry where
  state    : EntryState
  trigger  : Trigger
  due      : Due
  cue      : Option Nat
  quantize : Bool
  late     : Bool
  firedAt  : Instant
  deriving DecidableEq, Repr

/-- A FREE entry with its other fields cleared (R132; the kind is the model's choice, log entry 18). -/
def EventEntry.freed : EventEntry := ⟨.free, .gameDay 0, .absent, none, false, false, ⟨0, 0⟩⟩

/-! ## Cue unit (chapter 9) -/

/-- A cue's sound part as stored (R141). -/
structure SoundPart where
  voice        : Fin 8
  volume       : Nat
  waveStart    : Nat
  waveLength   : Nat
  loopStart    : Nat
  loopMode     : LoopMode
  pitchStep    : Nat
  attackRate   : Nat
  sustainLevel : Nat
  releaseRate  : Nat
  keyOffAfter  : Option Nat
  deriving DecidableEq, Repr

/-- A step as taken, after its checks and clamps (R93, R141). -/
structure PlayStep where
  level  : Nat
  length : Nat
  shape  : Shape
  deriving DecidableEq, Repr

/-- A cue's rumble part as stored (R141). -/
structure RumblePart where
  priority : Nat
  steps    : List PlayStep
  deriving DecidableEq, Repr

/-- A defined entry of the cue table (R141). -/
structure CueDefinition where
  sound  : Option SoundPart
  steal  : Bool
  rumble : Option RumblePart
  deriving DecidableEq, Repr

/-- Where a start came from (R140): a Cue Start's tag, or an event-table entry's number. -/
inductive StartSource where
  | request (tag : Byte)
  | event (entry : Nat)
  deriving DecidableEq, Repr

/-- A waiting start (R140). -/
structure PendingStart where
  cue    : Fin 8
  source : StartSource
  deriving DecidableEq, Repr

/-- A key-off countdown (R140, R146). -/
structure Countdown where
  count : Nat
  cue   : Fin 8
  begun : Bool
  deriving DecidableEq, Repr

/-- The cue unit (R140); `measureDue` marks a measure mark whose starts have not acted yet (log entry 17). -/
structure CueUnit where
  table       : Tab 8 (Option CueDefinition)
  starts      : List PendingStart
  countdowns  : Tab 8 (Option Countdown)
  periodCount : Nat
  measureDue  : Bool
  deriving DecidableEq, Repr

/-- R140, R149. -/
def CueUnit.reset : CueUnit :=
  { table := .replicate 8 none, starts := [], countdowns := .replicate 8 none, periodCount := 0, measureDue := false }

/-- Outcome of a start's sound part (R145). -/
inductive SoundOutcome where
  | played | skipped | absent
  deriving DecidableEq, Repr

/-- Outcome of a start's rumble part (R147). -/
inductive RumbleOutcome where
  | played | outranked | faulted | busy | absent
  deriving DecidableEq, Repr

/-! ## Save store (chapter 10) -/

/-- The two banks of a slot (R150). -/
inductive Bank where
  | a | b
  deriving DecidableEq, Repr

/-- One thing for each bank of a slot. -/
structure BankPair (α : Type) where
  a : α
  b : α
  deriving DecidableEq, Repr

/-- A bank header (R151); the header check is held as whether it matches (log entry 9). -/
structure Header where
  generation   : Nat
  length       : Nat
  payloadCheck : Word16
  counter      : Option Nat
  day          : Option Nat
  rewind       : Bool
  weakCell     : Bool
  checkMatches : Bool
  deriving DecidableEq, Repr

/-- What invalidating writes (R151). -/
def Header.invalid : Header := ⟨0, 0, 0, none, none, false, false, false⟩

/-- Slot conditions (R152). -/
inductive Condition where
  | empty | valid | validFallback | damaged
  deriving DecidableEq, Repr

/-- Bank standings (R152). -/
inductive Standing where
  | live | validOlder | invalid | neverWritten
  deriving DecidableEq, Repr

/-- An entry of the slot table (R152). -/
structure SlotEntry where
  condition   : Condition
  liveBank    : Option Bank
  liveHeader  : Option Header
  highest     : Nat
  standings   : BankPair Standing
  deriving DecidableEq, Repr

/-- An EMPTY slot (R152, R165). -/
def SlotEntry.emptied : SlotEntry := ⟨.empty, none, none, 0, ⟨.neverWritten, .neverWritten⟩⟩

/-- Save controller states (R155). -/
inductive SaveState where
  | idle | loading | waitReserve | copying | sealing | verifying
  deriving DecidableEq, Repr

/-- The save controller and its slot table (R152, R155). -/
structure SaveController where
  state       : SaveState
  opSlot      : Fin 4
  target      : Bank
  length      : Nat
  moved       : Nat
  deferredTag : Byte
  /-- the CRC-16 computed during the copy (R160) -/
  copyCheck   : Word16
  slotTable   : Tab 4 SlotEntry
  /-- whether the marker check of this start-up found the marker wrong (R154) -/
  backupLoss  : Bool
  deriving DecidableEq, Repr

/-- The controller at core start-up (R155, R166), the slot table before the scan (log entry 19). -/
def SaveController.atStart (backupLoss : Bool) : SaveController :=
  { state := .idle, opSlot := 0, target := .a, length := 0, moved := 0, deferredTag := 0, copyCheck := 0
    slotTable := .replicate 4 .emptied, backupLoss := backupLoss }

/-- The store in the backup domain (R150): headers, payloads, staging area and marker. -/
structure SaveStore where
  headers : Tab 4 (BankPair Header)
  banks   : Tab 4 (BankPair Memory)
  staging : Memory
  marker  : Bool
  deriving DecidableEq, Repr

/-- The backup domain (section 0.3). -/
structure Backup where
  powered  : Bool
  calendar : Calendar
  record   : GameDayRecord
  events   : Tab 16 EventEntry
  store    : SaveStore
  deriving DecidableEq, Repr

/-- The backup domain without power, its contents lost (R111, R150; log entries 8 and 10). -/
def Backup.lost : Backup :=
  { powered := false, calendar := .restarted, record := .lost, events := .replicate 16 .freed
    store := { headers := .replicate 4 ⟨.invalid, .invalid⟩, banks := .replicate 4 ⟨[], []⟩, staging := [], marker := false } }

/-- The backup domain after a backup loss has been handled (R120, R139, R153). -/
def Backup.afterLoss : Backup :=
  { Backup.lost with powered := true, store := { Backup.lost.store with marker := true } }

/-! ## Cartridge link (chapter 11): replies and notices -/

/-- The status codes of a reply (R172), in the order of their codes. -/
inductive Status where
  | ok | busy | badKind | badLength | badField | notReady | supplyLow | supplyCritical | stageLocked | noData
  | damaged | abandoned | tooLate | nothingPending | queueFull | outranked | faulted | clockInvalid | noGameDays
  | genExhausted
  deriving DecidableEq, Repr

/-- The eight link counters (R170, R171, R56). -/
structure LinkCounters where
  badCheck  : Nat
  short     : Nat
  long      : Nat
  badEscape : Nat
  aborted   : Nat
  overrun   : Nat
  badKind   : Nat
  badLength : Nat
  deriving DecidableEq, Repr

def LinkCounters.zero : LinkCounters := ⟨0, 0, 0, 0, 0, 0, 0, 0⟩

/-- The ten notice kinds in the order of their codes, which is also the order of choice (R171, R173). -/
inductive NoticeKind where
  | supply | rumble | saveScan | gameDay | events | cue | stream | voiceEnd | clip | link
  deriving DecidableEq, Repr

/-- Content of SUPPLY (R11). -/
structure SupplyNotice where
  supply  : SupplyState
  battery : BatteryState
  vcart   : Nat
  vbat    : Nat
  deriving DecidableEq, Repr

/-- Reasons of RUMBLE (R99). -/
inductive RumbleReason where
  | drained | fault
  deriving DecidableEq, Repr

/-- Content of RUMBLE (R99). -/
structure RumbleNotice where
  reason : RumbleReason
  state  : DriverState
  cause  : FaultCause
  steps  : Nat
  deriving DecidableEq, Repr

/-- Content of SAVE_SCAN (R154). -/
structure ScanNotice where
  conditions : Tab 4 Condition
  liveBanks  : Tab 4 (Option Bank)
  backupLoss : Bool
  deriving DecidableEq, Repr

/-- Reasons of GAMEDAY (R129). -/
inductive GameDayReason where
  | started | crossing | catchUp | rewind | invalid
  deriving DecidableEq, Repr

/-- Content of GAMEDAY (R129). -/
structure GameDayNotice where
  reason    : GameDayReason
  valid     : Bool
  counter   : Nat
  highWater : Int
  index     : Int
  credited  : Nat
  forfeited : Nat
  rewind    : Bool
  deriving DecidableEq, Repr

/-- Outcomes of CUE (R148). -/
inductive CueOutcome where
  | acted (sound : SoundOutcome) (rumble : RumbleOutcome)
  | noCue | dropped | cancelled
  deriving DecidableEq, Repr

/-- Content of CUE (R142, R144, R148). The cue and entry numbers, which R148 names for ACTED, stand with NO_CUE, DROPPED and
CANCELLED too, and only ACTED has part outcomes: DESIGN CHOICE (log entry 32). -/
structure CueNotice where
  outcome : CueOutcome
  cue     : Nat
  entry   : Nat
  deriving DecidableEq, Repr

/-- The notice pending set (R174). The set kinds hold their members; an empty set is not pending. -/
structure NoticeSet where
  supply   : Option SupplyNotice
  rumble   : Option RumbleNotice
  saveScan : Option ScanNotice
  gameDay  : Option GameDayNotice
  events   : List (Fin 16)
  cue      : Option CueNotice
  stream   : List (Fin 8)
  voiceEnd : List (Fin 8)
  clip     : Option Nat
  link     : Option LinkCounters
  deriving DecidableEq, Repr

def NoticeSet.empty : NoticeSet := ⟨none, none, none, none, [], none, [], [], none, none⟩

/-- What the EVENTS notice carries for one entry (R136). -/
structure EventReport where
  entry   : Fin 16
  kind    : TriggerKind
  late    : Bool
  cue     : Option Nat
  firedAt : Instant
  deriving DecidableEq, Repr

/-- The content of a notice frame, fixed when the frame starts (R173). -/
inductive NoticeContent where
  | supply (n : SupplyNotice)
  | rumble (n : RumbleNotice)
  | saveScan (n : ScanNotice)
  | gameDay (n : GameDayNotice)
  | events (entries : List EventReport)
  | cue (n : CueNotice)
  | stream (voices : List (Fin 8))
  | voiceEnd (voices : List (Fin 8))
  | clip (count : Nat)
  | link (counters : LinkCounters)
  deriving DecidableEq, Repr

/-- Readiness (R175). -/
inductive Readiness where
  | notReady | ready
  deriving DecidableEq, Repr

/-- A date and time of day with weekday, instant and flags (R116). -/
structure CalendarReport where
  date    : DateTime
  weekday : Nat
  now     : Instant
  valid   : Bool
  ended   : Bool
  deriving DecidableEq, Repr

/-- The result of Slot Verify (R164). -/
inductive VerifyResult where
  | matched | fellBack | damaged
  deriving DecidableEq, Repr

/-- The body of a reply after its status code: the fields its owner's chapter names, held by name, since the
layouts of reply bodies are not given (log entry 4). A reply with any status but OK carries `none`. -/
inductive ReplyBody where
  | none
  /-- Part Status (R176) -/
  | partStatus (readiness : Readiness) (supply : SupplyState) (battery : BatteryState) (grant : GrantRecord)
      (save : SaveState) (driver : DriverState) (calendarValid recordValid : Bool) (notices : List NoticeKind) (mask : Word16)
  /-- Notice Mask (R176): the mask taken -/
  | noticeMask (mask : Word16)
  /-- Link Status (R176) -/
  | linkStatus (counters : LinkCounters) (requests replies : Nat) (nextSeq : Byte)
  /-- Supply Read (R14): every value, state and threshold of the monitor, and the calibrating flag -/
  | supplyRead (vcart vbat imot bemfRaw bemfCorrected zeroOffset : Nat) (supply : SupplyState) (supplyRecovery : Nat)
      (battery : BatteryState) (batteryRecovery low critical hysteresis battThreshold skipped : Nat) (calibrating : Bool)
  /-- Supply Set (R13): the four values taken -/
  | supplySet (low critical hysteresis battThreshold : Nat)
  /-- Calibrate Motor Sense (R7): the new zero offset -/
  | zeroOffset (offset : Nat)
  /-- Budget Set (R28) -/
  | budgetSet (budget imax : Nat) (grant : GrantRecord)
  /-- Budget Read (R29) -/
  | budgetRead (grant : GrantRecord) (budget imax volume : Nat) (busy : Bool)
  /-- Voice Set (R50): the voice and each field as written, the pending record's form holding them -/
  | voiceSet (voice : Nat) (written : PendingVoice)
  /-- Key On, Key Off, Stream Close: the voice (R51, R70) -/
  | voice (voice : Nat)
  /-- Voice Read (R52) -/
  | voiceRead (voice : VoiceRecord) (pending : PendingVoice)
  /-- Wave Write and Stage Write (R48, R156): address or offset, and count -/
  | written (address count : Nat)
  /-- Wave Read (R49) -/
  | waveRead (address : Nat) (bytes : List Byte)
  /-- Stream Open (R69) -/
  | streamOpen (voice start depth limit : Nat)
  /-- Stream Status (R72) -/
  | streamStatus (state : StreamState) (x : Byte) (depth limit missingRun : Nat) (held : List Byte)
      (counters : StreamCounters) (freeSlots stray : Nat)
  /-- Mix Set (R86): each setting as written -/
  | mixSet (written : PendingMix)
  /-- Mix Status (R87) -/
  | mixStatus (inForce : MixSettings) (pending : PendingMix) (latchedMceil effective : Nat) (override : Override)
      (tonePositive : Bool) (toneCount clipCount : Nat) (clipLast clipNow : Bool) (code : Nat)
  /-- Rumble Play (R93): the mode as applied, the steps now in the queue, the queue priority -/
  | rumblePlay (mode : PlayMode) (steps : Nat) (priority : Option Nat)
  /-- Rumble Stop (R96): the steps removed -/
  | rumbleStop (removed : Nat)
  /-- Rumble Set (R90): the settings as written, the trip current in IMOT counts -/
  | rumbleSet (carrier : Option Nat) (kick : Option Bool) (stall trip : Option Nat) (drainNotice : Option Bool)
  /-- Rumble Status (R108) -/
  | rumbleStatus (state : DriverState) (calibrating supplyHold : Bool) (priority : Option Nat) (queue : List EffectStep)
      (latchedCeiling : Nat) (latchedReserve : Bool) (requested applied historyOlder historyNewer bemfRun : Nat)
      (cause : FaultCause) (settings : RumbleSettings) (pendingCarrier : Option Nat)
  /-- Calendar Get (R116) -/
  | calendar (report : CalendarReport)
  /-- Calendar Set (R118): the new date and time of day, the weekday, and the instant -/
  | calendarSet (date : DateTime) (weekday : Nat) (now : Instant)
  /-- Game Day Start and Game Day Clear Rewind carry the record (R125, R130); the check is not reported (R131; log
  entry 34) -/
  | gameDay (valid : Bool) (counter start : Nat) (highWater startMark : Int) (rollover cap forfeited : Nat) (rewind : Bool)
      (index : Option Int) (calendarValid : Option Bool)
  /-- Event Set (R137): the entry as it stands after the judgement -/
  | eventEntry (entry : EventEntry)
  /-- Event List (R138) -/
  | eventList (entries : Tab 16 EventEntry)
  /-- Cue Define (R141): the entry as stored, with its cue number (DESIGN CHOICE, log entry 35) -/
  | cueDefine (cue : Nat) (definition : CueDefinition)
  /-- Cue Start (R148): the report of the start -/
  | cueReport (cue : Nat) (sound : SoundOutcome) (rumble : RumbleOutcome)
  /-- Cue Cancel (R144): the source of the start removed -/
  | cueCancel (source : StartSource)
  /-- Cue Status (R148) -/
  | cueStatus (table : Tab 8 (Option CueDefinition)) (starts : List PendingStart) (periodCount marksToMeasure : Nat)
      (countdowns : Tab 8 (Option Countdown))
  /-- Stage Read (R156) -/
  | stageRead (bytes : List Byte)
  /-- Stage Load (R157) -/
  | stageLoad (length generation : Nat)
  /-- Commit (R161) -/
  | commit (slot : Nat) (bank : Bank) (generation : Nat)
  /-- Slot Read (R163) -/
  | slotRead (slot offset : Nat) (bytes : List Byte) (generation : Nat)
  /-- Slot Info (R163): the entry, with its slot number (DESIGN CHOICE, log entry 35), and the header check of its live header
  (a free value, log entry 9) -/
  | slotInfo (slot : Nat) (entry : SlotEntry) (headerCheck : Option Word16)
  /-- Slot Verify (R164) -/
  | slotVerify (result : VerifyResult) (condition : Condition) (generation : Option Nat)
  deriving DecidableEq, Repr

/-- A reply: its kind (request + 0x80), its tag, its status code and the fields after it (R172). -/
structure Reply where
  kind   : Byte
  tag    : Byte
  status : Status
  body   : ReplyBody
  deriving DecidableEq, Repr

/-- Where a request in the inbound request queue stands (R172): waiting to be handed on; handed to its owner, which its
row has not taken up yet (log entry 3); or taken up with its reply deferred. -/
inductive Stage where
  | waiting | handed | deferred
  deriving DecidableEq, Repr

/-- A request in the inbound request queue (R172). -/
structure InboundRequest where
  kind  : Byte
  tag   : Byte
  body  : List Byte
  stage : Stage
  deriving DecidableEq, Repr

/-- A notice frame in transmission (R173, R174). `acting`: the set members its completion still removes;
`live`: its kind has not been disabled since; `rewritten`: its content was made pending again since. -/
structure NoticeFrame where
  seq       : Byte
  content   : NoticeContent
  acting    : List Nat
  live      : Bool
  rewritten : Bool
  deriving DecidableEq, Repr

/-- What a frame in transmission carries (R173). -/
inductive TxContent where
  | reply (r : Reply)
  | notice (n : NoticeFrame)
  deriving DecidableEq, Repr

/-- The frame in transmission: being clocked out, or cut short and waiting to be sent again (R173). -/
structure TxFrame where
  content : TxContent
  sending : Bool
  deriving DecidableEq, Repr

/-- The receive deframer (R170); in a frame with the unstuffed bytes received so far, and whether the last byte was an
escape. -/
inductive Deframer where
  | hunt
  | between
  | inFrame (bytes : List Byte) (escaped : Bool)
  deriving DecidableEq, Repr

/-- The cartridge link (R167 to R177). -/
structure Link where
  lselLow         : Bool
  /-- the bits of the byte under way that have been exchanged, 0..7 (R167) -/
  bitCount        : Nat
  /-- the bits of that byte received so far, the last one lowest (R167) -/
  shiftIn         : Byte
  /-- the level of LDO while it is driven (R167) -/
  ldo             : Bool
  /-- the bytes still to be sent, the one under way first; with none the idle fill is sent (R168) -/
  out             : List Byte
  deframer        : Deframer
  inbound         : List InboundRequest
  replies         : List Reply
  /-- deferred replies whose operations have ended and that wait in their owners for a place (R172) -/
  waiting         : List Reply
  notices         : NoticeSet
  mask            : Word16
  counters        : LinkCounters
  noticeSeq       : Byte
  scanDone        : Bool
  calibrationDone : Bool
  catchUpDone     : Bool
  tx              : Option TxFrame
  /-- whether a delimiter has been sent in the current selection (R173) -/
  delimiterSent   : Bool
  deriving DecidableEq, Repr

/-- R177's power-up column; the pin LSEL is high and no byte is under way (log entry 12). -/
def Link.reset : Link :=
  { lselLow := false, bitCount := 0, shiftIn := 0, ldo := true, out := [], deframer := .hunt
    inbound := [], replies := [], waiting := []
    notices := .empty, mask := 0x00FF, counters := .zero, noticeSeq := 0
    scanDone := false, calibrationDone := false, catchUpDone := false, tx := none, delimiterSent := false }

/-! ## The machine -/

/-- The whole part. -/
structure State where
  /-- whether the cartridge supply is present, so that the core domain runs (section 0.3) -/
  corePowered : Bool
  supply      : SupplyMonitor
  governor    : Governor
  voice       : VoiceEngine
  stream      : StreamBuffers
  mixer       : Mixer
  rumble      : Rumble
  cue         : CueUnit
  save        : SaveController
  link        : Link
  backup      : Backup
  /-- the MODEL's counter of free values drawn so far (log entry 7) -/
  freeCount   : Nat
  /-- the commands that wait, first in, first out -/
  pending     : List Instr
  deriving DecidableEq, Repr

/-- Why the machine stops with a fault: never, since the spec gives the C48 no machine fault. -/
inductive Fault where
  deriving DecidableEq

/-- Why a command has no meaning. -/
inductive Refusal where
  /-- raised by an arm of `exec` whose command has no meaning yet (none is left); safe -/
  | notModelled (mnemonic : String)
  deriving DecidableEq, Repr

/-- The machine right after its first power-up: the core domain at its power-up values, the backup loss that
the marker check finds in a store without a marker handled (log entry 1), no command waiting. -/
def State.reset : State :=
  { corePowered := true, supply := .reset, governor := .reset, voice := .reset, stream := .reset, mixer := .reset
    rumble := .reset, cue := .reset, save := .atStart true, link := .reset, backup := .afterLoss
    freeCount := 0, pending := [] }

end Sys2Proof.Machine
end

