-- ==== Sys2Proof/Config.lean ====
section
/-! DEFINITION. The free values of the model: constants without a body, so that no proof can rest on what they are. -/

namespace Sys2Proof.Config

/-- Draw number `n` of how much further a copy has come when something stops it or reads it: the spec gives
only an upper bound in time (R155, R157, R160; log entry 7). -/
opaque copyProgress : Nat → Nat

/-- The header check of a bank header with these fields (generation, length, payload check, counter, day, rewind
mark, weak-cell mark): a CRC-16 over a layout the spec does not give (R151; log entry 9). -/
opaque headerCheck : Nat → Nat → Word16 → Option Nat → Option Nat → Bool → Bool → Word16

/-- The step count that a Cue Define body carries: its place in the body is not given (R171; log entry 16). -/
opaque cueStepCount : List Byte → Nat

/-- The bytes of a reply's fields after its status code: their layouts are not given (section 0.7; log entry 4). -/
opaque replyFields : Machine.ReplyBody → List Byte

/-- The bytes of a notice's content: their layouts are not given (section 0.7; log entry 4). -/
opaque noticeFields : Machine.NoticeContent → List Byte

end Sys2Proof.Config
end

