-- ==== Sys2Proof/Machine/Ops.lean ====
section
/-! DEFINITION. The named operations the blocks share: saturating counts, memory, the CRC-16, the blocks' setters,
and what a command does while the core domain has no power. -/

namespace Sys2Proof.Machine

/-- What a command answers. -/
abbrev Result := Host.Outcome State Fault Refusal

/-! ## One setter for each block -/

def State.withSupply (s : State) (b : SupplyMonitor) : State := { s with supply := b }
def State.withGovernor (s : State) (b : Governor) : State := { s with governor := b }
def State.withVoice (s : State) (b : VoiceEngine) : State := { s with voice := b }
def State.withStream (s : State) (b : StreamBuffers) : State := { s with stream := b }
def State.withMixer (s : State) (b : Mixer) : State := { s with mixer := b }
def State.withRumble (s : State) (b : Rumble) : State := { s with rumble := b }
def State.withCue (s : State) (b : CueUnit) : State := { s with cue := b }
def State.withSave (s : State) (b : SaveController) : State := { s with save := b }
def State.withLink (s : State) (b : Link) : State := { s with link := b }
def State.withBackup (s : State) (b : Backup) : State := { s with backup := b }
/-- One free value has been drawn (log entry 7). -/
def State.countFree (s : State) : State := { s with freeCount := s.freeCount + 1 }

/-- A command of the core domain: it acts while the cartridge supply is present and is not admitted otherwise
(section 0.3; log entry 2). -/
def onCore (s : State) (effect : State → State) : Result := .next (if s.corePowered then effect s else s)

/-! ## Numbers -/

/-- A 16-bit saturating count goes up by 1 (section 0.7). -/
def sat16 (n : Nat) : Nat := min (n + 1) 65535

/-- The number of a thing in a bank of `n`, when it is one. -/
def number? (n k : Nat) : Option (Fin n) := if h : k < n then some ⟨k, h⟩ else none

/-- A signed byte, −128..127 (R40, R54). -/
def signed (b : Byte) : Int := b.toInt

/-- A number joins a set kept in rising order; a member already there stays once (R47, R66, R136). -/
def insertMember {n : Nat} (v : Fin n) : List (Fin n) → List (Fin n)
  | [] => [v]
  | w :: ws => if v < w then v :: w :: ws else if v = w then w :: ws else w :: insertMember v ws

/-! ## Memory -/

/-- The byte at an address. -/
def Memory.read : Memory → Nat → Byte
  | [], _ => 0
  | (k, v) :: m, a => if k = a then v else Memory.read m a

/-- One byte written; the canonical form is kept, so writing 0 removes the entry. -/
def Memory.write : Memory → Nat → Byte → Memory
  | [], a, b => if b = 0 then [] else [(a, b)]
  | (k, v) :: m, a, b =>
    if a < k then (if b = 0 then (k, v) :: m else (a, b) :: (k, v) :: m)
    else if a = k then (if b = 0 then m else (a, b) :: m)
    else (k, v) :: Memory.write m a b

/-- Bytes written at `a`, `a + 1`, and so on (R48, R156). -/
def Memory.writeBytes : Memory → Nat → List Byte → Memory
  | m, _, [] => m
  | m, a, b :: bs => Memory.writeBytes (Memory.write m a b) (a + 1) bs

/-- `n` bytes from `a` on. -/
def Memory.readBytes (m : Memory) : Nat → Nat → List Byte
  | _, 0 => []
  | a, n + 1 => Memory.read m a :: Memory.readBytes m (a + 1) n

/-- Addresses at or above `lo` and strictly rising, no entry 0. -/
def Memory.wfFrom : Nat → Memory → Bool
  | _, [] => true
  | lo, (k, v) :: m => decide (lo ≤ k) && decide (v ≠ 0) && Memory.wfFrom (k + 1) m

/-- The canonical form of a memory. -/
def Memory.wf (m : Memory) : Bool := Memory.wfFrom 0 m

/-! ## The CRC-16 of the link and the save store (R169) -/

/-- One bit of the register's shift: polynomial x^16 + x^12 + x^5 + 1. -/
def crcBit (c : Word16) : Word16 := if c.msb then (c <<< 1) ^^^ 0x1021 else c <<< 1

/-- One byte, most significant bit first. -/
def crcByte (c : Word16) (b : Byte) : Word16 :=
  crcBit (crcBit (crcBit (crcBit (crcBit (crcBit (crcBit (crcBit (c ^^^ (b.setWidth 16 <<< 8)))))))))

/-- The check over some bytes, from the initial value 0xFFFF, with no final inversion. -/
def crc16 (bs : List Byte) : Word16 := bs.foldl crcByte 0xFFFF

/-! ## Banks of a slot -/

def BankPair.get {α : Type} (p : BankPair α) : Bank → α
  | .a => p.a
  | .b => p.b

def BankPair.set {α : Type} (p : BankPair α) : Bank → α → BankPair α
  | .a, x => { p with a := x }
  | .b, x => { p with b := x }

/-- The other bank of the slot. -/
def Bank.other : Bank → Bank
  | .a => .b
  | .b => .a

/-! ## Pending records of the voices (R35) -/

/-- A write into voice `v`'s pending record. -/
def State.writePending (s : State) (v : Fin 8) (write : PendingVoice → PendingVoice) : State :=
  s.withVoice { s.voice with pendings := s.voice.pendings.modify v write }

end Sys2Proof.Machine
end

