-- ==== Sys2Proof/Machine/Bodies.lean ====
section
/-! DEFINITION. The request table of R171: the kinds, the request that each row stands for, and how a body spells a row's
fields. -/

namespace Sys2Proof.Machine

/-! ## Kinds -/

namespace Kind
def partStatus : Byte := 0x01
def noticeMask : Byte := 0x02
def linkStatus : Byte := 0x03
def restart : Byte := 0x04
def supplyRead : Byte := 0x08
def supplySet : Byte := 0x09
def calibrateMotorSense : Byte := 0x0A
def budgetSet : Byte := 0x0C
def budgetRead : Byte := 0x0D
def voiceSet : Byte := 0x10
def keyOn : Byte := 0x11
def keyOff : Byte := 0x12
def voiceRead : Byte := 0x13
def waveWrite : Byte := 0x14
def waveRead : Byte := 0x15
def streamOpen : Byte := 0x18
def streamClose : Byte := 0x19
def streamStatus : Byte := 0x1A
def mixSet : Byte := 0x1C
def mixStatus : Byte := 0x1D
def rumblePlay : Byte := 0x20
def rumbleStop : Byte := 0x21
def rumbleSet : Byte := 0x22
def rumbleClear : Byte := 0x23
def rumbleStatus : Byte := 0x24
def calendarGet : Byte := 0x26
def calendarSet : Byte := 0x27
def gameDayStart : Byte := 0x28
def gameDayGet : Byte := 0x29
def gameDayClearRewind : Byte := 0x2A
def eventSet : Byte := 0x2B
def eventClear : Byte := 0x2C
def eventList : Byte := 0x2D
def cueDefine : Byte := 0x30
def cueStart : Byte := 0x31
def cueCancel : Byte := 0x32
def cueStatus : Byte := 0x33
def stageWrite : Byte := 0x34
def stageRead : Byte := 0x35
def stageLoad : Byte := 0x36
def commit : Byte := 0x37
def commitAbort : Byte := 0x38
def slotRead : Byte := 0x39
def slotInfo : Byte := 0x3A
def slotVerify : Byte := 0x3B
def slotErase : Byte := 0x3C
end Kind

/-- The kind and the tag of a request's row; none for a row that is no request. -/
def requestOf : Instr → Option (Byte × Byte)
  | .partStatus tag => some (Kind.partStatus, tag)
  | .noticeMask tag _ => some (Kind.noticeMask, tag)
  | .linkStatus tag _ => some (Kind.linkStatus, tag)
  | .restart tag => some (Kind.restart, tag)
  | .supplyRead tag _ => some (Kind.supplyRead, tag)
  | .supplySet tag _ _ _ _ => some (Kind.supplySet, tag)
  | .calibrateMotorSense tag => some (Kind.calibrateMotorSense, tag)
  | .budgetSet tag _ _ => some (Kind.budgetSet, tag)
  | .budgetRead tag => some (Kind.budgetRead, tag)
  | .voiceSet tag _ _ => some (Kind.voiceSet, tag)
  | .keyOn tag _ => some (Kind.keyOn, tag)
  | .keyOff tag _ => some (Kind.keyOff, tag)
  | .voiceRead tag _ => some (Kind.voiceRead, tag)
  | .waveWrite tag _ _ => some (Kind.waveWrite, tag)
  | .waveRead tag _ _ => some (Kind.waveRead, tag)
  | .streamOpen tag _ _ _ _ => some (Kind.streamOpen, tag)
  | .streamClose tag _ => some (Kind.streamClose, tag)
  | .streamStatus tag _ _ => some (Kind.streamStatus, tag)
  | .mixSet tag _ => some (Kind.mixSet, tag)
  | .mixStatus tag _ => some (Kind.mixStatus, tag)
  | .rumblePlay tag _ _ _ => some (Kind.rumblePlay, tag)
  | .rumbleStop tag => some (Kind.rumbleStop, tag)
  | .rumbleSet tag _ => some (Kind.rumbleSet, tag)
  | .rumbleClear tag => some (Kind.rumbleClear, tag)
  | .rumbleStatus tag => some (Kind.rumbleStatus, tag)
  | .calendarGet tag => some (Kind.calendarGet, tag)
  | .calendarSet tag _ => some (Kind.calendarSet, tag)
  | .gameDayStart tag _ _ _ => some (Kind.gameDayStart, tag)
  | .gameDayGet tag => some (Kind.gameDayGet, tag)
  | .gameDayClearRewind tag => some (Kind.gameDayClearRewind, tag)
  | .eventSet tag _ _ _ _ => some (Kind.eventSet, tag)
  | .eventClear tag _ => some (Kind.eventClear, tag)
  | .eventList tag => some (Kind.eventList, tag)
  | .cueDefine tag _ => some (Kind.cueDefine, tag)
  | .cueStart tag _ _ => some (Kind.cueStart, tag)
  | .cueCancel tag _ => some (Kind.cueCancel, tag)
  | .cueStatus tag => some (Kind.cueStatus, tag)
  | .stageWrite tag _ _ => some (Kind.stageWrite, tag)
  | .stageRead tag _ _ => some (Kind.stageRead, tag)
  | .stageLoad tag _ => some (Kind.stageLoad, tag)
  | .commit tag _ _ => some (Kind.commit, tag)
  | .commitAbort tag => some (Kind.commitAbort, tag)
  | .slotRead tag _ _ _ => some (Kind.slotRead, tag)
  | .slotInfo tag _ => some (Kind.slotInfo, tag)
  | .slotVerify tag _ => some (Kind.slotVerify, tag)
  | .slotErase tag _ => some (Kind.slotErase, tag)
  | _ => none

/-! ## Numbers in a body -/

/-- A number sent high byte first (R171). -/
def numberOf (bytes : List Byte) : Nat := bytes.foldl (fun n b => n * 256 + b.toNat) 0

/-! ## The layouts R171 gives -/

/-- Commit: slot, and length in two bytes. -/
def decodeCommit : List Byte → Option (Nat × Nat)
  | [slot, hi, lo] => some (slot.toNat, numberOf [hi, lo])
  | _ => none

/-- The mode byte of Rumble Play. -/
def decodePlayMode (b : Byte) : Coded PlayMode :=
  match b.toNat with
  | 0 => .is .append
  | 1 => .is .replace
  | _ => .other

/-- The shape byte of a step. -/
def decodeShape (b : Byte) : Coded Shape :=
  match b.toNat with
  | 0 => .is .hold
  | 1 => .is .ramp
  | _ => .other

/-- `n` steps of three bytes each: level, length, shape; none when the body has more or fewer bytes. -/
def decodeSteps : Nat → List Byte → Option (List StepFields)
  | 0, [] => some []
  | n + 1, level :: length :: shape :: rest =>
    (decodeSteps n rest).map fun steps => ⟨level.toNat, length.toNat, decodeShape shape⟩ :: steps
  | _, _ => none

/-- Rumble Play: mode, priority, step count, steps. -/
def decodeRumblePlay : List Byte → Option (Coded PlayMode × Nat × List StepFields)
  | mode :: priority :: n :: rest =>
    (decodeSteps n.toNat rest).map fun steps => (decodePlayMode mode, priority.toNat, steps)
  | _ => none

/-! ## Naming fields (R171) -/

/-- The sizes of Voice Set's fields, from bit 0 on. -/
def voiceSizes : List Nat := [1, 1, 1, 2, 2, 2, 1, 2, 1, 1, 1]
/-- The sizes of Mix Set's settings. -/
def mixSizes : List Nat := [1, 1, 1, 2, 1]
/-- The sizes of Rumble Set's settings. -/
def rumbleSizes : List Nat := [1, 1, 2, 2, 1]

/-- The bytes that the named fields take: the sizes of the set bits that have a row, from bit 0 on. -/
def namedBytes (names : Nat) (sizes : List Nat) : Nat :=
  (sizes.zipIdx.map fun p => if names.testBit p.2 then p.1 else 0).sum

/-- The number of each field from bit `bit` on, none for a field that is not named: the named fields follow each other in
order of increasing bit number, each at its size. -/
def namedFrom (names : Nat) : Nat → List Nat → List Byte → List (Option Nat)
  | _, [], _ => []
  | bit, size :: sizes, body =>
    if names.testBit bit then some (numberOf (body.take size)) :: namedFrom names (bit + 1) sizes (body.drop size)
    else none :: namedFrom names (bit + 1) sizes body

/-- The fields that follow a naming field, when their bytes are all there and no others. -/
def decodeNamed (names : Nat) (sizes : List Nat) (body : List Byte) : Option (List (Option Nat)) :=
  if body.length = namedBytes names sizes then some (namedFrom names 0 sizes body) else none

/-- Whether a naming field sets a bit with no row. -/
def unassigned (names : Nat) (sizes : List Nat) : Bool := decide (2 ^ sizes.length ≤ names)

/-- An enumerated field is there exactly when its number is; which value the number names is not given (log entry 25). -/
def sameName {α : Type} (field : Option (Coded α)) (number : Option Nat) : Bool := field.isSome == number.isSome

/-- Voice Set: voice, two bytes of naming field, the named fields. -/
def spellsVoiceSet (voice : Nat) (f : VoiceSetFields) : List Byte → Bool
  | v :: hi :: lo :: rest =>
    let names := numberOf [hi, lo]
    match decodeNamed names voiceSizes rest with
    | some [mode, volume, substitution, start, length, loop, loopMode, pitch, attack, sustain, release] =>
      v.toNat == voice && f.unassignedBit == unassigned names voiceSizes &&
      sameName f.mode mode && f.volume == volume && sameName f.substitution substitution && f.waveStart == start &&
      f.waveLength == length && f.loopStart == loop && sameName f.loopMode loopMode && f.pitchStep == pitch &&
      f.attackRate == attack && f.sustainLevel == sustain && f.releaseRate == release
    | _ => false
  | _ => false

/-- Mix Set: one byte of naming field, the named settings. -/
def spellsMixSet (f : MixSetFields) : List Byte → Bool
  | names :: rest =>
    match decodeNamed names.toNat mixSizes rest with
    | some [master, global, tone, amplitude, halfPeriod] =>
      f.unassignedBit == unassigned names.toNat mixSizes && f.master == master && sameName f.global global &&
      sameName f.tone tone && f.amplitude == amplitude && f.halfPeriod == halfPeriod
    | _ => false
  | [] => false

/-- Rumble Set: one byte of naming field, the named settings. The carrier byte holds the carrier's number of kHz: DESIGN CHOICE (log
entry 25). -/
def spellsRumbleSet (f : RumbleSetFields) : List Byte → Bool
  | names :: rest =>
    match decodeNamed names.toNat rumbleSizes rest with
    | some [carrier, kick, stall, trip, drainNotice] =>
      f.unassignedBit == unassigned names.toNat rumbleSizes && f.carrier == carrier && sameName f.kick kick &&
      f.stall == stall && f.trip == trip && sameName f.drainNotice drainNotice
    | _ => false
  | [] => false

/-! ## What a body spells -/

/-- A body of one byte that holds one number. -/
def spellsByte (n : Nat) (body : List Byte) : Bool := body.map BitVec.toNat == [n]

/-- A two-byte address or offset before data bytes. -/
def spellsData (address : Nat) (bytes : List Byte) : List Byte → Bool
  | hi :: lo :: rest => numberOf [hi, lo] == address && rest == bytes
  | _ => false

/-- Cue Define: 20 bytes and three for each step; how many steps the body of an absent rumble part counts is not given (log
entries 16 and 29). -/
def spellsCueDefine (fields : CueFields) (body : List Byte) : Bool :=
  match fields.rumble with
  | some p => body.length == 20 + 3 * p.steps.length
  | none => decide (20 ≤ body.length) && (body.length - 20) % 3 == 0

/-- Whether a request's body spells a row's fields. Where R171 gives the layout, or the body can hold nothing else, by the
values; where the layout is not given, by the body's length, the values standing in the row alone (log entry 3). A clear flag is set
or clear in the row, whatever byte the body has for it: DESIGN CHOICE (log entry 36). -/
def spells : Instr → List Byte → Bool
  | .noticeMask _ mask, body => body.length == 2 && numberOf body == mask.toNat
  | .linkStatus _ _, body => body.length == 1
  | .supplyRead _ _, body => body.length == 1
  | .supplySet _ _ _ _ _, body => body.length == 8
  | .budgetSet _ _ _, body => body.length == 4
  | .voiceSet _ voice fields, body => spellsVoiceSet voice fields body
  | .keyOn _ voice, body => spellsByte voice body
  | .keyOff _ voice, body => spellsByte voice body
  | .voiceRead _ voice, body => spellsByte voice body
  | .waveWrite _ address bytes, body => spellsData address bytes body
  | .waveRead _ _ _, body => body.length == 3
  | .streamOpen _ _ _ _ _, body => body.length == 4
  | .streamClose _ voice, body => spellsByte voice body
  | .streamStatus _ _ _, body => body.length == 2
  | .mixSet _ fields, body => spellsMixSet fields body
  | .mixStatus _ _, body => body.length == 1
  | .rumblePlay _ mode priority steps, body => decodeRumblePlay body == some (mode, priority, steps)
  | .rumbleSet _ fields, body => spellsRumbleSet fields body
  | .calendarSet _ _, body => body.length == 7
  | .gameDayStart _ _ _ _, body => body.length == 8
  | .eventSet _ _ _ _ _, body => body.length == 11
  | .eventClear _ entry, body => spellsByte entry body
  | .cueDefine _ fields, body => spellsCueDefine fields body
  | .cueStart _ _ _, body => body.length == 2
  | .cueCancel _ cue, body => spellsByte cue body
  | .stageWrite _ offset bytes, body => spellsData offset bytes body
  | .stageRead _ _ _, body => body.length == 3
  | .stageLoad _ slot, body => spellsByte slot body
  | .commit _ slot length, body => decodeCommit body == some (slot, length)
  | .slotRead _ _ _ _, body => body.length == 4
  | .slotInfo _ slot, body => spellsByte slot body
  | .slotVerify _ slot, body => spellsByte slot body
  | .slotErase _ slot, body => spellsByte slot body
  | _, body => body.isEmpty

end Sys2Proof.Machine
end

