-- ==== Sys2Proof/Machine/Flags.lean ====
section
/-! DEFINITION. The part's flags towards the console: the notice mask and the notice pending set (R173, R174), the
link counters (R170), and readiness (R175). -/

namespace Sys2Proof.Machine

/-! ## Notice kinds -/

/-- The kinds in the order of R173. -/
def NoticeKind.all : List NoticeKind :=
  [.supply, .rumble, .saveScan, .gameDay, .events, .cue, .stream, .voiceEnd, .clip, .link]

/-- Bit n of the mask enables kind 0x40 + n (R176). -/
def NoticeKind.bit : NoticeKind → Nat
  | .supply => 0 | .rumble => 1 | .saveScan => 2 | .gameDay => 3 | .events => 4
  | .cue => 5 | .stream => 6 | .voiceEnd => 7 | .clip => 8 | .link => 9

/-- The kind byte of a notice frame (R171). -/
def NoticeKind.code (k : NoticeKind) : Byte := 0x40 + BitVec.ofNat 8 k.bit

def NoticeContent.kind : NoticeContent → NoticeKind
  | .supply _ => .supply
  | .rumble _ => .rumble
  | .saveScan _ => .saveScan
  | .gameDay _ => .gameDay
  | .events _ => .events
  | .cue _ => .cue
  | .stream _ => .stream
  | .voiceEnd _ => .voiceEnd
  | .clip _ => .clip
  | .link _ => .link

/-- Whether the mask enables a kind. -/
def maskEnables (mask : Word16) (k : NoticeKind) : Bool := mask.getLsbD k.bit

/-- Whether a notice of the kind is pending. -/
def NoticeSet.has (n : NoticeSet) : NoticeKind → Bool
  | .supply => n.supply.isSome
  | .rumble => n.rumble.isSome
  | .saveScan => n.saveScan.isSome
  | .gameDay => n.gameDay.isSome
  | .events => !n.events.isEmpty
  | .cue => n.cue.isSome
  | .stream => !n.stream.isEmpty
  | .voiceEnd => !n.voiceEnd.isEmpty
  | .clip => n.clip.isSome
  | .link => n.link.isSome

/-- The set without a kind's notice. -/
def NoticeSet.remove (n : NoticeSet) : NoticeKind → NoticeSet
  | .supply => { n with supply := none }
  | .rumble => { n with rumble := none }
  | .saveScan => { n with saveScan := none }
  | .gameDay => { n with gameDay := none }
  | .events => { n with events := [] }
  | .cue => { n with cue := none }
  | .stream => { n with stream := [] }
  | .voiceEnd => { n with voiceEnd := [] }
  | .clip => { n with clip := none }
  | .link => { n with link := none }

/-- The kinds now pending, in the order of R173. -/
def NoticeSet.kinds (n : NoticeSet) : List NoticeKind := NoticeKind.all.filter n.has

/-! ## Making a kind pending (R174) -/

/-- A frame of kind `k` in transmission learns that its content has been made pending again. -/
def markRewritten (k : NoticeKind) : Option TxFrame → Option TxFrame
  | some ⟨.notice f, sending⟩ =>
    some ⟨.notice { f with rewritten := f.rewritten || decide (f.content.kind = k) }, sending⟩
  | t => t

/-- A block makes kind `k` pending by `put`; a disabled kind does not enter the set. -/
def Link.pend (l : Link) (k : NoticeKind) (put : NoticeSet → NoticeSet) : Link :=
  if maskEnables l.mask k then { l with notices := put l.notices, tx := markRewritten k l.tx } else l

def State.pend (s : State) (k : NoticeKind) (put : NoticeSet → NoticeSet) : State := s.withLink (s.link.pend k put)

def State.pendRumble (s : State) (c : RumbleNotice) : State := s.pend .rumble fun n => { n with rumble := some c }
def State.pendSaveScan (s : State) (c : ScanNotice) : State := s.pend .saveScan fun n => { n with saveScan := some c }
def State.pendGameDay (s : State) (c : GameDayNotice) : State := s.pend .gameDay fun n => { n with gameDay := some c }
def State.pendCue (s : State) (c : CueNotice) : State := s.pend .cue fun n => { n with cue := some c }
def State.pendClip (s : State) (count : Nat) : State := s.pend .clip fun n => { n with clip := some count }
/-- An entry joins EVENTS (R136). -/
def State.joinEvents (s : State) (e : Fin 16) : State := s.pend .events fun n => { n with events := insertMember e n.events }
/-- A voice joins STREAM (R66). -/
def State.joinStream (s : State) (v : Fin 8) : State := s.pend .stream fun n => { n with stream := insertMember v n.stream }
/-- A voice joins VOICE_END (R47). -/
def State.joinVoiceEnd (s : State) (v : Fin 8) : State := s.pend .voiceEnd fun n => { n with voiceEnd := insertMember v n.voiceEnd }

/-- The SUPPLY notice with the states and values as they stand (R11, R12). -/
def State.pendSupply (s : State) : State :=
  s.pend .supply fun n =>
    { n with supply := some ⟨s.supply.supply, s.supply.battery, s.supply.vcart, s.supply.vbat⟩ }

/-- A link counter rises, and LINK becomes pending with the eight values as they now stand (R170). -/
def Link.count (l : Link) (rise : LinkCounters → LinkCounters) : Link :=
  { l with counters := rise l.counters }.pend .link fun n => { n with link := some (rise l.counters) }

/-! ## Readiness (R175) -/

/-- READY is when all three completion flags are set; they stay set until the next reset. -/
def Link.readiness (l : Link) : Readiness :=
  if l.scanDone && l.calibrationDone && l.catchUpDone then .ready else .notReady

/-! ## ATN (R173) -/

/-- ATN is held low while a reply is queued or any notice is pending. -/
def Link.attention (l : Link) : Bool := !l.replies.isEmpty || !l.notices.kinds.isEmpty

end Sys2Proof.Machine
end

