-- ==== Sys2Proof/Machine/Replies.lean ====
section
/-! DEFINITION. How a request is taken by its owner and how its reply joins the reply queue (R171, R172). -/

namespace Sys2Proof.Machine

/-- The status codes of R172. -/
def Status.code : Status → Byte
  | .ok => 0x00 | .busy => 0x01 | .badKind => 0x02 | .badLength => 0x03 | .badField => 0x04 | .notReady => 0x05
  | .supplyLow => 0x06 | .supplyCritical => 0x07 | .stageLocked => 0x08 | .noData => 0x09 | .damaged => 0x0A
  | .abandoned => 0x0B | .tooLate => 0x0C | .nothingPending => 0x0D | .queueFull => 0x0E | .outranked => 0x0F
  | .faulted => 0x10 | .clockInvalid => 0x11 | .noGameDays => 0x12 | .genExhausted => 0x13

/-! ## The reply queue -/

/-- Whether a reply answers this entry of the inbound request queue, the entry standing where `stage` says. -/
def Reply.answers (r : Reply) (stage : Stage) (e : InboundRequest) : Bool :=
  decide (e.stage = stage) && e.kind + 0x80 == r.kind && e.tag == r.tag

/-- The reply joins the reply queue, and its request leaves the inbound request queue (R172). -/
def Link.join (l : Link) (stage : Stage) (r : Reply) : Link :=
  { l with replies := l.replies ++ [r], inbound := l.inbound.eraseP (r.answers stage) }

/-- A deferred reply whose operation ends joins the reply queue, or waits in its owner while that holds 4 replies (R172). -/
def Link.deliver (l : Link) (r : Reply) : Link :=
  if l.replies.length < 4 then l.join .deferred r else { l with waiting := l.waiting ++ [r] }

/-- An operation ends with its deferred reply, of this kind of request and tag. -/
def State.answer (s : State) (kind tag : Byte) (status : Status) (body : ReplyBody) : State :=
  s.withLink (s.link.deliver ⟨kind + 0x80, tag, status, body⟩)

/-! ## Handed requests -/

/-- Whether a row takes up this entry: it has been handed to its owner, has the row's kind and tag, and its body spells the
row's fields (R171, R172; log entry 3). -/
def InboundRequest.offers (e : InboundRequest) (c : Instr) : Bool :=
  decide (e.stage = .handed) && decide (requestOf c = some (e.kind, e.tag)) && spells c e.body

/-- Whether a request's row can act: its request has been handed on, and the reply queue has a place for its reply (R172). -/
def Link.admits (l : Link) (c : Instr) : Bool := decide (l.replies.length < 4) && l.inbound.any fun e => e.offers c

/-- The first handed entry of a kind and tag is marked as taken up, its reply deferred. -/
def markDeferred (kind tag : Byte) : List InboundRequest → List InboundRequest
  | [] => []
  | e :: es =>
    if e.stage = .handed ∧ e.kind = kind ∧ e.tag = tag then { e with stage := .deferred } :: es
    else e :: markDeferred kind tag es

/-! ## Taking a request -/

/-- What an owner gives for a request: the state after it, its reply unless it defers it, and the deferred
replies of operations that the request ended (R172). -/
structure Taken where
  state : State
  reply : Option (Status × ReplyBody)
  ended : List Reply

/-- The request is refused with a status code and changes nothing. -/
def refuse (s : State) (status : Status) : Taken := ⟨s, some (status, .none), []⟩
/-- The request is taken and answered OK. -/
def accept (s : State) (body : ReplyBody) : Taken := ⟨s, some (.ok, body), []⟩
/-- The reply is deferred until the operation ends. -/
def defer (s : State) : Taken := ⟨s, none, []⟩

/-- The owner's answer to a handed request joins the reply queue at once, in the place that let it be handed on (R172). -/
def State.reply (s : State) (kind tag : Byte) (status : Status) (body : ReplyBody) : State :=
  s.withLink (s.link.join .handed ⟨kind + 0x80, tag, status, body⟩)

/-- The request's own reply joins first, for the place that let it be handed on, or its entry is marked as deferred; the
deferred replies of operations it ended follow (R172; log entry 25). -/
def Taken.finish (t : Taken) (kind tag : Byte) : State :=
  let s := match t.reply with
    | some (status, body) => t.state.reply kind tag status body
    | none => t.state.withLink { t.state.link with inbound := markDeferred kind tag t.state.link.inbound }
  t.ended.foldl (fun s r => s.withLink (s.link.deliver r)) s

/-- A request's row: it acts on a request that has been handed on and not yet taken up, while the reply queue has a place;
with none such the state stays as it is (R172; log entries 2 and 3). -/
def onRequest (c : Instr) (effect : Byte → Byte → State → State) (s : State) : Result :=
  onCore s fun s => match requestOf c with
    | some (kind, tag) => if s.link.admits c then effect kind tag s else s
    | none => s

/-- The effect of a request of a kind that needs READY: before READY the link answers it NOT_READY, after it
the owner takes it (R171, R172; log entry 3). -/
def takeRequest (owner : State → Taken) (kind tag : Byte) (s : State) : State :=
  match s.link.readiness with
  | .notReady => s.reply kind tag .notReady .none
  | .ready => (owner s).finish kind tag

/-- The row of a request that needs READY. -/
def serve (c : Instr) (owner : State → Taken) (s : State) : Result := onRequest c (takeRequest owner) s

end Sys2Proof.Machine
end

