-- ==== Sys2Proof/Machine/Governor.lean ====
section
/-! DEFINITION. The load governor (chapter 2): the budget arithmetic, the events on which the grant record is formed
again, Budget Set and Budget Read. -/

namespace Sys2Proof.Machine

/-- The master-volume ceiling of a supply state (R24). -/
def masterCeiling : SupplyState → Nat
  | .normal => 255
  | .low => 160
  | .critical => 0

/-- The supply cap on the duty (R26). -/
def supplyCap : SupplyState → Nat
  | .normal => 255
  | .low => 96
  | .critical => 0

/-- The audio estimate for an effective master volume, in mA (R24). -/
def audioEstimate (me : Nat) : Nat := 6 + me * 42 / 255

/-- The save reserve, in mA (R25). -/
def saveReserve (busy : Bool) : Nat := if busy then 25 else 0

/-- The grant record of the inputs in force (R24 to R26); the headroom is held at 0 from below. -/
def Governor.form (g : Governor) : GrantRecord :=
  let mceil := masterCeiling g.supply
  let audio := audioEstimate (min g.volume mceil)
  let headroom := g.budget - (30 + audio + saveReserve g.busy)
  { supply := g.supply, mceil := mceil, dceil := min (min 255 (headroom * 255 / g.imax)) (supplyCap g.supply)
    reserve := g.busy, audio := audio, headroom := headroom }

/-- One input has been updated: the record is formed again, whole (R20). -/
def Governor.formed (g : Governor) : Governor := { g with record := g.form }

/-- The supply-state change event (R21). -/
def Governor.takeSupply (g : Governor) (supply : SupplyState) : Governor := { g with supply := supply }.formed
/-- The master-volume report (R22). -/
def Governor.takeVolume (g : Governor) (volume : Nat) : Governor := { g with volume := volume }.formed
/-- The busy and idle reports (R23). -/
def Governor.takeBusy (g : Governor) (busy : Bool) : Governor := { g with busy := busy }.formed
/-- A Budget Set taken, after its clamps (R28). -/
def Governor.takeBudget (g : Governor) (budget imax : Nat) : Governor := { g with budget := budget, imax := imax }.formed

def State.reportSupply (s : State) (supply : SupplyState) : State := s.withGovernor (s.governor.takeSupply supply)
def State.reportVolume (s : State) (volume : Nat) : State := s.withGovernor (s.governor.takeVolume volume)
def State.reportBusy (s : State) (busy : Bool) : State := s.withGovernor (s.governor.takeBusy busy)

/-- A budget below 60 is taken as 60, above 400 as 400 (R28). -/
def clampBudget (b : Nat) : Nat := min (max b 60) 400
/-- An Imax below 20 is taken as 20, above 400 as 400 (R28). -/
def clampImax (i : Nat) : Nat := min (max i 20) 400

/-- Budget Set as the governor takes it (R28). -/
def takeBudgetSet (budget imax : Nat) (s : State) : Taken :=
  let s' := s.withGovernor (s.governor.takeBudget (clampBudget budget) (clampImax imax))
  accept s' (.budgetSet s'.governor.budget s'.governor.imax s'.governor.record)

/-- Budget Read as the governor takes it (R29). -/
def takeBudgetRead (s : State) : Taken :=
  accept s (.budgetRead s.governor.record s.governor.budget s.governor.imax s.governor.volume s.governor.busy)

/-- BUDGET_SET (R28). -/
def execBudgetSet (tag : Byte) (budget imax : Nat) (s : State) : Result :=
  serve (.budgetSet tag budget imax) (takeBudgetSet budget imax) s

/-- BUDGET_READ (R29). -/
def execBudgetRead (tag : Byte) (s : State) : Result := serve (.budgetRead tag) takeBudgetRead s

end Sys2Proof.Machine
end

