-- ==== Sys2Proof/Machine/Dates.lean ====
section
/-! DEFINITION. Date arithmetic (section 7.4): dates to day numbers and back, instants and their order. -/

namespace Sys2Proof

open Machine

/-- The last day number, 2199-12-31 (R110). -/
def Machine.lastDay : Nat := 73048

/-- The last second of a day. -/
def Machine.lastSecond : Nat := 86399

/-- The greatest n ≤ `top` with `p n`, and 0 when there is none. -/
def Machine.greatest (p : Nat → Bool) : Nat → Nat
  | 0 => 0
  | n + 1 => if p (n + 1) then n + 1 else greatest p n

def Machine.leapYear (y : Nat) : Bool := y % 4 == 0 && (!(y % 100 == 0) || y % 400 == 0)

def Machine.daysInMonth (y : Nat) : Nat → Nat
  | 2 => if leapYear y then 29 else 28
  | 4 => 30 | 6 => 30 | 9 => 30 | 11 => 30
  | _ => 31

/-- The days before month `m` of year `y` (the two rows of section 7.4). -/
def Machine.daysBeforeMonth (y m : Nat) : Nat :=
  let base := match m with
    | 1 => 0 | 2 => 31 | 3 => 59 | 4 => 90 | 5 => 120 | 6 => 151
    | 7 => 181 | 8 => 212 | 9 => 243 | 10 => 273 | 11 => 304 | _ => 334
  if leapYear y && decide (2 < m) then base + 1 else base

/-- n / k rounded up. -/
def Machine.ceilDiv (n k : Nat) : Nat := (n + (k - 1)) / k

/-- The leap years of the calendar before year 2000 + n (R115 step 2). -/
def Machine.leapYearsBefore (n : Nat) : Nat := if n = 0 then 0 else ceilDiv n 4 - ceilDiv n 100 + ceilDiv n 400

/-- The day number of 1 January of year 2000 + n. -/
def Machine.newYear (n : Nat) : Nat := 365 * n + leapYearsBefore n

/-- The day number of a date (R115). -/
def DateTime.dayNumber (d : DateTime) : Nat := newYear (d.year - 2000) + daysBeforeMonth d.year d.month + d.day - 1

/-- The second of the day of a time of day (R115). -/
def Machine.timeOfDay (hour minute second : Nat) : Nat := 3600 * hour + 60 * minute + second

/-- The instant of a date and a time of day (R115). -/
def DateTime.instant (d : DateTime) : Instant := ⟨d.dayNumber, timeOfDay d.hour d.minute d.second⟩

/-- The weekday of a day number, Sunday = 0 (R115). -/
def Machine.weekday (day : Nat) : Nat := (day + 6) % 7

/-- The date and time of day of an instant (R115). -/
def Machine.Instant.dateTime (i : Instant) : DateTime :=
  let n := greatest (fun n => decide (newYear n ≤ i.day)) 199
  let year := 2000 + n
  let r := i.day - newYear n
  let month := greatest (fun m => decide (1 ≤ m) && decide (daysBeforeMonth year m ≤ r)) 12
  { year := year, month := month, day := r - daysBeforeMonth year month + 1
    hour := i.second / 3600, minute := i.second % 3600 / 60, second := i.second % 60 }

/-- A time of day within its ranges (section 7.4). -/
def Machine.timeOk (hour minute second : Nat) : Bool := decide (hour ≤ 23) && decide (minute ≤ 59) && decide (second ≤ 59)

/-- The checks of Calendar Set on its fields (R117 step 1). -/
def DateTime.ok (d : DateTime) : Bool :=
  decide (2000 ≤ d.year) && decide (d.year ≤ 2199) && decide (1 ≤ d.month) && decide (d.month ≤ 12) &&
  decide (1 ≤ d.day) && decide (d.day ≤ daysInMonth d.year d.month) && timeOk d.hour d.minute d.second

/-- The instant number (R110). -/
def Machine.Instant.number (i : Instant) : Nat := i.day * 86400 + i.second

/-- `i` is at or after `j` (R110). -/
def Machine.Instant.atOrAfter (i j : Instant) : Bool := decide (j.day < i.day) || (decide (j.day = i.day) && decide (j.second ≤ i.second))

/-- `i` is earlier than `j` (R110). -/
def Machine.Instant.earlier (i j : Instant) : Bool := !i.atOrAfter j

/-- The next occurrence of a time of day after an instant (R133). -/
def Machine.nextOccurrence (time : Nat) (after : Instant) : Due :=
  if after.second < time then .at ⟨after.day, time⟩
  else if after.day + 1 ≤ lastDay then .at ⟨after.day + 1, time⟩
  else .beyondRange

/-- The game-day index of an instant for a rollover offset (R124). -/
def Machine.gameDayIndex (rollover : Nat) (i : Instant) : Int := if rollover ≤ i.second then i.day else (i.day : Int) - 1

end Sys2Proof
end

