-- ==== Sys2Proof/Machine/Operands.lean ====
section
/-! DEFINITION. The checks and clamps of request fields: what each request's fields may be, and the value taken. -/

namespace Sys2Proof

open Machine

/-- The value an enumerated field names, when it names one. -/
def Machine.coded? {α : Type} : Coded α → Option α
  | .is a => some a
  | .other => none

/-- Whether an enumerated field names a value. -/
def Machine.named {α : Type} (c : Coded α) : Bool := (coded? c).isSome

/-! ## Voice Set and the sound part of a cue (R50, R141) -/

/-- 128..255 is clamped to 127. -/
def Machine.clampVolume (v : Nat) : Nat := min v 127

/-- 0 is clamped to 1, above 2,048 to 2,048. -/
def Machine.clampPitch (p : Nat) : Nat := min (max p 1) 2048

def Machine.waveStartOk (a : Nat) : Bool := decide (a ≤ 8191)
def Machine.waveLengthOk (n : Nat) : Bool := decide (1 ≤ n) && decide (n ≤ 8192)
def Machine.loopStartOk (n : Nat) : Bool := decide (n ≤ 8191)
def Machine.rateOk (r : Nat) : Bool := decide (1 ≤ r) && decide (r ≤ 255)
/-- A one-byte field. -/
def Machine.byteOk (n : Nat) : Bool := decide (n ≤ 255)
/-- A two-byte field. -/
def Machine.wordOk (n : Nat) : Bool := decide (n ≤ 65535)

/-- The modes Voice Set accepts. -/
def Machine.setModeOk : Coded VoiceMode → Bool
  | .is .off => true
  | .is .table => true
  | _ => false

/-- The combined limits of a voice's table fields (R33, R50). -/
def Machine.waveFits (start length loop : Nat) : Bool := decide (start + length ≤ 8192) && decide (loop < length)

/-- A Voice Set names at least one field and no bit without a row. -/
def VoiceSetFields.namesField (f : VoiceSetFields) : Bool :=
  !f.unassignedBit &&
  (f.mode.isSome || f.volume.isSome || f.substitution.isSome || f.waveStart.isSome || f.waveLength.isSome ||
   f.loopStart.isSome || f.loopMode.isSome || f.pitchStep.isSome || f.attackRate.isSome || f.sustainLevel.isSome ||
   f.releaseRate.isSome)

/-- The checks on the single fields of Voice Set. -/
def VoiceSetFields.singlesOk (f : VoiceSetFields) : Bool :=
  f.mode.all setModeOk && f.volume.all byteOk && f.substitution.all named && f.waveStart.all waveStartOk &&
  f.waveLength.all waveLengthOk && f.loopStart.all loopStartOk && f.loopMode.all named && f.pitchStep.all wordOk &&
  f.attackRate.all rateOk && f.sustainLevel.all byteOk && f.releaseRate.all rateOk

/-- The fields as Voice Set writes them, after clamping. -/
def VoiceSetFields.written (f : VoiceSetFields) : PendingVoice :=
  { volume := f.volume.map clampVolume, substitution := f.substitution.bind coded?, waveStart := f.waveStart
    waveLength := f.waveLength, loopStart := f.loopStart, loopMode := f.loopMode.bind coded?
    pitchStep := f.pitchStep.map clampPitch, attackRate := f.attackRate, sustainLevel := f.sustainLevel
    releaseRate := f.releaseRate, mode := f.mode.bind coded?, key := none, streamOpen := false }

/-- The whole check of Voice Set: each table field's value from the request, else the pending record, else the
voice record. -/
def Machine.voiceSetFits (written pending : PendingVoice) (voice : VoiceRecord) : Bool :=
  waveFits
    ((written.waveStart.or pending.waveStart).getD voice.waveStart)
    ((written.waveLength.or pending.waveLength).getD voice.waveLength)
    ((written.loopStart.or pending.loopStart).getD voice.loopStart)

/-- A write replaces the values it carries and leaves the others (R35). -/
def Machine.PendingVoice.merge (p w : PendingVoice) : PendingVoice :=
  { volume := w.volume.or p.volume, substitution := w.substitution.or p.substitution
    waveStart := w.waveStart.or p.waveStart, waveLength := w.waveLength.or p.waveLength
    loopStart := w.loopStart.or p.loopStart, loopMode := w.loopMode.or p.loopMode, pitchStep := w.pitchStep.or p.pitchStep
    attackRate := w.attackRate.or p.attackRate, sustainLevel := w.sustainLevel.or p.sustainLevel
    releaseRate := w.releaseRate.or p.releaseRate, mode := w.mode.or p.mode, key := w.key.or p.key
    streamOpen := p.streamOpen || w.streamOpen }

/-! ## Effect steps (R93, R141) -/

/-- A step as taken: its shape named, a length of 0 clamped to 1. -/
def StepFields.taken (f : StepFields) : Option PlayStep :=
  match coded? f.shape with
  | some shape => if byteOk f.level && byteOk f.length then some ⟨f.level, max f.length 1, shape⟩ else none
  | none => none

/-- All steps as taken, when every one passes. -/
def Machine.takenSteps : List StepFields → Option (List PlayStep)
  | [] => some []
  | f :: fs =>
    match f.taken, takenSteps fs with
    | some p, some ps => some (p :: ps)
    | _, _ => none

/-! ## Cue Define (R141) -/

/-- The sound part as stored, or none when a field is refused. -/
def SoundFields.stored (f : SoundFields) : Option SoundPart :=
  match number? 8 f.voice, coded? f.loopMode with
  | some voice, some loopMode =>
    if byteOk f.volume && waveStartOk f.waveStart && waveLengthOk f.waveLength && loopStartOk f.loopStart &&
        wordOk f.pitchStep && rateOk f.attackRate && byteOk f.sustainLevel && rateOk f.releaseRate &&
        waveFits f.waveStart f.waveLength f.loopStart && f.keyOffAfter.all rateOk then
      some { voice := voice, volume := clampVolume f.volume, waveStart := f.waveStart, waveLength := f.waveLength
             loopStart := f.loopStart, loopMode := loopMode, pitchStep := clampPitch f.pitchStep
             attackRate := f.attackRate, sustainLevel := f.sustainLevel, releaseRate := f.releaseRate
             keyOffAfter := f.keyOffAfter }
    else none
  | _, _ => none

/-- The rumble part as stored, or none when a field is refused. -/
def RumbleFields.stored (f : RumbleFields) : Option RumblePart :=
  if decide (f.priority ≤ 3) && decide (1 ≤ f.steps.length) && decide (f.steps.length ≤ 4) then
    (takenSteps f.steps).map fun steps => ⟨f.priority, steps⟩
  else none

/-- An optional part: absent stays absent, present must be stored. An absent part's bytes in the body are not checked, whatever
they hold: DESIGN CHOICE (log entry 29; R141, R171). -/
def Machine.storedPart {α β : Type} (store : α → Option β) : Option α → Option (Option β)
  | none => some none
  | some a => (store a).map some

/-- The cue number and the entry as stored, or none when Cue Define is answered BAD_FIELD. -/
def CueFields.stored (f : CueFields) : Option (Fin 8 × CueDefinition) :=
  match number? 8 f.cue, storedPart SoundFields.stored f.sound, coded? f.steal, storedPart RumbleFields.stored f.rumble with
  | some cue, some sound, some steal, some rumble =>
    if sound.isNone && rumble.isNone then none else some (cue, ⟨sound, steal, rumble⟩)
  | _, _, _, _ => none

/-! ## Mix Set (R86) -/

def MixSetFields.ok (f : MixSetFields) : Bool :=
  !f.unassignedBit &&
  (f.master.isSome || f.global.isSome || f.tone.isSome || f.amplitude.isSome || f.halfPeriod.isSome) &&
  f.master.all byteOk && f.global.all named && f.tone.all named && f.amplitude.all (fun a => decide (a ≤ 511)) &&
  f.halfPeriod.all rateOk

def MixSetFields.written (f : MixSetFields) : PendingMix :=
  { master := f.master, global := f.global.bind coded?, tone := f.tone.bind coded?, amplitude := f.amplitude
    halfPeriod := f.halfPeriod }

/-- A write replaces the pending value of each setting it carries (R75). -/
def Machine.PendingMix.merge (p w : PendingMix) : PendingMix :=
  { master := w.master.or p.master, global := w.global.or p.global, tone := w.tone.or p.tone
    amplitude := w.amplitude.or p.amplitude, halfPeriod := w.halfPeriod.or p.halfPeriod }

/-! ## Rumble Set (R90) -/

/-- The carriers, in kHz. -/
def Machine.carrierOk (k : Nat) : Bool := k == 2 || k == 4 || k == 8 || k == 16

def RumbleSetFields.ok (f : RumbleSetFields) : Bool :=
  !f.unassignedBit &&
  (f.carrier.isSome || f.kick.isSome || f.stall.isSome || f.trip.isSome || f.drainNotice.isSome) &&
  f.carrier.all carrierOk && f.kick.all named && f.stall.all (fun n => decide (n ≤ 4095)) &&
  f.trip.all (fun n => decide (20 ≤ n) && decide (n ≤ 1000)) && f.drainNotice.all named

/-! ## Ranges of memory requests (R48, R49, R156) -/

/-- `count` bytes, 1..64, from `address` on, inside a memory of `size` bytes. -/
def Machine.rangeOk (size address count : Nat) : Bool :=
  decide (address < size) && decide (1 ≤ count) && decide (count ≤ 64) && decide (address + count ≤ size)

/-! ## Event Set (R137) -/

/-- The trigger as written, or none when a value is refused. -/
def TriggerFields.taken : TriggerFields → Option Trigger
  | .gameDay n => if n ≤ 1073048 then some (.gameDay n) else none
  | .dateTime d => if d.ok then some (.dateTime d.instant) else none
  | .daily h m s => if timeOk h m s then some (.daily (timeOfDay h m s)) else none
  | .other => none

end Sys2Proof
end

