-- ==== Sys2Proof/Machine/Save.lean ====
section
/-! DEFINITION. The save store (chapter 10): headers and validity, the start-up scan, staging, the commit sequence,
and the slot requests. -/

namespace Sys2Proof.Machine

/-! ## Headers and banks (R151) -/

/-- A header is good when its generation is not 0 and its check matches. -/
def Header.good (h : Header) : Bool := decide (h.generation ≠ 0) && h.checkMatches

/-- The payload check computed afresh over bytes 0..length − 1. -/
def payloadCheck (m : Memory) (length : Nat) : Word16 := crc16 (Memory.readBytes m 0 length)

/-- A bank is valid when its header is good and its payload check matches. -/
def bankValid (h : Header) (m : Memory) : Bool := h.good && payloadCheck m h.length == h.payloadCheck

/-- The header check that a good header holds (log entry 9). -/
def Header.check (h : Header) : Word16 :=
  Config.headerCheck h.generation h.length h.payloadCheck h.counter h.day h.rewind h.weakCell

def SaveStore.header (st : SaveStore) (slot : Fin 4) (bank : Bank) : Header := (st.headers.get slot).get bank
def SaveStore.bank (st : SaveStore) (slot : Fin 4) (bank : Bank) : Memory := (st.banks.get slot).get bank
def SaveStore.valid (st : SaveStore) (slot : Fin 4) (bank : Bank) : Bool := bankValid (st.header slot bank) (st.bank slot bank)

/-- A header written by a short write (R150). -/
def SaveStore.writeHeader (st : SaveStore) (slot : Fin 4) (bank : Bank) (h : Header) : SaveStore :=
  { st with headers := st.headers.modify slot fun p => p.set bank h }

/-- Payload bytes written into a bank. -/
def SaveStore.writeBank (st : SaveStore) (slot : Fin 4) (bank : Bank) (offset : Nat) (bytes : List Byte) : SaveStore :=
  { st with banks := st.banks.modify slot fun p => p.set bank (Memory.writeBytes (p.get bank) offset bytes) }

/-! ## The scan of one slot (R152, R154) -/

/-- The live bank of a scanned slot: the valid bank of greater generation, bank A when they are equal. -/
def scanLive (st : SaveStore) (slot : Fin 4) : Option Bank :=
  if st.valid slot .a then
    if st.valid slot .b && decide ((st.header slot .a).generation < (st.header slot .b).generation) then some .b else some .a
  else if st.valid slot .b then some .b else none

/-- The standing of a bank, given the live bank (R152). -/
def scanStanding (st : SaveStore) (slot : Fin 4) (live : Option Bank) (bank : Bank) : Standing :=
  if live = some bank then .live
  else if st.valid slot bank then .validOlder
  else if (st.header slot bank).generation ≠ 0 then .invalid
  else .neverWritten

/-- The condition of a scanned slot (R154). -/
def scanCondition (st : SaveStore) (slot : Fin 4) (live : Option Bank) : Condition :=
  match live with
  | some bank =>
    if (st.header slot bank.other).good && decide ((st.header slot bank).generation < (st.header slot bank.other).generation) &&
        !st.valid slot bank.other then .validFallback
    else .valid
  | none => if (st.header slot .a).good || (st.header slot .b).good then .damaged else .empty

/-- The generation of a good header, 0 for any other. -/
def goodGeneration (h : Header) : Nat := if h.good then h.generation else 0

/-- The slot table entry that the scan forms (R154). -/
def scanSlot (st : SaveStore) (slot : Fin 4) : SlotEntry :=
  let live := scanLive st slot
  { condition := scanCondition st slot live, liveBank := live, liveHeader := live.map (st.header slot)
    highest := max (goodGeneration (st.header slot .a)) (goodGeneration (st.header slot .b))
    standings := ⟨scanStanding st slot live .a, scanStanding st slot live .b⟩ }

/-! ## The controller's state changes -/

def State.store (s : State) : SaveStore := s.backup.store
def State.withStore (s : State) (st : SaveStore) : State := s.withBackup { s.backup with store := st }

/-- The slot table entry of a slot. -/
def SaveController.entry (c : SaveController) (slot : Fin 4) : SlotEntry := c.slotTable.get slot

def SaveController.setEntry (c : SaveController) (slot : Fin 4) (e : SlotEntry) : SaveController :=
  { c with slotTable := c.slotTable.set slot e }

/-- The controller leaves IDLE, and sends its busy report (R155). -/
def State.leaveIdle (s : State) (c : SaveController) : State := (s.withSave c).reportBusy true

/-- The controller returns to IDLE, and sends its idle report (R155). -/
def State.returnIdle (s : State) : State := (s.withSave { s.save with state := .idle }).reportBusy false

/-- The staging area is locked in LOADING, WAIT_RESERVE and COPYING (R155). -/
def SaveState.locksStaging : SaveState → Bool
  | .loading => true
  | .waitReserve => true
  | .copying => true
  | _ => false

/-- How far a copy of `length` bytes has come, when its last byte has not been copied (log entry 7). -/
def copyAdvance (moved length draw : Nat) : Nat := if moved < length then moved + draw % (length - moved) else moved

/-- The bytes from `moved` up to `upTo` of the load or copy in progress (R157, R160): from the live bank to the
staging area, or from the staging area to the target bank, in order. -/
def State.copyUpTo (s : State) (upTo : Nat) : State :=
  let c := s.save
  let st := s.store
  match c.state with
  | .loading =>
    match (c.entry c.opSlot).liveBank with
    | some bank =>
      (s.withSave { c with moved := upTo }).withStore
        { st with staging := Memory.writeBytes st.staging c.moved (Memory.readBytes (st.bank c.opSlot bank) c.moved (upTo - c.moved)) }
    | none => s
  | .copying =>
    (s.withSave { c with moved := upTo }).withStore
      (st.writeBank c.opSlot c.target c.moved (Memory.readBytes st.staging c.moved (upTo - c.moved)))
  | _ => s

/-- The load or copy in progress has come as far as a free value says (log entry 7). -/
def State.copySoFar (s : State) : State :=
  match s.save.state with
  | .loading => (s.copyUpTo (copyAdvance s.save.moved s.save.length (Config.copyProgress s.freeCount))).countFree
  | .copying => (s.copyUpTo (copyAdvance s.save.moved s.save.length (Config.copyProgress s.freeCount))).countFree
  | _ => s

/-- The header that a seal writes, with what it reads as it stands at that moment (R161). -/
def State.sealedHeader (s : State) : Header :=
  let record := s.backup.record
  { generation := (s.save.entry s.save.opSlot).highest + 1, length := s.save.length, payloadCheck := s.save.copyCheck
    counter := if record.valid then some record.counter else none
    day := if s.backup.calendar.valid then some s.backup.calendar.now.day else none
    rewind := record.valid && record.rewind, weakCell := decide (s.supply.battery = .weak), checkMatches := true }

/-- The seal's short write into the header block (R161). -/
def State.writeSeal (s : State) : State :=
  s.withStore (s.store.writeHeader s.save.opSlot s.save.target s.sealedHeader)

/-- The slot table entry after a seal (R161). -/
def SlotEntry.sealed (e : SlotEntry) (target : Bank) (h : Header) : SlotEntry :=
  let standings := match e.liveBank with
    | some former => e.standings.set former .validOlder
    | none => e.standings
  { condition := .valid, liveBank := some target, liveHeader := some h, highest := h.generation
    standings := standings.set target .live }

/-- The operation in flight stops where it is, and the controller returns to IDLE; what was copied stays
(R157, R162, R164). -/
def State.stopForAbandon (s : State) : State := s.copySoFar.returnIdle

/-- What the supply entering CRITICAL does to an operation in flight (R157, R159, R160, R161, R164). -/
def State.abandonForCritical (s : State) : State :=
  let tag := s.save.deferredTag
  match s.save.state with
  | .idle => s
  | .sealing => s
  | .loading => s.stopForAbandon.answer Kind.stageLoad tag .abandoned .none
  | .waitReserve => s.stopForAbandon.answer Kind.commit tag .abandoned .none
  | .copying => s.stopForAbandon.answer Kind.commit tag .abandoned .none
  | .verifying => s.stopForAbandon.answer Kind.slotVerify tag .abandoned .none

/-- What an operation in flight leaves in backup memory when the core stops, by a Restart or by loss of the
cartridge supply: a load or copy stops where it is, a header write completes (R162, R161, R166). -/
def State.stopOperation (s : State) : State :=
  match s.save.state with
  | .sealing => s.writeSeal
  | _ => s.copySoFar

/-! ## WAIT_RESERVE to COPYING (R159, R160) -/

/-- The slot table entry after the target's header has been invalidated (R160). -/
def SlotEntry.invalidated (e : SlotEntry) (target : Bank) (otherGood : Bool) : SlotEntry :=
  { e with standings := e.standings.set target .neverWritten
           condition := if e.liveBank.isSome then .valid else if otherGood then .damaged else .empty }

/-- The controller enters COPYING and invalidates the target's header (R160). -/
def State.enterCopying (s : State) : State :=
  let c := s.save
  let otherGood := (s.store.header c.opSlot c.target.other).good
  let c' := c.setEntry c.opSlot ((c.entry c.opSlot).invalidated c.target otherGood)
  (s.withSave { c' with state := .copying, moved := 0 }).withStore (s.store.writeHeader c.opSlot c.target .invalid)

/-- A reserve acknowledgement reaches the controller (R159). -/
def State.acknowledgeReserve (s : State) (reserve : Bool) : State :=
  match s.save.state, reserve with
  | .waitReserve, true => s.enterCopying
  | _, _ => s

/-! ## Completions -/

/-- The last byte of a load is copied (R157). -/
def State.completeLoad (s : State) : State :=
  match s.save.state, (s.save.entry s.save.opSlot).liveHeader with
  | .loading, some h =>
    (s.copyUpTo s.save.length).returnIdle.answer Kind.stageLoad s.save.deferredTag .ok (.stageLoad s.save.length h.generation)
  | _, _ => s

/-- The last payload byte is copied: staging is unlocked and SEALING begins (R160). -/
def State.completeCopy (s : State) : State :=
  match s.save.state with
  | .copying =>
    let s' := s.copyUpTo s.save.length
    s'.withSave { s'.save with state := .sealing, copyCheck := payloadCheck s.store.staging s.save.length }
  | _ => s

/-- The header write completes (R161). -/
def State.completeSeal (s : State) : State :=
  match s.save.state with
  | .sealing =>
    let h := s.sealedHeader
    let s' := s.writeSeal
    let s'' := s'.withSave (s'.save.setEntry s.save.opSlot ((s.save.entry s.save.opSlot).sealed s.save.target h))
    s''.returnIdle.answer Kind.commit s.save.deferredTag .ok (.commit s.save.opSlot.val s.save.target h.generation)
  | _ => s

/-- The slot table entry after a verify that found the live bank's payload check wrong (R164). When the other bank is not
valid either, its standing stays what it was, be it VALID_OLDER: DESIGN CHOICE (log entry 31). -/
def SlotEntry.failedVerify (e : SlotEntry) (former : Bank) (formerHeader otherHeader : Header) (otherValid : Bool) : SlotEntry :=
  if otherValid then
    { e with liveBank := some former.other, liveHeader := some otherHeader
             condition := if otherHeader.generation < formerHeader.generation then .validFallback else .valid
             standings := (e.standings.set former .invalid).set former.other .live }
  else
    { e with liveBank := none, liveHeader := none, condition := .damaged, standings := e.standings.set former .invalid }

/-- The result of a verify and the entry after it (R164). -/
def verifyOutcome (st : SaveStore) (slot : Fin 4) (e : SlotEntry) : VerifyResult × SlotEntry :=
  match e.liveBank, e.liveHeader with
  | some live, some h =>
    if payloadCheck (st.bank slot live) h.length = h.payloadCheck then (.matched, e)
    else
      let otherValid := st.valid slot live.other
      (if otherValid then .fellBack else .damaged, e.failedVerify live h (st.header slot live.other) otherValid)
  | _, _ => (.matched, e)

/-- The verify finishes (R164). -/
def State.completeVerify (s : State) : State :=
  match s.save.state with
  | .verifying =>
    let (result, e) := verifyOutcome s.store s.save.opSlot (s.save.entry s.save.opSlot)
    let s' := s.withSave (s.save.setEntry s.save.opSlot e)
    s'.returnIdle.answer Kind.slotVerify s.save.deferredTag .ok
      (.slotVerify result e.condition (e.liveHeader.map Header.generation))
  | _ => s

/-! ## Staging requests (R156, R157) -/

/-- Stage Write (R156). -/
def takeStageWrite (offset : Nat) (bytes : List Byte) (s : State) : Taken :=
  if !rangeOk 3584 offset bytes.length then refuse s .badField
  else if s.save.state.locksStaging then refuse s .stageLocked
  else if s.supply.supply = .critical then refuse s .supplyCritical
  else
    accept (s.withStore { s.store with staging := Memory.writeBytes s.store.staging offset bytes })
      (.written offset bytes.length)

/-- Stage Read (R156); during LOADING it shows the bytes copied so far (log entry 7). -/
def takeStageRead (offset count : Nat) (s : State) : Taken :=
  if rangeOk 3584 offset count then
    let s' := if s.save.state = .loading then s.copySoFar else s
    accept s' (.stageRead (Memory.readBytes s'.store.staging offset count))
  else refuse s .badField

/-- The checks that Stage Load and Slot Verify share after the slot's range (R157, R164); the bank they act on. -/
def liveSlotRefusal (s : State) (slot : Fin 4) : Option Status :=
  if s.save.state ≠ .idle then some .busy
  else if s.supply.supply = .critical then some .supplyCritical
  else match (s.save.entry slot).condition with
    | .empty => some .noData
    | .damaged => some .damaged
    | _ => none

/-- Stage Load (R157). -/
def takeStageLoad (tag : Byte) (slot : Nat) (s : State) : Taken :=
  match number? 4 slot with
  | none => refuse s .badField
  | some k =>
    match liveSlotRefusal s k with
    | some status => refuse s status
    | none =>
      defer (s.leaveIdle { s.save with state := .loading, opSlot := k, moved := 0, deferredTag := tag
                                       length := ((s.save.entry k).liveHeader.map Header.length).getD 0 })

/-! ## Commit requests (R158, R162) -/

/-- The bank a commit writes: the one that is not live, bank A when none is (R158). -/
def SlotEntry.commitTarget (e : SlotEntry) : Bank :=
  match e.liveBank with
  | some bank => bank.other
  | none => .a

/-- Commit (R158). -/
def takeCommit (tag : Byte) (slot length : Nat) (s : State) : Taken :=
  match number? 4 slot with
  | none => refuse s .badField
  | some k =>
    if ¬ (1 ≤ length ∧ length ≤ 3584) then refuse s .badField
    else if s.save.state ≠ .idle then refuse s .busy
    else if s.supply.supply = .low then refuse s .supplyLow
    else if s.supply.supply = .critical then refuse s .supplyCritical
    else if (s.save.entry k).highest = 4294967295 then refuse s .genExhausted
    else
      defer (s.leaveIdle { s.save with state := .waitReserve, opSlot := k, target := (s.save.entry k).commitTarget
                                       length := length, moved := 0, deferredTag := tag })

/-- The reply ABANDONED to the Commit in flight (R162). -/
def State.abandonedReply (s : State) : Reply := ⟨Kind.commit + 0x80, s.save.deferredTag, .abandoned, .none⟩

/-- Commit Abort (R162). -/
def takeCommitAbort (s : State) : Taken :=
  match s.save.state with
  | .waitReserve => ⟨s.stopForAbandon, some (.ok, .none), [s.abandonedReply]⟩
  | .copying => ⟨s.stopForAbandon, some (.ok, .none), [s.abandonedReply]⟩
  | .sealing => refuse s .tooLate
  | _ => refuse s .nothingPending

/-! ## Reading, verifying and erasing (R163 to R165) -/

/-- Slot Read (R163). -/
def takeSlotRead (slot offset count : Nat) (s : State) : Taken :=
  match number? 4 slot with
  | none => refuse s .badField
  | some k =>
    if ¬ (offset ≤ 3583 ∧ 1 ≤ count ∧ count ≤ 64) then refuse s .badField
    else
      let e := s.save.entry k
      match e.condition, e.liveBank, e.liveHeader with
      | .empty, _, _ => refuse s .noData
      | .damaged, _, _ => refuse s .damaged
      | _, some bank, some h =>
        accept s (.slotRead slot offset (Memory.readBytes (s.store.bank k bank) offset (min count (h.length - offset))) h.generation)
      | _, _, _ => refuse s .noData

/-- Slot Info (R163); its reply carries the slot number beside the entry: DESIGN CHOICE (log entry 35). -/
def takeSlotInfo (slot : Nat) (s : State) : Taken :=
  match number? 4 slot with
  | none => refuse s .badField
  | some k => let e := s.save.entry k; accept s (.slotInfo slot e (e.liveHeader.map Header.check))

/-- Slot Verify (R164). -/
def takeSlotVerify (tag : Byte) (slot : Nat) (s : State) : Taken :=
  match number? 4 slot with
  | none => refuse s .badField
  | some k =>
    match liveSlotRefusal s k with
    | some status => refuse s status
    | none => defer (s.leaveIdle { s.save with state := .verifying, opSlot := k, deferredTag := tag })

/-- Slot Erase (R165). -/
def takeSlotErase (slot : Nat) (s : State) : Taken :=
  match number? 4 slot with
  | none => refuse s .badField
  | some k =>
    if s.save.state ≠ .idle then refuse s .busy
    else if s.supply.supply = .critical then refuse s .supplyCritical
    else
      accept ((s.withSave (s.save.setEntry k .emptied)).withStore
        { s.store with headers := s.store.headers.set k ⟨.invalid, .invalid⟩ }) .none

/-! ## The start-up scan (R154) -/

/-- All four slots are scanned, SAVE_SCAN is made pending, and scan-complete goes to the link. -/
def State.scan (s : State) : State :=
  let c := (numbers 4).foldl (fun c slot => c.setEntry slot (scanSlot s.store slot)) s.save
  let s' := (s.withSave c).pendSaveScan
    ⟨c.slotTable.map SlotEntry.condition, c.slotTable.map SlotEntry.liveBank, c.backupLoss⟩
  s'.withLink { s'.link with scanDone := true }

/-! ## The rows -/

/-- SLOT_SCAN (R154): once in each start-up. -/
def execSlotScan (s : State) : Result := onCore s fun s => if s.link.scanDone then s else s.scan
/-- STAGE_WRITE (R156). -/
def execStageWrite (tag : Byte) (offset : Nat) (bytes : List Byte) (s : State) : Result :=
  serve (.stageWrite tag offset bytes) (takeStageWrite offset bytes) s
/-- STAGE_READ (R156). -/
def execStageRead (tag : Byte) (offset count : Nat) (s : State) : Result :=
  serve (.stageRead tag offset count) (takeStageRead offset count) s
/-- STAGE_LOAD (R157). -/
def execStageLoad (tag : Byte) (slot : Nat) (s : State) : Result := serve (.stageLoad tag slot) (takeStageLoad tag slot) s
/-- COMMIT (R158). -/
def execCommit (tag : Byte) (slot length : Nat) (s : State) : Result := serve (.commit tag slot length) (takeCommit tag slot length) s
/-- COMMIT_ABORT (R162). -/
def execCommitAbort (tag : Byte) (s : State) : Result := serve (.commitAbort tag) takeCommitAbort s
/-- SLOT_READ (R163). -/
def execSlotRead (tag : Byte) (slot offset count : Nat) (s : State) : Result :=
  serve (.slotRead tag slot offset count) (takeSlotRead slot offset count) s
/-- SLOT_INFO (R163). -/
def execSlotInfo (tag : Byte) (slot : Nat) (s : State) : Result := serve (.slotInfo tag slot) (takeSlotInfo slot) s
/-- SLOT_VERIFY (R164). -/
def execSlotVerify (tag : Byte) (slot : Nat) (s : State) : Result := serve (.slotVerify tag slot) (takeSlotVerify tag slot) s
/-- SLOT_ERASE (R165). -/
def execSlotErase (tag : Byte) (slot : Nat) (s : State) : Result := serve (.slotErase tag slot) (takeSlotErase slot) s
/-- LOAD_COMPLETE (R157). -/
def execLoadComplete (s : State) : Result := onCore s State.completeLoad
/-- COPY_COMPLETE (R160). -/
def execCopyComplete (s : State) : Result := onCore s State.completeCopy
/-- SEAL_COMPLETE (R161). -/
def execSealComplete (s : State) : Result := onCore s State.completeSeal
/-- VERIFY_COMPLETE (R164). -/
def execVerifyComplete (s : State) : Result := onCore s State.completeVerify

end Sys2Proof.Machine
end

