-- ==== Sys2Proof/Machine/Rumble.lean ====
section
/-! DEFINITION. The rumble driver (chapter 6): the effect queue, the period-mark work, faults, the supply hold and the
calibration, and the rumble requests. -/

namespace Sys2Proof.Machine

/-! ## The effect queue (R91 to R96) -/

/-- A step as it joins the queue, not started. The spec gives a step that has not started no start level; the model holds 0,
and Rumble Status reports that 0 for it: DESIGN CHOICE (log entry 28; R91, R108). -/
def PlayStep.queued (p : PlayStep) : EffectStep := ⟨p.level, p.length, p.shape, 0, 0⟩

/-- The queue emptied; its priority is then none. -/
def Rumble.flush (r : Rumble) : Rumble := { r with queue := [], priority := none }

/-- The new steps become the whole queue; an IDLE driver becomes RUNNING at once (R94). -/
def Rumble.load (r : Rumble) (priority : Nat) (steps : List PlayStep) : Rumble :=
  { r with queue := steps.map PlayStep.queued, priority := some priority
           state := if r.state = .idle then .running else r.state }

/-- The new steps join at the tail (R94). -/
def Rumble.append (r : Rumble) (steps : List PlayStep) : Rumble := { r with queue := r.queue ++ steps.map PlayStep.queued }

/-- How offered steps are judged (R93 steps 2 to 4, R94): the driver after it and the mode as applied, or the refusal. -/
inductive PlayOutcome where
  | taken (driver : Rumble) (applied : PlayMode)
  | refused (status : Status)

/-- R94, by the queue's priority when it holds steps. -/
def Rumble.submit (r : Rumble) (mode : PlayMode) (priority : Nat) (steps : List PlayStep) : PlayOutcome :=
  if r.state = .fault then .refused .faulted
  else if r.calibrating then .refused .busy
  else if r.queue.isEmpty then .taken (r.load priority steps) .replace
  else
    let held := r.priority.getD 0
    if priority < held then .refused .outranked
    else match mode with
      | .replace => .taken (r.flush.load priority steps) .replace
      | .append =>
        if held < priority then .taken (r.flush.load priority steps) .replace
        else if r.queue.length + steps.length ≤ 16 then .taken (r.append steps) .append
        else .refused .queueFull

/-! ## The level of a step (R92) -/

/-- The level a step asks for in its k-th period, k = elapsed; the division rounds toward minus infinity. -/
def EffectStep.asks (e : EffectStep) : Nat :=
  match e.shape with
  | .hold => e.level
  | .ramp => ((e.start : Int) + ((e.level : Int) - e.start) * e.elapsed / e.length).toNat

/-- The head starts: its start level is the level in force (R92). -/
def startHead (level : Nat) : List EffectStep → List EffectStep
  | [] => []
  | e :: es => { e with elapsed := 1, start := level } :: es

/-- Step 2 of R97: the queue moves on by one period. -/
def advanceQueue (level : Nat) : List EffectStep → List EffectStep
  | [] => []
  | e :: es =>
    if e.elapsed = 0 then startHead level (e :: es)
    else if e.elapsed < e.length then { e with elapsed := e.elapsed + 1 } :: es
    else startHead level es

/-! ## The period mark (R97 to R100) -/

/-- Step 1 of R97: the latched pair, the pending carrier, the duty history; the coast window of the old period is over. -/
def Rumble.latch (r : Rumble) (grant : GrantRecord) : Rumble :=
  { r with latchedCeiling := grant.dceil, latchedReserve := grant.reserve
           settings := { r.settings with carrier := r.pendingCarrier.getD r.settings.carrier }, pendingCarrier := none
           historyOlder := r.historyNewer, historyNewer := r.applied, coastOpen := false }

/-- Steps 2 and 3 of R97. -/
def Rumble.advance (r : Rumble) : Rumble :=
  let queue := advanceQueue r.requested r.queue
  { r with queue := queue, priority := if queue.isEmpty then none else r.priority
           requested := match queue with | [] => 0 | e :: _ => e.asks }

/-- Whether something holds the output off (R106, R107). -/
def Rumble.heldOff (r : Rumble) : Bool := r.supplyHold || r.calibrating

/-- The kick test (R98). -/
def Rumble.kicks (r : Rumble) : Bool :=
  r.settings.kick && decide (r.historyOlder = 0) && decide (r.historyNewer = 0) && decide (0 < r.requested) && !r.heldOff

/-- Steps 4 and 5 of R97. -/
def Rumble.drive (r : Rumble) : Rumble :=
  { r with applied := if r.heldOff then 0 else if r.kicks then r.latchedCeiling else min r.requested r.latchedCeiling }

/-- The RUMBLE notice's content as it stands (R99). -/
def Rumble.notice (r : Rumble) (reason : RumbleReason) : RumbleNotice := ⟨reason, r.state, r.cause, r.queue.length⟩

/-- Step 6 of R97: a RUNNING driver with an empty queue goes IDLE (R99). -/
def State.drainRumble (s : State) : State :=
  if s.rumble.queue.isEmpty ∧ s.rumble.state = .running then
    let s' := s.withRumble { s.rumble with state := .idle }
    if s.rumble.settings.drainNotice then s'.pendRumble (s'.rumble.notice .drained) else s'
  else s

/-- The rumble driver's period mark (R97). -/
def State.rumbleMark (s : State) : State :=
  let s' := (s.withRumble ((s.rumble.latch s.governor.record).advance).drive).drainRumble
  s'.acknowledgeReserve s'.rumble.latchedReserve

/-! ## Forced changes, faults (R101 to R107) -/

/-- The driver enters FAULT (R104). -/
def State.rumbleFault (s : State) (cause : FaultCause) : State :=
  let s' := s.withRumble { s.rumble.flush with state := .fault, applied := 0, requested := 0, cause := cause }
  s'.pendRumble (s'.rumble.notice .fault)

/-- A corrected BEMF result reaches the driver (R102). -/
def State.takeBemf (s : State) (corrected : Nat) : State :=
  let r := s.rumble
  let run := if 64 ≤ r.applied ∧ corrected < r.settings.stall then r.bemfRun + 1 else 0
  let s' := s.withRumble { r with bemfRun := run }
  if 3 ≤ run then s'.rumbleFault .stall else s'

/-- An IMOT result reaches the driver (R103). -/
def State.takeImot (s : State) (count : Nat) : State :=
  if s.rumble.settings.trip < count ∧ 0 < s.rumble.applied then s.rumbleFault .trip else s

/-- The supply-state change event at the driver (R106). -/
def Rumble.takeSupply (r : Rumble) : SupplyState → Rumble
  | .critical => { r with supplyHold := true, applied := 0 }
  | _ => { r with supplyHold := false }

/-- The calibration-begin event (R107). -/
def Rumble.beginCalibration (r : Rumble) : Rumble := { r with calibrating := true, applied := 0 }
/-- The calibration-end event (R107). -/
def Rumble.endCalibration (r : Rumble) : Rumble := { r with calibrating := false }

/-- MDRV at a point of the carrier cycle, the cycle being 255 points long (R89, R101). -/
def Rumble.motorOn (r : Rumble) (point : Nat) : Bool :=
  decide (r.state = .running) && decide (0 < r.applied) && !r.supplyHold && !r.calibrating && !r.coastOpen &&
  decide (point < r.applied)

/-! ## Requests -/

/-- Rumble Play (R93). -/
def takeRumblePlay (mode : Coded PlayMode) (priority : Nat) (steps : List StepFields) (s : State) : Taken :=
  match coded? mode, takenSteps steps with
  | some m, some ps =>
    if priority ≤ 3 ∧ 1 ≤ steps.length ∧ steps.length ≤ 8 then
      match s.rumble.submit m priority ps with
      | .taken r applied => accept (s.withRumble r) (.rumblePlay applied r.queue.length r.priority)
      | .refused status => refuse s status
    else refuse s .badField
  | _, _ => refuse s .badField

/-- Rumble Stop (R96). -/
def takeRumbleStop (s : State) : Taken := accept (s.withRumble s.rumble.flush) (.rumbleStop s.rumble.queue.length)

/-- The settings that Rumble Set writes (R90): the carrier is held as pending, 1 mA is 4 IMOT counts. -/
def Rumble.writeSettings (r : Rumble) (f : RumbleSetFields) : Rumble :=
  { r with pendingCarrier := f.carrier.or r.pendingCarrier
           settings := { r.settings with
             kick := (f.kick.bind coded?).getD r.settings.kick
             stall := f.stall.getD r.settings.stall
             trip := (f.trip.map (4 * ·)).getD r.settings.trip
             drainNotice := (f.drainNotice.bind coded?).getD r.settings.drainNotice } }

/-- Rumble Set (R90). -/
def takeRumbleSet (f : RumbleSetFields) (s : State) : Taken :=
  if f.ok then
    accept (s.withRumble (s.rumble.writeSettings f))
      (.rumbleSet f.carrier (f.kick.bind coded?) f.stall (f.trip.map (4 * ·)) (f.drainNotice.bind coded?))
  else refuse s .badField

/-- Rumble Clear (R105). -/
def takeRumbleClear (s : State) : Taken :=
  if s.rumble.state = .fault then accept (s.withRumble { s.rumble with state := .idle, bemfRun := 0 }) .none
  else refuse s .nothingPending

/-- Rumble Status (R108). -/
def takeRumbleStatus (s : State) : Taken :=
  let r := s.rumble
  accept s (.rumbleStatus r.state r.calibrating r.supplyHold r.priority r.queue r.latchedCeiling r.latchedReserve r.requested
    r.applied r.historyOlder r.historyNewer r.bemfRun r.cause r.settings r.pendingCarrier)

/-- RUMBLE_PLAY (R93). -/
def execRumblePlay (tag : Byte) (mode : Coded PlayMode) (priority : Nat) (steps : List StepFields) (s : State) : Result :=
  serve (.rumblePlay tag mode priority steps) (takeRumblePlay mode priority steps) s
/-- RUMBLE_STOP (R96). -/
def execRumbleStop (tag : Byte) (s : State) : Result := serve (.rumbleStop tag) takeRumbleStop s
/-- RUMBLE_SET (R90). -/
def execRumbleSet (tag : Byte) (f : RumbleSetFields) (s : State) : Result := serve (.rumbleSet tag f) (takeRumbleSet f) s
/-- RUMBLE_CLEAR (R105). -/
def execRumbleClear (tag : Byte) (s : State) : Result := serve (.rumbleClear tag) takeRumbleClear s
/-- RUMBLE_STATUS (R108). -/
def execRumbleStatus (tag : Byte) (s : State) : Result := serve (.rumbleStatus tag) takeRumbleStatus s
/-- RUMBLE_PERIOD_MARK (R97). -/
def execRumblePeriodMark (s : State) : Result := onCore s State.rumbleMark

end Sys2Proof.Machine
end

