-- ==== Sys2Proof/Machine/Stream.lean ====
section
/-! DEFINITION. The stream buffers (chapter 4): arrival of blocks, playout, and the stream requests. -/

namespace Sys2Proof.Machine

/-! ## Distance, the window and the pool -/

/-- The distance of a sequence number from X (R54). -/
def distance (x q : Byte) : Nat := (q - x).toNat

/-- Whether the record holds a block with this sequence number. -/
def StreamRecord.holds (r : StreamRecord) (q : Byte) : Bool := r.held.any fun b => b.seq == q

/-- One counter of the record rises. -/
def StreamRecord.count (r : StreamRecord) (rise : StreamCounters → StreamCounters) : StreamRecord :=
  { r with counters := rise r.counters }

/-- A block joins the held blocks in order of distance from X. -/
def insertBlock (x : Byte) (b : Block) : List Block → List Block
  | [] => [b]
  | h :: hs => if distance x b.seq < distance x h.seq then b :: h :: hs else h :: insertBlock x b hs

/-- The block is stored (R60); it is reordered when a block of greater distance is already held. -/
def StreamRecord.store (r : StreamRecord) (b : Block) : StreamRecord :=
  let behind := r.held.any fun h => decide (distance r.x b.seq < distance r.x h.seq)
  let r' := { r with held := insertBlock r.x b r.held }
  if behind then r'.count fun c => { c with reordered := sat16 c.reordered } else r'

/-- The fill check of a record in FILL or STARVED (R61). -/
def StreamRecord.fillCheck (r : StreamRecord) : StreamRecord :=
  if (List.range r.depth).all fun k => r.holds (r.x + BitVec.ofNat 8 k) then
    { r with state := .play, missingRun := 0, periodValues := silence }
  else r

/-- Every held block is released (R55). -/
def StreamRecord.flush (r : StreamRecord) : StreamRecord := { r with held := [] }

/-! ## Arrival (R57 to R61) -/

/-- A record waiting for its blocks, in which the fill check follows a store. -/
def StreamState.filling : StreamState → Bool
  | .fill => true
  | .starved => true
  | _ => false

/-- The outcome of an arrival: the record, and the free slots of the pool. -/
abbrev StreamOutcome := StreamRecord × Nat

/-- R59: the record follows the console to a new point of the sequence. -/
def StreamRecord.resynchronise (r : StreamRecord) (b : Block) (free : Nat) : StreamOutcome :=
  let free' := free + r.held.length
  let r' := { r.flush with x := b.seq, missingRun := 0, state := .fill, periodValues := silence
                           counters := { r.counters with resync := sat16 r.counters.resync } }
  if free' = 0 then (r', 0) else ((r'.store b).fillCheck, free' - 1)

/-- The cases of R57 in their order. -/
def StreamRecord.arrive (r : StreamRecord) (b : Block) (free : Nat) : StreamOutcome :=
  let d := distance r.x b.seq
  if r.state = .closed then (r.count fun c => { c with unbound := sat16 c.unbound }, free)
  else if 128 ≤ d then (r.count fun c => { c with late := sat16 c.late }, free)
  else if r.limit ≤ d then
    if r.state.filling then r.resynchronise b free
    else (r.count fun c => { c with overrun := sat16 c.overrun }, free)
  else if r.holds b.seq then (r.count fun c => { c with duplicate := sat16 c.duplicate }, free)
  else if free = 0 then (r.count fun c => { c with exhausted := sat16 c.exhausted }, free)
  else
    let r' := r.store b
    (if r.state.filling then r'.fillCheck else r', free - 1)

/-- The record of a voice replaced, with the pool's free slots. -/
def StreamBuffers.put (sb : StreamBuffers) (v : Fin 8) (o : StreamOutcome) : StreamBuffers :=
  { sb with records := sb.records.set v o.1, freeSlots := o.2 }

/-- A stream block of 65 body bytes whose voice is 0..7 or stray (R56). -/
def StreamBuffers.take (sb : StreamBuffers) (q voiceByte : Byte) (samples : List Byte) : StreamBuffers :=
  match number? 8 voiceByte.toNat with
  | some v => sb.put v ((sb.records.get v).arrive ⟨q, samples⟩ sb.freeSlots)
  | none => { sb with stray := sat16 sb.stray }

/-- A stream block handed over by the link: a wrong length is counted in the link's BAD_LENGTH (R56). -/
def State.takeBlock (s : State) (q : Byte) (body : List Byte) : State :=
  match body with
  | voiceByte :: samples =>
    if samples.length = 64 then s.withStream (s.stream.take q voiceByte samples)
    else s.withLink (s.link.count fun c => { c with badLength := sat16 c.badLength })
  | [] => s.withLink (s.link.count fun c => { c with badLength := sat16 c.badLength })

/-! ## Playout (R62 to R66) -/

/-- A missing period (R65): the last block played, halved, quartered, then nothing. -/
def conditioned (missingRun : Nat) (last : List Byte) : List Byte :=
  match missingRun with
  | 1 => last.map fun b => b.sshiftRight 1
  | 2 => last.map fun b => b.sshiftRight 2
  | _ => silence

/-- R65 and R66: block X is missing. -/
def StreamRecord.miss (r : StreamRecord) : StreamRecord :=
  let run := r.missingRun + 1
  { r with x := r.x + 1, missingRun := run, periodValues := conditioned run r.lastPlayed
           state := if 3 ≤ run then .starved else r.state
           counters := { r.counters with lost := sat16 r.counters.lost } }

/-- R64: block X is played. -/
def StreamRecord.play (r : StreamRecord) (b : Block) : StreamRecord :=
  { r with x := r.x + 1, missingRun := 0, periodValues := b.samples, lastPlayed := b.samples
           held := r.held.filter fun h => h.seq != r.x
           counters := { r.counters with played := sat16 r.counters.played } }

/-- One record at the stream buffers' period mark (R62): the record, the slots given back, and whether it
has entered STARVED. -/
def StreamRecord.playout (r : StreamRecord) : StreamRecord × Nat × Bool :=
  match r.state with
  | .play =>
    match r.held.find? fun b => b.seq == r.x with
    | some b => let r' := r.play b; (r', r.held.length - r'.held.length, false)
    | none => let r' := r.miss; (r', 0, decide (r'.state = .starved))
  | _ => ({ r with periodValues := silence }, 0, false)

/-- The period mark's work on voice `v`'s record, with the STREAM notice of R66. -/
def playoutOne (s : State) (v : Fin 8) : State :=
  let (r, freed, starved) := (s.stream.records.get v).playout
  let s' := s.withStream (s.stream.put v (r, s.stream.freeSlots + freed))
  if starved then s'.joinStream v else s'

/-- The stream buffers' period mark: a new period begins and every record acts (R62). -/
def State.playoutAll (s : State) : State :=
  (numbers 8).foldl playoutOne (s.withStream { s.stream with sampleIndex := 0 })

/-- The stream-close event for a voice (R71). -/
def StreamBuffers.close (sb : StreamBuffers) (v : Fin 8) : StreamBuffers :=
  let r := sb.records.get v
  if r.state = .closed then sb
  else sb.put v ({ r.flush with state := .closed, periodValues := silence }, sb.freeSlots + r.held.length)

/-- The value the stream buffers give voice `v` for the coming output sample (R63). -/
def StreamBuffers.sample (sb : StreamBuffers) (v : Fin 8) : Int :=
  signed ((sb.records.get v).periodValues.getD sb.sampleIndex 0)

/-! ## Requests -/

/-- What R69 makes of the record. -/
def StreamRecord.opened (r : StreamRecord) (start : Byte) (depth limit : Nat) : StreamRecord :=
  { r with state := .fill, x := start, depth := depth, limit := limit, held := [], missingRun := 0
           lastPlayed := silence, periodValues := silence, counters := .zero }

/-- Stream Open (R69). -/
def takeStreamOpen (voice start depth limit : Nat) (s : State) : Taken :=
  match number? 8 voice with
  | none => refuse s .badField
  | some v =>
    if start ≤ 255 ∧ (2 ≤ depth ∧ depth ≤ 16) ∧ (2 ≤ limit ∧ limit ≤ 16) ∧ depth ≤ limit then
      let r := s.stream.records.get v
      let s' := s.withStream (s.stream.put v (r.opened (BitVec.ofNat 8 start) depth limit, s.stream.freeSlots + r.held.length))
      accept (s'.writePending v fun p => { p with mode := some .stream, streamOpen := true })
        (.streamOpen voice start depth limit)
    else refuse s .badField

/-- Stream Close (R70). -/
def takeStreamClose (voice : Nat) (s : State) : Taken :=
  match number? 8 voice with
  | none => refuse s .badField
  | some v =>
    if (s.stream.records.get v).state = .closed then refuse s .nothingPending
    else
      accept ((s.withStream (s.stream.close v)).writePending v fun p => { p with mode := some .off }) (.voice voice)

/-- The counters of one record and the stray count cleared (R72). -/
def StreamBuffers.clearCounters (sb : StreamBuffers) (v : Fin 8) : StreamBuffers :=
  { sb with records := sb.records.modify v fun r => { r with counters := .zero }, stray := 0 }

/-- Stream Status (R72). -/
def takeStreamStatus (voice : Nat) (clear : Bool) (s : State) : Taken :=
  match number? 8 voice with
  | none => refuse s .badField
  | some v =>
    let r := s.stream.records.get v
    accept (if clear then s.withStream (s.stream.clearCounters v) else s)
      (.streamStatus r.state r.x r.depth r.limit r.missingRun (r.held.map Block.seq) r.counters s.stream.freeSlots s.stream.stray)

/-- STREAM_OPEN (R69). -/
def execStreamOpen (tag : Byte) (voice start depth limit : Nat) (s : State) : Result :=
  serve (.streamOpen tag voice start depth limit) (takeStreamOpen voice start depth limit) s

/-- STREAM_CLOSE (R70). -/
def execStreamClose (tag : Byte) (voice : Nat) (s : State) : Result :=
  serve (.streamClose tag voice) (takeStreamClose voice) s

/-- STREAM_STATUS (R72). -/
def execStreamStatus (tag : Byte) (voice : Nat) (clear : Bool) (s : State) : Result :=
  serve (.streamStatus tag voice clear) (takeStreamStatus voice clear) s

/-- STREAM_PLAYOUT (R62). -/
def execStreamPlayout (s : State) : Result := onCore s State.playoutAll

end Sys2Proof.Machine
end

