-- ==== Sys2Proof/Machine/Voice.lean ====
section
/-! DEFINITION. The voice engine and wave memory (chapter 3): the latch, the envelope, table playback, and the
voice and wave requests. -/

namespace Sys2Proof.Machine

/-! ## Becoming OFF, starting -/

/-- The voice becomes OFF (R34). -/
def VoiceRecord.turnedOff (v : VoiceRecord) : VoiceRecord :=
  { v with mode := .off, posInt := 0, posFrac := 0, envState := .release, envLevel := 0 }

/-- The voice is TABLE and is started (R37 step 2, R38). -/
def VoiceRecord.started (v : VoiceRecord) : VoiceRecord :=
  { v with mode := .table, posInt := 0, posFrac := 0, envState := .attack, envLevel := 0 }

/-! ## The latch (R37 to R39) -/

/-- Step 1: each field present replaces the same field of the record. -/
def VoiceRecord.takeFields (v : VoiceRecord) (p : PendingVoice) : VoiceRecord :=
  { v with volume := p.volume.getD v.volume, substitution := p.substitution.getD v.substitution
           waveStart := p.waveStart.getD v.waveStart, waveLength := p.waveLength.getD v.waveLength
           loopStart := p.loopStart.getD v.loopStart, loopMode := p.loopMode.getD v.loopMode
           pitchStep := p.pitchStep.getD v.pitchStep, attackRate := p.attackRate.getD v.attackRate
           sustainLevel := p.sustainLevel.getD v.sustainLevel, releaseRate := p.releaseRate.getD v.releaseRate }

/-- Step 2: the pending mode; the flag says whether the voice was started here. -/
def VoiceRecord.takeMode (v : VoiceRecord) : Option VoiceMode → VoiceRecord × Bool
  | none => (v, false)
  | some .off => (if v.mode = .off then v else v.turnedOff, false)
  | some .table => if v.mode = .table then (v, false) else (v.started, true)
  | some .stream => ({ v with mode := .stream }, false)

/-- Step 3: a TABLE voice not started in step 2 goes back to 0.0 when its wave start or length changed. -/
def VoiceRecord.takeWave (v old : VoiceRecord) (startedNow : Bool) : VoiceRecord :=
  if v.mode = .table ∧ startedNow = false ∧ (v.waveStart ≠ old.waveStart ∨ v.waveLength ≠ old.waveLength) then
    { v with posInt := 0, posFrac := 0 }
  else v

/-- Step 4: the pending key against the mode after step 2 (R38). -/
def VoiceRecord.takeKey (v : VoiceRecord) (mode : Option VoiceMode) : Option Key → VoiceRecord
  | none => v
  | some .on =>
    match mode, v.mode with
    | some .off, _ => v
    | some .stream, _ => v
    | _, .stream => v
    | _, _ => v.started
  | some .off =>
    if v.mode = .table ∧ v.envState ≠ .release then { v with envState := .release } else v

/-- The stream close condition (R39), on the mode after step 2. -/
def closesStream (old after : VoiceRecord) (p : PendingVoice) : Bool :=
  decide (after.mode ≠ .stream) && (decide (old.mode = .stream) || p.streamOpen)

/-- One voice's latch: the record after it, and whether the stream-close event is given. -/
def VoiceRecord.latch (old : VoiceRecord) (p : PendingVoice) : VoiceRecord × Bool :=
  let (moded, startedNow) := (old.takeFields p).takeMode p.mode
  ((moded.takeWave old startedNow).takeKey p.mode p.key, closesStream old moded p)

/-! ## The envelope (R42 to R44) -/

/-- One envelope step; the flag says that a release reached 0 and the voice ended. -/
def VoiceRecord.stepEnvelope (v : VoiceRecord) : VoiceRecord × Bool :=
  if v.mode = .table then
    match v.envState with
    | .attack =>
      let level := min (v.envLevel + v.attackRate) v.sustainLevel
      ({ v with envLevel := level, envState := if level = v.sustainLevel then .sustain else .attack }, false)
    | .sustain => ({ v with envLevel := v.sustainLevel }, false)
    | .release =>
      let level := v.envLevel - v.releaseRate
      if level = 0 then (v.turnedOff, true) else ({ v with envLevel := level }, false)
  else (v, false)

/-- Voice `v` at the voice engine's period mark: the latch, the stream-close event, the envelope step, and the
VOICE_END of a finished release. -/
def latchOne (s : State) (v : Fin 8) : State :=
  let (latched, closes) := (s.voice.voices.get v).latch (s.voice.pendings.get v)
  let (stepped, ended) := latched.stepEnvelope
  let s' := s.withVoice { s.voice with voices := s.voice.voices.set v stepped, pendings := s.voice.pendings.set v .empty }
  let s'' := if closes then s'.withStream (s'.stream.close v) else s'
  if ended then s''.joinVoiceEnd v else s''

/-- The voice engine's period mark (R37, R42). -/
def State.latchVoices (s : State) : State := (numbers 8).foldl latchOne s

/-! ## Table playback (R40, R41) -/

/-- The position moves on by one output sample; the flag says that a ONCE wave ended. -/
def VoiceRecord.advance (v : VoiceRecord) : VoiceRecord × Bool :=
  let frac := v.posFrac + v.pitchStep
  let pos := v.posInt + frac / 256
  if pos < v.waveLength then ({ v with posInt := pos, posFrac := frac % 256 }, false)
  else
    match v.loopMode with
    | .loop =>
      ({ v with posInt := v.loopStart + (pos - v.waveLength) % (v.waveLength - v.loopStart), posFrac := frac % 256 }, false)
    | .once => (v.turnedOff, true)

/-- What voice `v` gives the mixer for the coming output sample: its sample value, volume and envelope level, and
nothing when it is OFF (R45). -/
def State.voiceSource (s : State) (v : Fin 8) : Option (Int × Nat × Nat) :=
  let r := s.voice.voices.get v
  match r.mode with
  | .off => none
  | .table => some (signed (Memory.read s.voice.wave (r.waveStart + r.posInt)), r.volume, r.envLevel)
  | .stream => some (s.stream.sample v, r.volume, 255)

/-- Voice `v` moves on after an output sample, with the VOICE_END of a ONCE wave (R40, R41, R47). -/
def advanceOne (s : State) (v : Fin 8) : State :=
  let r := s.voice.voices.get v
  if r.mode = .table then
    let (r', ended) := r.advance
    let s' := s.withVoice { s.voice with voices := s.voice.voices.set v r' }
    if ended then s'.joinVoiceEnd v else s'
  else s

/-- Every voice moves on after an output sample. -/
def State.advanceVoices (s : State) : State := (numbers 8).foldl advanceOne s

/-! ## Requests -/

/-- Voice Set (R50). -/
def takeVoiceSet (voice : Nat) (fields : VoiceSetFields) (s : State) : Taken :=
  match number? 8 voice with
  | none => refuse s .badField
  | some v =>
    if fields.namesField && fields.singlesOk &&
        voiceSetFits fields.written (s.voice.pendings.get v) (s.voice.voices.get v) then
      accept (s.writePending v fun p => p.merge fields.written) (.voiceSet voice fields.written)
    else refuse s .badField

/-- Key On and Key Off (R51). -/
def takeKeyRequest (key : Key) (voice : Nat) (s : State) : Taken :=
  match number? 8 voice with
  | none => refuse s .badField
  | some v => accept (s.writePending v fun p => { p with key := some key }) (.voice voice)

/-- Voice Read (R52). -/
def takeVoiceRead (voice : Nat) (s : State) : Taken :=
  match number? 8 voice with
  | none => refuse s .badField
  | some v => accept s (.voiceRead (s.voice.voices.get v) (s.voice.pendings.get v))

/-- Wave Write (R48). -/
def takeWaveWrite (address : Nat) (bytes : List Byte) (s : State) : Taken :=
  if rangeOk 8192 address bytes.length then
    accept (s.withVoice { s.voice with wave := Memory.writeBytes s.voice.wave address bytes }) (.written address bytes.length)
  else refuse s .badField

/-- Wave Read (R49). -/
def takeWaveRead (address count : Nat) (s : State) : Taken :=
  if rangeOk 8192 address count then accept s (.waveRead address (Memory.readBytes s.voice.wave address count))
  else refuse s .badField

/-- VOICE_SET (R50). -/
def execVoiceSet (tag : Byte) (voice : Nat) (fields : VoiceSetFields) (s : State) : Result :=
  serve (.voiceSet tag voice fields) (takeVoiceSet voice fields) s

/-- KEY_ON (R51). -/
def execKeyOn (tag : Byte) (voice : Nat) (s : State) : Result := serve (.keyOn tag voice) (takeKeyRequest .on voice) s

/-- KEY_OFF (R51). -/
def execKeyOff (tag : Byte) (voice : Nat) (s : State) : Result := serve (.keyOff tag voice) (takeKeyRequest .off voice) s

/-- VOICE_READ (R52). -/
def execVoiceRead (tag : Byte) (voice : Nat) (s : State) : Result := serve (.voiceRead tag voice) (takeVoiceRead voice) s

/-- WAVE_WRITE (R48). -/
def execWaveWrite (tag : Byte) (address : Nat) (bytes : List Byte) (s : State) : Result :=
  serve (.waveWrite tag address bytes) (takeWaveWrite address bytes) s

/-- WAVE_READ (R49). -/
def execWaveRead (tag : Byte) (address count : Nat) (s : State) : Result :=
  serve (.waveRead tag address count) (takeWaveRead address count) s

/-- VOICE_LATCH (R37). -/
def execVoiceLatch (s : State) : Result := onCore s State.latchVoices

end Sys2Proof.Machine
end

