-- ==== Sys2Proof/Machine/Cues.lean ====
section
/-! DEFINITION. The cue unit (chapter 9): the cue table, starts at once and at the measure mark, key-off countdowns, and
the cue requests. -/

namespace Sys2Proof.Machine

/-! ## Acting a start (R145 to R148) -/

/-- Whether voice `v` is streaming for a cue (R145). -/
def State.streaming (s : State) (v : Fin 8) : Bool :=
  decide ((s.voice.voices.get v).mode = .stream) || decide ((s.voice.pendings.get v).mode = some .stream)

/-- The sound part in a voice's pending record (R145): every table field and the volume, mode TABLE, key ON. -/
def SoundPart.writeInto (p : SoundPart) (r : PendingVoice) : PendingVoice :=
  { r with volume := some p.volume, waveStart := some p.waveStart, waveLength := some p.waveLength
           loopStart := some p.loopStart, loopMode := some p.loopMode, pitchStep := some p.pitchStep
           attackRate := some p.attackRate, sustainLevel := some p.sustainLevel, releaseRate := some p.releaseRate
           mode := some .table, key := some .on }

/-- A voice's countdown replaced. -/
def State.setCountdown (s : State) (v : Fin 8) (c : Option Countdown) : State :=
  s.withCue { s.cue with countdowns := s.cue.countdowns.set v c }

/-- The sound part of a start of cue `cue` (R145, R146). -/
def State.actSound (s : State) (cue : Fin 8) (steal : Bool) : Option SoundPart → State × SoundOutcome
  | none => (s, .absent)
  | some p =>
    if s.streaming p.voice ∧ steal = false then (s, .skipped)
    else
      ((s.writePending p.voice p.writeInto).setCountdown p.voice (p.keyOffAfter.map fun n => ⟨n, cue, false⟩), .played)

/-- The outcome the cue unit gives for the driver's refusal (R147). -/
def rumbleRefusal : Status → RumbleOutcome
  | .faulted => .faulted
  | .busy => .busy
  | _ => .outranked

/-- The rumble part of a start: a REPLACE at the cue's priority (R95, R147). -/
def State.actRumble (s : State) : Option RumblePart → State × RumbleOutcome
  | none => (s, .absent)
  | some p =>
    match s.rumble.submit .replace p.priority p.steps with
    | .taken r _ => (s.withRumble r, .played)
    | .refused status => (s, rumbleRefusal status)

/-- A start acts with the table entry as it stands (R143, R145 to R147): both parts, and their outcomes. -/
def State.actParts (s : State) (cue : Fin 8) : State × SoundOutcome × RumbleOutcome :=
  match s.cue.table.get cue with
  | none => (s, .absent, .absent)
  | some d =>
    let (s', sound) := s.actSound cue d.steal d.sound
    let (s'', rumble) := s'.actRumble d.rumble
    (s'', sound, rumble)

/-- A start from the list acts and is reported (R148). -/
def actPending (s : State) (p : PendingStart) : State :=
  let (s', sound, rumble) := s.actParts p.cue
  match p.source with
  | .request tag => s'.answer Kind.cueStart tag .ok (.cueReport p.cue.val sound rumble)
  | .event entry => s'.pendCue ⟨.acted sound rumble, p.cue.val, entry⟩

/-- The starts of a measure mark act, oldest first, and the list is empty (R143). -/
def State.actStarts (s : State) : State :=
  s.cue.starts.foldl actPending (s.withCue { s.cue with starts := [], measureDue := false })

/-! ## Key-off countdowns and period marks (R140, R146) -/

/-- A countdown that has reached 0 writes pending key OFF and becomes absent (R146). -/
def State.finishCountdown (s : State) (v : Fin 8) : State :=
  match s.cue.countdowns.get v with
  | some c =>
    if c.begun ∧ c.count = 0 then (s.writePending v fun p => { p with key := some .off }).setCountdown v none else s
  | none => s

/-- A countdown that is present is stepped (R146). -/
def stepCountdown : Option Countdown → Option Countdown
  | none => none
  | some c => some (if c.begun then { c with count := c.count - 1 } else { c with begun := true })

/-- Work of an earlier mark that has not been done: its key-offs first, then its measure mark (log entry 17). -/
def State.finishMark (s : State) : State :=
  let s' := (numbers 8).foldl State.finishCountdown s
  if s'.cue.measureDue then s'.actStarts else s'

/-- The cue unit's period mark: every countdown is stepped, the period count rises, and the 32nd mark is a measure
mark (R140, R146). -/
def State.cueMark (s : State) : State :=
  let s' := s.finishMark
  let wraps := decide (s'.cue.periodCount + 1 = 32)
  s'.withCue { s'.cue with countdowns := s'.cue.countdowns.map stepCountdown
                           periodCount := if wraps then 0 else s'.cue.periodCount + 1
                           measureDue := wraps }

/-- The measure mark: after the key-offs of the same mark, every waiting start acts (R143). -/
def State.measure (s : State) : State := if s.cue.measureDue then s.finishMark else s

/-! ## Starts (R142) -/

/-- An event start (R142). -/
def State.eventStart (s : State) (cue entry : Nat) (quantize : Bool) : State :=
  match number? 8 cue with
  | none => s.pendCue ⟨.noCue, cue, entry⟩
  | some c =>
    if (s.cue.table.get c).isNone then s.pendCue ⟨.noCue, cue, entry⟩
    else if quantize then
      if s.cue.starts.length < 4 then s.withCue { s.cue with starts := s.cue.starts ++ [⟨c, .event entry⟩] }
      else s.pendCue ⟨.dropped, cue, entry⟩
    else actPending s ⟨c, .event entry⟩

/-! ## Requests -/

/-- Cue Define (R141); its reply carries the cue number beside the entry: DESIGN CHOICE (log entry 35). -/
def takeCueDefine (fields : CueFields) (s : State) : Taken :=
  match fields.stored with
  | some (cue, d) => accept (s.withCue { s.cue with table := s.cue.table.set cue (some d) }) (.cueDefine cue.val d)
  | none => refuse s .badField

/-- Cue Start (R142). -/
def takeCueStart (tag : Byte) (cue : Nat) (quantize : Coded Bool) (s : State) : Taken :=
  match number? 8 cue, coded? quantize with
  | some c, some q =>
    if (s.cue.table.get c).isNone then refuse s .badField
    else if q then
      if s.cue.starts.length < 4 then defer (s.withCue { s.cue with starts := s.cue.starts ++ [⟨c, .request tag⟩] })
      else refuse s .queueFull
    else
      let (s', sound, rumble) := s.actParts c
      accept s' (.cueReport cue sound rumble)
  | _, _ => refuse s .badField

/-- What cancelling a start does beside the reply (R144). -/
def cancelled (s : State) (p : PendingStart) : Taken :=
  match p.source with
  | .request tag => ⟨s, some (.ok, .cueCancel p.source), [⟨Kind.cueStart + 0x80, tag, .abandoned, .none⟩]⟩
  | .event entry => accept (s.pendCue ⟨.cancelled, p.cue.val, entry⟩) (.cueCancel p.source)

/-- Cue Cancel (R144): the oldest waiting start of the cue leaves the list. -/
def takeCueCancel (cue : Nat) (s : State) : Taken :=
  match number? 8 cue with
  | none => refuse s .badField
  | some c =>
    match s.cue.starts.find? fun p => decide (p.cue = c) with
    | none => refuse s .nothingPending
    | some p => cancelled (s.withCue { s.cue with starts := s.cue.starts.eraseP fun p => decide (p.cue = c) }) p

/-- Cue Status (R148). -/
def takeCueStatus (s : State) : Taken :=
  accept s (.cueStatus s.cue.table s.cue.starts s.cue.periodCount (32 - s.cue.periodCount) s.cue.countdowns)

/-- CUE_DEFINE (R141). -/
def execCueDefine (tag : Byte) (fields : CueFields) (s : State) : Result := serve (.cueDefine tag fields) (takeCueDefine fields) s
/-- CUE_START (R142). -/
def execCueStart (tag : Byte) (cue : Nat) (quantize : Coded Bool) (s : State) : Result :=
  serve (.cueStart tag cue quantize) (takeCueStart tag cue quantize) s
/-- CUE_CANCEL (R144). -/
def execCueCancel (tag : Byte) (cue : Nat) (s : State) : Result := serve (.cueCancel tag cue) (takeCueCancel cue) s
/-- CUE_STATUS (R148). -/
def execCueStatus (tag : Byte) (s : State) : Result := serve (.cueStatus tag) takeCueStatus s
/-- CUE_PERIOD_MARK (R140). -/
def execCuePeriodMark (s : State) : Result := onCore s State.cueMark
/-- KEY_OFF_COUNTDOWN (R146). -/
def execKeyOffCountdown (voice : Nat) (s : State) : Result :=
  onCore s fun s => match number? 8 voice with
    | some v => s.finishCountdown v
    | none => s
/-- MEASURE_MARK (R143). -/
def execMeasureMark (s : State) : Result := onCore s State.measure

end Sys2Proof.Machine
end

