-- ==== Sys2Proof/Machine/GameDays.lean ====
section
/-! DEFINITION. The game-day unit (chapter 8): the record, crossings, catch-up and rewind, the event table with its
firings and releases, and their requests. -/

namespace Sys2Proof.Machine

/-! ## The game-day record -/

def State.record (s : State) : GameDayRecord := s.backup.record

/-- The record is written again whole, with a new check (R123). -/
def State.writeRecord (s : State) (r : GameDayRecord) : State :=
  s.withBackup { s.backup with record := { r with checkMatches := true } }

/-- The calendar's instant as it stands (R114). -/
def State.now (s : State) : Instant := s.backup.calendar.now

/-- GAMEDAY becomes pending with the record as it stands (R129). -/
def State.pendGameDayOf (s : State) (reason : GameDayReason) (index : Int) (credited : Nat) : State :=
  let r := s.record
  s.pendGameDay ⟨reason, r.valid, r.counter, r.highWater, index, credited, r.forfeited, r.rewind⟩

/-! ## Entries of the event table (R132, R133) -/

def State.entry (s : State) (e : Fin 16) : EventEntry := s.backup.events.get e
def State.setEvent (s : State) (e : Fin 16) (x : EventEntry) : State :=
  s.withBackup { s.backup with events := s.backup.events.set e x }

/-- An entry's condition (R133). -/
def triggerDue (record : GameDayRecord) (now : Instant) (x : EventEntry) : Bool :=
  match x.trigger with
  | .gameDay value => record.valid && decide (value ≤ record.counter)
  | .dateTime i => now.atOrAfter i
  | .daily _ =>
    match x.due with
    | .at i => now.atOrAfter i
    | _ => false

/-- An ARMED entry that is due. -/
def EventEntry.isDue (x : EventEntry) (record : GameDayRecord) (now : Instant) : Bool :=
  decide (x.state = .armed) && triggerDue record now x

/-- The due instant of a DAILY entry set to the next occurrence after an instant; other kinds have none (R133). -/
def EventEntry.rescheduled (x : EventEntry) (after : Instant) : EventEntry :=
  match x.trigger with
  | .daily time => { x with due := nextOccurrence time after }
  | _ => x

/-- Releasing an entry (R136): a one-shot entry becomes FREE, a DAILY entry is ARMED again. -/
def EventEntry.released (x : EventEntry) (now : Instant) : EventEntry :=
  match x.trigger with
  | .daily _ =>
    let armed := { x with state := .armed, late := false }
    match x.due with
    | .at i => if now.atOrAfter i then armed.rescheduled now else armed
    | _ => armed
  | _ => .freed

def State.releaseEntry (s : State) (e : Fin 16) : State := s.setEvent e ((s.entry e).released s.now)

/-! ## Firing (R134, R135) -/

/-- The last step of both firings: FIRED and joined to EVENTS when that is enabled, else released at once. -/
def State.reportFiring (s : State) (e : Fin 16) : State :=
  if maskEnables s.link.mask .events then (s.setEvent e { s.entry e with state := .fired }).joinEvents e
  else s.releaseEntry e

/-- Steps 1 and 2 of both firings: the fired-at instant, the late mark, the next occurrence. -/
def EventEntry.fired (x : EventEntry) (now : Instant) (late : Bool) : EventEntry :=
  { x with firedAt := now, late := late }.rescheduled now

/-- An entry fires on time, judged at instant `i` (R134). -/
def State.fireOnTime (s : State) (i : Instant) (e : Fin 16) : State :=
  let x := s.entry e
  let s' := s.setEvent e (x.fired i false)
  let s'' := match x.cue with
    | some cue => s'.eventStart cue e.val x.quantize
    | none => s'
  s''.reportFiring e

/-- An entry fires late, judged at instant `i` (R135): no cue is started. -/
def State.fireLate (s : State) (i : Instant) (e : Fin 16) : State :=
  (s.setEvent e ((s.entry e).fired i true)).reportFiring e

/-- An entry judged on time at instant `i`. -/
def judgeOnTime (i : Instant) (s : State) (e : Fin 16) : State := if (s.entry e).isDue s.record i then s.fireOnTime i e else s
/-- An entry judged in a catch-up made from instant `i`. -/
def judgeLate (i : Instant) (s : State) (e : Fin 16) : State := if (s.entry e).isDue s.record i then s.fireLate i e else s

/-- The ARMED entries judged in entry-number order (R134). -/
def State.sweepOnTime (s : State) (i : Instant) : State := (numbers 16).foldl (judgeOnTime i) s
/-- The ARMED entries judged in entry-number order by a catch-up (R135). -/
def State.sweepLate (s : State) (i : Instant) : State := (numbers 16).foldl (judgeLate i) s

/-! ## Crossing, catch-up, rewind (R126, R127) -/

/-- The index of the calendar's instant by the record's offset (R124). -/
def State.index (s : State) : Int := gameDayIndex s.record.rollover s.now

/-- A normal crossing to game-day index `index` (R126). -/
def State.cross (s : State) (index : Int) : State :=
  let r := s.record
  (s.writeRecord { r with counter := r.counter + 1, highWater := index }).pendGameDayOf .crossing index 1

/-- The game-day part of a catch-up to game-day index `index` (R127). -/
def State.creditDays (s : State) (index : Int) : State :=
  let r := s.record
  let delta := index - r.highWater
  if 0 < delta then
    let credited := min delta.toNat r.cap
    (s.writeRecord { r with counter := r.counter + credited, forfeited := r.forfeited + (delta.toNat - credited)
                            highWater := index }).pendGameDayOf .catchUp index credited
  else if delta < 0 then (s.writeRecord { r with rewind := true }).pendGameDayOf .rewind index 0
  else s

/-- A catch-up made from instant `i` (R127): the days when the record is valid, then the late firings. -/
def State.catchUp (s : State) (i : Instant) : State :=
  (if s.record.valid then s.creditDays (gameDayIndex s.record.rollover i) else s).sweepLate i

/-- A second event that carries instant `i` (R126). The calendar stands at that instant, or, when the game-day unit took a
clock-set event first, at the one that was set; the instant of the judgement is the one carried (R128; log entry 26). -/
def State.secondEvent (s : State) (i : Instant) : State :=
  let index := gameDayIndex s.record.rollover i
  if s.record.valid ∧ s.record.highWater + 1 < index then s.catchUp i
  else (if s.record.valid ∧ index = s.record.highWater + 1 then s.cross index else s).sweepOnTime i

/-- A DAILY entry after a backward set (R128). -/
def EventEntry.afterBackwardSet (x : EventEntry) (now : Instant) : EventEntry :=
  match x.state with
  | .free => x
  | _ => x.rescheduled now

/-- The clock-set event (R128); the calendar stands at the new instant. -/
def State.clockSet (s : State) (old : Instant) : State :=
  let s' := if s.now.earlier old then
      s.withBackup { s.backup with events := s.backup.events.map fun x => x.afterBackwardSet s.now }
    else s
  s'.catchUp s'.now

/-! ## Start-up (R123, R128, R136) -/

/-- The record check (R123). -/
def State.checkRecord (s : State) : State :=
  if s.record.checkMatches then s
  else
    let s' := s.writeRecord { s.record with valid := false }
    s'.pendGameDayOf .invalid s'.index 0

/-- An entry found FIRED at start-up is joined to EVENTS again (R136). -/
def rejoin (s : State) (e : Fin 16) : State := if (s.entry e).state = .fired then s.joinEvents e else s

/-- The start-up work: record check, rejoin, catch-up, catch-up-complete (R128). -/
def State.startUp (s : State) : State :=
  let s1 := (numbers 16).foldl rejoin s.checkRecord
  let s2 := if s1.record.valid ∧ s1.backup.calendar.valid then s1.creditDays s1.index else s1
  let s3 := s2.sweepLate s2.now
  s3.withLink { s3.link with catchUpDone := true }

/-! ## Requests -/

/-- The record as replies carry it: every field but the check. R131 says so of Game Day Get; of the replies of Game Day Start and
Game Day Clear Rewind, which R125 and R130 say carry the record, it is the model's choice (DESIGN CHOICE, log entry 34). -/
def GameDayRecord.reported (r : GameDayRecord) (index : Option Int) (calendarValid : Option Bool) : ReplyBody :=
  .gameDay r.valid r.counter r.start r.highWater r.startMark r.rollover r.cap r.forfeited r.rewind index calendarValid

/-- The record that Game Day Start writes (R125 steps 1 to 4). -/
def startedRecord (start rollover cap : Nat) (now : Instant) : GameDayRecord :=
  { valid := true, counter := start, start := start, highWater := gameDayIndex rollover now
    startMark := gameDayIndex rollover now, rollover := rollover, cap := cap, forfeited := 0, rewind := false
    checkMatches := true }

/-- Game Day Start (R125). -/
def takeGameDayStart (start rollover cap : Nat) (s : State) : Taken :=
  if ¬ (start ≤ 999999 ∧ rollover ≤ 86399 ∧ 1 ≤ cap ∧ cap ≤ 65535) then refuse s .badField
  else if s.supply.supply = .critical then refuse s .supplyCritical
  else if s.backup.calendar.valid = false then refuse s .clockInvalid
  else
    let s' := s.writeRecord (startedRecord start rollover cap s.now)
    let s'' := (s'.pendGameDayOf .started s'.index start).sweepOnTime s'.now
    accept s'' (s'.record.reported (some s'.index) none)

/-- Game Day Get (R131). -/
def takeGameDayGet (s : State) : Taken := accept s (s.record.reported (some s.index) (some s.backup.calendar.valid))

/-- Game Day Clear Rewind (R130). -/
def takeGameDayClearRewind (s : State) : Taken :=
  if s.supply.supply = .critical then refuse s .supplyCritical
  else if s.record.valid = false then refuse s .noGameDays
  else if s.record.rewind = false then refuse s .nothingPending
  else
    let s' := s.writeRecord { s.record with rewind := false }
    accept s' (s'.record.reported none none)

/-- Whether the entry's kind may be armed now (R137 step 4). -/
def armRefusal (s : State) : Trigger → Option Status
  | .gameDay _ => if s.record.valid then none else some .noGameDays
  | _ => if s.backup.calendar.valid then none else some .clockInvalid

/-- The entry that Event Set writes over what the entry held (R137); the fired-at instant is not written. -/
def EventEntry.armedWith (x : EventEntry) (trigger : Trigger) (cue : Option Nat) (quantize : Bool) (now : Instant) : EventEntry :=
  { x with state := .armed, trigger := trigger, due := .absent, cue := cue, quantize := quantize, late := false }.rescheduled now

/-- Event Set (R137). -/
def takeEventSet (entry : Nat) (trigger : TriggerFields) (cue : Option Nat) (quantize : Coded Bool) (s : State) : Taken :=
  match number? 16 entry, trigger.taken, coded? quantize with
  | some e, some t, some q =>
    if cue.all (fun c => decide (c ≤ 7)) then
      if (s.entry e).state = .fired then refuse s .busy
      else if s.supply.supply = .critical then refuse s .supplyCritical
      else match armRefusal s t with
        | some status => refuse s status
        | none =>
          let s' := judgeOnTime s.now (s.setEvent e ((s.entry e).armedWith t cue q s.now)) e
          accept s' (.eventEntry (s'.entry e))
    else refuse s .badField
  | _, _, _ => refuse s .badField

/-- An entry freed by Event Clear is no longer released by the frame that carries it (R136). -/
def withoutActing (e : Fin 16) : Option TxFrame → Option TxFrame
  | some ⟨.notice f, sending⟩ =>
    some ⟨.notice (if f.content.kind = .events then { f with acting := f.acting.filter (· != e.val) } else f), sending⟩
  | t => t

/-- Event Clear of an entry that is not FREE (R138). -/
def State.clearEntry (s : State) (e : Fin 16) : State :=
  let s' := s.setEvent e .freed
  s'.withLink { s'.link with notices := { s'.link.notices with events := s'.link.notices.events.filter (· != e) }
                             tx := withoutActing e s'.link.tx }

/-- Event Clear (R138). -/
def takeEventClear (entry : Nat) (s : State) : Taken :=
  match number? 16 entry with
  | none => refuse s .badField
  | some e =>
    if s.supply.supply = .critical then refuse s .supplyCritical
    else if (s.entry e).state = .free then refuse s .nothingPending
    else accept (s.clearEntry e) .none

/-- Event List (R138). -/
def takeEventList (s : State) : Taken := accept s (.eventList s.backup.events)

/-- START_UP_CATCH_UP (R128): once in each start-up. -/
def execStartUpCatchUp (s : State) : Result := onCore s fun s => if s.link.catchUpDone then s else s.startUp
/-- GAME_DAY_START (R125). -/
def execGameDayStart (tag : Byte) (start rollover cap : Nat) (s : State) : Result :=
  serve (.gameDayStart tag start rollover cap) (takeGameDayStart start rollover cap) s
/-- GAME_DAY_GET (R131). -/
def execGameDayGet (tag : Byte) (s : State) : Result := serve (.gameDayGet tag) takeGameDayGet s
/-- GAME_DAY_CLEAR_REWIND (R130). -/
def execGameDayClearRewind (tag : Byte) (s : State) : Result := serve (.gameDayClearRewind tag) takeGameDayClearRewind s
/-- EVENT_SET (R137). -/
def execEventSet (tag : Byte) (entry : Nat) (trigger : TriggerFields) (cue : Option Nat) (quantize : Coded Bool) (s : State) : Result :=
  serve (.eventSet tag entry trigger cue quantize) (takeEventSet entry trigger cue quantize) s
/-- EVENT_CLEAR (R138). -/
def execEventClear (tag : Byte) (entry : Nat) (s : State) : Result := serve (.eventClear tag entry) (takeEventClear entry) s
/-- EVENT_LIST (R138). -/
def execEventList (tag : Byte) (s : State) : Result := serve (.eventList tag) takeEventList s

end Sys2Proof.Machine
end

