-- ==== Sys2Proof/Machine/CalendarUnit.lean ====
section
/-! DEFINITION. The calendar (chapter 7): counting, the end clamp, Calendar Get and Calendar Set. -/

namespace Sys2Proof.Machine

/-- A second tick (R111); the divider passes from 32,767 back to 0. -/
def Calendar.tick (c : Calendar) : Calendar :=
  if c.now.second < lastSecond then { c with now := ⟨c.now.day, c.now.second + 1⟩, divider := 0 }
  else if c.now.day < lastDay then { c with now := ⟨c.now.day + 1, 0⟩, divider := 0 }
  else { c with ended := true, divider := 0 }

/-- Whether a tick would find the end clamp (R111). -/
def Calendar.clamped (c : Calendar) : Bool := decide (lastSecond ≤ c.now.second) && decide (lastDay ≤ c.now.day)

/-- The calendar counts a second (R111): the state after it, and the instant that its second event carries. The event is
given for a counted second while the core runs and its start-up catch-up has completed (R113, R128). -/
def State.countSecond (s : State) : State × Option Instant :=
  let s' := s.withBackup { s.backup with calendar := s.backup.calendar.tick }
  (s', if !s.backup.calendar.clamped && s.corePowered && s.link.catchUpDone then some s'.now else none)

/-- The game-day unit takes the second event of a counted second, if there is one. -/
def State.afterSecond (s : State) : Option Instant → State
  | some i => s.secondEvent i
  | none => s

/-- A second tick while the backup domain has power (R111, R113). -/
def State.secondTick (s : State) : State :=
  if s.backup.powered then s.countSecond.1.afterSecond s.countSecond.2 else s

/-- The fields of Calendar Get, from one instant (R116). -/
def Calendar.report (c : Calendar) : CalendarReport := ⟨c.now.dateTime, weekday c.now.day, c.now, c.valid, c.ended⟩

/-- Calendar Get (R116). -/
def takeCalendarGet (s : State) : Taken := accept s (.calendar s.backup.calendar.report)

/-- Calendar Set taken (R118): the new instant is written, and the clock-set event carries the old one. -/
def State.setClock (s : State) (d : DateTime) : State :=
  (s.withBackup { s.backup with calendar := { now := d.instant, valid := true, ended := false, divider := 0 } }).clockSet s.now

/-- Calendar Set together with a second tick (R119, R128): the calendar counts the second first, and the game-day unit takes
the clock-set event before the second event (log entry 26). -/
def State.setClockTicked (s : State) (d : DateTime) : State :=
  if s.backup.powered then (s.countSecond.1.setClock d).afterSecond s.countSecond.2 else s.setClock d

/-- Calendar Set (R117, R118). A tick that comes with a refused request is a second tick like any other. -/
def takeCalendarSet (f : CalendarSetFields) (s : State) : Taken :=
  let unset := if f.ticked then s.secondTick else s
  let i := f.date.instant
  if f.date.ok = false then refuse unset .badField
  else if s.supply.supply = .critical then refuse unset .supplyCritical
  else accept (if f.ticked then s.setClockTicked f.date else s.setClock f.date) (.calendarSet i.dateTime (weekday i.day) i)

/-- SECOND_TICK (R111): while the backup domain has power. -/
def execSecondTick (s : State) : Result := .next s.secondTick
/-- CALENDAR_GET (R116). -/
def execCalendarGet (tag : Byte) (s : State) : Result := serve (.calendarGet tag) takeCalendarGet s
/-- CALENDAR_SET (R118). -/
def execCalendarSet (tag : Byte) (fields : CalendarSetFields) (s : State) : Result :=
  serve (.calendarSet tag fields) (takeCalendarSet fields) s

end Sys2Proof.Machine
end

