-- ==== Sys2Proof/Machine/Framing.lean ====
section
/-! DEFINITION. Frames as bytes (R168 to R171): stuffing, the check, the receive deframer byte by byte, and the body
lengths of the request table. -/

namespace Sys2Proof.Machine

/-- The escape byte. -/
def escapeByte : Byte := 0xF8
/-- The delimiter byte. -/
def delimiterByte : Byte := 0xF9

/-! ## Sending (R168) -/

/-- An unstuffed byte as it is sent. -/
def stuffByte (b : Byte) : List Byte :=
  if b = escapeByte ∨ b = delimiterByte then [escapeByte, b ^^^ 0x20] else [b]

/-- The check bytes over kind, tag and body, high byte first. -/
def checkBytes (bytes : List Byte) : List Byte :=
  [((crc16 bytes) >>> 8).setWidth 8, (crc16 bytes).setWidth 8]

/-- A frame between its delimiters. -/
def stuffedFrame (kind tag : Byte) (body : List Byte) : List Byte :=
  (kind :: tag :: body ++ checkBytes (kind :: tag :: body)).flatMap stuffByte

/-- A frame on the wire after the delimiter that opens it: its stuffed bytes and the closing delimiter. -/
def wireFrame (kind tag : Byte) (body : List Byte) : List Byte := stuffedFrame kind tag body ++ [delimiterByte]

/-- The byte that the part is sending: a delimiter when it has nothing to send (R168). -/
def Link.sendingByte (l : Link) : Byte := l.out.headD delimiterByte

/-! ## Receiving (R170, R171) -/

/-- What the end of a frame comes to. -/
inductive RxEvent where
  | goodFrame (kind tag : Byte) (body : List Byte)
  | discarded (cause : DiscardCause)
  deriving DecidableEq, Repr

/-- A delimiter ends a frame of these unstuffed bytes (R170). -/
def closeFrame (bytes : List Byte) : RxEvent :=
  match bytes with
  | kind :: tag :: rest =>
    if bytes.length < 4 then .discarded .short
    else if checkBytes (bytes.take (bytes.length - 2)) = bytes.drop (bytes.length - 2) then
      .goodFrame kind tag (rest.take (rest.length - 2))
    else .discarded .badCheck
  | _ => .discarded .short

/-- One more unstuffed byte of a frame; the 77th ends it as LONG (R170). -/
def addByte (bytes : List Byte) (b : Byte) : Deframer × Option RxEvent :=
  if 76 ≤ bytes.length then (.hunt, some (.discarded .long)) else (.inFrame (bytes ++ [b]) false, none)

/-- One byte inside a frame (R168, R170). -/
def frameByte (bytes : List Byte) (escaped : Bool) (b : Byte) : Deframer × Option RxEvent :=
  if escaped then
    if b = 0xD8 then addByte bytes escapeByte
    else if b = 0xD9 then addByte bytes delimiterByte
    else if b = delimiterByte then (.between, some (.discarded .aborted))
    else (.hunt, some (.discarded .badEscape))
  else if b = delimiterByte then (.between, some (closeFrame bytes))
  else if b = escapeByte then (.inFrame bytes true, none)
  else addByte bytes b

/-- One byte received while LSEL is low (R170). -/
def Deframer.byte (d : Deframer) (b : Byte) : Deframer × Option RxEvent :=
  match d with
  | .hunt => if b = delimiterByte then (.between, none) else (.hunt, none)
  | .between => if b = delimiterByte then (.between, none) else frameByte [] false b
  | .inFrame bytes escaped => frameByte bytes escaped b

/-- Bytes received one after another: the deframer after them, and the frames that ended, in order. -/
def Deframer.bytes (d : Deframer) : List Byte → Deframer × List RxEvent
  | [] => (d, [])
  | b :: bs =>
    let (d', e) := d.byte b
    let (d'', es) := d'.bytes bs
    (d'', e.toList ++ es)

/-- The deframer after a frame has ended this way (the table of R170; a good frame, of any kind, ends BETWEEN). -/
def afterDiscard : DiscardCause → Deframer
  | .long => .hunt
  | .badEscape => .hunt
  | _ => .between

/-- The counter of a discarded frame (R170, R171). -/
def LinkCounters.discard (c : LinkCounters) : DiscardCause → LinkCounters
  | .short => { c with short := sat16 c.short }
  | .badCheck => { c with badCheck := sat16 c.badCheck }
  | .long => { c with long := sat16 c.long }
  | .badEscape => { c with badEscape := sat16 c.badEscape }
  | .aborted => { c with aborted := sat16 c.aborted }
  | .badKind => { c with badKind := sat16 c.badKind }

/-! ## Body lengths (the tables of R171) -/

/-- Whether a body has the length the table gives for its kind and its own counts; none for an unassigned code. -/
def lengthFits (kind : Byte) (body : List Byte) : Option Bool :=
  let n := body.length
  match kind.toNat with
  | 0x01 => some (n == 0)
  | 0x02 => some (n == 2)
  | 0x03 => some (n == 1)
  | 0x04 => some (n == 0)
  | 0x08 => some (n == 1)
  | 0x09 => some (n == 8)
  | 0x0A => some (n == 0)
  | 0x0C => some (n == 4)
  | 0x0D => some (n == 0)
  | 0x10 => match body with
    | _ :: hi :: lo :: rest => some (rest.length == namedBytes (numberOf [hi, lo]) voiceSizes)
    | _ => some false
  | 0x11 => some (n == 1)
  | 0x12 => some (n == 1)
  | 0x13 => some (n == 1)
  | 0x14 => some (decide (2 ≤ n))
  | 0x15 => some (n == 3)
  | 0x18 => some (n == 4)
  | 0x19 => some (n == 1)
  | 0x1A => some (n == 2)
  | 0x1C => match body with
    | names :: rest => some (rest.length == namedBytes names.toNat mixSizes)
    | [] => some false
  | 0x1D => some (n == 1)
  | 0x20 => match body with
    | _ :: _ :: steps :: rest => some (rest.length == 3 * steps.toNat)
    | _ => some false
  | 0x21 => some (n == 0)
  | 0x22 => match body with
    | names :: rest => some (rest.length == namedBytes names.toNat rumbleSizes)
    | [] => some false
  | 0x23 => some (n == 0)
  | 0x24 => some (n == 0)
  | 0x26 => some (n == 0)
  | 0x27 => some (n == 7)
  | 0x28 => some (n == 8)
  | 0x29 => some (n == 0)
  | 0x2A => some (n == 0)
  | 0x2B => some (n == 11)
  | 0x2C => some (n == 1)
  | 0x2D => some (n == 0)
  | 0x30 => some (decide (20 ≤ n) && n == 20 + 3 * Config.cueStepCount body)
  | 0x31 => some (n == 2)
  | 0x32 => some (n == 1)
  | 0x33 => some (n == 0)
  | 0x34 => some (decide (2 ≤ n))
  | 0x35 => some (n == 3)
  | 0x36 => some (n == 1)
  | 0x37 => some (n == 3)
  | 0x38 => some (n == 0)
  | 0x39 => some (n == 4)
  | 0x3A => some (n == 1)
  | 0x3B => some (n == 1)
  | 0x3C => some (n == 1)
  | _ => none

end Sys2Proof.Machine
end

