-- ==== Sys2Proof/Machine/Mixer.lean ====
section
/-! DEFINITION. The mixer and audio output (chapter 5): the latch, the arithmetic of one output sample, the CRITICAL
override, the test tone, Mix Set and Mix Status. -/

namespace Sys2Proof.Machine

/-! ## Substitution and contributions (R78 to R80) -/

/-- The substitution in force (R78). -/
def substitutionInForce : GlobalSubstitution → Substitution → Substitution
  | .muteAll, _ => .mute
  | .holdAll, _ => .hold
  | .none, own => own

/-- A voice's contribution without substitution: s × V × E / 256, rounded toward minus infinity (R80). -/
def liveContribution (s : Int) (volume level : Nat) : Int := s * volume * level / 256

/-- One voice at one output sample (R79, R80): what the mixer keeps for it after, and its contribution to the sum
(0 when it is OFF, which leaves it out). -/
def MixChannel.sample (c : MixChannel) (sub : Substitution) (source : Option (Int × Nat × Nat)) : MixChannel × Int :=
  let held := if sub = .hold ∧ c.lastSub ≠ .hold then c.last else c.held
  let given := match source, sub with
    | none, _ => 0
    | some (s, volume, level), .none => liveContribution s volume level
    | some _, .mute => 0
    | some _, .hold => held
  (⟨given, held, sub⟩, given)

/-- The channels after one output sample, and the sum S (R80). -/
def State.mixVoices (s : State) : Tab 8 MixChannel × Int :=
  (numbers 8).foldl (fun (acc : Tab 8 MixChannel × Int) v =>
    let sub := substitutionInForce s.mixer.inForce.global (s.voice.voices.get v).substitution
    let (c, given) := (acc.1.get v).sample sub (s.voiceSource v)
    (acc.1.set v c, acc.2 + given)) (s.mixer.channels, 0)

/-- The effective master volume (R81). -/
def Mixer.effective (m : Mixer) : Nat := min m.inForce.master m.latchedMceil

/-- The scaled sum before saturation (R81). -/
def scaledSum (sum : Int) (me : Nat) : Int := sum * me / 8192

/-- Saturation to −512..511 (R82). -/
def saturate (y : Int) : Int := max (-512) (min y 511)

/-! ## The test tone and the output (R83, R85) -/

/-- The tone value of the coming sample (R85 step 1). -/
def Mixer.toneValue (m : Mixer) : Int := if m.tonePositive then m.inForce.amplitude else -(m.inForce.amplitude : Int)

/-- The tone phase after a sample (R85 steps 2 and 3); it stands still while the tone is off. -/
def Mixer.stepTone (m : Mixer) : Mixer :=
  if m.inForce.tone then
    if m.inForce.halfPeriod ≤ m.toneCount + 1 then { m with tonePositive := !m.tonePositive, toneCount := 0 }
    else { m with toneCount := m.toneCount + 1 }
  else m

/-- The output value (R83). -/
def Mixer.outputValue (m : Mixer) (mix : Int) : Int :=
  if m.override ≠ .clear then 0 else if m.inForce.tone then m.toneValue else mix

/-- The first clipped sample of a period: the mark, the count and the CLIP notice (R82). -/
def State.countClip (s : State) : State :=
  if s.mixer.clipNow then s
  else
    let count := sat16 s.mixer.clipCount
    (s.withMixer { s.mixer with clipNow := true, clipCount := count }).pendClip count

/-- One output sample (R80 to R85): the mix, the clip count, the output code, the tone's phase, and then the voices
and the sample position move on. -/
def State.outputSample (s : State) : State :=
  let (channels, sum) := s.mixVoices
  let y := scaledSum sum s.mixer.effective
  let mix := saturate y
  let code := (s.mixer.outputValue mix + 512).toNat
  let s' := s.withMixer { s.mixer with channels := channels, code := code }.stepTone
  let s'' := (if mix = y then s' else s'.countClip).advanceVoices
  s''.withStream { s''.stream with sampleIndex := min (s''.stream.sampleIndex + 1) 64 }

/-! ## The latch (R76) -/

/-- Steps 1 to 3, 6 and 7 of R76, and the ceiling of step 4. -/
def Mixer.latch (m : Mixer) (mceil : Nat) : Mixer :=
  let p := m.pending
  let now : MixSettings :=
    { master := p.master.getD m.inForce.master, global := p.global.getD m.inForce.global, tone := p.tone.getD m.inForce.tone
      amplitude := p.amplitude.getD m.inForce.amplitude, halfPeriod := p.halfPeriod.getD m.inForce.halfPeriod }
  let starts := now.tone && !m.inForce.tone
  { m with clipLast := m.clipNow, clipNow := false, inForce := now, pending := .empty, latchedMceil := mceil
           tonePositive := starts || m.tonePositive, toneCount := if starts then 0 else m.toneCount
           override := if m.override = .releasing then .clear else m.override }

/-- The mixer's period mark (R76), with the master-volume report of step 5. -/
def State.mixerMark (s : State) : State :=
  let s' := s.withMixer (s.mixer.latch s.governor.record.mceil)
  match s.mixer.pending.master with
  | some volume => s'.reportVolume volume
  | none => s'

/-- The CRITICAL override on a supply-state change event (R84). -/
def Mixer.takeSupply (m : Mixer) : SupplyState → Mixer
  | .critical => { m with override := .held }
  | _ => { m with override := if m.override = .held then .releasing else m.override }

/-! ## Requests -/

/-- Mix Set (R86). -/
def takeMixSet (fields : MixSetFields) (s : State) : Taken :=
  if fields.ok then
    accept (s.withMixer { s.mixer with pending := s.mixer.pending.merge fields.written }) (.mixSet fields.written)
  else refuse s .badField

/-- Mix Status (R87). -/
def takeMixStatus (clear : Bool) (s : State) : Taken :=
  let m := s.mixer
  accept (if clear then s.withMixer { m with clipCount := 0 } else s)
    (.mixStatus m.inForce m.pending m.latchedMceil m.effective m.override m.tonePositive m.toneCount m.clipCount m.clipLast
      m.clipNow m.code)

/-- MIX_SET (R86). -/
def execMixSet (tag : Byte) (fields : MixSetFields) (s : State) : Result := serve (.mixSet tag fields) (takeMixSet fields) s
/-- MIX_STATUS (R87). -/
def execMixStatus (tag : Byte) (clear : Bool) (s : State) : Result := serve (.mixStatus tag clear) (takeMixStatus clear) s
/-- MIXER_LATCH (R76). -/
def execMixerLatch (s : State) : Result := onCore s State.mixerMark
/-- OUTPUT_SAMPLE (R83). -/
def execOutputSample (s : State) : Result := onCore s State.outputSample

end Sys2Proof.Machine
end

