-- ==== Sys2Proof/Machine/Supply.lean ====
section
/-! DEFINITION. The supply monitor (chapter 1): the converter, rounds and injected conversions, the zero-offset
calibration, the supply and battery states, and the monitor's requests. -/

namespace Sys2Proof.Machine

/-! ## The converter (R2 to R8) -/

/-- What the converter is doing: the injected conversion first, then a calibration, then the round (R2, R4, R6). -/
inductive Converting where
  | nothing
  | injected
  | calibration
  | channel (c : Channel)
  deriving DecidableEq, Repr

def SupplyMonitor.converting (m : SupplyMonitor) : Converting :=
  if m.injected = .converting then .injected
  else if m.calibration.isSome then .calibration
  else match m.round with
    | [] => .nothing
    | c :: _ => .channel c

/-- A BEMF request reaches the monitor (R4, R5): merged, held by a calibration, or converted at once; an abandoned
channel stays first among the round's conversions, so it is converted again. -/
def SupplyMonitor.requestBemf (m : SupplyMonitor) : SupplyMonitor :=
  if m.injected ≠ .idle then m
  else { m with injected := if m.calibration.isSome then .held else .converting }

/-- A period mark at the monitor (R2, R3). -/
def SupplyMonitor.periodMark (m : SupplyMonitor) : SupplyMonitor :=
  if m.round.isEmpty then { m with round := [.vcart, .vbat, .imot] } else { m with skipped := sat16 m.skipped }

/-- The round goes on after one of its results. -/
def SupplyMonitor.roundOn (m : SupplyMonitor) : SupplyMonitor := { m with round := m.round.tail }

/-! ## The supply state (R9 to R11) -/

/-- R9: the state and the recovery count after a result, with thresholds L, C and h. -/
def judgeSupply (state : SupplyState) (count v l c h : Nat) : SupplyState × Nat :=
  match state with
  | .normal => if v < c then (.critical, 0) else if v < l then (.low, 0) else (.normal, 0)
  | .low =>
    if v < c then (.critical, 0) else if v < l + h then (.low, 0)
    else if count ≤ 2 then (.low, count + 1) else (.normal, 0)
  | .critical =>
    if v < c + h then (.critical, 0) else if count ≤ 2 then (.critical, count + 1) else (.low, 0)

/-- R10: the first result. -/
def judgeFirst (v l c : Nat) : SupplyState := if v < c then .critical else if v < l then .low else .normal

/-- A VCART result at the supply state machine. -/
def SupplyMonitor.takeVcart (m : SupplyMonitor) (v : Nat) : SupplyMonitor :=
  if m.firstVcart then
    let (state, count) := judgeSupply m.supply m.supplyRecovery v m.low m.critical m.hysteresis
    { m with vcart := v, supply := state, supplyRecovery := count }
  else { m with vcart := v, supply := judgeFirst v m.low m.critical, supplyRecovery := 0, firstVcart := true }

/-- One turn while the change event of `supply` is on its way: a block takes it (R11, R21, R84, R106, R162), or a mark is
taken between two of them (R76, R97). -/
def takeTurn (supply : SupplyState) (s : State) : SupplyTurn → State
  | .governor => s.reportSupply supply
  | .mixer => s.withMixer (s.mixer.takeSupply supply)
  | .rumble => s.withRumble (s.rumble.takeSupply supply)
  | .save => if supply = .critical then s.abandonForCritical else s
  | .mixerMark => s.mixerMark
  | .rumbleMark => s.rumbleMark

/-- The turns in full: a block that is not named takes the event after those that are. -/
def allTurns (turns : List SupplyTurn) : List SupplyTurn :=
  turns ++ [.governor, .mixer, .rumble, .save].filter fun t => !turns.contains t

/-- The supply-state change event at the four blocks it goes to, in the order of the turns, and the SUPPLY notice (R11). -/
def State.supplyChanged (s : State) (supply : SupplyState) (turns : List SupplyTurn) : State :=
  ((allTurns turns).foldl (takeTurn supply) s).pendSupply

/-- A VCART result (R9 to R11); the turns count only when the supply state changes (log entry 33). -/
def State.takeVcart (s : State) (v : Nat) (turns : List SupplyTurn) : State :=
  let m := (s.supply.takeVcart v).roundOn
  let s' := s.withSupply m
  if m.supply = s.supply.supply then s' else s'.supplyChanged m.supply turns

/-! ## The battery state (R12) -/

/-- R12: the state and the recovery count after a result. -/
def judgeBattery (state : BatteryState) (count v threshold : Nat) : BatteryState × Nat :=
  match state with
  | .unknown => if v < threshold then (.weak, 0) else (.good, 0)
  | .good => if v < threshold then (.weak, 0) else (.good, 0)
  | .weak =>
    if v < threshold + 50 then (.weak, 0) else if count ≤ 2 then (.weak, count + 1) else (.good, 0)

/-- A VBAT result (R12). -/
def State.takeVbat (s : State) (v : Nat) : State :=
  let (state, count) := judgeBattery s.supply.battery s.supply.batteryRecovery v s.supply.battThreshold
  let s' := s.withSupply { s.supply with vbat := v, battery := state, batteryRecovery := count }.roundOn
  if state = s.supply.battery then s' else s'.pendSupply

/-! ## BEMF results and calibration (R5 to R8) -/

/-- An injected conversion completes (R5). -/
def State.takeBemfResult (s : State) (raw : Nat) : State :=
  let corrected := raw - s.supply.zeroOffset
  (s.withSupply { s.supply with bemfRaw := raw, bemfCorrected := corrected, injected := .idle }).takeBemf corrected

/-- A calibration begins (R6 step 1). -/
def State.beginCalibration (s : State) (origin : CalibrationOrigin) : State :=
  (s.withSupply { s.supply with calibration := some ⟨origin, 0, 0⟩ }).withRumble s.rumble.beginCalibration

/-- The eighth result: the zero offset, calibration-end, and the held request is converted (R6, R7, R8). -/
def State.endCalibration (s : State) (origin : CalibrationOrigin) (sum : Nat) : State :=
  let offset := sum / 8
  let s1 := s.withSupply { s.supply with zeroOffset := offset, calibration := none
                                         injected := if s.supply.injected = .held then .converting else s.supply.injected }
  let s2 := s1.withRumble s1.rumble.endCalibration
  match origin with
  | .startUp => s2.withLink { s2.link with calibrationDone := true }
  | .requested tag => s2.answer Kind.calibrateMotorSense tag .ok (.zeroOffset offset)

/-- A calibration conversion completes (R6). -/
def State.takeCalibration (s : State) (raw : Nat) : State :=
  match s.supply.calibration with
  | none => s
  | some c =>
    let s' := s.withSupply { s.supply with bemfRaw := raw, calibration := some ⟨c.origin, c.taken + 1, c.sum + raw⟩ }
    if c.taken + 1 < 8 then s' else s'.endCalibration c.origin (c.sum + raw)

/-! ## Requests -/

/-- Calibrate Motor Sense (R7). -/
def takeCalibrate (tag : Byte) (s : State) : Taken :=
  if s.supply.calibration.isSome then refuse s .busy
  else if s.rumble.state ≠ .idle then refuse s .busy
  else defer (s.beginCalibration (.requested tag))

/-- The ranges of Supply Set (R13). -/
def supplySetOk (low critical hysteresis battery : Nat) : Bool :=
  decide (1200 ≤ low) && decide (low ≤ 1700) && decide (1100 ≤ critical) && decide (critical ≤ 1650) &&
  decide (critical + 25 ≤ low) && decide (5 ≤ hysteresis) && decide (hysteresis ≤ 100) &&
  decide (2000 ≤ battery) && decide (battery ≤ 3000)

/-- Supply Set (R13). -/
def takeSupplySet (low critical hysteresis battery : Nat) (s : State) : Taken :=
  if supplySetOk low critical hysteresis battery then
    accept (s.withSupply { s.supply with low := low, critical := critical, hysteresis := hysteresis, battThreshold := battery
                                         supplyRecovery := 0, batteryRecovery := 0 })
      (.supplySet low critical hysteresis battery)
  else refuse s .badField

/-- Supply Read (R14). -/
def takeSupplyRead (clear : Bool) (s : State) : Taken :=
  let m := s.supply
  accept (if clear then s.withSupply { m with skipped := 0 } else s)
    (.supplyRead m.vcart m.vbat m.imot m.bemfRaw m.bemfCorrected m.zeroOffset m.supply m.supplyRecovery m.battery
      m.batteryRecovery m.low m.critical m.hysteresis m.battThreshold m.skipped m.calibration.isSome)

/-! ## The rows -/

/-- SUPPLY_READ (R14). -/
def execSupplyRead (tag : Byte) (clear : Bool) (s : State) : Result := serve (.supplyRead tag clear) (takeSupplyRead clear) s
/-- SUPPLY_SET (R13). -/
def execSupplySet (tag : Byte) (low critical hysteresis battery : Nat) (s : State) : Result :=
  serve (.supplySet tag low critical hysteresis battery) (takeSupplySet low critical hysteresis battery) s
/-- CALIBRATE_MOTOR_SENSE (R7). -/
def execCalibrateMotorSense (tag : Byte) (s : State) : Result := serve (.calibrateMotorSense tag) (takeCalibrate tag) s
/-- CALIBRATION_CONVERSION (R6): while the converter does a calibration conversion. -/
def execCalibrationConversion (raw : Count12) (s : State) : Result :=
  onCore s fun s => if s.supply.converting = .calibration then s.takeCalibration raw.val else s
/-- ROUND_START (R2, R3). -/
def execRoundStart (s : State) : Result := onCore s fun s => s.withSupply s.supply.periodMark
/-- VCART_RESULT (R9): while the converter converts VCART. -/
def execVcartResult (fields : VcartFields) (s : State) : Result :=
  onCore s fun s => if s.supply.converting = .channel .vcart then s.takeVcart fields.count.val fields.turns else s
/-- VBAT_RESULT (R12): while the converter converts VBAT. -/
def execVbatResult (count : Count12) (s : State) : Result :=
  onCore s fun s => if s.supply.converting = .channel .vbat then s.takeVbat count.val else s
/-- IMOT_RESULT (R103): while the converter converts IMOT. -/
def execImotResult (count : Count12) (s : State) : Result :=
  onCore s fun s =>
    if s.supply.converting = .channel .imot then
      (s.withSupply { s.supply with imot := count.val }.roundOn).takeImot count.val
    else s
/-- BEMF_RESULT (R5): while the converter does an injected conversion. -/
def execBemfResult (raw : Count12) (s : State) : Result :=
  onCore s fun s => if s.supply.converting = .injected then s.takeBemfResult raw.val else s
/-- COAST_WINDOW (R101): a period driven to its end marks the window and asks for one BEMF conversion. -/
def execCoastWindow (s : State) : Result :=
  onCore s fun s =>
    if 0 < s.rumble.applied then
      (s.withRumble { s.rumble with coastOpen := true }).withSupply s.supply.requestBemf
    else s

end Sys2Proof.Machine
end

