-- ==== Sys2Proof/Machine/Power.lean ====
section
/-! DEFINITION. The two power domains: power-up with the marker check, loss of the cartridge supply, loss and return of
backup power, and Restart (R15, R111, R150, R153, R166, R177). -/

namespace Sys2Proof.Machine

/-- Backup loss handled in the order of R153; the bank payloads are left as they are. -/
def Backup.handleLoss (b : Backup) : Backup :=
  { b with calendar := .restarted, record := .lost, events := .replicate 16 .freed
           store := { b.store with headers := .replicate 4 ⟨.invalid, .invalid⟩, staging := [], marker := true } }

/-- The marker check (R153). -/
def Backup.checkMarker (b : Backup) : Backup := if b.store.marker then b else b.handleLoss

/-- Every core block at its power-up values, the start-up calibration begun, and the marker check made; the pin LSEL
stands as the console drives it. -/
def State.startCore (s : State) : State :=
  { s with corePowered := true, supply := .reset, governor := .reset, voice := .reset, stream := .reset, mixer := .reset
           rumble := .reset, cue := .reset, save := .atStart (!s.backup.store.marker)
           link := { Link.reset with lselLow := s.link.lselLow }, backup := s.backup.checkMarker }

/-- The core domain stops and loses its state; the blocks are held at their power-up values until it runs again
(log entry 24). A short write that has begun is finished (R150, R166). -/
def State.stopCore (s : State) : State :=
  { s with corePowered := false, supply := .reset, governor := .reset, voice := .reset, stream := .reset, mixer := .reset
           rumble := .reset, cue := .reset, save := .atStart false
           link := { Link.reset with lselLow := s.link.lselLow }, backup := s.stopOperation.backup
           freeCount := s.stopOperation.freeCount }

/-- Backup power comes back over lost contents: the calendar begins at D 0, T 0 (R111). -/
def Backup.powerReturn (b : Backup) : Backup := if b.powered then b else { b with powered := true, calendar := .restarted }

/-- The cartridge supply appears: it feeds the backup domain too (section 0.3), and the core starts. -/
def State.powerUp (s : State) : State :=
  let s' := if s.corePowered then s.stopCore else s
  (s'.withBackup s'.backup.powerReturn).startCore

/-- What the transmitter still sends when Restart is taken (R173): a frame in transmission, be it clocked or waiting to be sent
again, is ended by an escape and a delimiter after the byte under way. With LSEL high no byte is exchanged, and the frame ends
with none: DESIGN CHOICE (log entry 15). -/
def Link.endFrame (l : Link) : List Byte :=
  if l.tx.isSome ∧ l.lselLow = true then (if l.bitCount = 0 then [] else [l.sendingByte]) ++ [escapeByte, delimiterByte] else l.out

/-- Restart (R177): the operation in flight stops, the core starts again, and the Restart reply is the only reply. The
selection goes on: its bits, the delimiter it has had, and the end of a frame in transmission. -/
def State.restarted (s : State) (tag : Byte) : State :=
  let started := ({ s with backup := s.stopOperation.backup, freeCount := s.stopOperation.freeCount } : State).startCore
  started.withLink
    { started.link with bitCount := s.link.bitCount, shiftIn := s.link.shiftIn, ldo := s.link.ldo, out := s.link.endFrame
                        delimiterSent := s.link.delimiterSent, replies := [⟨Kind.restart + 0x80, tag, .ok, .none⟩] }

/-- POWER_UP (R15). -/
def execPowerUp (s : State) : Result := .next s.powerUp
/-- CARTRIDGE_SUPPLY_LOSS (R166). -/
def execCartridgeSupplyLoss (s : State) : Result := onCore s State.stopCore
/-- BACKUP_DOMAIN_POWER_LOSS (R150): only with the cartridge supply absent. -/
def execBackupDomainPowerLoss (s : State) : Result := .next (if s.corePowered then s else s.withBackup .lost)
/-- BACKUP_DOMAIN_POWER_RETURN (R111). -/
def execBackupDomainPowerReturn (s : State) : Result := .next (s.withBackup s.backup.powerReturn)
/-- RESTART (R177): before READY the link answers it NOT_READY. -/
def execRestart (tag : Byte) (s : State) : Result :=
  onRequest (.restart tag) (fun kind tag s => match s.link.readiness with
    | .notReady => s.reply kind tag .notReady .none
    | .ready => s.restarted tag) s

end Sys2Proof.Machine
end

