-- ==== Sys2Proof/Machine/LinkUnit.lean ====
section
/-! DEFINITION. The cartridge link (chapter 11): selection, received frames, handing requests on, transmission, and the
link's own requests. -/

namespace Sys2Proof.Machine

/-! ## Selection (R167, R170, R173) -/

/-- LSEL falls: the bit count restarts, the first bit of a delimiter stands on LDO, and no delimiter has been sent in the
new selection. -/
def Link.select (l : Link) : Link :=
  if l.lselLow then l else { l with lselLow := true, bitCount := 0, shiftIn := 0, ldo := true, delimiterSent := false }

/-- The frame in transmission is cut short and kept to be sent again whole (R173). -/
def TxFrame.cutShort (t : TxFrame) : TxFrame := { t with sending := false }

/-- Whether the deframer is inside a frame when LSEL rises: `begun` says that a byte other than a delimiter has come
since the last delimiter, which in HUNT begins nothing (log entry 14). -/
def Deframer.receiving (d : Deframer) (begun : Bool) : Bool :=
  match d with
  | .hunt => false
  | .between => begun
  | .inFrame _ _ => true

/-- LSEL rises: the byte under way is discarded, a frame being sent is kept, and a frame being received is ABORTED, on which
the deframer enters HUNT; in HUNT and BETWEEN nothing is counted and the deframer stays as it is (R167, R170, R173). Of the escape
and the delimiter that end a frame at a Restart, what has not been clocked out is dropped: DESIGN CHOICE (log entry 15). -/
def Link.deselect (l : Link) (begun : Bool) : Link :=
  if l.lselLow then
    let l' := { l with lselLow := false, shiftIn := 0, out := [], tx := l.tx.map TxFrame.cutShort }
    if l.deframer.receiving begun then { l' with deframer := .hunt }.count fun c => { c with aborted := sat16 c.aborted } else l'
  else l

/-- The pin alone moves while the core domain has no power. -/
def Link.movePin (l : Link) (low : Bool) : Link := { l with lselLow := low }

/-! ## Received frames (R170, R171) -/

/-- What a frame's bytes come to, received after a delimiter: nothing while LSEL is high; in HUNT they are discarded,
and only a delimiter among them counts; else the frame ends as the event says (log entry 13). -/
def State.receive (s : State) (after : Deframer) (event : State → State) : State :=
  if s.link.lselLow then
    if s.link.deframer = .hunt then s.withLink { s.link with deframer := after }
    else event (s.withLink { s.link with deframer := after })
  else s

/-- A frame discarded and counted (R170, R171). -/
def State.discardFrame (s : State) (cause : DiscardCause) : State :=
  s.receive (afterDiscard cause) fun s => s.withLink (s.link.count fun c => c.discard cause)

/-- A request joins the tail of the inbound request queue, or is an OVERRUN when that holds 4 (R171). -/
def Link.enqueue (l : Link) (kind tag : Byte) (body : List Byte) : Link :=
  if l.inbound.length < 4 then { l with inbound := l.inbound ++ [⟨kind, tag, body, .waiting⟩] }
  else l.count fun c => { c with overrun := sat16 c.overrun }

/-- A good frame classified by its kind (R171). -/
def State.classify (s : State) (kind tag : Byte) (body : List Byte) : State :=
  if kind = 0x3F then s.takeBlock tag body
  else if 0x01 ≤ kind.toNat ∧ kind.toNat ≤ 0x3E then s.withLink (s.link.enqueue kind tag body)
  else s.withLink (s.link.count fun c => c.discard .badKind)

/-- A frame with a matching check is received: a body of more than 72 bytes makes it LONG (R168, R170). -/
def State.receiveGood (s : State) (kind tag : Byte) (body : List Byte) : State :=
  if body.length ≤ 72 then s.receive .between fun s => s.classify kind tag body
  else s.discardFrame .long

/-! ## Handing requests on (R171, R172) -/

/-- Whether a request of the queue stands at a stage. -/
def InboundRequest.at (stage : Stage) (e : InboundRequest) : Bool := decide (e.stage = stage)

/-- The oldest waiting request is marked as handed on. -/
def markHanded : List InboundRequest → List InboundRequest
  | [] => []
  | e :: es => if e.stage = .waiting then { e with stage := .handed } :: es else e :: markHanded es

/-- Whether a kind is answered before READY (R171). -/
def answeredBeforeReady (kind : Byte) : Bool := kind == Kind.partStatus || kind == Kind.linkStatus

/-- What the link answers itself, when one of its checks fails (R171). -/
def Link.refusal (l : Link) (e : InboundRequest) : Option Status :=
  match lengthFits e.kind e.body with
  | none => some .badKind
  | some false => some .badLength
  | some true => if l.readiness = .notReady ∧ answeredBeforeReady e.kind = false then some .notReady else none

/-- The oldest waiting request is answered by the link or handed to its owner, when the reply queue has a place and the
owner of the request handed on before has taken that up (R172; log entry 3). -/
def State.handOn (s : State) : State :=
  match s.link.inbound.find? (InboundRequest.at .waiting) with
  | none => s
  | some e =>
    if s.link.replies.length < 4 ∧ s.link.inbound.any (InboundRequest.at .handed) = false then
      match s.link.refusal e with
      | some status => s.withLink (s.link.join .waiting ⟨e.kind + 0x80, e.tag, status, .none⟩)
      | none => s.withLink { s.link with inbound := markHanded s.link.inbound }
    else s

/-! ## Transmission (R173, R174) -/

def Trigger.kind : Trigger → TriggerKind
  | .gameDay _ => .gameDay
  | .dateTime _ => .dateTime
  | .daily _ => .daily

/-- What EVENTS carries for an entry (R136). -/
def State.eventReport (s : State) (e : Fin 16) : EventReport :=
  let x := s.entry e
  ⟨e, x.trigger.kind, x.late, x.cue, x.firedAt⟩

/-- The content of a pending kind, as it is fixed into a frame (R173); none when the kind is not pending. -/
def State.noticeContent (s : State) : NoticeKind → Option NoticeContent
  | .supply => s.link.notices.supply.map .supply
  | .rumble => s.link.notices.rumble.map .rumble
  | .saveScan => s.link.notices.saveScan.map .saveScan
  | .gameDay => s.link.notices.gameDay.map .gameDay
  | .events => if s.link.notices.events.isEmpty then none else some (.events (s.link.notices.events.map s.eventReport))
  | .cue => s.link.notices.cue.map .cue
  | .stream => if s.link.notices.stream.isEmpty then none else some (.stream s.link.notices.stream)
  | .voiceEnd => if s.link.notices.voiceEnd.isEmpty then none else some (.voiceEnd s.link.notices.voiceEnd)
  | .clip => s.link.notices.clip.map .clip
  | .link => s.link.notices.link.map .link

/-- The members of a set content, which its completion removes from the set. -/
def NoticeContent.members : NoticeContent → List Nat
  | .events es => es.map fun r => r.entry.val
  | .stream vs => vs.map Fin.val
  | .voiceEnd vs => vs.map Fin.val
  | _ => []

/-- The first pending notice in the order of R173. -/
def State.firstNotice (s : State) : Option NoticeContent := NoticeKind.all.findSome? s.noticeContent

/-- The bytes of a reply's fields: their layout is a free value, at most 511 bytes after the status code (R168; log
entry 4). -/
def ReplyBody.bytes : ReplyBody → List Byte
  | .none => []
  | body => (Config.replyFields body).take 511

/-- What a frame in transmission sends after its opening delimiter, its closing delimiter included (R168, R172, R173): a
reply's first body byte is its status code; the bytes of a notice's content are a free value (log entry 4). -/
def TxContent.wire : TxContent → List Byte
  | .reply r => wireFrame r.kind r.tag (r.status.code :: r.body.bytes)
  | .notice f => wireFrame f.content.kind.code f.seq ((Config.noticeFields f.content).take 512)

/-- A frame starts: its bytes are to be sent, after the delimiter that opens the first frame of a selection (R168, R173; log
entry 15). -/
def Link.send (l : Link) (content : TxContent) : Link :=
  { l with out := l.out ++ (if l.delimiterSent then [] else [delimiterByte]) ++ content.wire
           delimiterSent := true, tx := some ⟨content, true⟩ }

/-- A byte boundary in a selection with no frame being clocked: a frame cut short goes first, then the oldest reply,
then the first pending notice, then a delimiter (R173). -/
def State.startFrame (s : State) : State :=
  match s.link.tx with
  | some t => if t.sending then s else s.withLink (s.link.send t.content)
  | none =>
    match s.link.replies with
    | r :: _ => s.withLink (s.link.send (.reply r))
    | [] =>
      match s.firstNotice with
      | some c =>
        let l := s.link.send (.notice ⟨s.link.noticeSeq, c, c.members, true, false⟩)
        s.withLink { l with noticeSeq := l.noticeSeq + 1 }
      | none => s.withLink { s.link with delimiterSent := true }

/-- A reply's transmission completes: it leaves the queue, and the place goes to the deferred reply that has waited
longest (R172). -/
def Link.completeReply (l : Link) : Link :=
  let l' := { l with replies := l.replies.tail, tx := none, out := [] }
  match l'.waiting with
  | [] => l'
  | r :: rs => { l' with waiting := rs }.join .deferred r

/-- The members in `acting` leave a set (R174). -/
def withoutMembers {n : Nat} (acting : List Nat) (members : List (Fin n)) : List (Fin n) :=
  members.filter fun m => !acting.contains m.val

/-- What the completion of a notice frame takes from the pending set (R174). -/
def NoticeSet.delivered (n : NoticeSet) (f : NoticeFrame) : NoticeSet :=
  if f.live = false then n
  else match f.content with
    | .events _ => { n with events := withoutMembers f.acting n.events }
    | .stream _ => { n with stream := withoutMembers f.acting n.stream }
    | .voiceEnd _ => { n with voiceEnd := withoutMembers f.acting n.voiceEnd }
    | c => if f.rewritten then n else n.remove c.kind

/-- An entry carried in a delivered EVENTS frame and still FIRED from that firing is released (R136). -/
def releaseDelivered (acting : List Nat) (s : State) (e : Fin 16) : State :=
  if acting.contains e.val ∧ (s.entry e).state = .fired then s.releaseEntry e else s

/-- A notice frame's transmission completes (R136, R174). -/
def State.completeNotice (s : State) (f : NoticeFrame) : State :=
  let s' := s.withLink { s.link with notices := s.link.notices.delivered f, tx := none, out := [] }
  match f.live, f.content with
  | true, .events _ => (numbers 16).foldl (releaseDelivered f.acting) s'
  | _, _ => s'

/-- The last bit of a frame's closing delimiter is clocked out (R173). -/
def State.completeFrame (s : State) : State :=
  match s.link.tx with
  | some ⟨.reply _, true⟩ => s.withLink s.link.completeReply
  | some ⟨.notice f, true⟩ => s.completeNotice f
  | _ => s

/-! ## The link's own requests (R176) -/

/-- Part Status (R176). -/
def takePartStatus (s : State) : Taken :=
  accept s (.partStatus s.link.readiness s.supply.supply s.supply.battery s.governor.record s.save.state s.rumble.state
    s.backup.calendar.valid s.record.valid s.link.notices.kinds s.link.mask)

/-- A frame in transmission whose kind is disabled is sent to its end, and its completion then changes nothing (R174). -/
def markDisabled (mask : Word16) : Option TxFrame → Option TxFrame
  | some ⟨.notice f, sending⟩ =>
    some ⟨.notice (if maskEnables mask f.content.kind then f else { f with live := false, acting := [] }), sending⟩
  | t => t

/-- The pending set without the kinds that a mask disables (R174). -/
def NoticeSet.masked (n : NoticeSet) (mask : Word16) : NoticeSet :=
  NoticeKind.all.foldl (fun n k => if maskEnables mask k then n else n.remove k) n

/-- The mask is replaced; disabling EVENTS also releases the entries in its set (R136, R174). -/
def State.setMask (s : State) (mask : Word16) : State :=
  let members := if maskEnables mask .events then [] else s.link.notices.events
  let s' := s.withLink { s.link with mask := mask, notices := s.link.notices.masked mask, tx := markDisabled mask s.link.tx }
  members.foldl State.releaseEntry s'

/-- Notice Mask (R176): a set bit above bit 9 is BAD_FIELD. -/
def takeNoticeMask (mask : Word16) (s : State) : Taken :=
  if mask.toNat < 1024 then accept (s.setMask mask) (.noticeMask mask) else refuse s .badField

/-- Link Status (R176). The number of requests counts the Link Status itself, which is in the queue until its reply joins,
and the number of replies does not count its own reply: DESIGN CHOICE (log entry 30). The clear flag is set or clear, and no byte
of it is refused: DESIGN CHOICE (log entry 36). -/
def takeLinkStatus (clear : Bool) (s : State) : Taken :=
  let l := s.link
  accept (if clear then s.withLink { l with counters := .zero } else s)
    (.linkStatus l.counters l.inbound.length l.replies.length l.noticeSeq)

/-! ## Bits and bytes (R167) -/

/-- The level on LDO; none while the part does not drive it (R167). -/
def State.ldoPin (s : State) : Option Bool := if s.corePowered && s.link.lselLow then some s.link.ldo else none

/-- LCK falls: the next bit of the byte being sent is presented on LDO, most significant bit first. -/
def State.lckFall (s : State) : State :=
  if s.corePowered && s.link.lselLow then
    s.withLink { s.link with ldo := s.link.sendingByte.getMsbD s.link.bitCount }
  else s

/-- A whole byte has been received (R170, R171). -/
def State.receiveByte (s : State) (b : Byte) : State :=
  let (deframer, event) := s.link.deframer.byte b
  let s' := s.withLink { s.link with deframer := deframer }
  match event with
  | none => s'
  | some (.goodFrame kind tag body) => s'.classify kind tag body
  | some (.discarded cause) => s'.withLink (s'.link.count fun c => c.discard cause)

/-- A whole byte has been sent: with the last byte of a frame its transmission completes; when nothing is left to send the
transmitter chooses what starts (R173). -/
def State.sentByte (s : State) : State :=
  let rest := s.link.out.tail
  let s' := s.withLink { s.link with out := rest
                                     delimiterSent := s.link.delimiterSent || decide (s.link.sendingByte = delimiterByte) }
  if rest.isEmpty then s'.completeFrame.startFrame else s'

/-- LCK rises: the bit on LDI is sampled, most significant bit first, and the eighth completes one byte in each direction;
the byte received acts before the byte sent (log entry 27). While LSEL is high LCK and LDI are ignored (R167). -/
def State.lckRise (s : State) (ldi : Bool) : State :=
  if s.corePowered && s.link.lselLow then
    let byte := (s.link.shiftIn <<< 1) ||| (if ldi then 1 else 0)
    if s.link.bitCount < 7 then s.withLink { s.link with bitCount := s.link.bitCount + 1, shiftIn := byte }
    else ((s.withLink { s.link with bitCount := 0, shiftIn := 0 }).receiveByte byte).sentByte
  else s

/-- One clock for each bit on LDI: what the part sends on LDO, and the state after them. -/
def State.clock (s : State) : List Bool → List (Option Bool) × State
  | [] => ([], s)
  | ldi :: bits =>
    let s' := s.lckFall
    let (sent, s'') := (s'.lckRise ldi).clock bits
    (s'.ldoPin :: sent, s'')

/-! ## The rows -/

/-- LSEL_FALL (R167). -/
def execLselFall (s : State) : Result :=
  .next (s.withLink (if s.corePowered then s.link.select else s.link.movePin true))
/-- LSEL_RISE (R170). -/
def execLselRise (begun : Bool) (s : State) : Result :=
  .next (s.withLink (if s.corePowered then s.link.deselect begun else s.link.movePin false))
/-- HUNT_DELIMITER (R170). -/
def execHuntDelimiter (s : State) : Result :=
  onCore s fun s =>
    if s.link.lselLow ∧ s.link.deframer = .hunt then s.withLink { s.link with deframer := .between } else s
/-- REQUEST_FRAME (R171). -/
def execRequestFrame (kind tag : Byte) (body : List Byte) (s : State) : Result :=
  onCore s fun s => s.receiveGood kind tag body
/-- STREAM_BLOCK (R57, R171): a good frame of kind 0x3F with its sequence number in the tag. -/
def execStreamBlock (q : Byte) (body : List Byte) (s : State) : Result :=
  onCore s fun s => s.receiveGood 0x3F q body
/-- FRAME_DISCARDED (R170). -/
def execFrameDiscarded (cause : DiscardCause) (s : State) : Result := onCore s fun s => s.discardFrame cause
/-- REQUEST_HAND_ON (R172). -/
def execRequestHandOn (s : State) : Result := onCore s State.handOn
/-- FRAME_START (R173): only at a byte boundary while LSEL is low. -/
def execFrameStart (s : State) : Result :=
  onCore s fun s => if s.link.lselLow ∧ s.link.bitCount = 0 then s.startFrame else s
/-- FRAME_TRANSMIT_COMPLETE (R174): only at a byte boundary while LSEL is low; the last byte has then been sent. -/
def execFrameTransmitComplete (s : State) : Result :=
  onCore s fun s => if s.link.lselLow ∧ s.link.bitCount = 0 then s.completeFrame else s
/-- PART_STATUS (R176): answered before READY too. -/
def execPartStatus (tag : Byte) (s : State) : Result :=
  onRequest (.partStatus tag) (fun kind tag s => (takePartStatus s).finish kind tag) s
/-- NOTICE_MASK (R176). -/
def execNoticeMask (tag : Byte) (mask : Word16) (s : State) : Result := serve (.noticeMask tag mask) (takeNoticeMask mask) s
/-- LINK_STATUS (R176): answered before READY too. -/
def execLinkStatus (tag : Byte) (clear : Bool) (s : State) : Result :=
  onRequest (.linkStatus tag clear) (fun kind tag s => (takeLinkStatus clear s).finish kind tag) s

end Sys2Proof.Machine
end

