-- ==== Sys2Proof/Machine/Dispatch.lean ====
section
/-! DEFINITION. One arm for each command: the call of its meaning. -/

namespace Sys2Proof.Machine

def exec (i : Instr) (s : State) : Host.Outcome State Fault Refusal :=
  match i with
  | .powerUp => Sys2Proof.Machine.execPowerUp s
  | .cartridgeSupplyLoss => Sys2Proof.Machine.execCartridgeSupplyLoss s
  | .slotScan => Sys2Proof.Machine.execSlotScan s
  | .startUpCatchUp => Sys2Proof.Machine.execStartUpCatchUp s
  | .lselFall => Sys2Proof.Machine.execLselFall s
  | .lselRise begun => Sys2Proof.Machine.execLselRise begun s
  | .requestFrame kind tag body => Sys2Proof.Machine.execRequestFrame kind tag body s
  | .streamBlock q body => Sys2Proof.Machine.execStreamBlock q body s
  | .frameDiscarded cause => Sys2Proof.Machine.execFrameDiscarded cause s
  | .requestHandOn => Sys2Proof.Machine.execRequestHandOn s
  | .frameStart => Sys2Proof.Machine.execFrameStart s
  | .frameTransmitComplete => Sys2Proof.Machine.execFrameTransmitComplete s
  | .partStatus tag => Sys2Proof.Machine.execPartStatus tag s
  | .noticeMask tag mask => Sys2Proof.Machine.execNoticeMask tag mask s
  | .linkStatus tag clear => Sys2Proof.Machine.execLinkStatus tag clear s
  | .restart tag => Sys2Proof.Machine.execRestart tag s
  | .supplyRead tag clear => Sys2Proof.Machine.execSupplyRead tag clear s
  | .supplySet tag low critical hysteresis battery => Sys2Proof.Machine.execSupplySet tag low critical hysteresis battery s
  | .calibrateMotorSense tag => Sys2Proof.Machine.execCalibrateMotorSense tag s
  | .calibrationConversion raw => Sys2Proof.Machine.execCalibrationConversion raw s
  | .budgetSet tag budget imax => Sys2Proof.Machine.execBudgetSet tag budget imax s
  | .budgetRead tag => Sys2Proof.Machine.execBudgetRead tag s
  | .voiceSet tag voice fields => Sys2Proof.Machine.execVoiceSet tag voice fields s
  | .keyOn tag voice => Sys2Proof.Machine.execKeyOn tag voice s
  | .keyOff tag voice => Sys2Proof.Machine.execKeyOff tag voice s
  | .voiceRead tag voice => Sys2Proof.Machine.execVoiceRead tag voice s
  | .waveWrite tag address bytes => Sys2Proof.Machine.execWaveWrite tag address bytes s
  | .waveRead tag address count => Sys2Proof.Machine.execWaveRead tag address count s
  | .streamOpen tag voice start depth limit => Sys2Proof.Machine.execStreamOpen tag voice start depth limit s
  | .streamClose tag voice => Sys2Proof.Machine.execStreamClose tag voice s
  | .streamStatus tag voice clear => Sys2Proof.Machine.execStreamStatus tag voice clear s
  | .mixSet tag fields => Sys2Proof.Machine.execMixSet tag fields s
  | .mixStatus tag clear => Sys2Proof.Machine.execMixStatus tag clear s
  | .rumblePlay tag mode priority steps => Sys2Proof.Machine.execRumblePlay tag mode priority steps s
  | .rumbleStop tag => Sys2Proof.Machine.execRumbleStop tag s
  | .rumbleSet tag fields => Sys2Proof.Machine.execRumbleSet tag fields s
  | .rumbleClear tag => Sys2Proof.Machine.execRumbleClear tag s
  | .rumbleStatus tag => Sys2Proof.Machine.execRumbleStatus tag s
  | .calendarGet tag => Sys2Proof.Machine.execCalendarGet tag s
  | .calendarSet tag fields => Sys2Proof.Machine.execCalendarSet tag fields s
  | .gameDayStart tag start rollover cap => Sys2Proof.Machine.execGameDayStart tag start rollover cap s
  | .gameDayGet tag => Sys2Proof.Machine.execGameDayGet tag s
  | .gameDayClearRewind tag => Sys2Proof.Machine.execGameDayClearRewind tag s
  | .eventSet tag entry trigger cue quantize => Sys2Proof.Machine.execEventSet tag entry trigger cue quantize s
  | .eventClear tag entry => Sys2Proof.Machine.execEventClear tag entry s
  | .eventList tag => Sys2Proof.Machine.execEventList tag s
  | .cueDefine tag fields => Sys2Proof.Machine.execCueDefine tag fields s
  | .cueStart tag cue quantize => Sys2Proof.Machine.execCueStart tag cue quantize s
  | .cueCancel tag cue => Sys2Proof.Machine.execCueCancel tag cue s
  | .cueStatus tag => Sys2Proof.Machine.execCueStatus tag s
  | .stageWrite tag offset bytes => Sys2Proof.Machine.execStageWrite tag offset bytes s
  | .stageRead tag offset count => Sys2Proof.Machine.execStageRead tag offset count s
  | .stageLoad tag slot => Sys2Proof.Machine.execStageLoad tag slot s
  | .commit tag slot length => Sys2Proof.Machine.execCommit tag slot length s
  | .commitAbort tag => Sys2Proof.Machine.execCommitAbort tag s
  | .slotRead tag slot offset count => Sys2Proof.Machine.execSlotRead tag slot offset count s
  | .slotInfo tag slot => Sys2Proof.Machine.execSlotInfo tag slot s
  | .slotVerify tag slot => Sys2Proof.Machine.execSlotVerify tag slot s
  | .slotErase tag slot => Sys2Proof.Machine.execSlotErase tag slot s
  | .loadComplete => Sys2Proof.Machine.execLoadComplete s
  | .copyComplete => Sys2Proof.Machine.execCopyComplete s
  | .sealComplete => Sys2Proof.Machine.execSealComplete s
  | .verifyComplete => Sys2Proof.Machine.execVerifyComplete s
  | .roundStart => Sys2Proof.Machine.execRoundStart s
  | .vcartResult fields => Sys2Proof.Machine.execVcartResult fields s
  | .vbatResult count => Sys2Proof.Machine.execVbatResult count s
  | .imotResult count => Sys2Proof.Machine.execImotResult count s
  | .bemfResult raw => Sys2Proof.Machine.execBemfResult raw s
  | .coastWindow => Sys2Proof.Machine.execCoastWindow s
  | .voiceLatch => Sys2Proof.Machine.execVoiceLatch s
  | .streamPlayout => Sys2Proof.Machine.execStreamPlayout s
  | .mixerLatch => Sys2Proof.Machine.execMixerLatch s
  | .outputSample => Sys2Proof.Machine.execOutputSample s
  | .rumblePeriodMark => Sys2Proof.Machine.execRumblePeriodMark s
  | .cuePeriodMark => Sys2Proof.Machine.execCuePeriodMark s
  | .keyOffCountdown voice => Sys2Proof.Machine.execKeyOffCountdown voice s
  | .measureMark => Sys2Proof.Machine.execMeasureMark s
  | .secondTick => Sys2Proof.Machine.execSecondTick s
  | .backupDomainPowerLoss => Sys2Proof.Machine.execBackupDomainPowerLoss s
  | .backupDomainPowerReturn => Sys2Proof.Machine.execBackupDomainPowerReturn s
  | .huntDelimiter => Sys2Proof.Machine.execHuntDelimiter s

end Sys2Proof.Machine
end

