-- ==== Sys2Proof/Safety.lean ====
section
/-! DEFINITION. What every run keeps: the invariants of the blocks, which the spec's rules state of the part at all times,
and the conditions on a state that the statements speak of. -/

namespace Sys2Proof.Machine

/-! ## Kinds of command -/

/-- The rows of the core domain, which act only while the cartridge supply is present: all but the two supplies' own
rows, the select line's, and the second tick (section 0.3). -/
def ofCoreDomain : Instr → Bool
  | .powerUp => false
  | .lselFall => false
  | .lselRise _ => false
  | .secondTick => false
  | .backupDomainPowerLoss => false
  | .backupDomainPowerReturn => false
  | _ => true

/-! ## Conditions on a state -/

/-- The owner of `c`'s request takes it up now: the core runs, readiness is READY, the reply queue has a place, and a request
with the kind, tag and body of `c` has been handed on (R171, R172). -/
def State.Serves (s : State) (c : Instr) : Prop :=
  s.corePowered = true ∧ s.link.readiness = .ready ∧ s.link.admits c = true

/-- A frame is being received or sent: the core runs and the console holds LSEL low (R167). -/
def State.Selected (s : State) : Prop := s.corePowered = true ∧ s.link.lselLow = true

/-- A byte boundary of a selection (R173). -/
def State.AtByteBoundary (s : State) : Prop := s.Selected ∧ s.link.bitCount = 0

/-- The state after a handed request has been answered: the reply has joined the reply queue and the request has left the
inbound request queue (R172); `kind` is the request's kind. -/
def State.replied (s : State) (kind tag : Byte) (status : Status) (body : ReplyBody) : State :=
  let r : Reply := ⟨kind + 0x80, tag, status, body⟩
  { s with link := { s.link with replies := s.link.replies ++ [r], inbound := s.link.inbound.eraseP (r.answers .handed) } }

/-- The state after a handed request has been taken up with its reply deferred (R172). -/
def State.deferring (s : State) (kind tag : Byte) : State :=
  { s with link := { s.link with inbound := markDeferred kind tag s.link.inbound } }

/-- The state after an operation has ended with its deferred reply: that has joined the reply queue, or waits in its owner
while the queue holds 4 replies (R172). -/
def State.concluded (s : State) (kind tag : Byte) (status : Status) (body : ReplyBody) : State :=
  let r : Reply := ⟨kind + 0x80, tag, status, body⟩
  { s with link :=
      if s.link.replies.length < 4 then
        { s.link with replies := s.link.replies ++ [r], inbound := s.link.inbound.eraseP (r.answers .deferred) }
      else { s.link with waiting := s.link.waiting ++ [r] } }

/-! ## Firings, as the statements speak of them -/

/-- The instant has come (R110). -/
abbrev Instant.Reached (i now : Instant) : Prop := i.day < now.day ∨ (i.day = now.day ∧ i.second ≤ now.second)

/-- The condition of an entry holds (R133). -/
def EventEntry.Met (x : EventEntry) (record : GameDayRecord) (now : Instant) : Prop :=
  match x.trigger, x.due with
  | .gameDay value, _ => record.valid = true ∧ value ≤ record.counter
  | .dateTime i, _ => i.Reached now
  | .daily _, .at i => i.Reached now
  | .daily _, _ => False

/-- The trigger that the fields of Event Set spell, every value in its range (R137). -/
def Trigger.SpelledBy (t : Trigger) (f : TriggerFields) : Prop :=
  match f with
  | .gameDay n => n ≤ 1073048 ∧ t = .gameDay n
  | .dateTime d => d.ok = true ∧ t = .dateTime d.instant
  | .daily h m n => h ≤ 23 ∧ m ≤ 59 ∧ n ≤ 59 ∧ t = .daily (3600 * h + 60 * m + n)
  | .other => False

/-- An entry that has fired, on time or late (R134 to R136): FIRED where EVENTS is enabled; where it is not, released at
once, so that a one-shot entry is FREE and a DAILY entry is ARMED for its next occurrence. -/
def EventEntry.afterFiring (x : EventEntry) (now : Instant) (late events : Bool) : EventEntry :=
  match x.trigger with
  | .daily time => { x with state := if events then .fired else .armed, late := events && late, firedAt := now
                            due := nextOccurrence time now }
  | _ => if events then { x with state := .fired, late := late, firedAt := now } else .freed

/-- What a catch-up makes of a valid record whose game-day index is now `index` (R127). -/
def GameDayRecord.caughtUp (r : GameDayRecord) (index : Int) : GameDayRecord :=
  let delta := index - r.highWater
  if 0 < delta then
    { r with counter := r.counter + min delta.toNat r.cap, forfeited := r.forfeited + (delta.toNat - r.cap), highWater := index
             checkMatches := true }
  else if delta < 0 then { r with rewind := true, checkMatches := true }
  else r

/-- The GAMEDAY notice of a catch-up of a valid record whose game-day index is now `index`; none when no day has passed (R127,
R129). -/
def GameDayRecord.catchUpNotice (r : GameDayRecord) (index : Int) : Option GameDayNotice :=
  let delta := index - r.highWater
  let after := r.caughtUp index
  if 0 < delta then some ⟨.catchUp, true, after.counter, index, index, min delta.toNat r.cap, after.forfeited, r.rewind⟩
  else if delta < 0 then some ⟨.rewind, true, r.counter, r.highWater, index, 0, r.forfeited, true⟩
  else none

/-! ## Starts, as the statements speak of them -/

/-- From `s` to `t`, in the voice engine, the rumble driver and the cue unit, a start of cue `c` defined as `d` has acted with
these outcomes (R145 to R147). -/
def State.StartActed (s t : State) (c : Fin 8) (d : CueDefinition) (sound : SoundOutcome) (rumble : RumbleOutcome) : Prop :=
  { t.voice with pendings := s.voice.pendings } = s.voice ∧ { t.cue with countdowns := s.cue.countdowns } = s.cue ∧
  (d.sound = none → sound = .absent ∧ t.voice = s.voice ∧ t.cue = s.cue) ∧
  (∀ p, d.sound = some p →
    let streaming := (s.voice.voices.get p.voice).mode = .stream ∨ (s.voice.pendings.get p.voice).mode = some .stream
    (streaming → d.steal = false → sound = .skipped ∧ t.voice = s.voice ∧ t.cue = s.cue) ∧
    (¬streaming ∨ d.steal = true → sound = .played ∧
      t.voice.pendings = s.voice.pendings.set p.voice
        { volume := some p.volume, substitution := (s.voice.pendings.get p.voice).substitution
          waveStart := some p.waveStart, waveLength := some p.waveLength, loopStart := some p.loopStart
          loopMode := some p.loopMode, pitchStep := some p.pitchStep, attackRate := some p.attackRate
          sustainLevel := some p.sustainLevel, releaseRate := some p.releaseRate, mode := some .table, key := some .on
          streamOpen := (s.voice.pendings.get p.voice).streamOpen } ∧
      t.cue.countdowns = s.cue.countdowns.set p.voice (p.keyOffAfter.map fun n => ⟨n, c, false⟩))) ∧
  (d.rumble = none → rumble = .absent ∧ t.rumble = s.rumble) ∧
  (∀ p, d.rumble = some p →
    let r := s.rumble
    (r.state = .fault → rumble = .faulted ∧ t.rumble = r) ∧
    (r.state ≠ .fault → r.calibrating = true → rumble = .busy ∧ t.rumble = r) ∧
    (∀ h, r.state ≠ .fault → r.calibrating = false → r.queue ≠ [] → r.priority = some h → p.priority < h →
      rumble = .outranked ∧ t.rumble = r) ∧
    (r.state ≠ .fault → r.calibrating = false → r.queue = [] ∨ (∃ h, r.priority = some h ∧ h ≤ p.priority) →
      rumble = .played ∧ t.rumble = { r with
        queue := p.steps.map fun x => ⟨x.level, x.length, x.shape, 0, 0⟩, priority := some p.priority
        state := if r.state = .idle then .running else r.state }))

/-- From `s` to `t` no start has acted, waited or been reported: the voice engine, the driver, the cue unit and CUE stay. -/
def State.StartsKept (s t : State) : Prop :=
  t.voice = s.voice ∧ t.rumble = s.rumble ∧ t.cue = s.cue ∧ t.link.mask = s.link.mask ∧ t.link.notices.cue = s.link.notices.cue

/-- The CUE notice of `t` is this one where the mask of `s` enables CUE, and that of `s` where it does not. -/
def State.CueNoticed (s t : State) (n : CueNotice) : Prop :=
  t.link.mask = s.link.mask ∧ t.link.notices.cue = if maskEnables s.link.mask .cue = true then some n else s.link.notices.cue

/-- From `s` to `t` the cue unit has taken the start of cue `cue` by entry `e` (R142): no such cue, waiting, dropped, or acted. -/
def State.EventStarted (s t : State) (e : Fin 16) (cue : Nat) (quantize : Bool) : Prop :=
  (8 ≤ cue ∨ (∃ c : Fin 8, c.val = cue ∧ s.cue.table.get c = none) →
    t.voice = s.voice ∧ t.rumble = s.rumble ∧ t.cue = s.cue ∧ s.CueNoticed t ⟨.noCue, cue, e.val⟩) ∧
  ∀ (c : Fin 8) (d : CueDefinition), c.val = cue → s.cue.table.get c = some d →
    (quantize = true → s.cue.starts.length < 4 →
      s.StartsKept { t with cue := s.cue } ∧ t.cue = { s.cue with starts := s.cue.starts ++ [⟨c, .event e.val⟩] }) ∧
    (quantize = true → 4 ≤ s.cue.starts.length →
      t.voice = s.voice ∧ t.rumble = s.rumble ∧ t.cue = s.cue ∧ s.CueNoticed t ⟨.dropped, cue, e.val⟩) ∧
    (quantize = false → ∃ (sound : SoundOutcome) (rumble : RumbleOutcome),
      s.StartActed t c d sound rumble ∧ s.CueNoticed t ⟨.acted sound rumble, cue, e.val⟩)

/-- From `s` to `t` the entries that `fires` tells of have had their cues started, one after the other in entry-number order
(R134); the others, and those that name no cue, start nothing. -/
def State.FiringsStarted (s t : State) (fires : Fin 16 → Prop) : Prop :=
  ∃ after : Nat → State, after 0 = s ∧ (after 16).StartsKept t ∧ ∀ e : Fin 16,
    (∀ cue, fires e → (s.entry e).cue = some cue →
      (after e.val).EventStarted (after (e.val + 1)) e cue (s.entry e).quantize) ∧
    (¬fires e ∨ (s.entry e).cue = none → (after e.val).StartsKept (after (e.val + 1)))

/-! ## Supply-dependent blocks -/

/-- The governor: its record is the one its inputs give, its supply state is the monitor's, and it is busy while the
save controller is not IDLE; its inputs lie in their ranges (R18, R20, R21, R23). -/
def State.GovernorSound (s : State) : Prop :=
  s.governor.record = s.governor.form ∧ s.governor.supply = s.supply.supply ∧
  s.governor.busy = decide (s.save.state ≠ .idle) ∧ s.governor.volume ≤ 255 ∧
  (60 ≤ s.governor.budget ∧ s.governor.budget ≤ 400) ∧ (20 ≤ s.governor.imax ∧ s.governor.imax ≤ 400)

/-- What the mixer keeps for a voice lies in the range of a contribution (R75, R80). -/
def MixChannel.Sound (c : MixChannel) : Prop :=
  (-16193 ≤ c.last ∧ c.last ≤ 16065) ∧ (-16193 ≤ c.held ∧ c.held ≤ 16065)

/-- The mixer: the override is HELD exactly in CRITICAL, the code and the settings lie in their ranges (R75, R83, R84). -/
def State.MixerSound (s : State) : Prop :=
  (s.mixer.override = .held ↔ s.supply.supply = .critical) ∧ s.mixer.code ≤ 1023 ∧
  (s.mixer.latchedMceil = 0 ∨ s.mixer.latchedMceil = 160 ∨ s.mixer.latchedMceil = 255) ∧
  s.mixer.inForce.master ≤ 255 ∧ s.mixer.inForce.amplitude ≤ 511 ∧
  s.mixer.pending.master.all (fun m => decide (m ≤ 255)) = true ∧
  s.mixer.pending.amplitude.all (fun a => decide (a ≤ 511)) = true ∧ ∀ v, (s.mixer.channels.get v).Sound

/-- The rumble driver (R89, R91, R97, R106, R107): no drive but while RUNNING with nothing that holds it off, the duty
never above the latched ceiling, at most 16 steps, and a priority exactly while there are steps. -/
def State.RumbleSound (s : State) : Prop :=
  (s.rumble.state ≠ .running → s.rumble.queue = [] ∧ s.rumble.requested = 0 ∧ s.rumble.applied = 0) ∧
  (s.rumble.calibrating = true → s.rumble.state = .idle) ∧
  s.rumble.calibrating = s.supply.calibration.isSome ∧
  (s.rumble.supplyHold = true ↔ s.supply.supply = .critical) ∧
  (s.rumble.supplyHold = true → s.rumble.applied = 0) ∧
  s.rumble.applied ≤ s.rumble.latchedCeiling ∧ s.rumble.queue.length ≤ 16 ∧
  (s.rumble.priority = none ↔ s.rumble.queue = [])

/-! ## Voices and cues -/

/-- The combined limits of the table fields (R33). -/
def VoiceRecord.Fits (r : VoiceRecord) : Prop := r.waveStart + r.waveLength ≤ 8192 ∧ r.loopStart < r.waveLength

/-- An OFF voice stands at position 0.0, level 0, RELEASE (R34). -/
def VoiceRecord.OffAtRest (r : VoiceRecord) : Prop :=
  r.mode = .off → r.posInt = 0 ∧ r.posFrac = 0 ∧ r.envLevel = 0 ∧ r.envState = .release

/-- Every field of a voice record lies in the range R33 gives it; the position of a TABLE voice lies within its wave. -/
def VoiceRecord.InRange (r : VoiceRecord) : Prop :=
  r.volume ≤ 127 ∧ (1 ≤ r.pitchStep ∧ r.pitchStep ≤ 2048) ∧ r.posFrac ≤ 255 ∧
  (r.mode = .table → r.posInt < r.waveLength) ∧ r.envLevel ≤ 255 ∧ (1 ≤ r.attackRate ∧ r.attackRate ≤ 255) ∧
  r.sustainLevel ≤ 255 ∧ (1 ≤ r.releaseRate ∧ r.releaseRate ≤ 255)

/-- What is left of a voice's records: the record as it stands, and as its pending fields would make it (R50). -/
def State.VoiceSound (s : State) (v : Fin 8) : Prop :=
  let r := s.voice.voices.get v
  let p := s.voice.pendings.get v
  r.Fits ∧ r.OffAtRest ∧ r.InRange ∧ (r.takeFields p).Fits ∧
  (p.volume.getD 0 ≤ 127 ∧ (1 ≤ p.pitchStep.getD 1 ∧ p.pitchStep.getD 1 ≤ 2048) ∧
   (1 ≤ p.attackRate.getD 1 ∧ p.attackRate.getD 1 ≤ 255) ∧ p.sustainLevel.getD 0 ≤ 255 ∧
   (1 ≤ p.releaseRate.getD 1 ∧ p.releaseRate.getD 1 ≤ 255))

/-- A cue's sound part as Cue Define stores it (R141). -/
def SoundPart.Sound (p : SoundPart) : Prop :=
  (p.waveStart + p.waveLength ≤ 8192 ∧ p.loopStart < p.waveLength) ∧ p.volume ≤ 127 ∧
  (1 ≤ p.pitchStep ∧ p.pitchStep ≤ 2048) ∧ (1 ≤ p.attackRate ∧ p.attackRate ≤ 255) ∧ p.sustainLevel ≤ 255 ∧
  (1 ≤ p.releaseRate ∧ p.releaseRate ≤ 255)

/-- The cue table: at least one part in each cue, sound parts within the combined limits, 1 to 4 steps (R141). -/
def CueDefinition.Sound (d : CueDefinition) : Prop :=
  (d.sound.isSome = true ∨ d.rumble.isSome = true) ∧ (∀ p ∈ d.sound, p.Sound) ∧
  ∀ p ∈ d.rumble, p.priority ≤ 3 ∧ 1 ≤ p.steps.length ∧ p.steps.length ≤ 4

def State.VoicesSound (s : State) : Prop := ∀ v, s.VoiceSound v

def State.CuesSound (s : State) : Prop :=
  (∀ c, ∀ d ∈ s.cue.table.get c, d.Sound) ∧ s.cue.starts.length ≤ 4 ∧ s.cue.periodCount ≤ 31

/-! ## Stream buffers -/

/-- A stream record (R54, R55): the held blocks stand in strictly rising distance, all inside the window. -/
def StreamRecord.Sound (r : StreamRecord) : Prop :=
  (2 ≤ r.depth ∧ r.depth ≤ r.limit ∧ r.limit ≤ 16) ∧
  r.held.Pairwise (fun a b => distance r.x a.seq < distance r.x b.seq) ∧
  (∀ b ∈ r.held, distance r.x b.seq < r.limit ∧ b.samples.length = 64) ∧
  (r.state = .closed → r.held = []) ∧ r.missingRun ≤ 3 ∧ (r.state = .play → r.missingRun ≤ 2) ∧
  r.lastPlayed.length = 64 ∧ r.periodValues.length = 64

/-- The blocks that all records hold together. -/
def StreamBuffers.heldCount (sb : StreamBuffers) : Nat := (sb.records.cells.map fun r => r.held.length).sum

/-- The pool's 48 slots are free or hold a block (R55). -/
def State.StreamsSound (s : State) : Prop :=
  s.stream.freeSlots + s.stream.heldCount = 48 ∧ ∀ v, (s.stream.records.get v).Sound

/-! ## Calendar, game days, events -/

/-- The calendar's instant lies in its range (R110). -/
def State.CalendarSound (s : State) : Prop := s.backup.calendar.now.day ≤ 73048 ∧ s.backup.calendar.now.second ≤ 86399

/-- The law of the game-day record (R122). -/
def State.GameDayLaw (s : State) : Prop :=
  s.record.valid = true →
    (s.record.counter : Int) - s.record.start + s.record.forfeited = s.record.highWater - s.record.startMark

/-- The members that the completion of the frame in transmission removes from EVENTS. -/
def actingEntries : Option TxFrame → List Nat
  | some ⟨.notice f, _⟩ => match f.live, f.content with
    | true, .events _ => f.acting
    | _, _ => []
  | _ => []

/-- From the end of the start-up work on, an entry is FIRED exactly while it is in the EVENTS set, and EVENTS is then
enabled; a frame removes only members of the set (R136). -/
def State.EventsSound (s : State) : Prop :=
  (s.corePowered = false → s.link.catchUpDone = false) ∧
  (s.link.catchUpDone = false → maskEnables s.link.mask .events = true ∧ s.link.notices.events = []) ∧
  (s.link.catchUpDone = true → ∀ e, (s.entry e).state = .fired ↔ e ∈ s.link.notices.events) ∧
  (s.link.notices.events ≠ [] → maskEnables s.link.mask .events = true) ∧
  ∀ e : Fin 16, e.val ∈ actingEntries s.link.tx → e ∈ s.link.notices.events

/-! ## Save store -/

/-- A commit between its request and its seal. -/
def SaveState.committing : SaveState → Bool
  | .waitReserve => true
  | .copying => true
  | .sealing => true
  | _ => false

/-- One slot, once it has been scanned: the live header is the live bank's and is good, and the highest good
generation is not below any good header's (R152). -/
def State.SlotSound (s : State) (slot : Fin 4) : Prop :=
  let e := s.save.entry slot
  (∀ bank ∈ e.liveBank, e.liveHeader = some (s.store.header slot bank) ∧ (s.store.header slot bank).good = true) ∧
  ∀ bank, (s.store.header slot bank).good = true → (s.store.header slot bank).generation ≤ e.highest

/-- The load or copy in progress (R157, R160, R161): the bytes moved so far agree at both ends, and the check kept for the
seal is that of the target's bytes. -/
def State.CopySound (s : State) : Prop :=
  let c := s.save
  let target := s.store.bank c.opSlot c.target
  (c.state = .loading → c.moved ≤ c.length ∧ (c.entry c.opSlot).liveHeader.map Header.length = some c.length ∧
    ∃ bank, (c.entry c.opSlot).liveBank = some bank ∧
      ∀ a, a < c.moved → s.store.staging.read a = (s.store.bank c.opSlot bank).read a) ∧
  (c.state = .copying → c.moved ≤ c.length ∧ ∀ a, a < c.moved → target.read a = s.store.staging.read a) ∧
  (c.state = .sealing → c.copyCheck = payloadCheck target c.length)

/-- The save controller (R155, R158, R160): an operation runs only after the scan, and a commit never aims at the live
bank. -/
def State.SaveSound (s : State) : Prop :=
  (s.corePowered = false → s.link.scanDone = false) ∧ (s.link.scanDone = false → s.save.state = .idle) ∧
  (s.save.state.committing = true → (s.save.entry s.save.opSlot).liveBank ≠ some s.save.target) ∧
  s.save.length ≤ 3584 ∧ (s.link.scanDone = true → ∀ slot, s.SlotSound slot) ∧ s.CopySound

/-! ## Memories and queues -/

/-- Every address of the memory lies below `size`, and its form is canonical. -/
def Memory.Within (m : Memory) (size : Nat) : Prop := Memory.wf m = true ∧ ∀ cell ∈ m, cell.1 < size

/-- Wave memory, the staging area and the banks hold no byte outside their sizes (section 3.7, R150). -/
def State.MemoriesSound (s : State) : Prop :=
  Memory.Within s.voice.wave 8192 ∧ Memory.Within s.store.staging 3584 ∧
  (∀ slot bank, Memory.Within (s.store.bank slot bank) 3584) ∧ ∀ slot bank, (s.store.header slot bank).length ≤ 3584

/-- The kind of request that an operation in flight answers, with its tag (R155, R172). -/
def SaveController.owed (c : SaveController) : List (Byte × Byte) :=
  match c.state with
  | .idle => []
  | .loading => [(0x36, c.deferredTag)]
  | .verifying => [(0x3B, c.deferredTag)]
  | _ => [(0x37, c.deferredTag)]

/-- The calibration's request that is still to be answered (R7). -/
def SupplyMonitor.owed (m : SupplyMonitor) : List (Byte × Byte) :=
  match m.calibration with
  | some ⟨.requested tag, _, _⟩ => [(0x0A, tag)]
  | _ => []

/-- The Cue Start that a waiting start still answers (R143). -/
def PendingStart.owed (p : PendingStart) : Option (Byte × Byte) :=
  match p.source with
  | .request tag => some (0x31, tag)
  | .event _ => none

/-- The requests, by kind and tag, whose deferred replies are still to join the reply queue (R172). -/
def State.owed (s : State) : List (Byte × Byte) :=
  s.save.owed ++ s.supply.owed ++ s.cue.starts.filterMap PendingStart.owed ++ s.link.waiting.map fun r => (r.kind - 0x80, r.tag)

/-- The queues of the link: a deferred reply waits only while the reply queue is full, and the requests taken up and not answered
are those that a reply is owed, one for one (R172). That the requests handed on are divided into those taken up and those not, and
that at most one is not, is the model's: DESIGN CHOICE (log entry 3). -/
def State.QueuesSound (s : State) : Prop :=
  s.link.inbound.length ≤ 4 ∧ s.link.replies.length ≤ 4 ∧ (s.link.waiting ≠ [] → s.link.replies.length = 4) ∧
  (s.link.inbound.filter (InboundRequest.at .handed)).length ≤ 1 ∧
  ((s.link.inbound.filter (InboundRequest.at .deferred)).map fun e => (e.kind, e.tag)).Perm s.owed

/-! ## All of it -/

/-- Everything above together: it holds at reset, and every step keeps it. -/
structure State.Sound (s : State) : Prop where
  governor : s.GovernorSound
  mixer    : s.MixerSound
  rumble   : s.RumbleSound
  voices   : s.VoicesSound
  cues     : s.CuesSound
  streams  : s.StreamsSound
  calendar : s.CalendarSound
  gameDays : s.GameDayLaw
  events   : s.EventsSound
  save     : s.SaveSound
  memories : s.MemoriesSound
  queues   : s.QueuesSound

end Sys2Proof.Machine
end

