-- ==== Sys2Proof/Certificates/Slice0/Obligations.lean ====
section
/-! DEFINITION. The statements for the provers, in the order of OBLIGATIONS.json. A statement about a command's result gives
the state after it, so that it says where the command completes and what it leaves unchanged. -/

section

open Sys2Proof Sys2Proof.Machine

/-! ## The queue of commands -/

/-- A step takes the command at the front of the queue and runs it on the state with the queue's rest; with no command
waiting the block idles (the model's choice, log entry 5). -/
def Obligations.StepRunsTheFrontCommand : Prop :=
  (∀ (c : Instr) (rest : List Instr) (s : State), step { s with pending := c :: rest } = exec c { s with pending := rest }) ∧
  (∀ s : State, s.pending = [] → step s = .next s)

/-- Every command, in every state, answers a next state, and none touches the queue; without the cartridge supply the rows of
the core domain change nothing (section 0.3; log entry 2). -/
def Obligations.EveryCommandRunsAndTheCoreNeedsItsSupply : Prop :=
  (∀ (c : Instr) (s : State), ∃ t, exec c s = .next t ∧ t.pending = s.pending) ∧
  (∀ (c : Instr) (s : State), ofCoreDomain c = true → s.corePowered = false → exec c s = .next s)

/-! ## Power and start-up -/

/-- Power-up gives every core block the values of its chapter's reset rule; a right marker keeps the backup domain, and a
wrong one has the backup loss handled. Backup power that was absent comes back first, and a power-up while powered is a loss of
the cartridge supply followed by a power-up. The model's own values among these: the mixer's last substitution (log entry 20),
the sample index (log entry 21), the controller's fields and the slot table before the scan (log entry 19), the trigger kind of
a FREE entry (log entry 18), the pin, its bits and the deframed byte (log entry 12), the coast window closed, the opening delimiter
not sent (log entry 15), and a power-up while powered (log entry 2) or with backup power absent (log entry 10). -/
def Obligations.PowerUpTakesTheResetValues : Prop :=
  (∀ s : State, s.corePowered = false → s.backup.powered = true →
    exec .powerUp s = .next { s with
      corePowered := true
      supply :=
        { vcart := 0, vbat := 0, imot := 0, bemfRaw := 0, bemfCorrected := 0, zeroOffset := 0
          low := 1500, critical := 1400, hysteresis := 25, battThreshold := 2600
          supply := .low, supplyRecovery := 0, firstVcart := false, battery := .unknown, batteryRecovery := 0
          skipped := 0, round := [], injected := .idle, calibration := some ⟨.startUp, 0, 0⟩ }
      governor :=
        { supply := .low, volume := 128, busy := false, budget := 200, imax := 150
          record := { supply := .low, mceil := 160, dceil := 96, reserve := false, audio := 27, headroom := 143 } }
      voice :=
        { voices := .replicate 8
            { mode := .off, volume := 127, substitution := .none, waveStart := 0, waveLength := 1, loopStart := 0
              loopMode := .once, pitchStep := 256, posInt := 0, posFrac := 0, envState := .release, envLevel := 0
              attackRate := 255, sustainLevel := 255, releaseRate := 255 }
          pendings := .replicate 8 .empty, wave := [] }
      stream :=
        { records := .replicate 8
            { state := .closed, x := 0, depth := 2, limit := 2, held := [], missingRun := 0
              lastPlayed := List.replicate 64 0, periodValues := List.replicate 64 0, counters := .zero }
          freeSlots := 48, stray := 0, sampleIndex := 0 }
      mixer :=
        { inForce := { master := 128, global := .none, tone := false, amplitude := 128, halfPeriod := 32 }
          pending := .empty, latchedMceil := 0, override := .clear, channels := .replicate 8 ⟨0, 0, .none⟩
          tonePositive := true, toneCount := 0, clipCount := 0, clipNow := false, clipLast := false, code := 512 }
      rumble :=
        { state := .idle, calibrating := true, supplyHold := false, latchedCeiling := 0, latchedReserve := false
          requested := 0, applied := 0, historyOlder := 0, historyNewer := 0, bemfRun := 0, cause := .none
          settings := { carrier := 8, kick := true, stall := 40, trip := 1000, drainNotice := false }
          pendingCarrier := none, queue := [], priority := none, coastOpen := false }
      cue :=
        { table := .replicate 8 none, starts := [], countdowns := .replicate 8 none, periodCount := 0, measureDue := false }
      save :=
        { state := .idle, opSlot := 0, target := .a, length := 0, moved := 0, deferredTag := 0, copyCheck := 0
          slotTable := .replicate 4 .emptied, backupLoss := !s.backup.store.marker }
      link :=
        { lselLow := s.link.lselLow, bitCount := 0, shiftIn := 0, ldo := true, out := [], deframer := .hunt, inbound := [], replies := [], waiting := []
          notices := .empty, mask := 0x00FF, counters := .zero, noticeSeq := 0, scanDone := false
          calibrationDone := false, catchUpDone := false, tx := none, delimiterSent := false }
      backup :=
        if s.backup.store.marker = true then s.backup
        else
          { s.backup with
            calendar := { now := ⟨0, 0⟩, valid := false, ended := false, divider := 0 }
            record :=
              { valid := false, counter := 0, start := 0, highWater := -1, startMark := -1, rollover := 0, cap := 1
                forfeited := 0, rewind := false, checkMatches := true }
            events := .replicate 16 ⟨.free, .gameDay 0, .absent, none, false, false, ⟨0, 0⟩⟩
            store := { s.backup.store with
              headers := .replicate 4 ⟨.invalid, .invalid⟩, staging := [], marker := true } } }) ∧
  (∀ s : State, s.corePowered = false → s.backup.powered = false →
    exec .powerUp s = exec .powerUp { s with backup := { s.backup with
      powered := true, calendar := { now := ⟨0, 0⟩, valid := false, ended := false, divider := 0 } } }) ∧
  (∀ s : State, s.corePowered = true →
    ∃ t, exec .cartridgeSupplyLoss s = .next t ∧ exec .powerUp s = exec .powerUp t)

/-- Loss of the cartridge supply stops the core and keeps the backup domain; a header write that has begun is finished, and
only the target of a copy, or staging in a load, is written. The backup domain loses its contents only while the cartridge supply
is absent; when its power comes back the calendar begins at D 0, T 0 with valid and end clear. What the lost areas hold is the
model's choice (log entries 8 and 10). -/
def Obligations.PowerLossesKeepWhatStillHasPower : Prop :=
  (∀ s : State, s.corePowered = true → ∃ t, exec .cartridgeSupplyLoss s = .next t ∧ t.corePowered = false ∧
     t.backup.powered = s.backup.powered ∧ t.backup.calendar = s.backup.calendar ∧ t.record = s.record ∧
     t.backup.events = s.backup.events ∧ t.store.marker = s.store.marker ∧
     (s.save.state = .idle ∨ s.save.state = .waitReserve ∨ s.save.state = .verifying → t.backup = s.backup) ∧
     (s.save.state ≠ .sealing → t.store.headers = s.store.headers) ∧
     (s.save.state = .sealing → t.store = s.store.writeHeader s.save.opSlot s.save.target s.sealedHeader) ∧
     (s.save.state ≠ .loading → t.store.staging = s.store.staging) ∧
     (∀ slot bank, s.save.state ≠ .copying ∨ slot ≠ s.save.opSlot ∨ bank ≠ s.save.target →
       t.store.bank slot bank = s.store.bank slot bank)) ∧
  (∀ s : State, s.corePowered = true → exec .backupDomainPowerLoss s = .next s) ∧
  (∀ s : State, s.corePowered = false →
    ∃ t, exec .backupDomainPowerLoss s = .next t ∧ { t with backup := s.backup } = s ∧
      t.backup.powered = false ∧ t.store.marker = false) ∧
  (∀ s : State, s.backup.powered = false →
    exec .backupDomainPowerReturn s = .next { s with backup := { s.backup with
      powered := true, calendar := { now := ⟨0, 0⟩, valid := false, ended := false, divider := 0 } } })

/-- The start-up scan forms each slot's entry from its two banks and leaves backup memory as it is. -/
def Obligations.SlotScanBuildsTheSlotTable : Prop :=
  ∀ s : State, s.corePowered = true → s.link.scanDone = false → ∃ t, exec .slotScan s = .next t ∧
    t.link.scanDone = true ∧ { t with save := s.save, link := s.link } = s ∧ t.save.state = s.save.state ∧
    (∀ slot, let e := t.save.entry slot; let a := s.store.header slot .a; let b := s.store.header slot .b
      e.highest = max (if a.good = true then a.generation else 0) (if b.good = true then b.generation else 0) ∧
      (s.store.valid slot .a = true → (s.store.valid slot .b = true → b.generation ≤ a.generation) →
        e.liveBank = some .a ∧ e.liveHeader = some a) ∧
      (s.store.valid slot .b = true → (s.store.valid slot .a = true → a.generation < b.generation) →
        e.liveBank = some .b ∧ e.liveHeader = some b) ∧
      (s.store.valid slot .a = true → s.store.valid slot .b = true → e.condition = .valid) ∧
      (s.store.valid slot .a = true → s.store.valid slot .b = false →
        e.condition = if b.good = true ∧ a.generation < b.generation then .validFallback else .valid) ∧
      (s.store.valid slot .b = true → s.store.valid slot .a = false →
        e.condition = if a.good = true ∧ b.generation < a.generation then .validFallback else .valid) ∧
      (s.store.valid slot .a = false → s.store.valid slot .b = false → e.liveBank = none ∧ e.liveHeader = none ∧
        e.condition = if a.good = true ∨ b.good = true then .damaged else .empty) ∧
      ∀ bank, e.standings.get bank =
        if e.liveBank = some bank then .live else if s.store.valid slot bank = true then .validOlder
        else if (s.store.header slot bank).generation ≠ 0 then .invalid else .neverWritten) ∧
    (maskEnables s.link.mask .saveScan = true → t.link.notices.saveScan =
      some ⟨t.save.slotTable.map SlotEntry.condition, t.save.slotTable.map SlotEntry.liveBank, s.save.backupLoss⟩)

/-- The start-up work of the game-day unit: the record check, the catch-up of days, each with its GAMEDAY notice, and late firings
without a cue. The index in the INVALID notice is formed with the invalid record's own offset (log entry 22). -/
def Obligations.StartUpCatchUpCreditsDaysAndFiresLate : Prop :=
  ∀ s : State, s.corePowered = true → s.link.catchUpDone = false → ∃ t, exec .startUpCatchUp s = .next t ∧
    t.link.catchUpDone = true ∧ { t with backup := s.backup, link := s.link } = s ∧
    t.backup.calendar = s.backup.calendar ∧ t.store = s.store ∧
    (maskEnables s.link.mask .gameDay = false → t.link.notices.gameDay = s.link.notices.gameDay) ∧
    (s.record.checkMatches = false → t.record = { s.record with valid := false, checkMatches := true } ∧
      (maskEnables s.link.mask .gameDay = true → t.link.notices.gameDay =
        some ⟨.invalid, false, s.record.counter, s.record.highWater, s.index, 0, s.record.forfeited, s.record.rewind⟩)) ∧
    (s.record.checkMatches = true → s.record.valid = false ∨ s.backup.calendar.valid = false →
      t.record = s.record ∧ t.link.notices.gameDay = s.link.notices.gameDay) ∧
    (s.record.checkMatches = true → s.record.valid = true → s.backup.calendar.valid = true →
      t.record = s.record.caughtUp s.index ∧
      (maskEnables s.link.mask .gameDay = true →
        t.link.notices.gameDay = (s.record.catchUpNotice s.index).or s.link.notices.gameDay)) ∧
    (∀ e, (s.entry e).state = .fired → maskEnables s.link.mask .events = true → e ∈ t.link.notices.events) ∧
    (∀ e, (s.entry e).state ≠ .armed ∨ ¬(s.entry e).Met t.record s.now → t.entry e = s.entry e) ∧
    (∀ e, (s.entry e).state = .armed → (s.entry e).Met t.record s.now →
      t.entry e = (s.entry e).afterFiring s.now true (maskEnables s.link.mask .events) ∧
      (maskEnables s.link.mask .events = true → e ∈ t.link.notices.events))

/-- Restart gives the core its power-up values, finishes a header write in SEALING, and leaves its own reply as the only one; of
a load or copy in progress only the bytes copied so far are written. The backup domain is kept when its marker is right, and a
wrong one has the backup loss handled. The selection goes on, and a frame in transmission, being sent or waiting to be sent again, is ended,
after the byte under way, by an escape and a delimiter. The model's own values among these: the pin, its bits and the byte under way (log entry 12), the end of the
frame after that byte, and with no byte while LSEL is high, and the delimiter of the selection (log entry 15), the trigger kind of a FREE entry (log entry 18), the controller's fields
and the slot table before the scan (log entry 19), the mixer's last substitution (log entry 20), the sample index (log entry 21). -/
def Obligations.RestartStartsTheCoreAgain : Prop :=
  ∀ (s : State) (tag : Byte), s.Serves (.restart tag) →
    ∃ t, exec (.restart tag) s = .next t ∧ t.corePowered = true ∧
      t.supply = .reset ∧ t.governor = .reset ∧ t.voice = .reset ∧ t.stream = .reset ∧ t.mixer = .reset ∧
      t.rumble = .reset ∧ t.cue = .reset ∧ t.save = .atStart (!s.store.marker) ∧
      t.link.replies = [⟨0x84, tag, .ok, .none⟩] ∧ t.link.inbound = [] ∧ t.link.waiting = [] ∧ t.link.tx = none ∧
      t.link.notices = .empty ∧ t.link.mask = 0x00FF ∧ t.link.counters = .zero ∧ t.link.noticeSeq = 0 ∧
      t.link.readiness = .notReady ∧ t.link.deframer = .hunt ∧
      t.link.lselLow = s.link.lselLow ∧ t.link.bitCount = s.link.bitCount ∧ t.link.delimiterSent = s.link.delimiterSent ∧
      (s.link.tx ≠ none → s.link.lselLow = true →
        t.link.out = (if s.link.bitCount = 0 then [] else [s.link.out.headD 0xF9]) ++ [0xF8, 0xF9]) ∧
      (s.link.tx = none ∨ s.link.lselLow = false → t.link.out = s.link.out) ∧
      t.store.marker = true ∧ t.backup.powered = s.backup.powered ∧
      (∀ slot bank, s.save.state ≠ .copying ∨ slot ≠ s.save.opSlot ∨ bank ≠ s.save.target →
        t.store.bank slot bank = s.store.bank slot bank) ∧
      (s.store.marker = true →
        t.backup.calendar = s.backup.calendar ∧ t.record = s.record ∧ t.backup.events = s.backup.events ∧
        (s.save.state = .idle ∨ s.save.state = .waitReserve ∨ s.save.state = .verifying → t.backup = s.backup) ∧
        (s.save.state = .sealing → t.store = s.store.writeHeader s.save.opSlot s.save.target s.sealedHeader) ∧
        (s.save.state ≠ .sealing → t.store.headers = s.store.headers) ∧
        (s.save.state ≠ .loading → t.store.staging = s.store.staging)) ∧
      (s.store.marker = false →
        t.backup.calendar = { now := ⟨0, 0⟩, valid := false, ended := false, divider := 0 } ∧
        t.record = { valid := false, counter := 0, start := 0, highWater := -1, startMark := -1, rollover := 0, cap := 1
                     forfeited := 0, rewind := false, checkMatches := true } ∧
        t.backup.events = .replicate 16 ⟨.free, .gameDay 0, .absent, none, false, false, ⟨0, 0⟩⟩ ∧
        t.store.headers = .replicate 4 ⟨.invalid, .invalid⟩ ∧ t.store.staging = [])

/-! ## Cartridge link -/

/-- LSEL falling restarts the bit count, with LDO at the first bit of a delimiter (log entry 12); LSEL rising keeps the frame being
sent to be sent again and drops what is left to send, the end of a frame that a Restart has ended included (log entry 15), and counts
ABORTED, with the deframer in HUNT after it, when a frame is being received; in HUNT and BETWEEN it counts nothing and the deframer
stays. A frame
partly received while the rows leave the deframer BETWEEN is given by the operand of LSEL_RISE (log entry 14). A frame that ends
badly changes only its counter, sends the deframer where the table says, and renews LINK; in HUNT and with LSEL high nothing is
counted (log entry 13). Without the cartridge supply the pin alone moves; an edge that is none changes nothing (log entry 2). -/
def Obligations.ReceptionEndsWithTheFrameOrTheSelection : Prop :=
  (∀ s : State, s.corePowered = true → s.link.lselLow = false →
    exec .lselFall s = .next { s with link := { s.link with
      lselLow := true, bitCount := 0, shiftIn := 0, ldo := true, delimiterSent := false } }) ∧
  (∀ s : State, s.corePowered = true → s.link.lselLow = true → exec .lselFall s = .next s) ∧
  (∀ (s : State) (begun : Bool), s.corePowered = true → s.link.lselLow = false → exec (.lselRise begun) s = .next s) ∧
  (∀ (s : State) (begun : Bool), s.corePowered = false →
    exec .lselFall s = .next { s with link := { s.link with lselLow := true } } ∧
    exec (.lselRise begun) s = .next { s with link := { s.link with lselLow := false } }) ∧
  (∀ (s : State) (begun : Bool), s.Selected → s.link.deframer = .hunt ∨ (s.link.deframer = .between ∧ begun = false) →
    exec (.lselRise begun) s = .next { s with link := { s.link with
      lselLow := false, shiftIn := 0, out := [], tx := s.link.tx.map fun f => { f with sending := false } } }) ∧
  (∀ (s : State) (begun : Bool), s.Selected →
    (∃ bytes escaped, s.link.deframer = .inFrame bytes escaped) ∨ (s.link.deframer = .between ∧ begun = true) →
    ∃ t, exec (.lselRise begun) s = .next t ∧ { t with link := s.link } = s ∧
      t.link.lselLow = false ∧ t.link.deframer = .hunt ∧ t.link.out = [] ∧
      t.link.counters = { s.link.counters with aborted := min (s.link.counters.aborted + 1) 65535 } ∧
      t.link.inbound = s.link.inbound ∧ t.link.replies = s.link.replies ∧ t.link.waiting = s.link.waiting ∧
      (s.link.tx = none → t.link.tx = none) ∧
      (∀ r sending, s.link.tx = some ⟨.reply r, sending⟩ → t.link.tx = some ⟨.reply r, false⟩) ∧
      (∀ f sending, s.link.tx = some ⟨.notice f, sending⟩ → t.link.tx = some ⟨.notice { f with rewritten :=
        f.rewritten || (maskEnables s.link.mask .link && decide (f.content.kind = .link)) }, false⟩) ∧
      (maskEnables s.link.mask .link = true → t.link.notices = { s.link.notices with link := some t.link.counters }) ∧
      (maskEnables s.link.mask .link = false → t.link.notices = s.link.notices)) ∧
  (∀ s : State, s.Selected → s.link.deframer = .hunt →
    exec .huntDelimiter s = .next { s with link := { s.link with deframer := .between } }) ∧
  (∀ s : State, s.corePowered = true → s.link.lselLow = false ∨ s.link.deframer ≠ .hunt → exec .huntDelimiter s = .next s) ∧
  (∀ (s : State) (cause : DiscardCause), s.corePowered = true → s.link.lselLow = false →
    exec (.frameDiscarded cause) s = .next s) ∧
  (∀ (s : State) (cause : DiscardCause), s.Selected → s.link.deframer = .hunt →
    exec (.frameDiscarded cause) s = .next { s with link := { s.link with
      deframer := if cause = .long ∨ cause = .badEscape then .hunt else .between } }) ∧
  (∀ (s : State) (cause : DiscardCause), s.Selected → s.link.deframer ≠ .hunt →
    ∃ t, exec (.frameDiscarded cause) s = .next t ∧ { t with link := s.link } = s ∧
      (let c := s.link.counters
       (cause = .short → t.link.counters = { c with short := min (c.short + 1) 65535 } ∧ t.link.deframer = .between) ∧
       (cause = .badCheck → t.link.counters = { c with badCheck := min (c.badCheck + 1) 65535 } ∧ t.link.deframer = .between) ∧
       (cause = .long → t.link.counters = { c with long := min (c.long + 1) 65535 } ∧ t.link.deframer = .hunt) ∧
       (cause = .badEscape → t.link.counters = { c with badEscape := min (c.badEscape + 1) 65535 } ∧
         t.link.deframer = .hunt) ∧
       (cause = .aborted → t.link.counters = { c with aborted := min (c.aborted + 1) 65535 } ∧ t.link.deframer = .between) ∧
       (cause = .badKind → t.link.counters = { c with badKind := min (c.badKind + 1) 65535 } ∧ t.link.deframer = .between)) ∧
      { t.link with counters := s.link.counters, deframer := s.link.deframer, notices := s.link.notices, tx := s.link.tx } =
        s.link ∧
      (maskEnables s.link.mask .link = true → t.link.notices = { s.link.notices with link := some t.link.counters }) ∧
      (maskEnables s.link.mask .link = false → t.link.notices = s.link.notices))

/-- A request frame joins the inbound request queue, or is an OVERRUN when that already holds four. -/
def Obligations.RequestFramesQueueOrOverrun : Prop :=
  (∀ (s : State) (kind tag : Byte) (body : List Byte), s.Selected → s.link.deframer ≠ .hunt →
    1 ≤ kind.toNat → kind.toNat ≤ 0x3E → body.length ≤ 72 → s.link.inbound.length < 4 →
    exec (.requestFrame kind tag body) s = .next { s with link := { s.link with
      deframer := .between, inbound := s.link.inbound ++ [⟨kind, tag, body, .waiting⟩] } }) ∧
  (∀ (s : State) (kind tag : Byte) (body : List Byte), s.Selected → s.link.deframer ≠ .hunt →
    1 ≤ kind.toNat → kind.toNat ≤ 0x3E → body.length ≤ 72 → 4 ≤ s.link.inbound.length →
    ∃ t, exec (.requestFrame kind tag body) s = .next t ∧ { t with link := s.link } = s ∧
      t.link.inbound = s.link.inbound ∧ t.link.replies = s.link.replies ∧
      t.link.counters = { s.link.counters with overrun := min (s.link.counters.overrun + 1) 65535 } ∧
      (maskEnables s.link.mask .link = true → t.link.notices = { s.link.notices with link := some t.link.counters }))

/-- The oldest waiting request is handed on when the reply queue has a place: the link answers it when one of its three
checks fails, in their order, and otherwise its owner has it. The owner of a request takes it up before the next is handed on
(log entry 3). -/
def Obligations.HandOnChecksTheOldestRequest : Prop :=
  (∀ (s : State) (front back : List InboundRequest) (e : InboundRequest), s.corePowered = true →
    s.link.replies.length < 4 → s.link.inbound = front ++ e :: back → (∀ x ∈ front, x.stage = .deferred) →
    e.stage = .waiting → (∀ x ∈ back, x.stage ≠ .handed) →
    let answered (status : Status) : State := { s with link := { s.link with
      replies := s.link.replies ++ [⟨e.kind + 0x80, e.tag, status, .none⟩], inbound := front ++ back } }
    (lengthFits e.kind e.body = none → exec .requestHandOn s = .next (answered .badKind)) ∧
    (lengthFits e.kind e.body = some false → exec .requestHandOn s = .next (answered .badLength)) ∧
    (lengthFits e.kind e.body = some true → s.link.readiness = .notReady → e.kind ≠ 0x01 → e.kind ≠ 0x03 →
      exec .requestHandOn s = .next (answered .notReady)) ∧
    (lengthFits e.kind e.body = some true → s.link.readiness = .ready ∨ e.kind = 0x01 ∨ e.kind = 0x03 →
      exec .requestHandOn s = .next { s with link := { s.link with
        inbound := front ++ { e with stage := .handed } :: back } })) ∧
  (∀ s : State, s.corePowered = true →
    4 ≤ s.link.replies.length ∨ (∃ x ∈ s.link.inbound, x.stage = .handed) ∨ (∀ x ∈ s.link.inbound, x.stage ≠ .waiting) →
    exec .requestHandOn s = .next s)

/-- At a byte boundary the transmitter takes a frame cut short, else the oldest reply, else the first pending notice in the
order of the kinds, else a delimiter; the frame's bytes are then to be sent, the first in a selection after its opening delimiter
(log entry 15). A frame carries its kind, its tag or sequence number and, in a reply, the status code first; the bytes of the other
fields are free (log entry 4). ATN asks for a selection while a reply is queued or a notice is pending. -/
def Obligations.FrameStartFollowsItsOrder : Prop :=
  (∀ (s : State) (c : TxContent), s.AtByteBoundary → s.link.tx = some ⟨c, false⟩ →
    exec .frameStart s = .next { s with link := { s.link with
      out := s.link.out ++ (if s.link.delimiterSent = true then [] else [0xF9]) ++ c.wire
      delimiterSent := true, tx := some ⟨c, true⟩ } }) ∧
  (∀ (s : State) (r : Reply) (rs : List Reply), s.AtByteBoundary → s.link.tx = none → s.link.replies = r :: rs →
    exec .frameStart s = .next { s with link := { s.link with
      out := s.link.out ++ (if s.link.delimiterSent = true then [] else [0xF9]) ++ (TxContent.reply r).wire
      delimiterSent := true, tx := some ⟨.reply r, true⟩ } }) ∧
  (∀ (s : State) (k : NoticeKind), s.AtByteBoundary → s.link.tx = none → s.link.replies = [] →
    s.link.notices.has k = true → (∀ k', k'.bit < k.bit → s.link.notices.has k' = false) →
    ∃ content, content.kind = k ∧ s.noticeContent k = some content ∧
      (let frame : TxContent := .notice ⟨s.link.noticeSeq, content, content.members, true, false⟩
       exec .frameStart s = .next { s with link := { s.link with
         out := s.link.out ++ (if s.link.delimiterSent = true then [] else [0xF9]) ++ frame.wire
         delimiterSent := true, noticeSeq := s.link.noticeSeq + 1, tx := some ⟨frame, true⟩ } })) ∧
  (∀ s : State, s.AtByteBoundary → s.link.tx = none → s.link.replies = [] → (∀ k, s.link.notices.has k = false) →
    exec .frameStart s = .next { s with link := { s.link with delimiterSent := true } }) ∧
  (∀ r : Reply, ∃ fields : List Byte, fields.length ≤ 511 ∧ (r.body = .none → fields = []) ∧
    (TxContent.reply r).wire = wireFrame r.kind r.tag (r.status.code :: fields)) ∧
  (∀ f : NoticeFrame, ∃ fields : List Byte, fields.length ≤ 512 ∧
    (TxContent.notice f).wire = wireFrame (0x40 + BitVec.ofNat 8 f.content.kind.bit) f.seq fields) ∧
  (∀ l : Link, l.attention = true ↔ l.replies ≠ [] ∨ ∃ k, l.notices.has k = true)

/-- When a reply's frame completes it leaves the reply queue, and its place goes first to the deferred reply that has waited
longest. When a notice's frame completes its content leaves the pending set unless it was rewritten; of a set only the members
carried leave; an EVENTS frame also releases its entries; and after the kind was disabled nothing changes. Making an enabled kind
pending marks a frame of that kind in transmission as rewritten; a disabled kind does not become pending. -/
def Obligations.CompletedFramesLeaveTheirQueues : Prop :=
  (∀ (s : State) (r : Reply), s.AtByteBoundary → s.link.tx = some ⟨.reply r, true⟩ → s.link.waiting = [] →
    exec .frameTransmitComplete s = .next { s with link := { s.link with replies := s.link.replies.tail, tx := none, out := [] } }) ∧
  (∀ (s : State) (r w : Reply) (ws : List Reply), s.AtByteBoundary → s.link.tx = some ⟨.reply r, true⟩ → s.link.waiting = w :: ws →
    exec .frameTransmitComplete s = .next { s with link := { s.link with
      replies := s.link.replies.tail ++ [w], inbound := s.link.inbound.eraseP (w.answers .deferred), waiting := ws, tx := none, out := [] } }) ∧
  (∀ (s : State) (f : NoticeFrame), s.AtByteBoundary → s.link.tx = some ⟨.notice f, true⟩ → f.live = false →
    exec .frameTransmitComplete s = .next { s with link := { s.link with tx := none, out := [] } }) ∧
  (∀ (s : State) (f : NoticeFrame) (k : NoticeKind), s.AtByteBoundary → s.link.tx = some ⟨.notice f, true⟩ → f.live = true →
    f.content.kind = k → k ≠ .events → k ≠ .stream → k ≠ .voiceEnd →
    exec .frameTransmitComplete s = .next { s with link := { s.link with
      notices := if f.rewritten = true then s.link.notices else s.link.notices.remove k, tx := none, out := [] } }) ∧
  (∀ (s : State) (f : NoticeFrame) (vs : List (Fin 8)), s.AtByteBoundary → s.link.tx = some ⟨.notice f, true⟩ → f.live = true →
    (f.content = .stream vs → exec .frameTransmitComplete s = .next { s with link := { s.link with
      tx := none, out := [], notices := { s.link.notices with stream := s.link.notices.stream.filter fun v => !f.acting.contains v.val } } }) ∧
    (f.content = .voiceEnd vs → exec .frameTransmitComplete s = .next { s with link := { s.link with
      tx := none, out := [], notices := { s.link.notices with voiceEnd := s.link.notices.voiceEnd.filter fun v => !f.acting.contains v.val } } })) ∧
  (∀ (s : State) (f : NoticeFrame) (es : List EventReport), s.AtByteBoundary → s.link.tx = some ⟨.notice f, true⟩ →
    f.live = true → f.content = .events es →
    ∃ t, exec .frameTransmitComplete s = .next t ∧ { t with link := s.link, backup := s.backup } = s ∧
      t.link = { s.link with tx := none, out := [], notices := { s.link.notices with
        events := s.link.notices.events.filter fun e => !f.acting.contains e.val } } ∧
      t.backup.calendar = s.backup.calendar ∧ t.record = s.record ∧ t.store = s.store ∧
      (∀ e, e.val ∉ f.acting ∨ (s.entry e).state ≠ .fired → t.entry e = s.entry e) ∧
      (∀ e v, e.val ∈ f.acting → (s.entry e).state = .fired → (s.entry e).trigger = .gameDay v → t.entry e = .freed) ∧
      (∀ e i, e.val ∈ f.acting → (s.entry e).state = .fired → (s.entry e).trigger = .dateTime i → t.entry e = .freed) ∧
      (∀ e time i, e.val ∈ f.acting → (s.entry e).state = .fired → (s.entry e).trigger = .daily time →
        (s.entry e).due = .at i →
        t.entry e = { s.entry e with state := .armed, late := false
                                     due := if s.now.earlier i = true then .at i else nextOccurrence time s.now }) ∧
      (∀ e time, e.val ∈ f.acting → (s.entry e).state = .fired → (s.entry e).trigger = .daily time →
        (∀ i, (s.entry e).due ≠ .at i) → t.entry e = { s.entry e with state := .armed, late := false })) ∧
  (∀ (s : State) (k : NoticeKind) (put : NoticeSet → NoticeSet), maskEnables s.link.mask k = true →
    ∃ t, s.pend k put = t ∧ { t with link := s.link } = s ∧
      { t.link with notices := s.link.notices, tx := s.link.tx } = s.link ∧ t.link.notices = put s.link.notices ∧
      (∀ f sending, s.link.tx = some ⟨.notice f, sending⟩ →
        t.link.tx = some ⟨.notice { f with rewritten := f.rewritten || decide (f.content.kind = k) }, sending⟩) ∧
      ((∀ f sending, s.link.tx ≠ some ⟨.notice f, sending⟩) → t.link.tx = s.link.tx)) ∧
  (∀ (s : State) (k : NoticeKind) (put : NoticeSet → NoticeSet), maskEnables s.link.mask k = false → s.pend k put = s)

/-- Part Status and Link Status, once handed on, are answered in every readiness, with what stands when they are taken. Link
Status counts its own request and not its own reply (the model's choice, log entry 30). -/
def Obligations.StatusRequestsReportTheLink : Prop :=
  (∀ (s : State) (tag : Byte), s.corePowered = true → s.link.admits (.partStatus tag) = true →
    exec (.partStatus tag) s = .next (s.replied 0x01 tag .ok (.partStatus s.link.readiness s.supply.supply s.supply.battery
      s.governor.record s.save.state s.rumble.state s.backup.calendar.valid s.record.valid
      (NoticeKind.all.filter s.link.notices.has) s.link.mask))) ∧
  (∀ (s : State) (tag : Byte), s.corePowered = true → s.link.admits (.linkStatus tag false) = true →
    exec (.linkStatus tag false) s = .next (s.replied 0x03 tag .ok
      (.linkStatus s.link.counters s.link.inbound.length s.link.replies.length s.link.noticeSeq))) ∧
  (∀ (s : State) (tag : Byte), s.corePowered = true → s.link.admits (.linkStatus tag true) = true →
    exec (.linkStatus tag true) s = .next (({ s with link := { s.link with
      counters := ⟨0, 0, 0, 0, 0, 0, 0, 0⟩ } } : State).replied 0x03 tag .ok
      (.linkStatus s.link.counters s.link.inbound.length s.link.replies.length s.link.noticeSeq)))

/-- Notice Mask replaces the mask, takes each newly disabled kind out of the pending set and leaves the others' contents, and
releases the entries of a disabled EVENTS: a one-shot entry becomes FREE, a DAILY entry ARMED. A frame of a disabled kind in
transmission goes on, and its completion will change nothing. A bit above bit 9 is BAD_FIELD. -/
def Obligations.NoticeMaskDisablesKinds : Prop :=
  (∀ (s : State) (tag : Byte) (mask : Word16), s.Serves (.noticeMask tag mask) → 1024 ≤ mask.toNat →
    exec (.noticeMask tag mask) s = .next (s.replied 0x02 tag .badField .none)) ∧
  (∀ (s : State) (tag : Byte) (mask : Word16), s.Serves (.noticeMask tag mask) → mask.toNat < 1024 →
    ∃ t, exec (.noticeMask tag mask) s = .next t ∧ { t with link := s.link, backup := s.backup } = s ∧
      t.link.mask = mask ∧
      { t.link with mask := s.link.mask, notices := s.link.notices, tx := s.link.tx } =
        (s.replied 0x02 tag .ok (.noticeMask mask)).link ∧
      (let n := s.link.notices
       let on (k : NoticeKind) : Prop := maskEnables mask k = true
       t.link.notices =
         { supply := if on .supply then n.supply else none, rumble := if on .rumble then n.rumble else none
           saveScan := if on .saveScan then n.saveScan else none, gameDay := if on .gameDay then n.gameDay else none
           events := if on .events then n.events else [], cue := if on .cue then n.cue else none
           stream := if on .stream then n.stream else [], voiceEnd := if on .voiceEnd then n.voiceEnd else []
           clip := if on .clip then n.clip else none, link := if on .link then n.link else none }) ∧
      (∀ f sending, s.link.tx = some ⟨.notice f, sending⟩ → t.link.tx = some ⟨.notice
        (if maskEnables mask f.content.kind = true then f else { f with live := false, acting := [] }), sending⟩) ∧
      ((∀ f sending, s.link.tx ≠ some ⟨.notice f, sending⟩) → t.link.tx = s.link.tx) ∧
      (maskEnables mask .events = true → t.backup = s.backup) ∧
      t.backup.calendar = s.backup.calendar ∧ t.record = s.record ∧ t.store = s.store ∧
      (∀ e, e ∉ s.link.notices.events → t.entry e = s.entry e) ∧
      (maskEnables mask .events = false → ∀ e ∈ s.link.notices.events, s.link.notices.events.Nodup →
        (∀ time, (s.entry e).trigger ≠ .daily time) → t.entry e = .freed) ∧
      (maskEnables mask .events = false → ∀ e ∈ s.link.notices.events, s.link.notices.events.Nodup →
        ∀ time, (s.entry e).trigger = .daily time → t.entry e = { s.entry e with
          state := .armed, late := false
          due := match (s.entry e).due with
            | .at i => if i.Reached s.now then nextOccurrence time s.now else .at i
            | d => d }))

/-- Before READY every request but Part Status and Link Status is answered NOT_READY and changes nothing else, also when it has been
handed on. REQUEST_HAND_ON hands no such request on before READY but answers it NOT_READY itself, as HandOnChecksTheOldestRequest
states; this statement is of the request's own row, whose check of readiness is the model's choice (log entry 3). -/
def Obligations.RequestsBeforeReadyAreNotReady : Prop :=
  ∀ (c : Instr) (kind tag : Byte) (s : State), requestOf c = some (kind, tag) → kind ≠ 0x01 → kind ≠ 0x03 →
    s.corePowered = true → s.link.readiness = .notReady → s.link.admits c = true →
    exec c s = .next (s.replied kind tag .notReady .none)

/-- While the reply queue holds four replies, or no request has been handed on, a request's row changes nothing: it is taken up
once there is a place and a handed request (log entries 2 and 3). An operation that ends while the queue holds four replies leaves the
queue as it is, and its reply waits, behind those that wait already. -/
def Obligations.FullReplyQueueMakesRepliesWait : Prop :=
  (∀ (c : Instr) (kind tag : Byte) (s : State), requestOf c = some (kind, tag) →
    4 ≤ s.link.replies.length ∨ (∀ e ∈ s.link.inbound, e.stage ≠ .handed) → exec c s = .next s) ∧
  (∀ s : State, s.corePowered = true → 4 ≤ s.link.replies.length →
    let ends (c : Instr) (kind tag : Byte) : Prop := ∃ t r, exec c s = .next t ∧ r.kind = kind + 0x80 ∧ r.tag = tag ∧
      t.link = { s.link with waiting := s.link.waiting ++ [r] }
    (s.save.state = .loading → (s.save.entry s.save.opSlot).liveHeader ≠ none → ends .loadComplete 0x36 s.save.deferredTag) ∧
    (s.save.state = .sealing → ends .sealComplete 0x37 s.save.deferredTag) ∧
    (s.save.state = .verifying → ends .verifyComplete 0x3B s.save.deferredTag) ∧
    (∀ (raw : Count12) (tag : Byte) (sum : Nat), s.supply.injected ≠ .converting →
      s.supply.calibration = some ⟨.requested tag, 7, sum⟩ → ends (.calibrationConversion raw) 0x0A tag))

/-! ## Supply monitor -/

/-- A VCART result is judged by the table of R10 the first time and by that of R9 afterwards. The new state and recovery count
are given for each row; L, C and h are the settings as they stand. The turns of a change of state (log entry 33) have no part in
it, and a result that changes no state changes nothing but the monitor. -/
def Obligations.VcartResultsFollowTheirTables : Prop :=
  ∀ (s : State) (count : Count12) (turns : List SupplyTurn), s.corePowered = true → s.supply.converting = .channel .vcart →
    let v := count.val; let l := s.supply.low; let c := s.supply.critical; let h := s.supply.hysteresis
    let n := s.supply.supplyRecovery
    ∃ t, exec (.vcartResult ⟨count, turns⟩) s = .next t ∧ t.supply.vcart = v ∧ t.supply.firstVcart = true ∧
      t.supply.round = s.supply.round.tail ∧
      (s.supply.firstVcart = false →
        (v < c → t.supply.supply = .critical) ∧ (c ≤ v → v < l → t.supply.supply = .low) ∧
        (c ≤ v → l ≤ v → t.supply.supply = .normal) ∧ t.supply.supplyRecovery = 0) ∧
      (s.supply.firstVcart = true → s.supply.supply = .normal →
        (v < c → t.supply.supply = .critical) ∧ (c ≤ v → v < l → t.supply.supply = .low) ∧
        (c ≤ v → l ≤ v → t.supply.supply = .normal) ∧ t.supply.supplyRecovery = 0) ∧
      (s.supply.firstVcart = true → s.supply.supply = .low →
        (v < c → t.supply.supply = .critical ∧ t.supply.supplyRecovery = 0) ∧
        (c ≤ v → v < l + h → t.supply.supply = .low ∧ t.supply.supplyRecovery = 0) ∧
        (c ≤ v → l + h ≤ v → n ≤ 2 → t.supply.supply = .low ∧ t.supply.supplyRecovery = n + 1) ∧
        (c ≤ v → l + h ≤ v → n = 3 → t.supply.supply = .normal ∧ t.supply.supplyRecovery = 0)) ∧
      (s.supply.firstVcart = true → s.supply.supply = .critical →
        (v < c + h → t.supply.supply = .critical ∧ t.supply.supplyRecovery = 0) ∧
        (c + h ≤ v → n ≤ 2 → t.supply.supply = .critical ∧ t.supply.supplyRecovery = n + 1) ∧
        (c + h ≤ v → n = 3 → t.supply.supply = .low ∧ t.supply.supplyRecovery = 0)) ∧
      (t.supply.supply = s.supply.supply → { t with supply := s.supply } = s)

/-- A change of the supply state reaches the governor, the mixer, the rumble driver and the save controller in the same step,
and SUPPLY becomes pending. In CRITICAL both ceilings are 0, the output and the motor are off, and an operation that has
not begun to seal is abandoned: its request is answered ABANDONED, the slot table stays, and of backup memory only staging in a
load, or the target's payload in a copy, is written. The order in which the four blocks take the event makes no difference, but
for a mark taken among them, which finds the grant record and the hold of its own block as they stand there: the operand of the
row that gives the order is the model's (log entry 33). How far a load or copy had come is free (log entry 7). -/
def Obligations.SupplyChangeReachesEveryBlock : Prop :=
  (∀ (s t : State) (count : Count12) (turns : List SupplyTurn), s.corePowered = true → s.supply.converting = .channel .vcart →
    exec (.vcartResult ⟨count, turns⟩) s = .next t → t.supply.supply ≠ s.supply.supply →
    t.governor.supply = t.supply.supply ∧ t.governor.record = t.governor.form ∧
    t.rumble.supplyHold = decide (t.supply.supply = .critical) ∧
    (t.supply.supply = .critical →
      t.governor.record.mceil = 0 ∧ t.governor.record.dceil = 0 ∧ t.mixer.override = .held ∧ t.rumble.applied = 0 ∧
      (s.save.state = .sealing ∨ s.save.state = .idle → t.save = s.save ∧ t.backup = s.backup) ∧
      (s.save.state ≠ .sealing → t.save.state = .idle)) ∧
    (t.supply.supply ≠ .critical → t.mixer.override ≠ .held) ∧
    (maskEnables s.link.mask .supply = true →
      t.link.notices.supply = some ⟨t.supply.supply, s.supply.battery, count.val, s.supply.vbat⟩) ∧
    t.voice = s.voice ∧ t.stream = s.stream ∧ t.cue = s.cue) ∧
  (∀ (s t : State) (count : Count12), s.corePowered = true → s.supply.converting = .channel .vcart →
    exec (.vcartResult ⟨count, []⟩) s = .next t → t.supply.supply ≠ s.supply.supply →
    (t.supply.supply = .critical →
      t.save.slotTable = s.save.slotTable ∧
      (s.save.state = .waitReserve ∨ s.save.state = .verifying → t.backup = s.backup) ∧
      (s.save.state = .loading → { t.backup with store := s.store } = s.backup ∧
        { t.store with staging := s.store.staging } = s.store) ∧
      (s.save.state = .copying → { t.backup with store := s.store } = s.backup ∧ { t.store with banks := s.store.banks } = s.store ∧
        ∀ slot bank, slot ≠ s.save.opSlot ∨ bank ≠ s.save.target → t.store.bank slot bank = s.store.bank slot bank) ∧
      (let link := { t.link with notices := s.link.notices, tx := s.link.tx }
       let abandoned (kind : Byte) : Link := (s.concluded kind s.save.deferredTag .abandoned .none).link
       (s.save.state = .idle ∨ s.save.state = .sealing → link = s.link) ∧
       (s.save.state = .loading → link = abandoned 0x36) ∧
       (s.save.state = .waitReserve ∨ s.save.state = .copying → link = abandoned 0x37) ∧
       (s.save.state = .verifying → link = abandoned 0x3B))) ∧
    (t.supply.supply ≠ .critical → t.save = s.save ∧ t.backup = s.backup ∧
      { t.link with notices := s.link.notices, tx := s.link.tx } = s.link ∧ t.rumble.applied = s.rumble.applied ∧
      t.mixer.override = if s.mixer.override = .held then .releasing else s.mixer.override) ∧
    { t.link.notices with supply := s.link.notices.supply } = s.link.notices ∧
    { t.mixer with override := s.mixer.override } = s.mixer ∧
    { t.rumble with supplyHold := s.rumble.supplyHold, applied := s.rumble.applied } = s.rumble) ∧
  (∀ (s : State) (count : Count12) (turns : List SupplyTurn), turns.Nodup → .mixerMark ∉ turns → .rumbleMark ∉ turns →
    exec (.vcartResult ⟨count, turns⟩) s = exec (.vcartResult ⟨count, []⟩) s) ∧
  (∀ (s t : State) (count : Count12) (turns : List SupplyTurn), s.corePowered = true → s.supply.converting = .channel .vcart →
    exec (.vcartResult ⟨count, turns⟩) s = .next t → t.supply.supply ≠ s.supply.supply →
    let changed : Governor := { s.governor with supply := t.supply.supply }
    (turns = [.mixer, .mixerMark] → t.mixer.latchedMceil = s.governor.record.mceil ∧
      t.mixer.override = if t.supply.supply = .critical then .held else .clear) ∧
    (turns = [.governor, .mixerMark] → t.mixer.latchedMceil = changed.form.mceil ∧
      t.mixer.override = if t.supply.supply = .critical then .held else if s.mixer.override = .held then .releasing else .clear) ∧
    (turns = [.rumble, .rumbleMark] → t.rumble.latchedCeiling = s.governor.record.dceil ∧
      t.rumble.latchedReserve = s.governor.record.reserve) ∧
    (turns = [.governor, .rumbleMark] → t.rumble.latchedCeiling = changed.form.dceil ∧
      t.rumble.latchedReserve = changed.form.reserve ∧ (s.rumble.supplyHold = true → t.rumble.applied = 0)))

/-- A VBAT result is judged by the table of R12, and every change of the battery state makes SUPPLY pending; a SUPPLY frame
in transmission then no longer holds the latest content. -/
def Obligations.VbatResultsFollowTheirTable : Prop :=
  ∀ (s : State) (count : Count12), s.corePowered = true → s.supply.converting = .channel .vbat →
    let v := count.val; let tb := s.supply.battThreshold; let n := s.supply.batteryRecovery
    ∃ t, exec (.vbatResult count) s = .next t ∧ t.supply.vbat = v ∧ t.supply.round = s.supply.round.tail ∧
      (s.supply.battery ≠ .weak →
        (v < tb → t.supply.battery = .weak) ∧ (tb ≤ v → t.supply.battery = .good) ∧ t.supply.batteryRecovery = 0) ∧
      (s.supply.battery = .weak →
        (v < tb + 50 → t.supply.battery = .weak ∧ t.supply.batteryRecovery = 0) ∧
        (tb + 50 ≤ v → n ≤ 2 → t.supply.battery = .weak ∧ t.supply.batteryRecovery = n + 1) ∧
        (tb + 50 ≤ v → n = 3 → t.supply.battery = .good ∧ t.supply.batteryRecovery = 0)) ∧
      (t.supply.battery = s.supply.battery → { t with supply := s.supply } = s) ∧
      (t.supply.battery ≠ s.supply.battery → { t with supply := s.supply, link := s.link } = s ∧
        (maskEnables s.link.mask .supply = true →
          t.link.notices.supply = some ⟨s.supply.supply, t.supply.battery, s.supply.vcart, v⟩ ∧
          ∀ f sending, s.link.tx = some ⟨.notice f, sending⟩ → f.content.kind = .supply →
            t.link.tx = some ⟨.notice { f with rewritten := true }, sending⟩))

/-- A period mark starts a round of VCART, VBAT and IMOT, or counts a skipped round; a coast window with drive asks for one BEMF
conversion, which is merged with one that is outstanding and held during a calibration. -/
def Obligations.RoundsAndBackVoltageRequests : Prop :=
  (∀ s : State, s.corePowered = true → s.supply.round = [] →
    exec .roundStart s = .next { s with supply := { s.supply with round := [.vcart, .vbat, .imot] } }) ∧
  (∀ s : State, s.corePowered = true → s.supply.round ≠ [] →
    exec .roundStart s = .next { s with supply := { s.supply with skipped := min (s.supply.skipped + 1) 65535 } }) ∧
  (∀ s : State, s.corePowered = true → s.rumble.applied = 0 → exec .coastWindow s = .next s) ∧
  (∀ s : State, s.corePowered = true → 0 < s.rumble.applied →
    (s.supply.injected ≠ .idle →
      exec .coastWindow s = .next { s with rumble := { s.rumble with coastOpen := true } }) ∧
    (s.supply.injected = .idle → s.supply.calibration = none →
      exec .coastWindow s = .next { s with rumble := { s.rumble with coastOpen := true }
                                           supply := { s.supply with injected := .converting } }) ∧
    (s.supply.injected = .idle → s.supply.calibration ≠ none →
      exec .coastWindow s = .next { s with rumble := { s.rumble with coastOpen := true }
                                           supply := { s.supply with injected := .held } }))

/-- An injected conversion stores the raw and the corrected count, and the third low count in a row under drive stops the
motor with cause STALL. An IMOT result above the trip current under drive does so with cause TRIP; any other has no effect on
the driver. -/
def Obligations.MotorResultsDetectStallAndTrip : Prop :=
  (∀ (s : State) (raw : Count12), s.corePowered = true → s.supply.converting = .injected →
    let corrected := raw.val - s.supply.zeroOffset
    let judged : State := { s with supply := { s.supply with bemfRaw := raw.val, bemfCorrected := corrected, injected := .idle } }
    (s.rumble.applied < 64 ∨ s.rumble.settings.stall ≤ corrected →
      exec (.bemfResult raw) s = .next { judged with rumble := { s.rumble with bemfRun := 0 } }) ∧
    (64 ≤ s.rumble.applied → corrected < s.rumble.settings.stall → s.rumble.bemfRun ≤ 1 →
      exec (.bemfResult raw) s = .next { judged with rumble := { s.rumble with bemfRun := s.rumble.bemfRun + 1 } }) ∧
    (64 ≤ s.rumble.applied → corrected < s.rumble.settings.stall → s.rumble.bemfRun = 2 →
      ∃ t, exec (.bemfResult raw) s = .next t ∧ { t with rumble := s.rumble, link := s.link } = judged ∧
        t.rumble = { s.rumble with bemfRun := 3, state := .fault, cause := .stall, applied := 0, requested := 0
                                   queue := [], priority := none } ∧
        (maskEnables s.link.mask .rumble = true → t.link.notices.rumble = some ⟨.fault, .fault, .stall, 0⟩))) ∧
  (∀ (s : State) (count : Count12), s.corePowered = true → s.supply.converting = .channel .imot →
     let judged : State := { s with supply := { s.supply with imot := count.val, round := s.supply.round.tail } }
     (count.val ≤ s.rumble.settings.trip ∨ s.rumble.applied = 0 → exec (.imotResult count) s = .next judged) ∧
     (s.rumble.settings.trip < count.val → 0 < s.rumble.applied →
       ∃ t, exec (.imotResult count) s = .next t ∧ { t with rumble := s.rumble, link := s.link } = judged ∧
         t.rumble = { s.rumble with state := .fault, cause := .trip, applied := 0, requested := 0
                                    queue := [], priority := none } ∧
         (maskEnables s.link.mask .rumble = true → t.link.notices.rumble = some ⟨.fault, .fault, .trip, 0⟩)))

/-- Calibrate Motor Sense is BUSY during a calibration or outside IDLE, and otherwise begins one with its reply deferred; each
conversion is summed, and the eighth sets the zero offset to the sum divided by 8. -/
def Obligations.CalibrationSetsTheZeroOffset : Prop :=
  (∀ (s : State) (tag : Byte), s.Serves (.calibrateMotorSense tag) → s.supply.calibration ≠ none ∨ s.rumble.state ≠ .idle →
    exec (.calibrateMotorSense tag) s = .next (s.replied 0x0A tag .busy .none)) ∧
  (∀ (s : State) (tag : Byte), s.Serves (.calibrateMotorSense tag) → s.supply.calibration = none → s.rumble.state = .idle →
    exec (.calibrateMotorSense tag) s = .next (({ s with
      supply := { s.supply with calibration := some ⟨.requested tag, 0, 0⟩ }
      rumble := { s.rumble with calibrating := true, applied := 0 } } : State).deferring 0x0A tag)) ∧
  (∀ (s : State) (raw : Count12) (c : Calibration), s.corePowered = true → s.supply.injected ≠ .converting →
    s.supply.calibration = some c →
    (c.taken < 7 → exec (.calibrationConversion raw) s = .next { s with supply := { s.supply with
      bemfRaw := raw.val, calibration := some ⟨c.origin, c.taken + 1, c.sum + raw.val⟩ } }) ∧
    (c.taken = 7 →
      let ended : State := { s with
        supply := { s.supply with bemfRaw := raw.val, calibration := none, zeroOffset := (c.sum + raw.val) / 8
                                  injected := if s.supply.injected = .held then .converting else s.supply.injected }
        rumble := { s.rumble with calibrating := false } }
      (c.origin = .startUp →
        exec (.calibrationConversion raw) s = .next { ended with link := { s.link with calibrationDone := true } }) ∧
      ∀ tag, c.origin = .requested tag → exec (.calibrationConversion raw) s =
        .next (ended.concluded 0x0A tag .ok (.zeroOffset ((c.sum + raw.val) / 8)))))

/-- Supply Set refuses a value outside its range, and a critical threshold above the low threshold less 25; otherwise it
replaces the four settings and zeroes the two recovery counts, in every supply state. Supply Read reports the monitor's
state, and zeroes the skipped-rounds count after it when its clear flag is set. -/
def Obligations.SupplySetWritesAndSupplyReadReports : Prop :=
  (∀ (s : State) (tag : Byte) (low critical hysteresis battery : Nat), s.Serves (.supplySet tag low critical hysteresis battery) →
    ((1200 ≤ low ∧ low ≤ 1700) ∧ (1100 ≤ critical ∧ critical ≤ 1650) ∧ critical + 25 ≤ low ∧
      (5 ≤ hysteresis ∧ hysteresis ≤ 100) ∧ (2000 ≤ battery ∧ battery ≤ 3000) →
      exec (.supplySet tag low critical hysteresis battery) s = .next (({ s with supply := { s.supply with
        low := low, critical := critical, hysteresis := hysteresis, battThreshold := battery
        supplyRecovery := 0, batteryRecovery := 0 } } : State).replied 0x09 tag .ok
        (.supplySet low critical hysteresis battery))) ∧
    (¬((1200 ≤ low ∧ low ≤ 1700) ∧ (1100 ≤ critical ∧ critical ≤ 1650) ∧ critical + 25 ≤ low ∧
      (5 ≤ hysteresis ∧ hysteresis ≤ 100) ∧ (2000 ≤ battery ∧ battery ≤ 3000)) →
      exec (.supplySet tag low critical hysteresis battery) s = .next (s.replied 0x09 tag .badField .none))) ∧
  (∀ (s : State) (tag : Byte) (clear : Bool), s.Serves (.supplyRead tag clear) →
    exec (.supplyRead tag clear) s = .next (({ s with supply := { s.supply with
      skipped := if clear = true then 0 else s.supply.skipped } } : State).replied 0x08 tag .ok
      (.supplyRead s.supply.vcart s.supply.vbat s.supply.imot s.supply.bemfRaw s.supply.bemfCorrected s.supply.zeroOffset
        s.supply.supply s.supply.supplyRecovery s.supply.battery s.supply.batteryRecovery s.supply.low s.supply.critical
        s.supply.hysteresis s.supply.battThreshold s.supply.skipped s.supply.calibration.isSome)))

/-! ## Load governor -/

/-- Budget Set clamps its two fields and forms the grant record by the budget arithmetic; Budget Read reports the record and
the inputs. -/
def Obligations.BudgetRequestsAndTheirArithmetic : Prop :=
  (∀ (s : State) (tag : Byte) (budget imax : Nat), s.Serves (.budgetSet tag budget imax) →
    let b := min (max budget 60) 400
    let i := min (max imax 20) 400
    let mceil := match s.governor.supply with | .normal => 255 | .low => 160 | .critical => 0
    let cap := match s.governor.supply with | .normal => 255 | .low => 96 | .critical => 0
    let a := 6 + min s.governor.volume mceil * 42 / 255
    let h := ((b : Int) - 30 - a - (if s.governor.busy = true then 25 else 0)).toNat
    let record : GrantRecord :=
      { supply := s.governor.supply, mceil := mceil, dceil := min (min 255 (h * 255 / i)) cap
        reserve := s.governor.busy, audio := a, headroom := h }
    exec (.budgetSet tag budget imax) s = .next (({ s with governor := { s.governor with
      budget := b, imax := i, record := record } } : State).replied 0x0C tag .ok (.budgetSet b i record))) ∧
  (∀ (s : State) (tag : Byte), s.Serves (.budgetRead tag) →
    exec (.budgetRead tag) s = .next (s.replied 0x0D tag .ok
      (.budgetRead s.governor.record s.governor.budget s.governor.imax s.governor.volume s.governor.busy)))

/-! ## Voice engine and wave memory -/

/-- Voice Set writes its fields, clamped, into the voice's pending record and answers them as written, when every field is in
its range and the wave they would make fits; otherwise it is BAD_FIELD and nothing is written. -/
def Obligations.VoiceSetWritesThePendingRecord : Prop :=
  (∀ (s : State) (tag : Byte) (voice : Nat) (f : VoiceSetFields), s.Serves (.voiceSet tag voice f) → 8 ≤ voice →
    exec (.voiceSet tag voice f) s = .next (s.replied 0x10 tag .badField .none)) ∧
  (∀ (s : State) (tag : Byte) (v : Fin 8) (f : VoiceSetFields), s.Serves (.voiceSet tag v.val f) →
    let p := s.voice.pendings.get v
    let r := s.voice.voices.get v
    let start := (f.waveStart.or p.waveStart).getD r.waveStart
    let length := (f.waveLength.or p.waveLength).getD r.waveLength
    let loop := (f.loopStart.or p.loopStart).getD r.loopStart
    (f.unassignedBit = false ∧ f.namesField = true ∧ f.singlesOk = true ∧ start + length ≤ 8192 ∧ loop < length →
      ∃ (t : State) (w : PendingVoice), exec (.voiceSet tag v.val f) s = .next (t.replied 0x10 tag .ok (.voiceSet v.val w)) ∧
        (w.volume = f.volume.map (fun x => min x 127) ∧ w.pitchStep = f.pitchStep.map (fun x => min (max x 1) 2048) ∧
         w.waveStart = f.waveStart ∧ w.waveLength = f.waveLength ∧ w.loopStart = f.loopStart ∧ w.attackRate = f.attackRate ∧
         w.sustainLevel = f.sustainLevel ∧ w.releaseRate = f.releaseRate ∧ w.mode.map .is = f.mode ∧
         w.substitution.map .is = f.substitution ∧ w.loopMode.map .is = f.loopMode ∧ w.key = none ∧ w.streamOpen = false) ∧
        { t with voice := s.voice } = s ∧ t.voice.voices = s.voice.voices ∧ t.voice.wave = s.voice.wave ∧
        (∀ u, u ≠ v → t.voice.pendings.get u = s.voice.pendings.get u) ∧
        t.voice.pendings.get v =
          { volume := w.volume.or p.volume, substitution := w.substitution.or p.substitution
            waveStart := w.waveStart.or p.waveStart, waveLength := w.waveLength.or p.waveLength
            loopStart := w.loopStart.or p.loopStart, loopMode := w.loopMode.or p.loopMode
            pitchStep := w.pitchStep.or p.pitchStep, attackRate := w.attackRate.or p.attackRate
            sustainLevel := w.sustainLevel.or p.sustainLevel, releaseRate := w.releaseRate.or p.releaseRate
            mode := w.mode.or p.mode, key := p.key, streamOpen := p.streamOpen }) ∧
    (f.unassignedBit = true ∨ 8192 < start + length ∨ length ≤ loop ∨ f.mode = some (.is .stream) ∨ f.mode = some .other ∨
        f.substitution = some .other ∨ f.loopMode = some .other ∨ (∃ x ∈ f.waveStart, 8191 < x) ∨
        (∃ x ∈ f.waveLength, x = 0 ∨ 8192 < x) ∨ (∃ x ∈ f.loopStart, 8191 < x) ∨ f.attackRate = some 0 ∨ f.releaseRate = some 0 ∨
        f = ⟨none, none, none, none, none, none, none, none, none, none, none, false⟩ →
      exec (.voiceSet tag v.val f) s = .next (s.replied 0x10 tag .badField .none)))

/-- Key On and Key Off replace the pending key, Voice Read reports both records; a number above 7 is BAD_FIELD. Wave Write
writes 1 to 64 bytes inside wave memory and no other byte; Wave Read returns the bytes as they stand; a range that leaves the
memory is BAD_FIELD. -/
def Obligations.KeysVoiceReadAndWaveRequests : Prop :=
  (∀ (s : State) (tag : Byte) (v : Fin 8),
    (s.Serves (.keyOn tag v.val) → exec (.keyOn tag v.val) s = .next (({ s with voice := { s.voice with
      pendings := s.voice.pendings.set v { s.voice.pendings.get v with key := some .on } } } : State).replied 0x11 tag .ok
      (.voice v.val))) ∧
    (s.Serves (.keyOff tag v.val) → exec (.keyOff tag v.val) s = .next (({ s with voice := { s.voice with
      pendings := s.voice.pendings.set v { s.voice.pendings.get v with key := some .off } } } : State).replied 0x12 tag .ok
      (.voice v.val))) ∧
    (s.Serves (.voiceRead tag v.val) → exec (.voiceRead tag v.val) s = .next (s.replied 0x13 tag .ok
      (.voiceRead (s.voice.voices.get v) (s.voice.pendings.get v))))) ∧
  (∀ (s : State) (tag : Byte) (voice : Nat), 8 ≤ voice →
    (s.Serves (.keyOn tag voice) → exec (.keyOn tag voice) s = .next (s.replied 0x11 tag .badField .none)) ∧
    (s.Serves (.keyOff tag voice) → exec (.keyOff tag voice) s = .next (s.replied 0x12 tag .badField .none)) ∧
    (s.Serves (.voiceRead tag voice) → exec (.voiceRead tag voice) s = .next (s.replied 0x13 tag .badField .none))) ∧
  (∀ (s : State) (tag : Byte) (address : Nat) (bytes : List Byte), s.Serves (.waveWrite tag address bytes) → s.voice.wave.wf = true →
    (1 ≤ bytes.length ∧ bytes.length ≤ 64 ∧ address + bytes.length ≤ 8192 →
      ∃ t : State, exec (.waveWrite tag address bytes) s = .next (t.replied 0x14 tag .ok (.written address bytes.length)) ∧
        { t with voice := s.voice } = s ∧ t.voice.voices = s.voice.voices ∧ t.voice.pendings = s.voice.pendings ∧
        (∀ i (h : i < bytes.length), t.voice.wave.read (address + i) = bytes[i]) ∧
        ∀ a, a < address ∨ address + bytes.length ≤ a → t.voice.wave.read a = s.voice.wave.read a) ∧
    (bytes.length = 0 ∨ 64 < bytes.length ∨ 8192 < address + bytes.length →
      exec (.waveWrite tag address bytes) s = .next (s.replied 0x14 tag .badField .none))) ∧
  (∀ (s : State) (tag : Byte) (address count : Nat), s.Serves (.waveRead tag address count) →
    (1 ≤ count ∧ count ≤ 64 ∧ address + count ≤ 8192 →
      exec (.waveRead tag address count) s = .next (s.replied 0x15 tag .ok
        (.waveRead address ((List.range count).map fun i => s.voice.wave.read (address + i))))) ∧
    (count = 0 ∨ 64 < count ∨ 8192 < address + count →
      exec (.waveRead tag address count) s = .next (s.replied 0x15 tag .badField .none)))

/-- At the voice engine's period mark each voice takes its pending record, by the steps of R37 and the table of R38, and steps
its envelope by that of R42; the pending records are then empty, and nothing else of the voice engine changes. The streams of voices
that leave STREAM, or that were opened and do not enter it, are closed and their blocks go back to the pool; the voices whose
release has reached 0 join VOICE_END. Nothing else changes. -/
def Obligations.VoiceLatchTakesThePendingRecords : Prop :=
  ∀ s : State, s.corePowered = true → ∃ t, exec .voiceLatch s = .next t ∧
    t.voice.wave = s.voice.wave ∧ (∀ v, t.voice.pendings.get v = .empty) ∧
    { t with voice := s.voice, stream := s.stream, link := s.link } = s ∧
    t.stream.stray = s.stream.stray ∧ t.stream.sampleIndex = s.stream.sampleIndex ∧
    t.stream.freeSlots + t.stream.heldCount = s.stream.freeSlots + s.stream.heldCount ∧
    { t.link with notices := s.link.notices, tx := s.link.tx } = s.link ∧
    { t.link.notices with voiceEnd := s.link.notices.voiceEnd } = s.link.notices ∧
    (let ended (v : Fin 8) : Prop := (t.voice.voices.get v).mode = .off ∧ maskEnables s.link.mask .voiceEnd = true ∧
       ((s.voice.pendings.get v).mode = some .table ∨
         (s.voice.pendings.get v).mode = none ∧ (s.voice.voices.get v).mode = .table)
     (∀ v, v ∈ t.link.notices.voiceEnd ↔ v ∈ s.link.notices.voiceEnd ∨ ended v) ∧
     ((∃ v, ended v) → t.link.tx = markRewritten .voiceEnd s.link.tx) ∧ ((∀ v, ¬ended v) → t.link = s.link)) ∧
    ∀ v,
      let old := s.voice.voices.get v
      let p := s.voice.pendings.get v
      let new := t.voice.voices.get v
      let sustain := p.sustainLevel.getD old.sustainLevel
      let started := p.mode = some .table ∧ old.mode ≠ .table ∨
        p.key = some .on ∧ (p.mode = none ∧ old.mode ≠ .stream ∨ p.mode = some .table)
      let stays := p.mode = none ∨ p.mode = some .table
      new.volume = p.volume.getD old.volume ∧ new.substitution = p.substitution.getD old.substitution ∧
      new.waveStart = p.waveStart.getD old.waveStart ∧ new.waveLength = p.waveLength.getD old.waveLength ∧
      new.loopStart = p.loopStart.getD old.loopStart ∧ new.loopMode = p.loopMode.getD old.loopMode ∧
      new.pitchStep = p.pitchStep.getD old.pitchStep ∧ new.attackRate = p.attackRate.getD old.attackRate ∧
      new.sustainLevel = sustain ∧ new.releaseRate = p.releaseRate.getD old.releaseRate ∧
      (p.mode = some .stream ∨ p.mode = none ∧ old.mode = .stream → new.mode = .stream ∧ new.posInt = old.posInt ∧
        new.posFrac = old.posFrac ∧ new.envLevel = old.envLevel ∧ new.envState = old.envState) ∧
      (old.mode = .off → p.mode = some .off ∨ p.mode = none ∧ p.key ≠ some .on → new.mode = .off ∧ new.posInt = old.posInt ∧
        new.posFrac = old.posFrac ∧ new.envLevel = old.envLevel ∧ new.envState = old.envState) ∧
      (p.mode = some .off → old.mode ≠ .off → new.mode = .off ∧ new.posInt = 0 ∧ new.posFrac = 0 ∧ new.envLevel = 0 ∧
        new.envState = .release) ∧
      (started → p.key ≠ some .off → new.mode = .table ∧ new.posInt = 0 ∧ new.posFrac = 0 ∧
        new.envLevel = min new.attackRate sustain ∧ new.envState = if new.attackRate < sustain then .attack else .sustain) ∧
      (started → p.key = some .off → new.mode = .off) ∧
      (¬started → stays → old.mode = .table → p.key ≠ some .off → old.envState = .attack →
        new.mode = .table ∧ new.envLevel = min (old.envLevel + new.attackRate) sustain ∧
        new.envState = if new.envLevel = sustain then .sustain else .attack) ∧
      (¬started → stays → old.mode = .table → p.key ≠ some .off → old.envState = .sustain →
        new.mode = .table ∧ new.envLevel = sustain ∧ new.envState = .sustain) ∧
      (¬started → stays → old.mode = .table → p.key = some .off ∨ old.envState = .release →
        (new.releaseRate < old.envLevel → new.mode = .table ∧ new.envState = .release ∧
          new.envLevel = old.envLevel - new.releaseRate) ∧
        (old.envLevel ≤ new.releaseRate → new.mode = .off ∧ new.posInt = 0 ∧ new.posFrac = 0 ∧ new.envLevel = 0 ∧
          new.envState = .release ∧ (maskEnables s.link.mask .voiceEnd = true → v ∈ t.link.notices.voiceEnd))) ∧
      (¬started → new.mode = .table →
        (new.waveStart = old.waveStart ∧ new.waveLength = old.waveLength →
          new.posInt = old.posInt ∧ new.posFrac = old.posFrac) ∧
        (new.waveStart ≠ old.waveStart ∨ new.waveLength ≠ old.waveLength → new.posInt = 0 ∧ new.posFrac = 0)) ∧
      (let closes := (old.mode = .stream ∨ p.streamOpen = true) ∧
         (p.mode = some .off ∨ p.mode = some .table ∨ p.mode = none ∧ old.mode ≠ .stream)
       let r := s.stream.records.get v
       (closes → r.state ≠ .closed →
         t.stream.records.get v = { r with state := .closed, held := [], periodValues := List.replicate 64 0 }) ∧
       (¬closes ∨ r.state = .closed → t.stream.records.get v = r))

/-! ## Stream buffers -/

/-- A stream block is judged by the first case of R57 that applies, and a discarded block changes one counter alone. One with
a voice above 7 is counted as stray, one of a wrong length in the link's BAD_LENGTH, with LINK. -/
def Obligations.StreamBlocksAreJudgedInOrder : Prop :=
  (∀ (s : State) (q voice : Byte) (samples : List Byte) (v : Fin 8), s.Selected → s.link.deframer = .between →
    samples.length = 64 → voice.toNat = v.val →
    let r := s.stream.records.get v
    let d := (q - r.x).toNat
    let counted (c : StreamCounters) : State :=
      { s with stream := { s.stream with records := s.stream.records.set v { r with counters := c } } }
    let after := exec (.streamBlock q (voice :: samples)) s
    (r.state = .closed → after = .next (counted { r.counters with unbound := min (r.counters.unbound + 1) 65535 })) ∧
    (r.state ≠ .closed → 128 ≤ d → after = .next (counted { r.counters with late := min (r.counters.late + 1) 65535 })) ∧
    (r.state = .play → r.limit ≤ d → d < 128 →
      after = .next (counted { r.counters with overrun := min (r.counters.overrun + 1) 65535 })) ∧
    (r.state ≠ .closed → d < r.limit → d < 128 → r.holds q = true →
      after = .next (counted { r.counters with duplicate := min (r.counters.duplicate + 1) 65535 })) ∧
    (r.state ≠ .closed → d < r.limit → d < 128 → r.holds q = false → s.stream.freeSlots = 0 →
      after = .next (counted { r.counters with exhausted := min (r.counters.exhausted + 1) 65535 })) ∧
    (r.state = .play → d < r.limit → d < 128 → r.holds q = false → 0 < s.stream.freeSlots →
      ∃ t, after = .next t ∧ { t with stream := s.stream } = s ∧ t.stream.freeSlots = s.stream.freeSlots - 1 ∧
        (∀ w, w ≠ v → t.stream.records.get w = s.stream.records.get w) ∧
        (let r' := t.stream.records.get v
         r'.held.Perm (⟨q, samples⟩ :: r.held) ∧ r'.state = .play ∧ r'.x = r.x ∧ r'.missingRun = r.missingRun ∧
         r'.counters = if ∃ h ∈ r.held, d < (h.seq - r.x).toNat
           then { r.counters with reordered := min (r.counters.reordered + 1) 65535 } else r.counters))) ∧
  (∀ (s : State) (q voice : Byte) (samples : List Byte), s.Selected → s.link.deframer = .between → samples.length = 64 →
    8 ≤ voice.toNat → exec (.streamBlock q (voice :: samples)) s = .next { s with stream := { s.stream with
      stray := min (s.stream.stray + 1) 65535 } }) ∧
  (∀ (s : State) (q : Byte) (body : List Byte), s.Selected → s.link.deframer = .between → body.length ≤ 72 → body.length ≠ 65 →
    ∃ t, exec (.streamBlock q body) s = .next t ∧ { t with link := s.link } = s ∧
      { t.link with counters := s.link.counters, notices := s.link.notices, tx := s.link.tx } = s.link ∧
      t.link.counters = { s.link.counters with badLength := min (s.link.counters.badLength + 1) 65535 } ∧
      (maskEnables s.link.mask .link = true → t.link.notices = { s.link.notices with link := some t.link.counters }) ∧
      (maskEnables s.link.mask .link = false → t.link.notices = s.link.notices))

/-- In FILL or STARVED a block beyond the window moves the record to its own sequence number; a stored block, counted as reordered
when a later one is held, makes the fill check, which enters PLAY when blocks X to X + T − 1 are held. No other record and no other
block of the part changes. -/
def Obligations.FillingStreamsFollowTheirBlocks : Prop :=
  ∀ (s : State) (q voice : Byte) (samples : List Byte) (v : Fin 8), s.Selected → s.link.deframer = .between →
    samples.length = 64 → voice.toNat = v.val →
    let r := s.stream.records.get v
    let d := (q - r.x).toNat
    r.state = .fill ∨ r.state = .starved → 2 ≤ r.depth →
    ∃ t, exec (.streamBlock q (voice :: samples)) s = .next t ∧ { t with stream := s.stream } = s ∧
      t.stream.stray = s.stream.stray ∧ t.stream.sampleIndex = s.stream.sampleIndex ∧
      (∀ w, w ≠ v → t.stream.records.get w = s.stream.records.get w) ∧
      (let r' := t.stream.records.get v
       r'.depth = r.depth ∧ r'.limit = r.limit ∧ r'.lastPlayed = r.lastPlayed ∧
       (r.limit ≤ d → d < 128 →
        r'.state = .fill ∧ r'.x = q ∧ r'.missingRun = 0 ∧ r'.periodValues = List.replicate 64 0 ∧
        r'.counters = { r.counters with resync := min (r.counters.resync + 1) 65535 } ∧
        r'.held = (if 0 < s.stream.freeSlots + r.held.length then [⟨q, samples⟩] else []) ∧
        t.stream.freeSlots = s.stream.freeSlots + r.held.length - 1) ∧
       (d < r.limit → d < 128 → r.holds q = false → 0 < s.stream.freeSlots →
        t.stream.freeSlots = s.stream.freeSlots - 1 ∧ r'.held.Perm (⟨q, samples⟩ :: r.held) ∧ r'.x = r.x ∧
        r'.counters = (if ∃ h ∈ r.held, d < (h.seq - r.x).toNat
          then { r.counters with reordered := min (r.counters.reordered + 1) 65535 } else r.counters) ∧
        ((∀ k, k < r.depth → r'.holds (r.x + BitVec.ofNat 8 k) = true) →
          r'.state = .play ∧ r'.missingRun = 0 ∧ r'.periodValues = List.replicate 64 0) ∧
        (¬(∀ k, k < r.depth → r'.holds (r.x + BitVec.ofNat 8 k) = true) →
          r'.state = r.state ∧ r'.missingRun = r.missingRun ∧ r'.periodValues = r.periodValues)))

/-- Stream Open starts a record in FILL with its pool slots given back and writes mode STREAM; Stream Close closes it and writes
mode OFF, or is NOTHING_PENDING; Stream Status reports the record and may clear its counters. -/
def Obligations.StreamRequestsOpenCloseAndReport : Prop :=
  ∀ (s : State) (tag : Byte) (v : Fin 8),
    let r := s.stream.records.get v
    let p := s.voice.pendings.get v
    (∀ start depth limit : Nat, start ≤ 255 → 2 ≤ depth → depth ≤ limit → limit ≤ 16 →
      s.Serves (.streamOpen tag v.val start depth limit) → exec (.streamOpen tag v.val start depth limit) s = .next (({ s with
        stream := { s.stream with
          freeSlots := s.stream.freeSlots + r.held.length
          records := s.stream.records.set v { r with
            state := .fill, x := BitVec.ofNat 8 start, depth := depth, limit := limit, held := [], missingRun := 0
            lastPlayed := List.replicate 64 0, periodValues := List.replicate 64 0
            counters := ⟨0, 0, 0, 0, 0, 0, 0, 0, 0⟩ } }
        voice := { s.voice with
          pendings := s.voice.pendings.set v { p with mode := some .stream, streamOpen := true } } } : State).replied 0x18 tag .ok
        (.streamOpen v.val start depth limit))) ∧
    (∀ start depth limit : Nat, 255 < start ∨ depth < 2 ∨ 16 < limit ∨ limit < depth →
      s.Serves (.streamOpen tag v.val start depth limit) → exec (.streamOpen tag v.val start depth limit) s = .next (s.replied 0x18 tag .badField .none)) ∧
    (s.Serves (.streamClose tag v.val) → r.state = .closed → exec (.streamClose tag v.val) s = .next (s.replied 0x19 tag .nothingPending .none)) ∧
    (s.Serves (.streamClose tag v.val) → r.state ≠ .closed → exec (.streamClose tag v.val) s = .next (({ s with
      stream := { s.stream with
        freeSlots := s.stream.freeSlots + r.held.length
        records := s.stream.records.set v { r with state := .closed, held := [], periodValues := List.replicate 64 0 } }
      voice := { s.voice with pendings := s.voice.pendings.set v { p with mode := some .off } } } : State).replied 0x19 tag .ok
      (.voice v.val))) ∧
    (∀ clear : Bool, s.Serves (.streamStatus tag v.val clear) → exec (.streamStatus tag v.val clear) s = .next (({ s with stream := if clear = true then
        { s.stream with stray := 0, records := s.stream.records.set v { r with counters := ⟨0, 0, 0, 0, 0, 0, 0, 0, 0⟩ } }
        else s.stream } : State).replied 0x1A tag .ok
      (.streamStatus r.state r.x r.depth r.limit r.missingRun (r.held.map Block.seq) r.counters s.stream.freeSlots
        s.stream.stray))) ∧
    (∀ voice, 8 ≤ voice → ∀ start depth limit clear,
      (s.Serves (.streamOpen tag voice start depth limit) →
        exec (.streamOpen tag voice start depth limit) s = .next (s.replied 0x18 tag .badField .none)) ∧
      (s.Serves (.streamClose tag voice) → exec (.streamClose tag voice) s = .next (s.replied 0x19 tag .badField .none)) ∧
      (s.Serves (.streamStatus tag voice clear) →
        exec (.streamStatus tag voice clear) s = .next (s.replied 0x1A tag .badField .none)))

/-- At the stream buffers' period mark a record in PLAY plays block X, whose slot goes back to the pool, or conditions the missing
period, the third in a row starving it; every other record gives zeros. The sample index that goes back to 0 is the model's own
(log entry 21). -/
def Obligations.PlayoutTakesOneBlockAPeriod : Prop :=
  ∀ s : State, s.corePowered = true → ∃ t, exec .streamPlayout s = .next t ∧
    { t with stream := s.stream, link := s.link } = s ∧ t.stream.stray = s.stream.stray ∧ t.stream.sampleIndex = 0 ∧
    t.stream.freeSlots + t.stream.heldCount = s.stream.freeSlots + s.stream.heldCount ∧
    ∀ v,
      let r := s.stream.records.get v
      let r' := t.stream.records.get v
      (r.state ≠ .play → r' = { r with periodValues := List.replicate 64 0 }) ∧
      (∀ b, r.state = .play → (r.held.find? fun b => b.seq == r.x) = some b →
        r' = { r with x := r.x + 1, missingRun := 0, periodValues := b.samples, lastPlayed := b.samples
                      held := r.held.filter fun h => h.seq != r.x
                      counters := { r.counters with played := min (r.counters.played + 1) 65535 } }) ∧
      (r.state = .play → r.holds r.x = false →
        r'.x = r.x + 1 ∧ r'.held = r.held ∧ r'.lastPlayed = r.lastPlayed ∧ r'.missingRun = r.missingRun + 1 ∧
        r'.counters = { r.counters with lost := min (r.counters.lost + 1) 65535 } ∧
        (r.missingRun = 0 → r'.state = .play ∧ r'.periodValues = r.lastPlayed.map fun x => x.sshiftRight 1) ∧
        (r.missingRun = 1 → r'.state = .play ∧ r'.periodValues = r.lastPlayed.map fun x => x.sshiftRight 2) ∧
        (r.missingRun = 2 → r'.state = .starved ∧ r'.periodValues = List.replicate 64 0 ∧
          (maskEnables s.link.mask .stream = true → v ∈ t.link.notices.stream)))

/-! ## Mixer and audio output -/

/-- Mix Set writes its settings into the pending record or is BAD_FIELD; Mix Status reports the mixer and may clear the clip
count. The mixer's latch rolls the clip marks, takes the pending settings and the ceiling of the record as it stands, releases a
RELEASING override, and reports a master volume it took, which forms the record again. -/
def Obligations.MixSettingsArePendingUntilTheLatch : Prop :=
  (∀ (s : State) (tag : Byte) (m a h : Option Nat) (g : Option GlobalSubstitution) (tone : Option Bool),
    let f : MixSetFields := ⟨m, g.map .is, tone.map .is, a, h, false⟩
    let p := s.mixer.pending
    s.Serves (.mixSet tag f) →
    (m.isSome = true ∨ a.isSome = true ∨ h.isSome = true ∨ g.isSome = true ∨ tone.isSome = true →
      (∀ x ∈ m, x ≤ 255) → (∀ x ∈ a, x ≤ 511) → (∀ x ∈ h, 1 ≤ x ∧ x ≤ 255) →
      exec (.mixSet tag f) s = .next (({ s with mixer := { s.mixer with pending :=
        ⟨m.or p.master, g.or p.global, tone.or p.tone, a.or p.amplitude, h.or p.halfPeriod⟩ } } : State).replied 0x1C tag .ok
        (.mixSet ⟨m, g, tone, a, h⟩))) ∧
    ((m = none ∧ a = none ∧ h = none ∧ g = none ∧ tone = none) ∨ (∃ x ∈ m, 255 < x) ∨ (∃ x ∈ a, 511 < x) ∨
        (∃ x ∈ h, x = 0 ∨ 255 < x) →
      exec (.mixSet tag f) s = .next (s.replied 0x1C tag .badField .none))) ∧
  (∀ (s : State) (tag : Byte) (f : MixSetFields), s.Serves (.mixSet tag f) →
    f.unassignedBit = true ∨ f.global = some .other ∨ f.tone = some .other →
    exec (.mixSet tag f) s = .next (s.replied 0x1C tag .badField .none)) ∧
  (∀ (s : State) (tag : Byte) (clear : Bool), s.Serves (.mixStatus tag clear) →
    exec (.mixStatus tag clear) s = .next (({ s with mixer := { s.mixer with
      clipCount := if clear = true then 0 else s.mixer.clipCount } } : State).replied 0x1D tag .ok
      (.mixStatus s.mixer.inForce s.mixer.pending s.mixer.latchedMceil (min s.mixer.inForce.master s.mixer.latchedMceil)
        s.mixer.override s.mixer.tonePositive s.mixer.toneCount s.mixer.clipCount s.mixer.clipLast s.mixer.clipNow
        s.mixer.code))) ∧
  (∀ s : State, s.corePowered = true → ∃ t, exec .mixerLatch s = .next t ∧
     { t with mixer := s.mixer, governor := s.governor } = s ∧
     (let m := s.mixer; let p := s.mixer.pending; let on := p.tone.getD m.inForce.tone = true ∧ m.inForce.tone = false
      t.mixer = { m with
        clipLast := m.clipNow, clipNow := false, pending := ⟨none, none, none, none, none⟩
        inForce := ⟨p.master.getD m.inForce.master, p.global.getD m.inForce.global, p.tone.getD m.inForce.tone,
          p.amplitude.getD m.inForce.amplitude, p.halfPeriod.getD m.inForce.halfPeriod⟩
        latchedMceil := s.governor.record.mceil
        tonePositive := if on then true else m.tonePositive, toneCount := if on then 0 else m.toneCount
        override := if m.override = .releasing then .clear else m.override }) ∧
     (s.mixer.pending.master = none → t.governor = s.governor) ∧
     (∀ volume, s.mixer.pending.master = some volume → t.governor.volume = volume ∧
       t.governor.record = t.governor.form ∧ { t.governor with volume := s.governor.volume, record := s.governor.record } = s.governor))

/-- One output sample: the contributions, the sum scaled by the effective master volume, saturation with the clip count and CLIP,
the source that drives the output code, the tone's phase, and the voices' positions with VOICE_END. The substitution kept for the
next sample and the sample index, which chooses a stream's value, are the model's (log entries 20 and 21). -/
def Obligations.OutputSampleMixesTheVoices : Prop :=
  ∀ s : State, s.corePowered = true → ∃ t, exec .outputSample s = .next t ∧
    { t with mixer := s.mixer, voice := s.voice, stream := s.stream, link := s.link } = s ∧
    t.voice.pendings = s.voice.pendings ∧ t.voice.wave = s.voice.wave ∧ t.stream.records = s.stream.records ∧
    t.stream.freeSlots = s.stream.freeSlots ∧ t.stream.stray = s.stream.stray ∧
    t.stream.sampleIndex = min (s.stream.sampleIndex + 1) 64 ∧ t.mixer.inForce = s.mixer.inForce ∧ t.mixer.pending = s.mixer.pending ∧
    t.mixer.latchedMceil = s.mixer.latchedMceil ∧ t.mixer.override = s.mixer.override ∧ t.mixer.clipLast = s.mixer.clipLast ∧
    (let inForce (v : Fin 8) : Substitution := match s.mixer.inForce.global with
       | .muteAll => .mute
       | .holdAll => .hold
       | .none => (s.voice.voices.get v).substitution
     let held (v : Fin 8) : Int :=
       if inForce v = .hold ∧ (s.mixer.channels.get v).lastSub ≠ .hold then (s.mixer.channels.get v).last
       else (s.mixer.channels.get v).held
     let c (v : Fin 8) : Int :=
       let r := s.voice.voices.get v
       match r.mode, inForce v with
       | .off, _ => 0
       | _, .mute => 0
       | _, .hold => held v
       | .table, .none => (s.voice.wave.read (r.waveStart + r.posInt)).toInt * r.volume * r.envLevel / 256
       | .stream, .none => s.stream.sample v * r.volume * 255 / 256
     let sum : Int := c 0 + c 1 + c 2 + c 3 + c 4 + c 5 + c 6 + c 7
     let y : Int := sum * min s.mixer.inForce.master s.mixer.latchedMceil / 8192
     let out : Int := if s.mixer.override ≠ .clear then 0
       else if s.mixer.inForce.tone = true then
         (if s.mixer.tonePositive = true then s.mixer.inForce.amplitude else -(s.mixer.inForce.amplitude : Int))
       else max (-512) (min y 511)
     let clips := y < -512 ∨ 511 < y
     (∀ v, t.mixer.channels.get v = ⟨c v, held v, inForce v⟩) ∧ t.mixer.code = (out + 512).toNat ∧
     (clips → t.mixer.clipNow = true ∧
       t.mixer.clipCount = (if s.mixer.clipNow = true then s.mixer.clipCount else min (s.mixer.clipCount + 1) 65535) ∧
       (s.mixer.clipNow = false → maskEnables s.link.mask .clip = true → t.link.notices.clip = some t.mixer.clipCount)) ∧
     (¬clips → t.mixer.clipNow = s.mixer.clipNow ∧ t.mixer.clipCount = s.mixer.clipCount) ∧
     (let counted := clips ∧ s.mixer.clipNow = false ∧ maskEnables s.link.mask .clip = true
      let ended (v : Fin 8) : Prop :=
        let r := s.voice.voices.get v
        r.mode = .table ∧ r.waveLength ≤ r.posInt + (r.posFrac + r.pitchStep) / 256 ∧ r.loopMode = .once ∧
          maskEnables s.link.mask .voiceEnd = true
      let tx := if counted then markRewritten .clip s.link.tx else s.link.tx
      { t.link with notices := s.link.notices, tx := s.link.tx } = s.link ∧
      { t.link.notices with voiceEnd := s.link.notices.voiceEnd, clip := s.link.notices.clip } = s.link.notices ∧
      (¬counted → t.link.notices.clip = s.link.notices.clip) ∧
      (∀ v, v ∈ t.link.notices.voiceEnd ↔ v ∈ s.link.notices.voiceEnd ∨ ended v) ∧
      ((∃ v, ended v) → t.link.tx = markRewritten .voiceEnd tx) ∧
      ((∀ v, ¬ended v) → t.link.tx = tx ∧ t.link.notices.voiceEnd = s.link.notices.voiceEnd))) ∧
    (let m := s.mixer
     (m.inForce.tone = false → t.mixer.tonePositive = m.tonePositive ∧ t.mixer.toneCount = m.toneCount) ∧
     (m.inForce.tone = true → m.toneCount + 1 < m.inForce.halfPeriod →
       t.mixer.tonePositive = m.tonePositive ∧ t.mixer.toneCount = m.toneCount + 1) ∧
     (m.inForce.tone = true → m.inForce.halfPeriod ≤ m.toneCount + 1 →
       t.mixer.tonePositive = !m.tonePositive ∧ t.mixer.toneCount = 0)) ∧
    ∀ v,
      let r := s.voice.voices.get v
      let r' := t.voice.voices.get v
      let frac := r.posFrac + r.pitchStep
      let pos := r.posInt + frac / 256
      (r.mode ≠ .table → r' = r) ∧
      (r.mode = .table → pos < r.waveLength → r' = { r with posInt := pos, posFrac := frac % 256 }) ∧
      (r.mode = .table → r.waveLength ≤ pos → r.loopMode = .once →
        r' = { r with mode := .off, posInt := 0, posFrac := 0, envLevel := 0, envState := .release } ∧
        (maskEnables s.link.mask .voiceEnd = true → v ∈ t.link.notices.voiceEnd)) ∧
      (r.mode = .table → r.waveLength ≤ pos → r.loopMode = .loop → r.loopStart < r.waveLength →
        r'.mode = .table ∧ r'.posFrac = frac % 256 ∧ r.loopStart ≤ r'.posInt ∧ r'.posInt < r.waveLength ∧
        ∃ k, pos = r'.posInt + k * (r.waveLength - r.loopStart))

/-! ## Rumble driver -/

/-- Rumble Play is judged in the order of R93, and offered steps by the priorities as R94 says; a refused one changes nothing. The
start level 0 of a step that has not started is the model's choice (log entry 28). -/
def Obligations.RumblePlayIsJudgedByPriority : Prop :=
  (∀ (s : State) (tag : Byte) (m : PlayMode) (p : Nat) (steps : List PlayStep), p ≤ 3 →
    1 ≤ steps.length → steps.length ≤ 8 → (∀ x ∈ steps, x.level ≤ 255 ∧ x.length ≤ 255) →
    let play : Instr := .rumblePlay tag (.is m) p (steps.map fun x => ⟨x.level, x.length, .is x.shape⟩)
    s.Serves play →
    let after := exec play s
    let queued : List EffectStep := steps.map fun x => ⟨x.level, max x.length 1, x.shape, 0, 0⟩
    let replaced := ({ s with rumble := { s.rumble with
      queue := queued, priority := some p, state := if s.rumble.state = .idle then .running else s.rumble.state } } : State).replied
        0x20 tag .ok (.rumblePlay .replace steps.length (some p))
    (s.rumble.state = .fault → after = .next (s.replied 0x20 tag .faulted .none)) ∧
    (s.rumble.state ≠ .fault → s.rumble.calibrating = true → after = .next (s.replied 0x20 tag .busy .none)) ∧
    (s.rumble.state ≠ .fault → s.rumble.calibrating = false → s.rumble.queue = [] → after = .next replaced) ∧
    ∀ h, s.rumble.state ≠ .fault → s.rumble.calibrating = false → s.rumble.queue ≠ [] → s.rumble.priority = some h →
      (p < h → after = .next (s.replied 0x20 tag .outranked .none)) ∧
      (h ≤ p → m = .replace ∨ h < p → after = .next replaced) ∧
      (h = p → m = .append → s.rumble.queue.length + steps.length ≤ 16 →
        after = .next (({ s with rumble := { s.rumble with queue := s.rumble.queue ++ queued } } : State).replied
          0x20 tag .ok (.rumblePlay .append (s.rumble.queue.length + steps.length) (some h)))) ∧
      (h = p → m = .append → 16 < s.rumble.queue.length + steps.length →
        after = .next (s.replied 0x20 tag .queueFull .none))) ∧
  (∀ (s : State) (tag : Byte) (m : Coded PlayMode) (p : Nat) (steps : List StepFields), s.Serves (.rumblePlay tag m p steps) →
    m = .other ∨ 3 < p ∨ steps = [] ∨ 8 < steps.length ∨ (∃ x ∈ steps, x.shape = .other) →
    exec (.rumblePlay tag m p steps) s = .next (s.replied 0x20 tag .badField .none))

/-- Rumble Stop removes the steps and leaves the drive to the next period mark; Rumble Set writes its settings, the carrier
as pending, the trip current as IMOT counts, or is BAD_FIELD; Rumble Clear leaves FAULT with the cause kept, or is NOTHING_PENDING;
Rumble Status reports the driver; it carries a start level of a waiting step too (the model's choice, log entry 28). -/
def Obligations.RumbleRequestsStopSetClearAndReport : Prop :=
  ∀ (s : State) (tag : Byte),
    (s.Serves (.rumbleStop tag) →
      exec (.rumbleStop tag) s = .next (({ s with rumble := { s.rumble with queue := [], priority := none } } : State).replied
        0x21 tag .ok (.rumbleStop s.rumble.queue.length))) ∧
    (s.Serves (.rumbleClear tag) → s.rumble.state = .fault → exec (.rumbleClear tag) s =
      .next (({ s with rumble := { s.rumble with state := .idle, bemfRun := 0 } } : State).replied 0x23 tag .ok .none)) ∧
    (s.Serves (.rumbleClear tag) → s.rumble.state ≠ .fault → exec (.rumbleClear tag) s = .next (s.replied 0x23 tag .nothingPending .none)) ∧
    (s.Serves (.rumbleStatus tag) → let r := s.rumble
     exec (.rumbleStatus tag) s = .next (s.replied 0x24 tag .ok (.rumbleStatus r.state r.calibrating r.supplyHold r.priority
       r.queue r.latchedCeiling r.latchedReserve r.requested r.applied r.historyOlder r.historyNewer r.bemfRun r.cause
       r.settings r.pendingCarrier))) ∧
    (∀ (carrier stall trip : Option Nat) (kick drained : Option Bool),
      let f : RumbleSetFields := ⟨carrier, kick.map .is, stall, trip, drained.map .is, false⟩
      let g := s.rumble.settings
      s.Serves (.rumbleSet tag f) →
      (carrier.isSome = true ∨ kick.isSome = true ∨ stall.isSome = true ∨ trip.isSome = true ∨ drained.isSome = true →
        (∀ x ∈ carrier, x = 2 ∨ x = 4 ∨ x = 8 ∨ x = 16) → (∀ x ∈ stall, x ≤ 4095) → (∀ x ∈ trip, 20 ≤ x ∧ x ≤ 1000) →
        exec (.rumbleSet tag f) s = .next (({ s with rumble := { s.rumble with
          pendingCarrier := carrier.or s.rumble.pendingCarrier
          settings := ⟨g.carrier, kick.getD g.kick, stall.getD g.stall, (trip.map fun x => 4 * x).getD g.trip,
            drained.getD g.drainNotice⟩ } } : State).replied 0x22 tag .ok
          (.rumbleSet carrier kick stall (trip.map fun x => 4 * x) drained))) ∧
      ((carrier = none ∧ kick = none ∧ stall = none ∧ trip = none ∧ drained = none) ∨
          (∃ x ∈ carrier, x ≠ 2 ∧ x ≠ 4 ∧ x ≠ 8 ∧ x ≠ 16) ∨ (∃ x ∈ stall, 4095 < x) ∨ (∃ x ∈ trip, x < 20 ∨ 1000 < x) →
        exec (.rumbleSet tag f) s = .next (s.replied 0x22 tag .badField .none))) ∧
    (∀ f : RumbleSetFields, s.Serves (.rumbleSet tag f) → f.unassignedBit = true ∨ f.kick = some .other ∨ f.drainNotice = some .other →
      exec (.rumbleSet tag f) s = .next (s.replied 0x22 tag .badField .none))

/-- At the rumble driver's period mark it latches the grant, moves the queue on by one period, sets the requested level and
the applied duty by the kick and the ceiling, goes IDLE when drained, and gives the reserve acknowledgement on which a waiting
commit invalidates its target, which becomes NEVER_WRITTEN, forms the slot's condition again and begins to copy. MDRV is on, of the
255 points of a carrier cycle, in the first that the applied duty counts, while RUNNING and nothing holds it off. -/
def Obligations.RumblePeriodMarkAdvancesAndDrives : Prop :=
  (∀ s : State, s.corePowered = true → ∃ t, exec .rumblePeriodMark s = .next t ∧
    { t with rumble := s.rumble, link := s.link, save := s.save, backup := s.backup } = s ∧
    (let r := s.rumble; let grant := s.governor.record; let r' := t.rumble
     { r' with state := r.state, queue := r.queue, priority := r.priority, requested := r.requested, applied := r.applied } =
       { r with latchedCeiling := grant.dceil, latchedReserve := grant.reserve
                settings := { r.settings with carrier := r.pendingCarrier.getD r.settings.carrier }, pendingCarrier := none
                historyOlder := r.historyNewer, historyNewer := r.applied, coastOpen := false } ∧
     (r.queue = [] → r'.queue = []) ∧
     (∀ e es, r.queue = e :: es →
       (e.elapsed = 0 → r'.queue = { e with elapsed := 1, start := r.requested } :: es) ∧
       (e.elapsed ≠ 0 → e.elapsed < e.length → r'.queue = { e with elapsed := e.elapsed + 1 } :: es) ∧
       (e.elapsed ≠ 0 → e.length ≤ e.elapsed →
         r'.queue.tail = es.tail ∧ r'.queue.head? = es.head?.map fun x => { x with elapsed := 1, start := r.requested })) ∧
     (r'.queue = [] → r'.requested = 0 ∧ r'.priority = none) ∧ (r'.queue ≠ [] → r'.priority = r.priority) ∧
     (∀ e es, r'.queue = e :: es →
       (e.shape = .hold → r'.requested = e.level) ∧
       (e.shape = .ramp → (r'.requested : Int) = e.start + ((e.level : Int) - e.start) * e.elapsed / e.length)) ∧
     (r.supplyHold = true ∨ r.calibrating = true → r'.applied = 0) ∧
     (r.supplyHold = false → r.calibrating = false → r'.applied =
       if r.settings.kick = true ∧ r.historyNewer = 0 ∧ r.applied = 0 ∧ 0 < r'.requested then grant.dceil
       else min r'.requested grant.dceil) ∧
     r'.state = (if r'.queue = [] ∧ r.state = .running then .idle else r.state) ∧
     (r'.queue = [] → r.state = .running → r.settings.drainNotice = true → maskEnables s.link.mask .rumble = true →
       t.link.notices.rumble = some ⟨.drained, .idle, r.cause, 0⟩) ∧
     (r'.queue ≠ [] ∨ r.state ≠ .running ∨ r.settings.drainNotice = false → t.link = s.link) ∧
     (s.save.state ≠ .waitReserve ∨ grant.reserve = false → t.save = s.save ∧ t.backup = s.backup) ∧
     (s.save.state = .waitReserve → grant.reserve = true →
       { t.save with slotTable := s.save.slotTable } = { s.save with state := .copying, moved := 0 } ∧
       (∀ k, k ≠ s.save.opSlot → t.save.entry k = s.save.entry k) ∧
       (let e := s.save.entry s.save.opSlot; let e' := t.save.entry s.save.opSlot; let other := s.save.target.other
        e'.liveBank = e.liveBank ∧ e'.liveHeader = e.liveHeader ∧ e'.highest = e.highest ∧
        e'.standings.get s.save.target = .neverWritten ∧ e'.standings.get other = e.standings.get other ∧
        e'.condition = if e.liveBank ≠ none then .valid
          else if (s.store.header s.save.opSlot other).good = true then .damaged else .empty) ∧
       t.backup = { s.backup with store := s.store.writeHeader s.save.opSlot s.save.target .invalid }))) ∧
  (∀ (r : Rumble) (point : Nat), r.motorOn point = true ↔ r.state = .running ∧ 0 < r.applied ∧ r.supplyHold = false ∧
    r.calibrating = false ∧ r.coastOpen = false ∧ point < r.applied)

/-! ## Calendar, game days and the event table -/

/-- Calendar Get reports the calendar. Calendar Set writes instant, valid flag, end flag and divider, and then makes the catch-up
of the new instant: the days of a valid record, and the late firings, a DAILY entry first going to its next occurrence when the
clock went back; a date outside its ranges is BAD_FIELD, and CRITICAL refuses it. When a second tick comes with it and the clock-set
event is taken first, the second event follows, judged at the instant it carries, the one counted before the Set (log entry 26),
and its firings on time start their cues; in what those do, the start level 0 of loaded steps and the numbers in a CUE notice that is
not ACTED are the model's (log entries 28 and 32). Each change of the count makes its GAMEDAY notice pending. -/
def Obligations.CalendarRequestsReadAndSet : Prop :=
  (∀ (s : State) (tag : Byte), s.Serves (.calendarGet tag) →
    exec (.calendarGet tag) s = .next (s.replied 0x26 tag .ok
      (.calendar ⟨s.now.dateTime, (s.now.day + 6) % 7, s.now, s.backup.calendar.valid, s.backup.calendar.ended⟩))) ∧
  (∀ (s : State) (tag : Byte) (d : DateTime) (ticked : Bool), s.Serves (.calendarSet tag ⟨d, ticked⟩) →
    ∀ u, exec .secondTick s = .next u →
    let unset := if ticked = true then u else s
    (d.ok = false → exec (.calendarSet tag ⟨d, ticked⟩) s = .next (unset.replied 0x27 tag .badField .none)) ∧
    (d.ok = true → s.supply.supply = .critical →
      exec (.calendarSet tag ⟨d, ticked⟩) s = .next (unset.replied 0x27 tag .supplyCritical .none))) ∧
  (∀ (s : State) (tag : Byte) (d : DateTime), s.Serves (.calendarSet tag ⟨d, false⟩) → d.ok = true →
    s.supply.supply ≠ .critical →
    let now := d.instant
    let events := maskEnables s.link.mask .events
    ∃ t : State, exec (.calendarSet tag ⟨d, false⟩) s = .next (t.replied 0x27 tag .ok
        (.calendarSet now.dateTime ((now.day + 6) % 7) now)) ∧
      { t with backup := s.backup, link := s.link } = s ∧
      t.backup.calendar = { now := now, valid := true, ended := false, divider := 0 } ∧ t.store = s.store ∧
      t.record = (if s.record.valid = true then s.record.caughtUp (gameDayIndex s.record.rollover now) else s.record) ∧
      t.link.replies = s.link.replies ∧ t.link.inbound = s.link.inbound ∧ t.link.mask = s.link.mask ∧
      (s.record.valid = true → maskEnables s.link.mask .gameDay = true → t.link.notices.gameDay =
        (s.record.catchUpNotice (gameDayIndex s.record.rollover now)).or s.link.notices.gameDay) ∧
      (s.record.valid = false ∨ maskEnables s.link.mask .gameDay = false →
        t.link.notices.gameDay = s.link.notices.gameDay) ∧
      ∀ e,
        let x : EventEntry := match (s.entry e).state, (s.entry e).trigger with
          | .free, _ => s.entry e
          | _, .daily time =>
            if s.now.Reached now then s.entry e else { s.entry e with due := nextOccurrence time now }
          | _, _ => s.entry e
        (x.state = .armed → x.Met t.record now →
          t.entry e = x.afterFiring now true events ∧ (events = true → e ∈ t.link.notices.events)) ∧
        (x.state ≠ .armed ∨ ¬x.Met t.record now → t.entry e = x)) ∧
  (∀ (s : State) (tag : Byte) (d : DateTime), s.Serves (.calendarSet tag ⟨d, true⟩) → d.ok = true →
    s.supply.supply ≠ .critical → s.backup.powered = true → s.link.catchUpDone = true →
    s.now.second < 86399 ∨ s.now.day < 73048 →
    let now := d.instant
    let carried : Instant := if s.now.second < 86399 then ⟨s.now.day, s.now.second + 1⟩ else ⟨s.now.day + 1, 0⟩
    let reply := ReplyBody.calendarSet now.dateTime ((now.day + 6) % 7) now
    let first : State := { s with
      backup := { s.backup with calendar := { s.backup.calendar with now := carried, divider := 0 } }
      link := { s.link with inbound := [⟨0x27, tag, [0, 0, 0, 0, 0, 0, 0], .handed⟩] } }
    ∀ v, exec (.calendarSet tag ⟨d, false⟩) first = .next v →
    let index := gameDayIndex v.record.rollover carried
    let late := v.record.valid && decide (v.record.highWater + 1 < index)
    ∃ t : State, exec (.calendarSet tag ⟨d, true⟩) s = .next (t.replied 0x27 tag .ok reply) ∧
      { t with backup := s.backup, link := s.link, voice := s.voice, rumble := s.rumble, cue := s.cue } = s ∧
      v.FiringsStarted t (fun e => late = false ∧ (v.entry e).state = .armed ∧ (v.entry e).Met t.record carried) ∧
      t.backup.calendar = { now := now, valid := true, ended := false, divider := 0 } ∧
      t.link.replies = s.link.replies ∧ t.link.inbound = s.link.inbound ∧
      (maskEnables s.link.mask .gameDay = false → t.link.notices.gameDay = s.link.notices.gameDay) ∧
      (late = true → t.record = v.record.caughtUp index ∧ (maskEnables s.link.mask .gameDay = true →
        t.link.notices.gameDay = v.record.catchUpNotice index)) ∧
      (v.record.valid = true → index = v.record.highWater + 1 →
        t.record = { v.record with counter := v.record.counter + 1, highWater := index, checkMatches := true } ∧
        (maskEnables s.link.mask .gameDay = true → t.link.notices.gameDay =
          some ⟨.crossing, true, v.record.counter + 1, index, index, 1, v.record.forfeited, v.record.rewind⟩)) ∧
      (v.record.valid = false ∨ index ≤ v.record.highWater →
        t.record = v.record ∧ t.link.notices.gameDay = v.link.notices.gameDay) ∧
      ∀ e,
        ((v.entry e).state = .armed → (v.entry e).Met t.record carried → maskEnables s.link.mask .events = true →
          t.entry e = (v.entry e).afterFiring carried late true ∧ e ∈ t.link.notices.events) ∧
        ((v.entry e).state ≠ .armed ∨ ¬(v.entry e).Met t.record carried → t.entry e = v.entry e))

/-- A second tick counts, passes from the last second of a day to the next day, and at the end of the range sets the end flag
alone; while the core runs and its start-up catch-up has completed the second event follows: a crossing, or a catch-up when the
index moved by more than one, each with its GAMEDAY notice, and the firings, late only in a catch-up. The firings on time start
their cues, in entry-number order; a late one starts none. Without backup power a second tick changes nothing (log entry 2); in what
the starts do, the start level 0 of loaded steps and the numbers in a CUE notice that is not ACTED are the model's (log entries 28
and 32). -/
def Obligations.SecondTickCountsAndFires : Prop :=
  (∀ s : State, s.backup.powered = false → exec .secondTick s = .next s) ∧
  (∀ s : State, s.backup.powered = true → 86399 ≤ s.now.second → 73048 ≤ s.now.day →
    exec .secondTick s = .next { s with backup := { s.backup with calendar :=
      { s.backup.calendar with ended := true, divider := 0 } } }) ∧
  (∀ s : State, s.backup.powered = true → s.now.second < 86399 ∨ s.now.day < 73048 →
    let now : Instant := if s.now.second < 86399 then ⟨s.now.day, s.now.second + 1⟩ else ⟨s.now.day + 1, 0⟩
    let counted : State := { s with backup := { s.backup with calendar := { s.backup.calendar with now := now, divider := 0 } } }
    let index := gameDayIndex s.record.rollover now
    let late := s.record.valid && decide (s.record.highWater + 1 < index)
    let events := maskEnables s.link.mask .events
    (s.corePowered = false ∨ s.link.catchUpDone = false → exec .secondTick s = .next counted) ∧
    (s.corePowered = true → s.link.catchUpDone = true → ∃ t, exec .secondTick s = .next t ∧
      { t with backup := s.backup, link := s.link, voice := s.voice, rumble := s.rumble, cue := s.cue } = s ∧
      t.backup.calendar = counted.backup.calendar ∧ t.store = s.store ∧
      { t.link with notices := s.link.notices, tx := s.link.tx } = s.link ∧
      { t.link.notices with gameDay := s.link.notices.gameDay, events := s.link.notices.events
                            cue := s.link.notices.cue } = s.link.notices ∧
      s.FiringsStarted t (fun e => late = false ∧ (s.entry e).state = .armed ∧ (s.entry e).Met t.record now) ∧
      (late = true ∨ (∀ e, (s.entry e).state = .armed → (s.entry e).Met t.record now → (s.entry e).cue = none) →
        t.voice = s.voice ∧ t.rumble = s.rumble ∧ t.cue = s.cue ∧ t.link.notices.cue = s.link.notices.cue) ∧
      (maskEnables s.link.mask .gameDay = false → t.link.notices.gameDay = s.link.notices.gameDay) ∧
      (late = true → t.record = s.record.caughtUp index ∧ (maskEnables s.link.mask .gameDay = true →
        t.link.notices.gameDay = s.record.catchUpNotice index)) ∧
      (s.record.valid = true → index = s.record.highWater + 1 →
        t.record = { s.record with counter := s.record.counter + 1, highWater := index, checkMatches := true } ∧
        (maskEnables s.link.mask .gameDay = true →
          t.link.notices.gameDay = some ⟨.crossing, true, s.record.counter + 1, index, index, 1, s.record.forfeited, s.record.rewind⟩)) ∧
      (s.record.valid = false ∨ index ≤ s.record.highWater → t.record = s.record ∧ t.link.notices.gameDay = s.link.notices.gameDay) ∧
      ∀ e,
        ((s.entry e).state = .armed → (s.entry e).Met t.record now →
          t.entry e = (s.entry e).afterFiring now late events) ∧
        (e ∈ t.link.notices.events ↔ e ∈ s.link.notices.events ∨
          events = true ∧ (s.entry e).state = .armed ∧ (s.entry e).Met t.record now) ∧
        ((s.entry e).state ≠ .armed ∨ ¬(s.entry e).Met t.record now → t.entry e = s.entry e)))

/-- Dates and instants name each other: every date in range gives an instant in range from which the same date comes back, and
every instant in range gives a date in range that names it. -/
def Obligations.DatesAndInstantsNameEachOther : Prop :=
  (∀ d : DateTime, d.ok = true → d.instant.day ≤ 73048 ∧ d.instant.second ≤ 86399 ∧ d.instant.dateTime = d) ∧
  (∀ i : Instant, i.day ≤ 73048 → i.second ≤ 86399 → i.dateTime.ok = true ∧ i.dateTime.instant = i)

/-- Game Day Start writes the whole record and fires what it makes due, on time, each firing with the start of its cue; Game Day
Get reports it; Game Day Clear Rewind clears the rewind mark. Each refusal is given in the order of its rule. That the replies
of Game Day Start and Game Day Clear Rewind leave the check out is the model's choice (log entry 34), and so are the start level 0
of loaded steps and the numbers in a CUE notice that is not ACTED (log entries 28 and 32). -/
def Obligations.GameDayRequestsStartReportAndClear : Prop :=
  (∀ (s : State) (tag : Byte) (start rollover cap : Nat), s.Serves (.gameDayStart tag start rollover cap) →
    let after := exec (.gameDayStart tag start rollover cap) s
    let index := gameDayIndex rollover s.now
    let inRange := start ≤ 999999 ∧ rollover ≤ 86399 ∧ 1 ≤ cap ∧ cap ≤ 65535
    let events := maskEnables s.link.mask .events
    (¬inRange → after = .next (s.replied 0x28 tag .badField .none)) ∧
    (inRange → s.supply.supply = .critical → after = .next (s.replied 0x28 tag .supplyCritical .none)) ∧
    (inRange → s.supply.supply ≠ .critical → s.backup.calendar.valid = false →
      after = .next (s.replied 0x28 tag .clockInvalid .none)) ∧
    (inRange → s.supply.supply ≠ .critical → s.backup.calendar.valid = true → ∃ t : State,
      after = .next (t.replied 0x28 tag .ok (.gameDay true start start index index rollover cap 0 false (some index) none)) ∧
      t.record = { valid := true, counter := start, start := start, highWater := index, startMark := index
                   rollover := rollover, cap := cap, forfeited := 0, rewind := false, checkMatches := true } ∧
      { t with backup := s.backup, link := s.link, voice := s.voice, rumble := s.rumble, cue := s.cue } = s ∧
      t.backup.calendar = s.backup.calendar ∧ t.store = s.store ∧ t.backup.powered = s.backup.powered ∧
      { t.link with notices := s.link.notices, tx := s.link.tx } = s.link ∧
      { t.link.notices with gameDay := s.link.notices.gameDay, events := s.link.notices.events
                            cue := s.link.notices.cue } = s.link.notices ∧
      s.FiringsStarted t (fun e => (s.entry e).state = .armed ∧ (s.entry e).Met t.record s.now) ∧
      ((∀ e, (s.entry e).state = .armed → (s.entry e).Met t.record s.now → (s.entry e).cue = none) →
        t.voice = s.voice ∧ t.rumble = s.rumble ∧ t.cue = s.cue ∧ t.link.notices.cue = s.link.notices.cue) ∧
      (maskEnables s.link.mask .gameDay = false → t.link.notices.gameDay = s.link.notices.gameDay) ∧
      (maskEnables s.link.mask .gameDay = true →
        t.link.notices.gameDay = some ⟨.started, true, start, index, index, start, 0, false⟩) ∧
      ∀ e,
        ((s.entry e).state = .armed → (s.entry e).Met t.record s.now →
          t.entry e = (s.entry e).afterFiring s.now false events) ∧
        (e ∈ t.link.notices.events ↔ e ∈ s.link.notices.events ∨
          events = true ∧ (s.entry e).state = .armed ∧ (s.entry e).Met t.record s.now) ∧
        ((s.entry e).state ≠ .armed ∨ ¬(s.entry e).Met t.record s.now → t.entry e = s.entry e))) ∧
  (∀ (s : State) (tag : Byte),
    let r := s.record
    (s.Serves (.gameDayGet tag) → exec (.gameDayGet tag) s = .next (s.replied 0x29 tag .ok (.gameDay r.valid r.counter r.start r.highWater r.startMark
      r.rollover r.cap r.forfeited r.rewind (some (gameDayIndex r.rollover s.now)) (some s.backup.calendar.valid)))) ∧
    (s.Serves (.gameDayClearRewind tag) →
     (s.supply.supply = .critical → exec (.gameDayClearRewind tag) s = .next (s.replied 0x2A tag .supplyCritical .none)) ∧
    (s.supply.supply ≠ .critical → r.valid = false →
      exec (.gameDayClearRewind tag) s = .next (s.replied 0x2A tag .noGameDays .none)) ∧
    (s.supply.supply ≠ .critical → r.valid = true → r.rewind = false →
      exec (.gameDayClearRewind tag) s = .next (s.replied 0x2A tag .nothingPending .none)) ∧
    (s.supply.supply ≠ .critical → r.valid = true → r.rewind = true →
      exec (.gameDayClearRewind tag) s = .next (({ s with backup := { s.backup with
        record := { r with rewind := false, checkMatches := true } } } : State).replied 0x2A tag .ok
        (.gameDay r.valid r.counter r.start r.highWater r.startMark r.rollover r.cap r.forfeited false none none)))))

/-- Event Set is refused in the order of R137, and otherwise arms the entry and judges it at once: an entry that is due fires on
time and, in the same step, has its cue started: with no such cue, queued, dropped, or acted with its outcomes. Event Set keeps the
fired-at instant that the entry held, the loaded steps of a start have start level 0, and a CUE notice carries its two numbers with
every outcome (the model's choices, log entries 18, 28 and 32). -/
def Obligations.EventSetArmsAndJudgesAnEntry : Prop :=
  (∀ (s : State) (tag : Byte) (e : Fin 16) (fields : TriggerFields) (trigger : Trigger) (cue : Option (Fin 8)) (q : Bool),
    s.Serves (.eventSet tag e.val fields (cue.map Fin.val) (.is q)) →
    trigger.SpelledBy fields →
    let after := exec (.eventSet tag e.val fields (cue.map Fin.val) (.is q)) s
    let due : Due := match trigger with | .daily time => nextOccurrence time s.now | _ => .absent
    let x : EventEntry := { s.entry e with state := .armed, trigger := trigger, due := due, cue := cue.map Fin.val
                                           quantize := q, late := false }
    let open' := match trigger with | .gameDay _ => s.record.valid | _ => s.backup.calendar.valid
    let events := maskEnables s.link.mask .events
    ((s.entry e).state = .fired → after = .next (s.replied 0x2B tag .busy .none)) ∧
    ((s.entry e).state ≠ .fired → s.supply.supply = .critical → after = .next (s.replied 0x2B tag .supplyCritical .none)) ∧
    ((s.entry e).state ≠ .fired → s.supply.supply ≠ .critical → open' = false → after = .next (s.replied 0x2B tag
      (match trigger with | .gameDay _ => .noGameDays | _ => .clockInvalid) .none)) ∧
    ((s.entry e).state ≠ .fired → s.supply.supply ≠ .critical → open' = true → ¬x.Met s.record s.now →
      after = .next (({ s with backup := { s.backup with events := s.backup.events.set e x } } : State).replied
        0x2B tag .ok (.eventEntry x))) ∧
    ((s.entry e).state ≠ .fired → s.supply.supply ≠ .critical → open' = true → x.Met s.record s.now → ∃ t : State,
      after = .next (t.replied 0x2B tag .ok (.eventEntry (x.afterFiring s.now false events))) ∧
      t.backup = { s.backup with events := s.backup.events.set e (x.afterFiring s.now false events) } ∧
      t.link.replies = s.link.replies ∧ (events = true → e ∈ t.link.notices.events) ∧
      (cue = none → { t with backup := s.backup, link := s.link } = s) ∧
      (∀ c, cue = some c → s.cue.table.get c = none → { t with backup := s.backup, link := s.link } = s ∧
        (maskEnables s.link.mask .cue = true → t.link.notices.cue = some ⟨.noCue, c.val, e.val⟩)) ∧
      (∀ c d, cue = some c → s.cue.table.get c = some d → q = true → s.cue.starts.length < 4 →
        { t with backup := s.backup, link := s.link, cue := s.cue } = s ∧
        t.cue = { s.cue with starts := s.cue.starts ++ [⟨c, .event e.val⟩] }) ∧
      (∀ c d, cue = some c → s.cue.table.get c = some d → q = true → 4 ≤ s.cue.starts.length →
        { t with backup := s.backup, link := s.link } = s ∧
        (maskEnables s.link.mask .cue = true → t.link.notices.cue = some ⟨.dropped, c.val, e.val⟩)) ∧
      (∀ c d, cue = some c → s.cue.table.get c = some d → q = false → ∃ (sound : SoundOutcome) (rumble : RumbleOutcome),
        { t with backup := s.backup, link := s.link, voice := s.voice, rumble := s.rumble, cue := s.cue } = s ∧
        s.StartActed t c d sound rumble ∧
        (maskEnables s.link.mask .cue = true → t.link.notices.cue = some ⟨.acted sound rumble, c.val, e.val⟩)))) ∧
  (∀ (s : State) (tag : Byte) (entry : Nat) (fields : TriggerFields) (cue : Option Nat) (q : Coded Bool),
    s.Serves (.eventSet tag entry fields cue q) →
    16 ≤ entry ∨ fields = .other ∨ q = .other ∨ (∃ c ∈ cue, 7 < c) ∨ (∃ n, fields = .gameDay n ∧ 1073048 < n) ∨
      (∃ d, fields = .dateTime d ∧ d.ok = false) ∨ (∃ h m n, fields = .daily h m n ∧ (23 < h ∨ 59 < m ∨ 59 < n)) →
    exec (.eventSet tag entry fields cue q) s = .next (s.replied 0x2B tag .badField .none))

/-- Event Clear frees an entry that is not FREE and takes it out of the EVENTS set and of the frame that carries it; Event
List reports the table. -/
def Obligations.EventClearFreesAnEntryAndListReports : Prop :=
  (∀ (s : State) (tag : Byte),
    (s.Serves (.eventList tag) →
      exec (.eventList tag) s = .next (s.replied 0x2D tag .ok (.eventList s.backup.events))) ∧
    ∀ entry, 16 ≤ entry → s.Serves (.eventClear tag entry) →
      exec (.eventClear tag entry) s = .next (s.replied 0x2C tag .badField .none)) ∧
  (∀ (s : State) (tag : Byte) (e : Fin 16), s.Serves (.eventClear tag e.val) →
    let after := exec (.eventClear tag e.val) s
    (s.supply.supply = .critical → after = .next (s.replied 0x2C tag .supplyCritical .none)) ∧
    (s.supply.supply ≠ .critical → (s.entry e).state = .free → after = .next (s.replied 0x2C tag .nothingPending .none)) ∧
    (s.supply.supply ≠ .critical → (s.entry e).state ≠ .free → ∃ t : State,
      after = .next (t.replied 0x2C tag .ok .none) ∧ { t with backup := s.backup, link := s.link } = s ∧
      t.backup = { s.backup with events := s.backup.events.set e .freed } ∧
      { t.link with notices := s.link.notices, tx := s.link.tx } = s.link ∧
      t.link.notices = { s.link.notices with events := s.link.notices.events.filter fun x => x ≠ e } ∧
      e.val ∉ actingEntries t.link.tx ∧
      ∀ k, k ≠ e.val → (k ∈ actingEntries t.link.tx ↔ k ∈ actingEntries s.link.tx)))

/-! ## Cues -/

/-- Cue Define stores its parts, clamped, or is BAD_FIELD; what an absent part's bytes hold is not checked (log entry 29), and
its reply carries the cue number beside the entry (log entry 35). Cue Cancel removes the oldest waiting start of the cue: a request's start is answered ABANDONED, after the Cue Cancel's own reply (the
model's choice, log entry 25), an event's gives a CUE notice, whose fields are the model's (log entry 32); Cue
Status reports the unit. -/
def Obligations.CueTableIsDefinedAndStartsAreCancelled : Prop :=
  (∀ (s : State) (tag : Byte) (c : Fin 8) (sound : Option SoundPart) (steal : Bool) (rumble : Option RumblePart),
    sound.isSome = true ∨ rumble.isSome = true →
    (∀ p ∈ sound, p.volume ≤ 255 ∧ p.pitchStep ≤ 65535 ∧ p.waveStart + p.waveLength ≤ 8192 ∧ p.loopStart < p.waveLength ∧
      (1 ≤ p.attackRate ∧ p.attackRate ≤ 255) ∧ p.sustainLevel ≤ 255 ∧ (1 ≤ p.releaseRate ∧ p.releaseRate ≤ 255) ∧
      ∀ k ∈ p.keyOffAfter, 1 ≤ k ∧ k ≤ 255) →
    (∀ p ∈ rumble, p.priority ≤ 3 ∧ 1 ≤ p.steps.length ∧ p.steps.length ≤ 4 ∧ ∀ x ∈ p.steps, x.level ≤ 255 ∧ x.length ≤ 255) →
    let fields : CueFields :=
      { cue := c.val, steal := .is steal
        sound := sound.map fun p => ⟨p.voice.val, p.volume, p.waveStart, p.waveLength, p.loopStart, .is p.loopMode, p.pitchStep,
          p.attackRate, p.sustainLevel, p.releaseRate, p.keyOffAfter⟩
        rumble := rumble.map fun p => ⟨p.priority, p.steps.map fun x => ⟨x.level, x.length, .is x.shape⟩⟩ }
    let d : CueDefinition :=
      { steal := steal
        sound := sound.map fun p => { p with volume := min p.volume 127, pitchStep := min (max p.pitchStep 1) 2048 }
        rumble := rumble.map fun p => ⟨p.priority, p.steps.map fun x => ⟨x.level, max x.length 1, x.shape⟩⟩ }
    s.Serves (.cueDefine tag fields) → exec (.cueDefine tag fields) s = .next (({ s with cue := { s.cue with table := s.cue.table.set c (some d) } } : State).replied
      0x30 tag .ok (.cueDefine c.val d))) ∧
  (∀ (s : State) (tag : Byte) (f : CueFields), s.Serves (.cueDefine tag f) →
    8 ≤ f.cue ∨ (f.sound = none ∧ f.rumble = none) ∨ f.steal = .other ∨
      (∃ p ∈ f.sound, 8 ≤ p.voice ∨ p.loopMode = .other ∨ 8192 < p.waveStart + p.waveLength ∨ p.waveLength ≤ p.loopStart ∨
        p.attackRate = 0 ∨ p.releaseRate = 0) ∨
      (∃ p ∈ f.rumble, 3 < p.priority ∨ p.steps = [] ∨ 4 < p.steps.length ∨ ∃ x ∈ p.steps, x.shape = .other) →
    exec (.cueDefine tag f) s = .next (s.replied 0x30 tag .badField .none)) ∧
  (∀ (s : State) (tag : Byte),
    (s.Serves (.cueStatus tag) → exec (.cueStatus tag) s = .next (s.replied 0x33 tag .ok
      (.cueStatus s.cue.table s.cue.starts s.cue.periodCount (32 - s.cue.periodCount) s.cue.countdowns))) ∧
    (∀ cue, 8 ≤ cue → s.Serves (.cueCancel tag cue) → exec (.cueCancel tag cue) s = .next (s.replied 0x32 tag .badField .none)) ∧
    (∀ c : Fin 8, (∀ p ∈ s.cue.starts, p.cue ≠ c) → s.Serves (.cueCancel tag c.val) →
      exec (.cueCancel tag c.val) s = .next (s.replied 0x32 tag .nothingPending .none))) ∧
  (∀ (s : State) (tag : Byte) (front back : List PendingStart) (p : PendingStart), s.Serves (.cueCancel tag p.cue.val) →
    s.cue.starts = front ++ p :: back → (∀ x ∈ front, x.cue ≠ p.cue) →
    let rest : State := { s with cue := { s.cue with starts := front ++ back } }
    (∀ first, p.source = .request first → exec (.cueCancel tag p.cue.val) s =
      .next ((rest.replied 0x32 tag .ok (.cueCancel p.source)).concluded 0x31 first .abandoned .none)) ∧
    (∀ entry, p.source = .event entry → ∃ t : State,
      exec (.cueCancel tag p.cue.val) s = .next (t.replied 0x32 tag .ok (.cueCancel p.source)) ∧
      { t with link := s.link } = rest ∧ t.link.replies = s.link.replies ∧
      (maskEnables s.link.mask .cue = true → t.link.notices.cue = some ⟨.cancelled, p.cue.val, entry⟩)))

/-- Cue Start acts at once, with the outcome of each part, or joins the list of waiting starts with its reply deferred, or is
refused. The start level 0 of the steps it loads is the model's choice (log entry 28). -/
def Obligations.CueStartActsOrWaits : Prop :=
  (∀ (s : State) (tag : Byte) (cue : Nat) (q : Coded Bool), s.Serves (.cueStart tag cue q) →
    8 ≤ cue ∨ q = .other ∨ (∃ c : Fin 8, c.val = cue ∧ s.cue.table.get c = none) →
    exec (.cueStart tag cue q) s = .next (s.replied 0x31 tag .badField .none)) ∧
  (∀ (s : State) (tag : Byte) (c : Fin 8) (d : CueDefinition), s.cue.table.get c = some d →
    (s.Serves (.cueStart tag c.val (.is true)) → s.cue.starts.length < 4 → exec (.cueStart tag c.val (.is true)) s =
      .next (({ s with cue := { s.cue with starts := s.cue.starts ++ [⟨c, .request tag⟩] } } : State).deferring 0x31 tag)) ∧
    (s.Serves (.cueStart tag c.val (.is true)) → 4 ≤ s.cue.starts.length →
      exec (.cueStart tag c.val (.is true)) s = .next (s.replied 0x31 tag .queueFull .none)) ∧
    (s.Serves (.cueStart tag c.val (.is false)) → ∃ (t : State) (sound : SoundOutcome) (rumble : RumbleOutcome),
      exec (.cueStart tag c.val (.is false)) s = .next (t.replied 0x31 tag .ok (.cueReport c.val sound rumble)) ∧
      { t with voice := s.voice, rumble := s.rumble, cue := s.cue } = s ∧ s.StartActed t c d sound rumble))

/-- A period mark of the cue unit steps every countdown and the period count, and the 32nd is a measure mark; a countdown at 0
writes pending key OFF; at the measure mark the waiting starts act, oldest first, a request's with its deferred reply, an event's
with a CUE notice. How the work of one mark is divided over the three rows is the model's choice (log entry 17): work that its own
row has not done is done first at the next mark. A row whose work is not due changes nothing (log entry 2), and the start level 0
of the loaded steps is the model's (log entry 28). -/
def Obligations.CueMarksCountAndReleaseStarts : Prop :=
  (∀ s : State, s.corePowered = true → s.cue.measureDue = false →
    (∀ v c, s.cue.countdowns.get v = some c → c.begun = true → c.count ≠ 0) → ∃ t, exec .cuePeriodMark s = .next t ∧
      { t with cue := s.cue } = s ∧ t.cue.table = s.cue.table ∧ t.cue.starts = s.cue.starts ∧
      t.cue.periodCount = (if s.cue.periodCount = 31 then 0 else s.cue.periodCount + 1) ∧
      t.cue.measureDue = decide (s.cue.periodCount = 31) ∧
      ∀ v, t.cue.countdowns.get v = (s.cue.countdowns.get v).map fun c =>
        if c.begun = true then { c with count := c.count - 1 } else { c with begun := true }) ∧
  (∀ (s : State) (v : Fin 8), s.corePowered = true →
    (∀ cue, s.cue.countdowns.get v = some ⟨0, cue, true⟩ → exec (.keyOffCountdown v.val) s = .next { s with
      voice := { s.voice with pendings := s.voice.pendings.set v { s.voice.pendings.get v with key := some .off } }
      cue := { s.cue with countdowns := s.cue.countdowns.set v none } }) ∧
    (s.cue.countdowns.get v = none ∨ (∃ c, s.cue.countdowns.get v = some c ∧ (c.count ≠ 0 ∨ c.begun = false)) →
      exec (.keyOffCountdown v.val) s = .next s)) ∧
  (∀ s : State, s.corePowered = true → s.cue.measureDue = false → exec .measureMark s = .next s) ∧
  (∀ s : State, s.corePowered = true → s.cue.measureDue = true →
    ∃ t, exec .measureMark s = .next t ∧ t.cue.starts = [] ∧ t.cue.measureDue = false ∧ t.cue.periodCount = s.cue.periodCount ∧
      t.backup = s.backup ∧ t.governor = s.governor ∧ t.save = s.save ∧ t.supply = s.supply ∧ t.stream = s.stream ∧
      t.mixer = s.mixer ∧ t.cue.table = s.cue.table ∧ t.voice.voices = s.voice.voices ∧ t.voice.wave = s.voice.wave) ∧
  (∀ (s : State) (p : PendingStart) (ps : List PendingStart) (d : CueDefinition), s.corePowered = true →
    s.cue.measureDue = true → s.cue.starts = p :: ps → s.cue.table.get p.cue = some d →
    (∀ v x, s.cue.countdowns.get v = some x → x.begun = true → x.count ≠ 0) →
    let mark : State := { s with cue := { s.cue with starts := [], measureDue := false } }
    ∃ (t : State) (sound : SoundOutcome) (rumble : RumbleOutcome),
      exec .measureMark s = exec .measureMark { t with cue := { t.cue with starts := ps, measureDue := true } } ∧
      { t with voice := s.voice, rumble := s.rumble, cue := mark.cue, link := s.link } = mark ∧
      mark.StartActed t p.cue d sound rumble ∧
      (∀ tag, p.source = .request tag →
        t.link = (s.concluded 0x31 tag .ok (.cueReport p.cue.val sound rumble)).link) ∧
      (∀ entry, p.source = .event entry →
        { t.link with notices := s.link.notices, tx := s.link.tx } = s.link ∧
        { t.link.notices with cue := s.link.notices.cue } = s.link.notices ∧
        (maskEnables s.link.mask .cue = true →
          t.link.notices.cue = some ⟨.acted sound rumble, p.cue.val, entry⟩))) ∧
  (∀ (s : State) (v : Fin 8) (cue : Fin 8), s.corePowered = true → s.cue.countdowns.get v = some ⟨0, cue, true⟩ →
    let done : State := { s with
      voice := { s.voice with pendings := s.voice.pendings.set v { s.voice.pendings.get v with key := some .off } }
      cue := { s.cue with countdowns := s.cue.countdowns.set v none } }
    exec .cuePeriodMark s = exec .cuePeriodMark done ∧
    (s.cue.measureDue = true → exec .measureMark s = exec .measureMark done)) ∧
  (∀ s u : State, s.corePowered = true → exec .measureMark s = .next u → s.cue.measureDue = true →
    exec .cuePeriodMark s = exec .cuePeriodMark u) ∧
  (∀ s : State, s.corePowered = true → s.cue.measureDue = true → s.cue.starts = [] →
    (∀ v x, s.cue.countdowns.get v = some x → x.begun = true → x.count ≠ 0) →
    exec .measureMark s = .next { s with cue := { s.cue with measureDue := false } })

/-! ## Save store -/

/-- Stage Write writes 1 to 64 bytes inside the staging area unless a load or a commit holds it locked or the supply is CRITICAL;
Stage Read returns the bytes as they stand, which during a load are those copied so far: how far is free, and the fields that keep
it are the model's (log entry 7). -/
def Obligations.StagingIsWrittenAndRead : Prop :=
  (∀ (s : State) (tag : Byte) (offset : Nat) (bytes : List Byte), s.Serves (.stageWrite tag offset bytes) →
    let after := exec (.stageWrite tag offset bytes) s
    let inRange := 1 ≤ bytes.length ∧ bytes.length ≤ 64 ∧ offset + bytes.length ≤ 3584
    let locked := s.save.state = .loading ∨ s.save.state = .waitReserve ∨ s.save.state = .copying
    (¬inRange → after = .next (s.replied 0x34 tag .badField .none)) ∧
    (inRange → locked → after = .next (s.replied 0x34 tag .stageLocked .none)) ∧
    (inRange → ¬locked → s.supply.supply = .critical → after = .next (s.replied 0x34 tag .supplyCritical .none)) ∧
    (inRange → ¬locked → s.supply.supply ≠ .critical → s.store.staging.wf = true → ∃ staging : Memory,
      after = .next (({ s with backup := { s.backup with store := { s.store with staging := staging } } } : State).replied
        0x34 tag .ok (.written offset bytes.length)) ∧
      (∀ i (h : i < bytes.length), staging.read (offset + i) = bytes[i]) ∧
      ∀ a, a < offset ∨ offset + bytes.length ≤ a → staging.read a = s.store.staging.read a)) ∧
  (∀ (s : State) (tag : Byte) (offset count : Nat), s.Serves (.stageRead tag offset count) →
    (count = 0 ∨ 64 < count ∨ 3584 < offset + count →
      exec (.stageRead tag offset count) s = .next (s.replied 0x35 tag .badField .none)) ∧
    (1 ≤ count → count ≤ 64 → offset + count ≤ 3584 → s.save.state ≠ .loading →
      exec (.stageRead tag offset count) s = .next (s.replied 0x35 tag .ok
        (.stageRead ((List.range count).map fun i => s.store.staging.read (offset + i))))) ∧
    (∀ bank, 1 ≤ count → count ≤ 64 → offset + count ≤ 3584 → s.save.state = .loading → s.store.staging.wf = true →
      (s.save.entry s.save.opSlot).liveBank = some bank → s.save.moved ≤ s.save.length →
      ∃ (m : Nat) (staging : Memory), s.save.moved ≤ m ∧ m ≤ s.save.length ∧ (s.save.moved < s.save.length → m < s.save.length) ∧
        exec (.stageRead tag offset count) s = .next (({ s with
          save := { s.save with moved := m }, freeCount := s.freeCount + 1
          backup := { s.backup with store := { s.store with staging := staging } } } : State).replied 0x35 tag .ok
          (.stageRead ((List.range count).map fun i => staging.read (offset + i)))) ∧
        ∀ a, staging.read a =
          if s.save.moved ≤ a ∧ a < m then (s.store.bank s.save.opSlot bank).read a else s.store.staging.read a))

/-- Stage Load is refused in the order of R157, and otherwise the controller loads with its reply deferred and reports busy; when
the last byte is copied the staging area holds the live payload, and the controller is IDLE again. That the whole payload is there
holds of the states a run can reach (State.Sound); how far the load had come before is the model's free value (log
entry 7), and LOAD_COMPLETE outside LOADING changes nothing (log entry 2). -/
def Obligations.StageLoadCopiesTheLivePayload : Prop :=
  (∀ (s : State) (tag : Byte) (slot : Nat), s.Serves (.stageLoad tag slot) → 4 ≤ slot →
    exec (.stageLoad tag slot) s = .next (s.replied 0x36 tag .badField .none)) ∧
  (∀ (s : State) (tag : Byte) (slot : Fin 4), s.Serves (.stageLoad tag slot.val) →
    let after := exec (.stageLoad tag slot.val) s
    let e := s.save.entry slot
    (s.save.state ≠ .idle → after = .next (s.replied 0x36 tag .busy .none)) ∧
    (s.save.state = .idle → s.supply.supply = .critical → after = .next (s.replied 0x36 tag .supplyCritical .none)) ∧
    (s.save.state = .idle → s.supply.supply ≠ .critical → e.condition = .empty →
      after = .next (s.replied 0x36 tag .noData .none)) ∧
    (s.save.state = .idle → s.supply.supply ≠ .critical → e.condition = .damaged →
      after = .next (s.replied 0x36 tag .damaged .none)) ∧
    (∀ h, s.save.state = .idle → s.supply.supply ≠ .critical → e.condition = .valid ∨ e.condition = .validFallback →
      e.liveHeader = some h → after = .next (({ s with
        save := { s.save with state := .loading, opSlot := slot, length := h.length, moved := 0, deferredTag := tag }
        governor := { s.governor with busy := true, record := ({ s.governor with busy := true } : Governor).form } } :
          State).deferring 0x36 tag))) ∧
  (∀ s : State, s.corePowered = true → s.save.state ≠ .loading → exec .loadComplete s = .next s) ∧
  (∀ (s : State) (bank : Bank) (h : Header), s.corePowered = true → s.save.state = .loading →
    (s.save.entry s.save.opSlot).liveBank = some bank → (s.save.entry s.save.opSlot).liveHeader = some h →
    s.store.staging.wf = true → s.save.moved ≤ s.save.length → ∃ staging : Memory,
      exec .loadComplete s = .next (({ s with
        save := { s.save with state := .idle, moved := s.save.length }
        governor := { s.governor with busy := false, record := ({ s.governor with busy := false } : Governor).form }
        backup := { s.backup with store := { s.store with staging := staging } } } : State).concluded
          0x36 s.save.deferredTag .ok (.stageLoad s.save.length h.generation)) ∧
      ∀ a, staging.read a = if s.save.moved ≤ a ∧ a < s.save.length then (s.store.bank s.save.opSlot bank).read a
        else s.store.staging.read a) ∧
  (∀ (s t : State) (bank : Bank), s.Sound → s.corePowered = true → s.save.state = .loading →
    (s.save.entry s.save.opSlot).liveBank = some bank → exec .loadComplete s = .next t →
    ∀ a, a < s.save.length → t.store.staging.read a = (s.store.bank s.save.opSlot bank).read a)

/-- Commit is refused in the order of R158, and otherwise waits for the reserve, aimed at the bank that is not live; Commit Abort
ends a commit that has not begun to seal and answers both requests, its own first (the model's choice, log entry 25), is TOO_LATE in
SEALING and NOTHING_PENDING otherwise; how far the copy had come is free (log entry 7). -/
def Obligations.CommitBeginsAndAborts : Prop :=
  (∀ (s : State) (tag : Byte) (slot length : Nat), s.Serves (.commit tag slot length) → 4 ≤ slot ∨ length = 0 ∨ 3584 < length →
    exec (.commit tag slot length) s = .next (s.replied 0x37 tag .badField .none)) ∧
  (∀ (s : State) (tag : Byte) (slot : Fin 4) (length : Nat), s.Serves (.commit tag slot.val length) → 1 ≤ length → length ≤ 3584 →
    let after := exec (.commit tag slot.val length) s
    let e := s.save.entry slot
    (s.save.state ≠ .idle → after = .next (s.replied 0x37 tag .busy .none)) ∧
    (s.save.state = .idle → s.supply.supply = .low → after = .next (s.replied 0x37 tag .supplyLow .none)) ∧
    (s.save.state = .idle → s.supply.supply = .critical → after = .next (s.replied 0x37 tag .supplyCritical .none)) ∧
    (s.save.state = .idle → s.supply.supply = .normal → e.highest = 4294967295 →
      after = .next (s.replied 0x37 tag .genExhausted .none)) ∧
    (s.save.state = .idle → s.supply.supply = .normal → e.highest ≠ 4294967295 → after = .next (({ s with
      save := { s.save with state := .waitReserve, opSlot := slot, length := length, moved := 0, deferredTag := tag
                            target := if e.liveBank = some .a then .b else .a }
      governor := { s.governor with busy := true, record := ({ s.governor with busy := true } : Governor).form } } :
        State).deferring 0x37 tag))) ∧
  (∀ (s : State) (tag : Byte), s.Serves (.commitAbort tag) →
    (s.save.state = .sealing → exec (.commitAbort tag) s = .next (s.replied 0x38 tag .tooLate .none)) ∧
    (s.save.state = .idle ∨ s.save.state = .loading ∨ s.save.state = .verifying →
      exec (.commitAbort tag) s = .next (s.replied 0x38 tag .nothingPending .none)) ∧
    (s.save.state = .waitReserve ∨ s.save.state = .copying → ∃ t : State,
      exec (.commitAbort tag) s =
        .next ((t.replied 0x38 tag .ok .none).concluded 0x37 s.save.deferredTag .abandoned .none) ∧
      { t with save := s.save, governor := s.governor, backup := s.backup, freeCount := s.freeCount } = s ∧
      t.save.state = .idle ∧ t.save.slotTable = s.save.slotTable ∧
      t.governor = { s.governor with busy := false, record := ({ s.governor with busy := false } : Governor).form } ∧
      (s.save.state = .waitReserve → t.backup = s.backup) ∧
      { t.store with banks := s.store.banks } = s.store ∧ { t.backup with store := s.store } = s.backup ∧
      ∀ slot bank, slot ≠ s.save.opSlot ∨ bank ≠ s.save.target → t.store.bank slot bank = s.store.bank slot bank))

/-- When the last payload byte is copied the target holds the staged payload, its check is kept, and SEALING begins; when the
header write completes the target is the live bank with generation one above the highest, and the commit is answered. In the states a
run can reach (State.Sound) the target then holds the whole staged payload, and the sealed bank is valid. Outside their states
COPY_COMPLETE and SEAL_COMPLETE change nothing (log entry 2). -/
def Obligations.CopyAndSealMakeTheTargetLive : Prop :=
  (∀ s : State, s.corePowered = true → (s.save.state ≠ .copying → exec .copyComplete s = .next s) ∧
    (s.save.state ≠ .sealing → exec .sealComplete s = .next s)) ∧
  (∀ s : State, s.corePowered = true → s.save.state = .copying → s.save.moved ≤ s.save.length →
    (s.store.bank s.save.opSlot s.save.target).wf = true → ∃ t, exec .copyComplete s = .next t ∧
      { t with save := s.save, backup := s.backup } = s ∧
      t.save = { s.save with state := .sealing, moved := s.save.length
                             copyCheck := crc16 ((List.range s.save.length).map s.store.staging.read) } ∧
      { t.backup with store := s.store } = s.backup ∧ { t.store with banks := s.store.banks } = s.store ∧
      (∀ slot bank, slot ≠ s.save.opSlot ∨ bank ≠ s.save.target → t.store.bank slot bank = s.store.bank slot bank) ∧
      ∀ a, (t.store.bank s.save.opSlot s.save.target).read a =
        if s.save.moved ≤ a ∧ a < s.save.length then s.store.staging.read a
        else (s.store.bank s.save.opSlot s.save.target).read a) ∧
  (∀ s : State, s.corePowered = true → s.save.state = .sealing →
    let slot := s.save.opSlot; let target := s.save.target; let e := s.save.entry slot
    let h : Header :=
      { generation := e.highest + 1, length := s.save.length, payloadCheck := s.save.copyCheck
        counter := if s.record.valid = true then some s.record.counter else none
        day := if s.backup.calendar.valid = true then some s.now.day else none
        rewind := s.record.valid && s.record.rewind, weakCell := decide (s.supply.battery = .weak), checkMatches := true }
    ∃ t : State, exec .sealComplete s =
        .next (t.concluded 0x37 s.save.deferredTag .ok (.commit slot.val target (e.highest + 1))) ∧
      { t with save := s.save, governor := s.governor, backup := s.backup } = s ∧
      t.governor = { s.governor with busy := false, record := ({ s.governor with busy := false } : Governor).form } ∧
      { t.save with slotTable := s.save.slotTable } = { s.save with state := .idle } ∧
      (∀ k, k ≠ slot → t.save.entry k = s.save.entry k) ∧
      (let e' := t.save.entry slot
       e'.condition = .valid ∧ e'.liveBank = some target ∧ e'.liveHeader = some h ∧ e'.highest = e.highest + 1 ∧
       e'.standings.get target = .live ∧ (e.liveBank = some target.other → e'.standings.get target.other = .validOlder) ∧
       (e.liveBank = none → e'.standings.get target.other = e.standings.get target.other)) ∧
      { t.backup with store := s.store } = s.backup ∧ { t.store with headers := s.store.headers } = s.store ∧
      t.store.header slot target = h ∧
      ∀ k bank, k ≠ slot ∨ bank ≠ target → t.store.header k bank = s.store.header k bank) ∧
  (∀ s t : State, s.Sound → s.corePowered = true →
    (s.save.state = .copying → exec .copyComplete s = .next t →
      ∀ a, a < s.save.length → (t.store.bank s.save.opSlot s.save.target).read a = s.store.staging.read a) ∧
    (s.save.state = .sealing → exec .sealComplete s = .next t → t.store.valid s.save.opSlot s.save.target = true))

/-- Slot Read returns bytes of the live payload, Slot Info the slot table entry with a header check whose value is left free (log
entry 9) and with the slot number (log entry 35), and Slot Erase invalidates both headers and empties the entry; each is refused in the order of its rule. -/
def Obligations.SlotsAreReadReportedAndErased : Prop :=
  (∀ (s : State) (tag : Byte) (slot offset count : Nat), 4 ≤ slot →
    (s.Serves (.slotRead tag slot offset count) →
      exec (.slotRead tag slot offset count) s = .next (s.replied 0x39 tag .badField .none)) ∧
    (s.Serves (.slotInfo tag slot) → exec (.slotInfo tag slot) s = .next (s.replied 0x3A tag .badField .none)) ∧
    (s.Serves (.slotErase tag slot) → exec (.slotErase tag slot) s = .next (s.replied 0x3C tag .badField .none))) ∧
  (∀ (s : State) (tag : Byte) (slot : Fin 4),
    let e := s.save.entry slot
    (s.Serves (.slotInfo tag slot.val) → ∃ check : Option Word16, exec (.slotInfo tag slot.val) s = .next (s.replied 0x3A tag .ok (.slotInfo slot.val e check))) ∧
    (∀ offset count, s.Serves (.slotRead tag slot.val offset count) →
      let after := exec (.slotRead tag slot.val offset count) s
      let inRange := offset ≤ 3583 ∧ 1 ≤ count ∧ count ≤ 64
      (¬inRange → after = .next (s.replied 0x39 tag .badField .none)) ∧
      (inRange → e.condition = .empty → after = .next (s.replied 0x39 tag .noData .none)) ∧
      (inRange → e.condition = .damaged → after = .next (s.replied 0x39 tag .damaged .none)) ∧
      (∀ bank h, inRange → e.condition = .valid ∨ e.condition = .validFallback → e.liveBank = some bank →
        e.liveHeader = some h → after = .next (s.replied 0x39 tag .ok (.slotRead slot.val offset
          ((List.range (min count (h.length - offset))).map fun i => (s.store.bank slot bank).read (offset + i))
          h.generation)))) ∧
    (s.Serves (.slotErase tag slot.val) → let after := exec (.slotErase tag slot.val) s
     (s.save.state ≠ .idle → after = .next (s.replied 0x3C tag .busy .none)) ∧
     (s.save.state = .idle → s.supply.supply = .critical → after = .next (s.replied 0x3C tag .supplyCritical .none)) ∧
     let erased : SlotEntry := ⟨.empty, none, none, 0, ⟨.neverWritten, .neverWritten⟩⟩
     let cleared : Header := ⟨0, 0, 0, none, none, false, false, false⟩
     (s.save.state = .idle → s.supply.supply ≠ .critical → after = .next (({ s with
       save := { s.save with slotTable := s.save.slotTable.set slot erased }
       backup := { s.backup with store := { s.store with headers := s.store.headers.set slot ⟨cleared, cleared⟩ } } } : State).replied
         0x3C tag .ok .none))))

/-- Slot Verify is refused in the order of R164, and otherwise checks with its reply deferred; at its end the live payload matches,
or the slot falls back to the other bank when that is valid, or is DAMAGED, the other bank's standing then staying what it was (the
model's choice, log entry 31). Backup memory is not written. VERIFY_COMPLETE outside VERIFYING changes nothing (log entry 2). -/
def Obligations.SlotVerifyChecksTheLivePayload : Prop :=
  (∀ (s : State) (tag : Byte) (slot : Nat), s.Serves (.slotVerify tag slot) → 4 ≤ slot →
    exec (.slotVerify tag slot) s = .next (s.replied 0x3B tag .badField .none)) ∧
  (∀ (s : State) (tag : Byte) (slot : Fin 4), s.Serves (.slotVerify tag slot.val) →
    let after := exec (.slotVerify tag slot.val) s
    let e := s.save.entry slot
    (s.save.state ≠ .idle → after = .next (s.replied 0x3B tag .busy .none)) ∧
    (s.save.state = .idle → s.supply.supply = .critical → after = .next (s.replied 0x3B tag .supplyCritical .none)) ∧
    (s.save.state = .idle → s.supply.supply ≠ .critical → e.condition = .empty →
      after = .next (s.replied 0x3B tag .noData .none)) ∧
    (s.save.state = .idle → s.supply.supply ≠ .critical → e.condition = .damaged →
      after = .next (s.replied 0x3B tag .damaged .none)) ∧
    (s.save.state = .idle → s.supply.supply ≠ .critical → e.condition = .valid ∨ e.condition = .validFallback →
      after = .next (({ s with
        save := { s.save with state := .verifying, opSlot := slot, deferredTag := tag }
        governor := { s.governor with busy := true, record := ({ s.governor with busy := true } : Governor).form } } :
          State).deferring 0x3B tag))) ∧
  (∀ s : State, s.corePowered = true → s.save.state ≠ .verifying → exec .verifyComplete s = .next s) ∧
  (∀ (s : State) (live : Bank) (h : Header), s.corePowered = true → s.save.state = .verifying →
    (s.save.entry s.save.opSlot).liveBank = some live → (s.save.entry s.save.opSlot).liveHeader = some h →
    let slot := s.save.opSlot; let e := s.save.entry slot
    let matches' := crc16 ((List.range h.length).map (s.store.bank slot live).read) = h.payloadCheck
    let other := s.store.header slot live.other
    ∃ (t : State) (result : VerifyResult), exec .verifyComplete s = .next (t.concluded 0x3B s.save.deferredTag .ok
        (.slotVerify result (t.save.entry slot).condition ((t.save.entry slot).liveHeader.map Header.generation))) ∧
      { t with save := s.save, governor := s.governor } = s ∧
      t.governor = { s.governor with busy := false, record := ({ s.governor with busy := false } : Governor).form } ∧
      { t.save with state := .verifying, slotTable := s.save.slotTable } = s.save ∧ t.save.state = .idle ∧
      (∀ k, k ≠ slot → t.save.entry k = s.save.entry k) ∧
      (let e' := t.save.entry slot
       e'.highest = e.highest ∧
       (matches' → result = .matched ∧ e' = e) ∧
       (¬matches' → s.store.valid slot live.other = true →
         result = .fellBack ∧ e'.liveBank = some live.other ∧ e'.liveHeader = some other ∧
         e'.standings.get live = .invalid ∧ e'.standings.get live.other = .live ∧
         e'.condition = if other.generation < h.generation then .validFallback else .valid) ∧
       (¬matches' → s.store.valid slot live.other = false →
         result = .damaged ∧ e'.liveBank = none ∧ e'.liveHeader = none ∧ e'.condition = .damaged ∧
         e'.standings.get live = .invalid ∧ e'.standings.get live.other = e.standings.get live.other)))

/-! ## Headline statements -/

/-- A frame that is sent is received whole: stuffing leaves no delimiter inside it, and the deframer gives back its kind, its tag
and its body; byte after byte it does what the frame's row does. Eight clocks exchange one byte each way, most significant bit
first, and while LSEL is high LDO is not driven and the clocks change nothing. The last byte of a frame completes its transmission, and
what starts next is chosen at that boundary; a byte received acts before the byte sent with it (the model's choice, log entry
27). -/
def Obligations.SentFramesAreReceivedWhole : Prop :=
  (∀ (kind tag : Byte) (body : List Byte), body.length ≤ 72 →
    delimiterByte ∉ stuffedFrame kind tag body ∧
    Deframer.between.bytes (wireFrame kind tag body) = (.between, [.goodFrame kind tag body])) ∧
  (∀ (s : State) (kind tag : Byte) (body : List Byte), s.Selected → s.link.deframer = .between → body.length ≤ 72 →
    let after := Host.Outcome.next ((wireFrame kind tag body).foldl State.receiveByte s)
    (1 ≤ kind.toNat → kind.toNat ≤ 0x3E → exec (.requestFrame kind tag body) s = after) ∧
    (kind = 0x3F → exec (.streamBlock tag body) s = after) ∧
    (kind = 0 ∨ 0x40 ≤ kind.toNat → exec (.frameDiscarded .badKind) s = after)) ∧
  (∀ (s : State) (b : Byte), s.AtByteBoundary →
    let sent := s.link.sendingByte
    s.clock ((List.range 8).map b.getMsbD) = ((List.range 8).map fun i => some (sent.getMsbD i),
      (({ s with link := { s.link with shiftIn := 0, ldo := sent.getMsbD 7 } } : State).receiveByte b).sentByte)) ∧
  (∀ (s : State) (bits : List Bool), s.corePowered = false ∨ s.link.lselLow = false →
    s.clock bits = (bits.map fun _ => none, s)) ∧
  (∀ (s : State) (b : Byte) (bs : List Byte), s.link.out = b :: bs → bs ≠ [] → s.sentByte = { s with link := { s.link with
    out := bs, delimiterSent := s.link.delimiterSent || decide (b = 0xF9) } }) ∧
  (∀ (s t : State) (c : TxContent), s.AtByteBoundary → s.link.tx = some ⟨c, true⟩ → s.link.out = [0xF9] →
    s.link.delimiterSent = true → exec .frameTransmitComplete s = .next t → exec .frameStart t = .next s.sentByte) ∧
  (∀ s : State, s.AtByteBoundary → s.link.tx = none → s.link.out = [] →
    exec .frameStart { s with link := { s.link with delimiterSent := true } } = .next s.sentByte)

/-- The state right after reset is what power-up makes of a part that has lost everything (the model's choice, log entry 1), and
it has the invariants. -/
def Obligations.ResetIsTheFirstPowerUpAndIsSound : Prop :=
  exec .powerUp { State.reset with corePowered := false, backup := .lost } = .next State.reset ∧ State.reset.Sound

/-- Every step keeps what the supply-dependent blocks keep: the grant record is the one its inputs give, the mixer's override is
held exactly in CRITICAL, and the motor is driven only while nothing holds it off and never above the latched ceiling. -/
def Obligations.SupplyBlocksStaySound : Prop :=
  ∀ s t : State, s.Sound → step s = .next t → t.GovernorSound ∧ t.MixerSound ∧ t.RumbleSound

/-- Every step keeps every voice record in its ranges, its wave inside wave memory, and every defined cue playable. -/
def Obligations.VoicesAndCuesStaySound : Prop :=
  ∀ s t : State, s.Sound → step s = .next t → t.VoicesSound ∧ t.CuesSound

/-- Every step keeps the pool's 48 slots free or holding a block, and every stream's held blocks in order inside its window. -/
def Obligations.StreamsStaySound : Prop := ∀ s t : State, s.Sound → step s = .next t → t.StreamsSound

/-- Every step keeps the calendar in its range and the law of the game-day record: the counter's rise and the forfeited days are
together the days between the start mark and the high-water mark. -/
def Obligations.CalendarAndGameDaysStaySound : Prop :=
  ∀ s t : State, s.Sound → step s = .next t → t.CalendarSound ∧ t.GameDayLaw

/-- Every step keeps the event table and the EVENTS set in agreement: an entry is FIRED exactly while it is in the set. -/
def Obligations.EventsStaySound : Prop := ∀ s t : State, s.Sound → step s = .next t → t.EventsSound

/-- Every step keeps the save controller's invariants, and while the core runs no command writes the payload of a live bank. -/
def Obligations.LiveBanksAreNeverWritten : Prop :=
  (∀ s t : State, s.Sound → step s = .next t → t.SaveSound) ∧
  (∀ (s t : State) (c : Instr) (slot : Fin 4) (bank : Bank), s.Sound → s.corePowered = true →
    (s.save.entry slot).liveBank = some bank → exec c s = .next t → t.store.bank slot bank = s.store.bank slot bank)

/-- Every step keeps the three memories canonical and within their sizes, and the link's queues within theirs: a deferred reply waits
only while the reply queue is full, and the requests taken up are those that a reply is owed. That a request handed on is taken up or
not yet, and that at most one is not yet, is the model's choice (log entry 3). -/
def Obligations.MemoriesAndQueuesStaySound : Prop :=
  ∀ s t : State, s.Sound → step s = .next t → t.MemoriesSound ∧ t.QueuesSound

end
end

