-- ==== Sys2Proof/Laws/Memory.lean ====
section
/-! SUPPORT. The memory operations: what a read gives after a write, and that every write keeps the canonical form and
stays inside a size. -/

namespace Sys2Proof.Machine.Memory

/-! ## Reading after writing -/

/-- Below its lowest address a memory reads 0. -/
theorem read_of_wfFrom {m : Memory} : ∀ {lo a : Nat}, wfFrom lo m = true → a < lo → read m a = 0 := by
  induction m with
  | nil => intros; rfl
  | cons cell m ih =>
    obtain ⟨k, v⟩ := cell
    intro lo a h lt
    simp only [wfFrom, Bool.and_eq_true, decide_eq_true_eq] at h
    have : k ≠ a := by omega
    simp only [read, if_neg this]
    exact ih h.2 (by omega)

/-- The byte just written is read back. -/
theorem read_write_self {m : Memory} : ∀ {lo : Nat} (a : Nat) (b : Byte), wfFrom lo m = true → read (write m a b) a = b := by
  induction m with
  | nil =>
    intro lo a b _
    by_cases h : b = 0
    · subst h; rfl
    · simp only [write, if_neg h, read, if_true]
  | cons cell m ih =>
    obtain ⟨k, v⟩ := cell
    intro lo a b h
    simp only [wfFrom, Bool.and_eq_true, decide_eq_true_eq] at h
    unfold write
    split
    · next lt =>
      split
      · next hb => subst hb; rw [read, if_neg (by omega)]; exact read_of_wfFrom h.2 (by omega)
      · simp [read]
    · split
      · next heq =>
        subst heq
        split
        · next hb => subst hb; exact read_of_wfFrom h.2 (by omega)
        · simp [read]
      · next h1 h2 => rw [read, if_neg (fun e => h2 e.symm)]; exact ih a b h.2

/-- Every other byte reads as before. -/
theorem read_write_ne {m : Memory} {a c : Nat} (b : Byte) (h : a ≠ c) : read (write m a b) c = read m c := by
  induction m with
  | nil =>
    by_cases hb : b = 0
    · subst hb; rfl
    · simp only [write, if_neg hb, read, if_neg h]
  | cons cell m ih =>
    obtain ⟨k, v⟩ := cell
    unfold write
    split
    · split
      · rfl
      · simp [read, h]
    · split
      · next heq =>
        subst heq
        split <;> simp [read, h]
      · simp only [read]
        split
        · rfl
        · exact ih

/-! ## The canonical form -/

theorem wfFrom_mono {m : Memory} {lo lo' : Nat} (h : wfFrom lo m = true) (le : lo' ≤ lo) : wfFrom lo' m = true := by
  cases m with
  | nil => rfl
  | cons cell m =>
    simp only [wfFrom, Bool.and_eq_true, decide_eq_true_eq] at h ⊢
    exact ⟨⟨by omega, h.1.2⟩, h.2⟩

theorem wfFrom_write {m : Memory} : ∀ {lo a : Nat} (b : Byte), wfFrom lo m = true → lo ≤ a → wfFrom lo (write m a b) = true := by
  induction m with
  | nil =>
    intro lo a b _ le
    by_cases h : b = 0
    · subst h; rfl
    · simp only [write, if_neg h, wfFrom, decide_eq_true le, decide_eq_true h, Bool.and_self]
  | cons cell m ih =>
    obtain ⟨k, v⟩ := cell
    intro lo a b h le
    have h' := h
    simp only [wfFrom, Bool.and_eq_true, decide_eq_true_eq] at h
    unfold write
    split
    · next lt =>
      split
      · exact h'
      · next hb =>
        simp only [wfFrom, Bool.and_eq_true, decide_eq_true_eq]
        exact ⟨⟨le, hb⟩, ⟨⟨by omega, h.1.2⟩, h.2⟩⟩
    · split
      · next heq =>
        split
        · exact wfFrom_mono h.2 (by omega)
        · next hb =>
          simp only [wfFrom, Bool.and_eq_true, decide_eq_true_eq]
          subst heq
          exact ⟨⟨le, hb⟩, h.2⟩
      · simp only [wfFrom, Bool.and_eq_true, decide_eq_true_eq]
        exact ⟨h.1, ih b h.2 (by omega)⟩

/-- A write keeps the canonical form. -/
theorem wf_write {m : Memory} (a : Nat) (b : Byte) (h : wf m = true) : wf (write m a b) = true :=
  wfFrom_write b h (Nat.zero_le a)

/-- A write of several bytes keeps the canonical form. -/
theorem wf_writeBytes (bs : List Byte) : ∀ {m : Memory} (a : Nat), wf m = true → wf (writeBytes m a bs) = true := by
  induction bs with
  | nil => intro m a h; exact h
  | cons b bs ih => intro m a h; exact ih (a + 1) (wf_write a b h)

/-! ## Staying inside a size -/

theorem mem_write {m : Memory} {a : Nat} {b : Byte} {cell : Host.Cell} (h : cell ∈ write m a b) :
    cell ∈ m ∨ cell.1 = a := by
  induction m with
  | nil =>
    unfold write at h
    split at h
    · exact absurd h List.not_mem_nil
    · exact Or.inr (by rw [List.mem_singleton.1 h])
  | cons c m ih =>
    obtain ⟨k, v⟩ := c
    unfold write at h
    split at h
    · split at h
      · exact Or.inl h
      · rcases List.mem_cons.1 h with h | h
        · exact Or.inr (by rw [h])
        · exact Or.inl h
    · split at h
      · split at h
        · exact Or.inl (List.mem_cons_of_mem _ h)
        · rcases List.mem_cons.1 h with h | h
          · exact Or.inr (by rw [h])
          · exact Or.inl (List.mem_cons_of_mem _ h)
      · rcases List.mem_cons.1 h with h | h
        · exact Or.inl (by rw [h]; exact List.mem_cons_self)
        · rcases ih h with h | h
          · exact Or.inl (List.mem_cons_of_mem _ h)
          · exact Or.inr h

/-- Bytes written inside a size leave the memory inside it. -/
theorem within_writeBytes (bs : List Byte) :
    ∀ {m : Memory} {a size : Nat}, Within m size → a + bs.length ≤ size → Within (writeBytes m a bs) size := by
  induction bs with
  | nil => intro m a size h _; exact h
  | cons b bs ih =>
    intro m a size h le
    simp only [List.length_cons] at le
    apply ih ?_ (by omega)
    refine ⟨wf_write a b h.1, fun cell mem => ?_⟩
    rcases mem_write mem with mem | eq
    · exact h.2 cell mem
    · omega

/-! ## Several bytes -/

theorem read_writeBytes_outside (bs : List Byte) :
    ∀ {m : Memory} {a c : Nat}, c < a ∨ a + bs.length ≤ c → read (writeBytes m a bs) c = read m c := by
  induction bs with
  | nil => intros; rfl
  | cons b bs ih =>
    intro m a c h
    simp only [List.length_cons] at h
    rw [writeBytes, ih (by omega), read_write_ne b (by omega)]

/-- Each byte of a write is read back at its address. -/
theorem read_writeBytes_inside (bs : List Byte) :
    ∀ {m : Memory} {a i : Nat} (h : i < bs.length), wf m = true → read (writeBytes m a bs) (a + i) = bs[i] := by
  induction bs with
  | nil => intro m a i h; exact absurd h (Nat.not_lt_zero i)
  | cons b bs ih =>
    intro m a i h hw
    rw [writeBytes]
    cases i with
    | zero => rw [read_writeBytes_outside bs (by omega)]; simpa using read_write_self a b hw
    | succ i =>
      have := ih (m := write m a b) (a := a + 1) (by simpa using h) (wf_write a b hw)
      rw [show a + (i + 1) = a + 1 + i by omega, this]
      rfl

@[simp] theorem length_readBytes (m : Memory) : ∀ (a n : Nat), (readBytes m a n).length = n
  | _, 0 => rfl
  | a, n + 1 => by simp [readBytes, length_readBytes m (a + 1) n]

/-- Reading back what was written gives it. -/
theorem readBytes_writeBytes (bs : List Byte) :
    ∀ {m : Memory} (a : Nat), wf m = true → readBytes (writeBytes m a bs) a bs.length = bs := by
  induction bs with
  | nil => intros; rfl
  | cons b bs ih =>
    intro m a hw
    have first := read_writeBytes_outside (m := write m a b) (a := a + 1) bs (Or.inl (Nat.lt_succ_self a))
    simp only [List.length_cons, readBytes, writeBytes]
    rw [ih (a + 1) (wf_write a b hw), first, read_write_self a b hw]

end Sys2Proof.Machine.Memory
end

