-- ==== Sys2Proof/Laws/State.lean ====
section
/-! SUPPORT. One lemma for each field of the state after each block's setter, so that no proof unfolds a record update. -/

namespace Sys2Proof.Machine.State

variable (s : State)

/-! ## withSupply -/

@[simp] theorem withSupply_corePowered (b : SupplyMonitor) : (s.withSupply b).corePowered = s.corePowered := rfl
@[simp] theorem withSupply_supply (b : SupplyMonitor) : (s.withSupply b).supply = b := rfl
@[simp] theorem withSupply_governor (b : SupplyMonitor) : (s.withSupply b).governor = s.governor := rfl
@[simp] theorem withSupply_voice (b : SupplyMonitor) : (s.withSupply b).voice = s.voice := rfl
@[simp] theorem withSupply_stream (b : SupplyMonitor) : (s.withSupply b).stream = s.stream := rfl
@[simp] theorem withSupply_mixer (b : SupplyMonitor) : (s.withSupply b).mixer = s.mixer := rfl
@[simp] theorem withSupply_rumble (b : SupplyMonitor) : (s.withSupply b).rumble = s.rumble := rfl
@[simp] theorem withSupply_cue (b : SupplyMonitor) : (s.withSupply b).cue = s.cue := rfl
@[simp] theorem withSupply_save (b : SupplyMonitor) : (s.withSupply b).save = s.save := rfl
@[simp] theorem withSupply_link (b : SupplyMonitor) : (s.withSupply b).link = s.link := rfl
@[simp] theorem withSupply_backup (b : SupplyMonitor) : (s.withSupply b).backup = s.backup := rfl
@[simp] theorem withSupply_freeCount (b : SupplyMonitor) : (s.withSupply b).freeCount = s.freeCount := rfl
@[simp] theorem withSupply_pending (b : SupplyMonitor) : (s.withSupply b).pending = s.pending := rfl

/-! ## withGovernor -/

@[simp] theorem withGovernor_corePowered (b : Governor) : (s.withGovernor b).corePowered = s.corePowered := rfl
@[simp] theorem withGovernor_supply (b : Governor) : (s.withGovernor b).supply = s.supply := rfl
@[simp] theorem withGovernor_governor (b : Governor) : (s.withGovernor b).governor = b := rfl
@[simp] theorem withGovernor_voice (b : Governor) : (s.withGovernor b).voice = s.voice := rfl
@[simp] theorem withGovernor_stream (b : Governor) : (s.withGovernor b).stream = s.stream := rfl
@[simp] theorem withGovernor_mixer (b : Governor) : (s.withGovernor b).mixer = s.mixer := rfl
@[simp] theorem withGovernor_rumble (b : Governor) : (s.withGovernor b).rumble = s.rumble := rfl
@[simp] theorem withGovernor_cue (b : Governor) : (s.withGovernor b).cue = s.cue := rfl
@[simp] theorem withGovernor_save (b : Governor) : (s.withGovernor b).save = s.save := rfl
@[simp] theorem withGovernor_link (b : Governor) : (s.withGovernor b).link = s.link := rfl
@[simp] theorem withGovernor_backup (b : Governor) : (s.withGovernor b).backup = s.backup := rfl
@[simp] theorem withGovernor_freeCount (b : Governor) : (s.withGovernor b).freeCount = s.freeCount := rfl
@[simp] theorem withGovernor_pending (b : Governor) : (s.withGovernor b).pending = s.pending := rfl

/-! ## withVoice -/

@[simp] theorem withVoice_corePowered (b : VoiceEngine) : (s.withVoice b).corePowered = s.corePowered := rfl
@[simp] theorem withVoice_supply (b : VoiceEngine) : (s.withVoice b).supply = s.supply := rfl
@[simp] theorem withVoice_governor (b : VoiceEngine) : (s.withVoice b).governor = s.governor := rfl
@[simp] theorem withVoice_voice (b : VoiceEngine) : (s.withVoice b).voice = b := rfl
@[simp] theorem withVoice_stream (b : VoiceEngine) : (s.withVoice b).stream = s.stream := rfl
@[simp] theorem withVoice_mixer (b : VoiceEngine) : (s.withVoice b).mixer = s.mixer := rfl
@[simp] theorem withVoice_rumble (b : VoiceEngine) : (s.withVoice b).rumble = s.rumble := rfl
@[simp] theorem withVoice_cue (b : VoiceEngine) : (s.withVoice b).cue = s.cue := rfl
@[simp] theorem withVoice_save (b : VoiceEngine) : (s.withVoice b).save = s.save := rfl
@[simp] theorem withVoice_link (b : VoiceEngine) : (s.withVoice b).link = s.link := rfl
@[simp] theorem withVoice_backup (b : VoiceEngine) : (s.withVoice b).backup = s.backup := rfl
@[simp] theorem withVoice_freeCount (b : VoiceEngine) : (s.withVoice b).freeCount = s.freeCount := rfl
@[simp] theorem withVoice_pending (b : VoiceEngine) : (s.withVoice b).pending = s.pending := rfl

/-! ## withStream -/

@[simp] theorem withStream_corePowered (b : StreamBuffers) : (s.withStream b).corePowered = s.corePowered := rfl
@[simp] theorem withStream_supply (b : StreamBuffers) : (s.withStream b).supply = s.supply := rfl
@[simp] theorem withStream_governor (b : StreamBuffers) : (s.withStream b).governor = s.governor := rfl
@[simp] theorem withStream_voice (b : StreamBuffers) : (s.withStream b).voice = s.voice := rfl
@[simp] theorem withStream_stream (b : StreamBuffers) : (s.withStream b).stream = b := rfl
@[simp] theorem withStream_mixer (b : StreamBuffers) : (s.withStream b).mixer = s.mixer := rfl
@[simp] theorem withStream_rumble (b : StreamBuffers) : (s.withStream b).rumble = s.rumble := rfl
@[simp] theorem withStream_cue (b : StreamBuffers) : (s.withStream b).cue = s.cue := rfl
@[simp] theorem withStream_save (b : StreamBuffers) : (s.withStream b).save = s.save := rfl
@[simp] theorem withStream_link (b : StreamBuffers) : (s.withStream b).link = s.link := rfl
@[simp] theorem withStream_backup (b : StreamBuffers) : (s.withStream b).backup = s.backup := rfl
@[simp] theorem withStream_freeCount (b : StreamBuffers) : (s.withStream b).freeCount = s.freeCount := rfl
@[simp] theorem withStream_pending (b : StreamBuffers) : (s.withStream b).pending = s.pending := rfl

/-! ## withMixer -/

@[simp] theorem withMixer_corePowered (b : Mixer) : (s.withMixer b).corePowered = s.corePowered := rfl
@[simp] theorem withMixer_supply (b : Mixer) : (s.withMixer b).supply = s.supply := rfl
@[simp] theorem withMixer_governor (b : Mixer) : (s.withMixer b).governor = s.governor := rfl
@[simp] theorem withMixer_voice (b : Mixer) : (s.withMixer b).voice = s.voice := rfl
@[simp] theorem withMixer_stream (b : Mixer) : (s.withMixer b).stream = s.stream := rfl
@[simp] theorem withMixer_mixer (b : Mixer) : (s.withMixer b).mixer = b := rfl
@[simp] theorem withMixer_rumble (b : Mixer) : (s.withMixer b).rumble = s.rumble := rfl
@[simp] theorem withMixer_cue (b : Mixer) : (s.withMixer b).cue = s.cue := rfl
@[simp] theorem withMixer_save (b : Mixer) : (s.withMixer b).save = s.save := rfl
@[simp] theorem withMixer_link (b : Mixer) : (s.withMixer b).link = s.link := rfl
@[simp] theorem withMixer_backup (b : Mixer) : (s.withMixer b).backup = s.backup := rfl
@[simp] theorem withMixer_freeCount (b : Mixer) : (s.withMixer b).freeCount = s.freeCount := rfl
@[simp] theorem withMixer_pending (b : Mixer) : (s.withMixer b).pending = s.pending := rfl

/-! ## withRumble -/

@[simp] theorem withRumble_corePowered (b : Rumble) : (s.withRumble b).corePowered = s.corePowered := rfl
@[simp] theorem withRumble_supply (b : Rumble) : (s.withRumble b).supply = s.supply := rfl
@[simp] theorem withRumble_governor (b : Rumble) : (s.withRumble b).governor = s.governor := rfl
@[simp] theorem withRumble_voice (b : Rumble) : (s.withRumble b).voice = s.voice := rfl
@[simp] theorem withRumble_stream (b : Rumble) : (s.withRumble b).stream = s.stream := rfl
@[simp] theorem withRumble_mixer (b : Rumble) : (s.withRumble b).mixer = s.mixer := rfl
@[simp] theorem withRumble_rumble (b : Rumble) : (s.withRumble b).rumble = b := rfl
@[simp] theorem withRumble_cue (b : Rumble) : (s.withRumble b).cue = s.cue := rfl
@[simp] theorem withRumble_save (b : Rumble) : (s.withRumble b).save = s.save := rfl
@[simp] theorem withRumble_link (b : Rumble) : (s.withRumble b).link = s.link := rfl
@[simp] theorem withRumble_backup (b : Rumble) : (s.withRumble b).backup = s.backup := rfl
@[simp] theorem withRumble_freeCount (b : Rumble) : (s.withRumble b).freeCount = s.freeCount := rfl
@[simp] theorem withRumble_pending (b : Rumble) : (s.withRumble b).pending = s.pending := rfl

/-! ## withCue -/

@[simp] theorem withCue_corePowered (b : CueUnit) : (s.withCue b).corePowered = s.corePowered := rfl
@[simp] theorem withCue_supply (b : CueUnit) : (s.withCue b).supply = s.supply := rfl
@[simp] theorem withCue_governor (b : CueUnit) : (s.withCue b).governor = s.governor := rfl
@[simp] theorem withCue_voice (b : CueUnit) : (s.withCue b).voice = s.voice := rfl
@[simp] theorem withCue_stream (b : CueUnit) : (s.withCue b).stream = s.stream := rfl
@[simp] theorem withCue_mixer (b : CueUnit) : (s.withCue b).mixer = s.mixer := rfl
@[simp] theorem withCue_rumble (b : CueUnit) : (s.withCue b).rumble = s.rumble := rfl
@[simp] theorem withCue_cue (b : CueUnit) : (s.withCue b).cue = b := rfl
@[simp] theorem withCue_save (b : CueUnit) : (s.withCue b).save = s.save := rfl
@[simp] theorem withCue_link (b : CueUnit) : (s.withCue b).link = s.link := rfl
@[simp] theorem withCue_backup (b : CueUnit) : (s.withCue b).backup = s.backup := rfl
@[simp] theorem withCue_freeCount (b : CueUnit) : (s.withCue b).freeCount = s.freeCount := rfl
@[simp] theorem withCue_pending (b : CueUnit) : (s.withCue b).pending = s.pending := rfl

/-! ## withSave -/

@[simp] theorem withSave_corePowered (b : SaveController) : (s.withSave b).corePowered = s.corePowered := rfl
@[simp] theorem withSave_supply (b : SaveController) : (s.withSave b).supply = s.supply := rfl
@[simp] theorem withSave_governor (b : SaveController) : (s.withSave b).governor = s.governor := rfl
@[simp] theorem withSave_voice (b : SaveController) : (s.withSave b).voice = s.voice := rfl
@[simp] theorem withSave_stream (b : SaveController) : (s.withSave b).stream = s.stream := rfl
@[simp] theorem withSave_mixer (b : SaveController) : (s.withSave b).mixer = s.mixer := rfl
@[simp] theorem withSave_rumble (b : SaveController) : (s.withSave b).rumble = s.rumble := rfl
@[simp] theorem withSave_cue (b : SaveController) : (s.withSave b).cue = s.cue := rfl
@[simp] theorem withSave_save (b : SaveController) : (s.withSave b).save = b := rfl
@[simp] theorem withSave_link (b : SaveController) : (s.withSave b).link = s.link := rfl
@[simp] theorem withSave_backup (b : SaveController) : (s.withSave b).backup = s.backup := rfl
@[simp] theorem withSave_freeCount (b : SaveController) : (s.withSave b).freeCount = s.freeCount := rfl
@[simp] theorem withSave_pending (b : SaveController) : (s.withSave b).pending = s.pending := rfl

/-! ## withLink -/

@[simp] theorem withLink_corePowered (b : Link) : (s.withLink b).corePowered = s.corePowered := rfl
@[simp] theorem withLink_supply (b : Link) : (s.withLink b).supply = s.supply := rfl
@[simp] theorem withLink_governor (b : Link) : (s.withLink b).governor = s.governor := rfl
@[simp] theorem withLink_voice (b : Link) : (s.withLink b).voice = s.voice := rfl
@[simp] theorem withLink_stream (b : Link) : (s.withLink b).stream = s.stream := rfl
@[simp] theorem withLink_mixer (b : Link) : (s.withLink b).mixer = s.mixer := rfl
@[simp] theorem withLink_rumble (b : Link) : (s.withLink b).rumble = s.rumble := rfl
@[simp] theorem withLink_cue (b : Link) : (s.withLink b).cue = s.cue := rfl
@[simp] theorem withLink_save (b : Link) : (s.withLink b).save = s.save := rfl
@[simp] theorem withLink_link (b : Link) : (s.withLink b).link = b := rfl
@[simp] theorem withLink_backup (b : Link) : (s.withLink b).backup = s.backup := rfl
@[simp] theorem withLink_freeCount (b : Link) : (s.withLink b).freeCount = s.freeCount := rfl
@[simp] theorem withLink_pending (b : Link) : (s.withLink b).pending = s.pending := rfl

/-! ## withBackup -/

@[simp] theorem withBackup_corePowered (b : Backup) : (s.withBackup b).corePowered = s.corePowered := rfl
@[simp] theorem withBackup_supply (b : Backup) : (s.withBackup b).supply = s.supply := rfl
@[simp] theorem withBackup_governor (b : Backup) : (s.withBackup b).governor = s.governor := rfl
@[simp] theorem withBackup_voice (b : Backup) : (s.withBackup b).voice = s.voice := rfl
@[simp] theorem withBackup_stream (b : Backup) : (s.withBackup b).stream = s.stream := rfl
@[simp] theorem withBackup_mixer (b : Backup) : (s.withBackup b).mixer = s.mixer := rfl
@[simp] theorem withBackup_rumble (b : Backup) : (s.withBackup b).rumble = s.rumble := rfl
@[simp] theorem withBackup_cue (b : Backup) : (s.withBackup b).cue = s.cue := rfl
@[simp] theorem withBackup_save (b : Backup) : (s.withBackup b).save = s.save := rfl
@[simp] theorem withBackup_link (b : Backup) : (s.withBackup b).link = s.link := rfl
@[simp] theorem withBackup_backup (b : Backup) : (s.withBackup b).backup = b := rfl
@[simp] theorem withBackup_freeCount (b : Backup) : (s.withBackup b).freeCount = s.freeCount := rfl
@[simp] theorem withBackup_pending (b : Backup) : (s.withBackup b).pending = s.pending := rfl

/-! ## countFree -/

@[simp] theorem countFree_corePowered : s.countFree.corePowered = s.corePowered := rfl
@[simp] theorem countFree_supply : s.countFree.supply = s.supply := rfl
@[simp] theorem countFree_governor : s.countFree.governor = s.governor := rfl
@[simp] theorem countFree_voice : s.countFree.voice = s.voice := rfl
@[simp] theorem countFree_stream : s.countFree.stream = s.stream := rfl
@[simp] theorem countFree_mixer : s.countFree.mixer = s.mixer := rfl
@[simp] theorem countFree_rumble : s.countFree.rumble = s.rumble := rfl
@[simp] theorem countFree_cue : s.countFree.cue = s.cue := rfl
@[simp] theorem countFree_save : s.countFree.save = s.save := rfl
@[simp] theorem countFree_link : s.countFree.link = s.link := rfl
@[simp] theorem countFree_backup : s.countFree.backup = s.backup := rfl
@[simp] theorem countFree_freeCount : s.countFree.freeCount = s.freeCount + 1 := rfl
@[simp] theorem countFree_pending : s.countFree.pending = s.pending := rfl

/-! ## A block set twice, or set to what it is -/

@[simp] theorem withSupply_twice (b c : SupplyMonitor) : (s.withSupply b).withSupply c = s.withSupply c := rfl
@[simp] theorem withSupply_self : s.withSupply s.supply = s := rfl
@[simp] theorem withGovernor_twice (b c : Governor) : (s.withGovernor b).withGovernor c = s.withGovernor c := rfl
@[simp] theorem withGovernor_self : s.withGovernor s.governor = s := rfl
@[simp] theorem withVoice_twice (b c : VoiceEngine) : (s.withVoice b).withVoice c = s.withVoice c := rfl
@[simp] theorem withVoice_self : s.withVoice s.voice = s := rfl
@[simp] theorem withStream_twice (b c : StreamBuffers) : (s.withStream b).withStream c = s.withStream c := rfl
@[simp] theorem withStream_self : s.withStream s.stream = s := rfl
@[simp] theorem withMixer_twice (b c : Mixer) : (s.withMixer b).withMixer c = s.withMixer c := rfl
@[simp] theorem withMixer_self : s.withMixer s.mixer = s := rfl
@[simp] theorem withRumble_twice (b c : Rumble) : (s.withRumble b).withRumble c = s.withRumble c := rfl
@[simp] theorem withRumble_self : s.withRumble s.rumble = s := rfl
@[simp] theorem withCue_twice (b c : CueUnit) : (s.withCue b).withCue c = s.withCue c := rfl
@[simp] theorem withCue_self : s.withCue s.cue = s := rfl
@[simp] theorem withSave_twice (b c : SaveController) : (s.withSave b).withSave c = s.withSave c := rfl
@[simp] theorem withSave_self : s.withSave s.save = s := rfl
@[simp] theorem withLink_twice (b c : Link) : (s.withLink b).withLink c = s.withLink c := rfl
@[simp] theorem withLink_self : s.withLink s.link = s := rfl
@[simp] theorem withBackup_twice (b c : Backup) : (s.withBackup b).withBackup c = s.withBackup c := rfl
@[simp] theorem withBackup_self : s.withBackup s.backup = s := rfl

end Sys2Proof.Machine.State
end

