-- ==== Sys2Proof/Laws/Shared.lean ====
section
/-! SUPPORT. What each shared operation can do, said once: the rows of the core domain, requests and their replies, notices,
and the operations that set one block, as setters. -/

namespace Sys2Proof.Machine

/-! ## Rows of the core domain -/

theorem onCore_powered {s : State} (h : s.corePowered = true) (effect : State → State) : onCore s effect = .next (effect s) := by
  simp [onCore, h]

theorem onCore_unpowered {s : State} (h : s.corePowered = false) (effect : State → State) : onCore s effect = .next s := by
  simp [onCore, h]

/-- Everything a row of the core domain can do. -/
theorem onCore_cases {s t : State} {effect : State → State} (h : onCore s effect = .next t) :
    (s.corePowered = true ∧ t = effect s) ∨ (s.corePowered = false ∧ t = s) := by
  cases hp : s.corePowered
  · rw [onCore_unpowered hp] at h; injection h with h; exact Or.inr ⟨rfl, h.symm⟩
  · rw [onCore_powered hp] at h; injection h with h; exact Or.inl ⟨rfl, h.symm⟩

/-- A row of the core domain always answers a next state. -/
theorem onCore_next (s : State) (effect : State → State) : ∃ t, onCore s effect = .next t := ⟨_, rfl⟩

/-! ## Replies -/

theorem Link.deliver_of_place {l : Link} (h : l.replies.length < 4) (r : Reply) : l.deliver r = l.join .deferred r := by
  simp [Link.deliver, h]

theorem Link.deliver_of_full {l : Link} (h : 4 ≤ l.replies.length) (r : Reply) :
    l.deliver r = { l with waiting := l.waiting ++ [r] } := by
  simp [Link.deliver, Nat.not_lt.2 h]

/-- The end of an operation, as the statements speak of it. -/
theorem State.answer_eq_concluded (s : State) (kind tag : Byte) (status : Status) (body : ReplyBody) :
    s.answer kind tag status body = s.concluded kind tag status body := rfl

/-- The answer to a handed request, as the statements speak of it. -/
theorem State.reply_eq_replied (s : State) (kind tag : Byte) (status : Status) (body : ReplyBody) :
    s.reply kind tag status body = s.replied kind tag status body := rfl

/-- A reply changes nothing but the link. -/
theorem State.answer_eq (s : State) (kind tag : Byte) (status : Status) (body : ReplyBody) :
    s.answer kind tag status body = s.withLink (s.link.deliver ⟨kind + 0x80, tag, status, body⟩) := rfl

/-! ## Requests -/

theorem takeRequest_ready {s : State} (h : s.link.readiness = .ready) (kind tag : Byte) (owner : State → Taken) :
    takeRequest owner kind tag s = (owner s).finish kind tag := by
  simp [takeRequest, h]

theorem takeRequest_notReady {s : State} (h : s.link.readiness = .notReady) (kind tag : Byte) (owner : State → Taken) :
    takeRequest owner kind tag s = s.replied kind tag .notReady .none := by
  simp [takeRequest, h, State.reply_eq_replied]

theorem finish_refuse (s : State) (status : Status) (kind tag : Byte) :
    (refuse s status).finish kind tag = s.replied kind tag status .none := rfl

theorem finish_accept (s : State) (body : ReplyBody) (kind tag : Byte) :
    (accept s body).finish kind tag = s.replied kind tag .ok body := rfl

theorem finish_defer (s : State) (kind tag : Byte) : (defer s).finish kind tag = s.deferring kind tag := rfl

/-- A request's row that its link admits. -/
theorem onRequest_admitted {s : State} {c : Instr} {kind tag : Byte} (hc : requestOf c = some (kind, tag))
    (hp : s.corePowered = true) (ha : s.link.admits c = true) (effect : Byte → Byte → State → State) :
    onRequest c effect s = .next (effect kind tag s) := by
  rw [onRequest, onCore_powered hp, hc]
  simp [ha]

/-- A request's row that its link does not admit changes nothing. -/
theorem onRequest_not_admitted {s : State} {c : Instr} (ha : s.link.admits c = false)
    (effect : Byte → Byte → State → State) : onRequest c effect s = .next s := by
  cases hp : s.corePowered
  · rw [onRequest, onCore_unpowered hp]
  · rw [onRequest, onCore_powered hp]
    cases requestOf c <;> simp [ha]

/-- With 4 replies queued no request is admitted. -/
theorem Link.admits_of_full {l : Link} (h : 4 ≤ l.replies.length) (c : Instr) : l.admits c = false := by
  simp [Link.admits, Nat.not_lt.2 h]

/-- An admitted request finds a place for its reply. -/
theorem Link.place_of_admits {l : Link} {c : Instr} (h : l.admits c = true) : l.replies.length < 4 := by
  simp only [Link.admits, Bool.and_eq_true, decide_eq_true_eq] at h
  exact h.1

/-- A request that is served: what its owner makes of it. -/
theorem serve_of_serves {s : State} {c : Instr} {kind tag : Byte} (hc : requestOf c = some (kind, tag)) (h : s.Serves c)
    (owner : State → Taken) : serve c owner s = .next ((owner s).finish kind tag) := by
  rw [serve, onRequest_admitted hc h.1 h.2.2, takeRequest_ready h.2.1]

/-- A request that its owner refuses. -/
theorem serve_refused {s : State} {c : Instr} {kind tag : Byte} (hc : requestOf c = some (kind, tag)) (h : s.Serves c)
    {owner : State → Taken} {status : Status} (ho : owner s = refuse s status) :
    serve c owner s = .next (s.replied kind tag status .none) := by
  rw [serve_of_serves hc h, ho, finish_refuse]

/-- A request that its owner takes and answers at once. -/
theorem serve_accepted {s t : State} {c : Instr} {kind tag : Byte} (hc : requestOf c = some (kind, tag)) (h : s.Serves c)
    {owner : State → Taken} {body : ReplyBody} (ho : owner s = accept t body) :
    serve c owner s = .next (t.replied kind tag .ok body) := by
  rw [serve_of_serves hc h, ho, finish_accept]

/-- A request whose reply its owner defers. -/
theorem serve_deferred {s t : State} {c : Instr} {kind tag : Byte} (hc : requestOf c = some (kind, tag)) (h : s.Serves c)
    {owner : State → Taken} (ho : owner s = defer t) : serve c owner s = .next (t.deferring kind tag) := by
  rw [serve_of_serves hc h, ho, finish_defer]

/-- Everything a request's row can do. -/
theorem serve_cases {s t : State} {c : Instr} {kind tag : Byte} {owner : State → Taken}
    (hc : requestOf c = some (kind, tag)) (h : serve c owner s = .next t) :
    t = s ∨
    (s.corePowered = true ∧ s.link.admits c = true ∧ s.link.readiness = .notReady ∧ t = s.replied kind tag .notReady .none) ∨
    (s.Serves c ∧ t = (owner s).finish kind tag) := by
  cases ha : s.link.admits c
  · rw [serve, onRequest_not_admitted ha] at h
    injection h with h
    exact Or.inl h.symm
  · cases hp : s.corePowered
    · rw [serve, onRequest, onCore_unpowered hp] at h
      injection h with h
      exact Or.inl h.symm
    · rw [serve, onRequest_admitted hc hp ha] at h
      injection h with h
      cases hr : s.link.readiness
      · exact Or.inr (Or.inl ⟨rfl, rfl, rfl, by rw [← h, takeRequest_notReady hr]⟩)
      · exact Or.inr (Or.inr ⟨⟨hp, hr, ha⟩, by rw [← h, takeRequest_ready hr]⟩)

/-! ## Notices -/

theorem Link.pend_enabled {l : Link} {k : NoticeKind} (h : maskEnables l.mask k = true) (put : NoticeSet → NoticeSet) :
    l.pend k put = { l with notices := put l.notices, tx := markRewritten k l.tx } := by
  simp [Link.pend, h]

theorem Link.pend_disabled {l : Link} {k : NoticeKind} (h : maskEnables l.mask k = false) (put : NoticeSet → NoticeSet) :
    l.pend k put = l := by
  simp [Link.pend, h]

/-- Making a notice pending changes nothing of the link but the pending set and the mark on the frame in transmission. -/
theorem Link.pend_frame (l : Link) (k : NoticeKind) (put : NoticeSet → NoticeSet) :
    ∃ notices tx, l.pend k put = { l with notices := notices, tx := tx } := by
  cases h : maskEnables l.mask k
  · exact ⟨l.notices, l.tx, by rw [Link.pend_disabled h]⟩
  · exact ⟨_, _, Link.pend_enabled h put⟩

@[simp] theorem Link.pend_replies (l : Link) (k : NoticeKind) (put : NoticeSet → NoticeSet) :
    (l.pend k put).replies = l.replies := by
  obtain ⟨_, _, h⟩ := l.pend_frame k put; rw [h]

@[simp] theorem Link.pend_inbound (l : Link) (k : NoticeKind) (put : NoticeSet → NoticeSet) :
    (l.pend k put).inbound = l.inbound := by
  obtain ⟨_, _, h⟩ := l.pend_frame k put; rw [h]

@[simp] theorem Link.pend_waiting (l : Link) (k : NoticeKind) (put : NoticeSet → NoticeSet) :
    (l.pend k put).waiting = l.waiting := by
  obtain ⟨_, _, h⟩ := l.pend_frame k put; rw [h]

@[simp] theorem Link.pend_mask (l : Link) (k : NoticeKind) (put : NoticeSet → NoticeSet) :
    (l.pend k put).mask = l.mask := by
  obtain ⟨_, _, h⟩ := l.pend_frame k put; rw [h]

@[simp] theorem Link.pend_counters (l : Link) (k : NoticeKind) (put : NoticeSet → NoticeSet) :
    (l.pend k put).counters = l.counters := by
  obtain ⟨_, _, h⟩ := l.pend_frame k put; rw [h]

@[simp] theorem Link.pend_readiness (l : Link) (k : NoticeKind) (put : NoticeSet → NoticeSet) :
    (l.pend k put).readiness = l.readiness := by
  obtain ⟨_, _, h⟩ := l.pend_frame k put; rw [h]; rfl

@[simp] theorem Link.count_counters (l : Link) (rise : LinkCounters → LinkCounters) :
    (l.count rise).counters = rise l.counters := by
  simp [Link.count]

@[simp] theorem Link.count_inbound (l : Link) (rise : LinkCounters → LinkCounters) : (l.count rise).inbound = l.inbound := by
  simp [Link.count]

@[simp] theorem Link.count_replies (l : Link) (rise : LinkCounters → LinkCounters) : (l.count rise).replies = l.replies := by
  simp [Link.count]

/-! ## Operations that set one block, as setters -/

theorem State.pend_eq (s : State) (k : NoticeKind) (put : NoticeSet → NoticeSet) :
    s.pend k put = s.withLink (s.link.pend k put) := rfl
theorem State.writePending_eq (s : State) (v : Fin 8) (write : PendingVoice → PendingVoice) :
    s.writePending v write = s.withVoice { s.voice with pendings := s.voice.pendings.modify v write } := rfl
theorem State.reportSupply_eq (s : State) (supply : SupplyState) :
    s.reportSupply supply = s.withGovernor (s.governor.takeSupply supply) := rfl
theorem State.reportVolume_eq (s : State) (volume : Nat) :
    s.reportVolume volume = s.withGovernor (s.governor.takeVolume volume) := rfl
theorem State.reportBusy_eq (s : State) (busy : Bool) : s.reportBusy busy = s.withGovernor (s.governor.takeBusy busy) := rfl
theorem State.setEvent_eq (s : State) (e : Fin 16) (x : EventEntry) :
    s.setEvent e x = s.withBackup { s.backup with events := s.backup.events.set e x } := rfl
theorem State.writeRecord_eq (s : State) (r : GameDayRecord) :
    s.writeRecord r = s.withBackup { s.backup with record := { r with checkMatches := true } } := rfl
theorem State.withStore_eq (s : State) (st : SaveStore) : s.withStore st = s.withBackup { s.backup with store := st } := rfl
theorem State.setCountdown_eq (s : State) (v : Fin 8) (c : Option Countdown) :
    s.setCountdown v c = s.withCue { s.cue with countdowns := s.cue.countdowns.set v c } := rfl
theorem State.leaveIdle_eq (s : State) (c : SaveController) :
    s.leaveIdle c = (s.withSave c).withGovernor (s.governor.takeBusy true) := rfl
theorem State.returnIdle_eq (s : State) :
    s.returnIdle = (s.withSave { s.save with state := .idle }).withGovernor (s.governor.takeBusy false) := rfl

theorem State.replied_eq (s : State) (kind tag : Byte) (status : Status) (body : ReplyBody) :
    s.replied kind tag status body = s.withLink (s.link.join .handed ⟨kind + 0x80, tag, status, body⟩) := rfl
theorem State.deferring_eq (s : State) (kind tag : Byte) :
    s.deferring kind tag = s.withLink { s.link with inbound := markDeferred kind tag s.link.inbound } := rfl
theorem State.concluded_eq (s : State) (kind tag : Byte) (status : Status) (body : ReplyBody) :
    s.concluded kind tag status body = s.withLink (s.link.deliver ⟨kind + 0x80, tag, status, body⟩) := rfl

/-! ## Work done for each of several things -/

/-- What one piece of work keeps, all of it keeps. -/
theorem foldl_keeps {α : Type} {P : State → Prop} {f : State → α → State} (h : ∀ s a, P s → P (f s a)) :
    ∀ (l : List α) {s : State}, P s → P (l.foldl f s)
  | [], _, hs => hs
  | a :: l, s, hs => foldl_keeps h l (h s a hs)

/-- A part of the state that one piece of work leaves as it is, all of it leaves as it is. -/
theorem foldl_frame {α β : Type} {part : State → β} {f : State → α → State} (h : ∀ s a, part (f s a) = part s) :
    ∀ (l : List α) (s : State), part (l.foldl f s) = part s
  | [], _ => rfl
  | a :: l, s => by rw [List.foldl_cons, foldl_frame h l (f s a), h]

/-! ## What the operations leave as it is -/

/-- Copying changes the controller and backup memory alone. -/
theorem State.copyUpTo_frame (s : State) (upTo : Nat) : ∃ save backup, s.copyUpTo upTo = { s with save := save, backup := backup } := by
  unfold State.copyUpTo
  dsimp only
  split
  · split
    · exact ⟨_, _, rfl⟩
    · exact ⟨_, _, rfl⟩
  · exact ⟨_, _, rfl⟩
  · exact ⟨_, _, rfl⟩

theorem State.copySoFar_frame (s : State) :
    ∃ save backup freeCount, s.copySoFar = { s with save := save, backup := backup, freeCount := freeCount } := by
  unfold State.copySoFar
  split
  · obtain ⟨_, _, h⟩ := s.copyUpTo_frame (copyAdvance s.save.moved s.save.length (Config.copyProgress s.freeCount))
    rw [h]; exact ⟨_, _, _, rfl⟩
  · obtain ⟨_, _, h⟩ := s.copyUpTo_frame (copyAdvance s.save.moved s.save.length (Config.copyProgress s.freeCount))
    rw [h]; exact ⟨_, _, _, rfl⟩
  · exact ⟨_, _, _, rfl⟩

/-- Abandoning the operation in flight changes the controller, the governor, the link and backup memory alone. -/
theorem State.abandonForCritical_frame (s : State) : ∃ governor save link backup freeCount, s.abandonForCritical =
    { s with governor := governor, save := save, link := link, backup := backup, freeCount := freeCount } := by
  obtain ⟨_, _, _, h⟩ := s.copySoFar_frame
  unfold State.abandonForCritical State.stopForAbandon
  rw [h]
  dsimp only
  split <;> exact ⟨_, _, _, _, _, rfl⟩

/-- The mixer's period mark changes the mixer and the governor alone. -/
theorem State.mixerMark_frame (s : State) :
    ∃ governor mixer, s.mixerMark = { s with governor := governor, mixer := mixer } := by
  unfold State.mixerMark
  dsimp only
  split <;> exact ⟨_, _, rfl⟩

/-- The rumble driver's period mark changes the driver, the controller, the link and backup memory alone. -/
theorem State.rumbleMark_frame (s : State) : ∃ rumble save link backup,
    s.rumbleMark = { s with rumble := rumble, save := save, link := link, backup := backup } := by
  have hd : ∀ s : State, ∃ rumble link, s.drainRumble = { s with rumble := rumble, link := link } := by
    intro s
    unfold State.drainRumble
    split
    · dsimp only
      split <;> exact ⟨_, _, rfl⟩
    · exact ⟨_, _, rfl⟩
  have ha : ∀ (s : State) (r : Bool), ∃ save backup, s.acknowledgeReserve r = { s with save := save, backup := backup } := by
    intro s r
    unfold State.acknowledgeReserve
    split <;> exact ⟨_, _, rfl⟩
  unfold State.rumbleMark
  dsimp only
  obtain ⟨_, _, h1⟩ := hd (s.withRumble ((s.rumble.latch s.governor.record).advance).drive)
  rw [h1]
  obtain ⟨_, _, h2⟩ := ha _ _
  rw [h2]
  exact ⟨_, _, _, _, rfl⟩

/-- One turn of a supply-state change touches none of the monitor, the voices, the streams, the cues and the queue. -/
theorem takeTurn_frame (supply : SupplyState) (s : State) (turn : SupplyTurn) :
    ∃ governor mixer rumble save link backup freeCount, takeTurn supply s turn =
      { s with governor := governor, mixer := mixer, rumble := rumble, save := save, link := link, backup := backup
               freeCount := freeCount } := by
  cases turn <;> simp only [takeTurn]
  · exact ⟨_, _, _, _, _, _, _, rfl⟩
  · exact ⟨_, _, _, _, _, _, _, rfl⟩
  · exact ⟨_, _, _, _, _, _, _, rfl⟩
  · split
    · obtain ⟨_, _, _, _, _, h⟩ := s.abandonForCritical_frame
      rw [h]; exact ⟨_, _, _, _, _, _, _, rfl⟩
    · exact ⟨_, _, _, _, _, _, _, rfl⟩
  · obtain ⟨_, _, h⟩ := s.mixerMark_frame
    rw [h]; exact ⟨_, _, _, _, _, _, _, rfl⟩
  · obtain ⟨_, _, _, _, h⟩ := s.rumbleMark_frame
    rw [h]; exact ⟨_, _, _, _, _, _, _, rfl⟩

/-- A change of the supply state touches none of them, whatever the turns. -/
theorem State.supplyChanged_frame (s : State) (supply : SupplyState) (turns : List SupplyTurn) :
    let t := s.supplyChanged supply turns
    t.corePowered = s.corePowered ∧ t.supply = s.supply ∧ t.voice = s.voice ∧ t.stream = s.stream ∧ t.cue = s.cue ∧
    t.pending = s.pending := by
  have h : ∀ (l : List SupplyTurn) (s : State), (l.foldl (takeTurn supply) s).corePowered = s.corePowered ∧
      (l.foldl (takeTurn supply) s).supply = s.supply ∧ (l.foldl (takeTurn supply) s).voice = s.voice ∧
      (l.foldl (takeTurn supply) s).stream = s.stream ∧ (l.foldl (takeTurn supply) s).cue = s.cue ∧
      (l.foldl (takeTurn supply) s).pending = s.pending := by
    intro l
    induction l with
    | nil => exact fun _ => ⟨rfl, rfl, rfl, rfl, rfl, rfl⟩
    | cons a l ih =>
      intro s
      obtain ⟨_, _, _, _, _, _, _, ha⟩ := takeTurn_frame supply s a
      rw [List.foldl_cons, ha]
      exact ih _
  exact h _ _

end Sys2Proof.Machine
end

