-- ==== Sys2Proof/Laws/Starts.lean ====
section
/-! SUPPORT. What a start of a cue and a firing of an entry can do (R134, R135, R142, R145 to R147), said once: the parts of the
state that each touches, and the outcome that a start comes to. -/

namespace Sys2Proof.Machine

/-- The sound part of a start is absent, skipped or written, and touches the pending records and the countdowns alone (R145,
R146). -/
theorem State.actSound_acted (s : State) (c : Fin 8) (steal : Bool) (part : Option SoundPart) :
    ∃ pendings countdowns sound, s.actSound c steal part =
      ({ s with voice := { s.voice with pendings := pendings }, cue := { s.cue with countdowns := countdowns } }, sound) ∧
    (part = none → sound = .absent ∧ pendings = s.voice.pendings ∧ countdowns = s.cue.countdowns) ∧
    ∀ p, part = some p →
      let streaming := (s.voice.voices.get p.voice).mode = .stream ∨ (s.voice.pendings.get p.voice).mode = some .stream
      (streaming → steal = false → sound = .skipped ∧ pendings = s.voice.pendings ∧ countdowns = s.cue.countdowns) ∧
      (¬streaming ∨ steal = true → sound = .played ∧ pendings = s.voice.pendings.modify p.voice p.writeInto ∧
        countdowns = s.cue.countdowns.set p.voice (p.keyOffAfter.map fun n => ⟨n, c, false⟩)) := by
  cases part with
  | none => exact ⟨_, _, _, rfl, fun _ => ⟨rfl, rfl, rfl⟩, fun _ h => by cases h⟩
  | some p =>
    by_cases h : s.streaming p.voice ∧ steal = false
    · refine ⟨s.voice.pendings, s.cue.countdowns, .skipped, by simp [State.actSound, h], fun h => (by cases h), ?_⟩
      rintro _ ⟨⟩
      refine ⟨fun _ _ => ⟨rfl, rfl, rfl⟩, fun hn => ?_⟩
      have := h.1
      simp only [State.streaming, Bool.or_eq_true, decide_eq_true_eq] at this
      rcases hn with hn | hn
      · exact absurd this hn
      · simp [h.2] at hn
    · refine ⟨_, _, .played, by simp only [State.actSound, if_neg h]; rfl, fun h => (by cases h), ?_⟩
      rintro _ ⟨⟩
      refine ⟨fun hs hf => absurd ⟨?_, hf⟩ h, fun _ => ⟨rfl, rfl, rfl⟩⟩
      simpa only [State.streaming, Bool.or_eq_true, decide_eq_true_eq] using hs

/-- The rumble part of a start is absent, loaded or refused, and touches the driver alone (R95, R147). -/
theorem State.actRumble_acted (s : State) (part : Option RumblePart) :
    ∃ r rumble, s.actRumble part = ({ s with rumble := r }, rumble) ∧
    (part = none → rumble = .absent ∧ r = s.rumble) ∧
    ∀ p, part = some p →
      (s.rumble.state = .fault → rumble = .faulted ∧ r = s.rumble) ∧
      (s.rumble.state ≠ .fault → s.rumble.calibrating = true → rumble = .busy ∧ r = s.rumble) ∧
      (∀ h, s.rumble.state ≠ .fault → s.rumble.calibrating = false → s.rumble.queue ≠ [] → s.rumble.priority = some h →
        p.priority < h → rumble = .outranked ∧ r = s.rumble) ∧
      (s.rumble.state ≠ .fault → s.rumble.calibrating = false →
        s.rumble.queue = [] ∨ (∃ h, s.rumble.priority = some h ∧ h ≤ p.priority) →
        rumble = .played ∧ r = s.rumble.load p.priority p.steps) := by
  cases part with
  | none => exact ⟨_, _, rfl, fun _ => ⟨rfl, rfl⟩, fun _ h => by cases h⟩
  | some p =>
    simp only [State.actRumble, Rumble.submit]
    by_cases hf : s.rumble.state = .fault
    · rw [if_pos hf]
      refine ⟨s.rumble, _, rfl, fun h => (by cases h), ?_⟩
      rintro _ ⟨⟩
      simp [hf, rumbleRefusal]
    rw [if_neg hf]
    by_cases hc : s.rumble.calibrating = true
    · rw [if_pos hc]
      refine ⟨s.rumble, _, rfl, fun h => (by cases h), ?_⟩
      rintro _ ⟨⟩
      simp [hf, hc, rumbleRefusal]
    rw [if_neg hc]
    by_cases hq : s.rumble.queue = []
    · rw [if_pos (by simp [hq])]
      refine ⟨_, _, rfl, fun h => (by cases h), ?_⟩
      rintro _ ⟨⟩
      simp [hf, hc, hq]
    rw [if_neg (by simp [hq])]
    by_cases hp : p.priority < s.rumble.priority.getD 0
    · rw [if_pos hp]
      refine ⟨s.rumble, _, rfl, fun h => (by cases h), ?_⟩
      rintro _ ⟨⟩
      refine ⟨fun h => absurd h hf, fun _ h => absurd h hc, fun _ _ _ _ _ _ => ⟨rfl, rfl⟩, ?_⟩
      rintro _ _ (h | ⟨h, h1, h2⟩)
      · exact absurd h hq
      · rw [h1] at hp; exact absurd hp (Nat.not_lt.2 h2)
    · rw [if_neg hp]
      refine ⟨_, _, rfl, fun h => (by cases h), ?_⟩
      rintro _ ⟨⟩
      refine ⟨fun h => absurd h hf, fun _ h => absurd h hc, ?_, fun _ _ _ => ⟨rfl, rfl⟩⟩
      intro h _ _ _ h1 h2
      rw [h1] at hp; exact absurd h2 hp

/-- A start acts on the voice engine, the driver and the cue unit alone, with its outcomes (R145 to R147). -/
theorem State.actParts_acted (s : State) (c : Fin 8) {d : CueDefinition} (hd : s.cue.table.get c = some d) :
    ∃ voice rumble cue soundOutcome rumbleOutcome,
      s.actParts c = ({ s with voice := voice, rumble := rumble, cue := cue }, soundOutcome, rumbleOutcome) ∧
      s.StartActed { s with voice := voice, rumble := rumble, cue := cue } c d soundOutcome rumbleOutcome := by
  obtain ⟨pendings, countdowns, sound, hs, absent, present⟩ := s.actSound_acted c d.steal d.sound
  obtain ⟨r, rumble, hr, rAbsent, rPresent⟩ := State.actRumble_acted { s with
    voice := { s.voice with pendings := pendings }, cue := { s.cue with countdowns := countdowns } } d.rumble
  have both {a t : State} {x : SoundOutcome} {y : RumbleOutcome} (h : s.actSound c d.steal d.sound = (a, x))
      (h' : a.actRumble d.rumble = (t, y)) : s.actParts c = (t, x, y) := by
    simp only [State.actParts, hd, h, h']
  refine ⟨_, _, _, sound, rumble, both hs hr, rfl, rfl, ?_, ?_, rAbsent, rPresent⟩
  · intro h
    obtain ⟨h1, h2, h3⟩ := absent h
    exact ⟨h1, by rw [h2], by rw [h3]⟩
  · intro p hp
    obtain ⟨h1, h2⟩ := present p hp
    refine ⟨fun a b => ?_, fun a => ?_⟩
    · obtain ⟨x, y, z⟩ := h1 a b
      exact ⟨x, by rw [y], by rw [z]⟩
    · obtain ⟨x, y, z⟩ := h2 a
      exact ⟨x, y, z⟩

/-- CUE made pending: the notice where it is enabled, and nothing beside the pending set and the frame in transmission. -/
theorem State.pendCue_noticed (s : State) (n : CueNotice) :
    ∃ notices tx, s.pendCue n = { s with link := { s.link with notices := notices, tx := tx } } ∧
      { notices with cue := s.link.notices.cue } = s.link.notices ∧
      notices.cue = if maskEnables s.link.mask .cue = true then some n else s.link.notices.cue := by
  unfold State.pendCue State.pend Link.pend
  by_cases h : maskEnables s.link.mask .cue = true
  · rw [if_pos h]; exact ⟨_, _, rfl, rfl, by rw [if_pos h]⟩
  · rw [if_neg h]; exact ⟨s.link.notices, s.link.tx, rfl, rfl, by rw [if_neg h]⟩

/-- An event start touches the voice engine, the driver, the cue unit, the pending set and the frame in transmission alone, and
comes to one of the four outcomes (R142). -/
theorem State.eventStart_started (s : State) (e : Fin 16) (cue : Nat) (quantize : Bool) :
    (∃ voice rumble cues notices tx, s.eventStart cue e.val quantize =
        { s with voice := voice, rumble := rumble, cue := cues, link := { s.link with notices := notices, tx := tx } } ∧
      { notices with cue := s.link.notices.cue } = s.link.notices) ∧
    s.EventStarted (s.eventStart cue e.val quantize) e cue quantize := by
  have noticed (s' : State) (n : CueNotice) : (∃ notices tx, s'.pendCue n = { s' with link := { s'.link with notices := notices, tx := tx } } ∧
      { notices with cue := s'.link.notices.cue } = s'.link.notices) ∧ s'.CueNoticed (s'.pendCue n) n := by
    obtain ⟨_, _, h, h1, h2⟩ := s'.pendCue_noticed n
    rw [h]; exact ⟨⟨_, _, rfl, h1⟩, rfl, h2⟩
  have defined {c c' : Fin 8} {d : CueDefinition} (h : c.val = cue) (hc : c'.val = cue) (ht : s.cue.table.get c = some d) :
      s.cue.table.get c' = some d := (Fin.ext (hc.trans h.symm) : c' = c) ▸ ht
  have undefined (h : 8 ≤ cue ∨ ∃ c : Fin 8, c.val = cue ∧ s.cue.table.get c = none) :
      s.eventStart cue e.val quantize = s.pendCue ⟨.noCue, cue, e.val⟩ := by
    unfold State.eventStart number?
    rcases h with h | ⟨c, rfl, hc⟩
    · simp [Nat.not_lt.2 h]
    · simp [hc]
  by_cases hu : 8 ≤ cue ∨ ∃ c : Fin 8, c.val = cue ∧ s.cue.table.get c = none
  · obtain ⟨⟨_, _, h, h1⟩, hn⟩ := noticed s ⟨.noCue, cue, e.val⟩
    rw [undefined hu]
    refine ⟨⟨_, _, _, _, _, h, h1⟩, fun _ => ⟨by rw [h], by rw [h], by rw [h], hn⟩, ?_⟩
    intro c d hc ht
    rcases hu with hu | ⟨c', hc', ht'⟩
    · exact absurd c.isLt (Nat.not_lt.2 (hc ▸ hu))
    · rw [defined hc hc' ht] at ht'; cases ht'
  · have hlt : cue < 8 := by
      by_contra h
      exact hu (.inl (Nat.not_lt.1 h))
    obtain ⟨c, rfl⟩ : ∃ c : Fin 8, c.val = cue := ⟨⟨cue, hlt⟩, rfl⟩
    cases ht : s.cue.table.get c with
    | none => exact absurd (.inr ⟨c, rfl, ht⟩) hu
    | some d =>
      have start : s.eventStart c.val e.val quantize =
          if quantize = true then
            if s.cue.starts.length < 4 then s.withCue { s.cue with starts := s.cue.starts ++ [⟨c, .event e.val⟩] }
            else s.pendCue ⟨.dropped, c.val, e.val⟩
          else actPending s ⟨c, .event e.val⟩ := by
        simp [State.eventStart, number?, ht]
      have same (c' : Fin 8) (d' : CueDefinition) (hc : c'.val = c.val) (ht' : s.cue.table.get c' = some d') : c' = c ∧ d' = d := by
        have := Fin.ext hc
        subst this
        exact ⟨rfl, by rw [ht] at ht'; cases ht'; rfl⟩
      rw [start]
      cases quantize with
      | true =>
        rw [if_pos rfl]
        by_cases hl : s.cue.starts.length < 4
        · rw [if_pos hl]
          refine ⟨⟨_, _, _, _, _, rfl, rfl⟩, fun h => absurd h hu, ?_⟩
          intro c' d' hc ht'
          obtain ⟨rfl, rfl⟩ := same c' d' hc ht'
          exact ⟨fun _ _ => ⟨⟨rfl, rfl, rfl, rfl, rfl⟩, rfl⟩, fun _ h => absurd hl (Nat.not_lt.2 h), fun h => by cases h⟩
        · rw [if_neg hl]
          obtain ⟨⟨_, _, h, h1⟩, hn⟩ := noticed s ⟨.dropped, c.val, e.val⟩
          refine ⟨⟨_, _, _, _, _, h, h1⟩, fun h => absurd h hu, ?_⟩
          intro c' d' hc ht'
          exact ⟨fun _ h' => absurd h' hl, fun _ _ => ⟨by rw [h], by rw [h], by rw [h], hn⟩, fun h => by cases h⟩
      | false =>
        rw [if_neg (by simp)]
        obtain ⟨voice, rumble, cues, sound, rumbleOutcome, ha, hs⟩ := s.actParts_acted c ht
        obtain ⟨⟨_, _, h, h1⟩, hn⟩ := noticed { s with voice := voice, rumble := rumble, cue := cues }
          ⟨.acted sound rumbleOutcome, c.val, e.val⟩
        have hp : actPending s ⟨c, .event e.val⟩ =
            ({ s with voice := voice, rumble := rumble, cue := cues } : State).pendCue ⟨.acted sound rumbleOutcome, c.val, e.val⟩ := by
          simp only [actPending, ha]
        rw [hp]
        refine ⟨⟨_, _, _, _, _, h, h1⟩, fun h => absurd h hu, ?_⟩
        intro c' d' hc ht'
        obtain ⟨rfl, rfl⟩ := same c' d' hc ht'
        refine ⟨fun h => (by cases h), fun h => (by cases h), fun _ => ⟨sound, rumbleOutcome, ?_, hn⟩⟩
        rw [h]; exact hs

/-- The report of a firing touches backup memory, the pending set and the frame in transmission alone. -/
theorem State.reportFiring_frame (s : State) (e : Fin 16) : ∃ backup notices tx, s.reportFiring e =
    { s with backup := backup, link := { s.link with notices := notices, tx := tx } } := by
  unfold State.reportFiring
  split
  · rw [State.joinEvents, State.pend]
    unfold Link.pend
    split <;> exact ⟨_, _, _, rfl⟩
  · exact ⟨_, _, _, rfl⟩

/-- A late firing touches backup memory, the pending set and the frame in transmission alone: no cue is started (R135). -/
theorem State.fireLate_frame (s : State) (i : Instant) (e : Fin 16) : ∃ backup notices tx, s.fireLate i e =
    { s with backup := backup, link := { s.link with notices := notices, tx := tx } } := by
  obtain ⟨_, _, _, h⟩ := (s.setEvent e ((s.entry e).fired i true)).reportFiring_frame e
  unfold State.fireLate
  rw [h]; exact ⟨_, _, _, rfl⟩

/-- A firing on time touches, beside these, what the start of its cue touches (R134). -/
theorem State.fireOnTime_frame (s : State) (i : Instant) (e : Fin 16) : ∃ voice rumble cue backup notices tx, s.fireOnTime i e =
    { s with voice := voice, rumble := rumble, cue := cue, backup := backup
             link := { s.link with notices := notices, tx := tx } } := by
  unfold State.fireOnTime
  dsimp only
  split
  · rename_i cue _
    obtain ⟨⟨_, _, _, _, _, h, _⟩, _⟩ := (s.setEvent e ((s.entry e).fired i false)).eventStart_started e cue (s.entry e).quantize
    rw [h]
    obtain ⟨_, _, _, h⟩ := State.reportFiring_frame
      { s.setEvent e ((s.entry e).fired i false) with voice := _, rumble := _, cue := _, link := _ } e
    rw [h]; exact ⟨_, _, _, _, _, _, rfl⟩
  · obtain ⟨_, _, _, h⟩ := (s.setEvent e ((s.entry e).fired i false)).reportFiring_frame e
    rw [h]; exact ⟨_, _, _, _, _, _, rfl⟩

end Sys2Proof.Machine
end

