-- ==== Sys2Proof/Laws/Tab.lean ====
section
/-! SUPPORT. Reading a table of like things after it has been written, changed whole, or made of copies. -/

namespace Sys2Proof.Tab

variable {n : Nat} {α β : Type}

@[simp] theorem get_set_self (t : Tab n α) (i : Fin n) (a : α) : (t.set i a).get i = a := by
  simp [get, set]

theorem get_set_ne (t : Tab n α) {i j : Fin n} (h : i ≠ j) (a : α) : (t.set i a).get j = t.get j := by
  have : i.val ≠ j.val := fun e => h (Fin.ext e)
  simp [get, set, List.getElem_set_ne this]

theorem get_set (t : Tab n α) (i j : Fin n) (a : α) : (t.set i a).get j = if i = j then a else t.get j := by
  split
  · next h => subst h; exact get_set_self t i a
  · next h => exact get_set_ne t h a

@[simp] theorem get_map (f : α → β) (t : Tab n α) (i : Fin n) : (t.map f).get i = f (t.get i) := by
  simp [get, map]

@[simp] theorem get_replicate (a : α) (i : Fin n) : (replicate n a).get i = a := by
  simp [get, replicate]

@[simp] theorem get_modify_self (t : Tab n α) (i : Fin n) (f : α → α) : (t.modify i f).get i = f (t.get i) := by
  simp [modify]

theorem get_modify_ne (t : Tab n α) {i j : Fin n} (h : i ≠ j) (f : α → α) : (t.modify i f).get j = t.get j := by
  simp [modify, get_set_ne t h]

/-- Two tables that read the same everywhere are equal. -/
theorem ext_get {t u : Tab n α} (h : ∀ i, t.get i = u.get i) : t = u := by
  cases t with
  | mk cells size =>
    cases u with
    | mk cells' size' =>
      have : cells = cells' := by
        apply List.ext_getElem (by rw [size, size'])
        intro i h1 _
        exact h ⟨i, size ▸ h1⟩
      subst this
      rfl

@[simp] theorem set_get_self (t : Tab n α) (i : Fin n) : t.set i (t.get i) = t := by
  apply ext_get
  intro j
  rw [get_set]
  split
  · next h => rw [h]
  · rfl

@[simp] theorem set_set (t : Tab n α) (i : Fin n) (a b : α) : (t.set i a).set i b = t.set i b := by
  apply ext_get
  intro j
  simp only [get_set]
  split <;> rfl

end Sys2Proof.Tab
end

