-- ==== Sys2Proof/WellFormed.lean ====
section
/-! DEFINITION. Well-formed commands: every field fits the bytes that the request table gives the request's body
(R168, R171). A field that fits but lies outside its range is well formed: its owner refuses or clamps it. -/

namespace Sys2Proof

/-- A field of one byte. -/
def fitsByte (n : Nat) : Bool := decide (n ≤ 255)
/-- A field of two bytes. -/
def fitsWord (n : Nat) : Bool := decide (n ≤ 65535)
/-- A field of three bytes. -/
def fitsThree (n : Nat) : Bool := decide (n ≤ 16777215)

/-- The named fields of Voice Set, at the sizes of R171. -/
def VoiceSetFields.fit (f : VoiceSetFields) : Bool :=
  f.volume.all fitsByte && f.waveStart.all fitsWord && f.waveLength.all fitsWord && f.loopStart.all fitsWord &&
  f.pitchStep.all fitsWord && f.attackRate.all fitsByte && f.sustainLevel.all fitsByte && f.releaseRate.all fitsByte

/-- The named settings of Mix Set, at the sizes of R171. -/
def MixSetFields.fit (f : MixSetFields) : Bool :=
  f.master.all fitsByte && f.amplitude.all fitsWord && f.halfPeriod.all fitsByte

/-- The named settings of Rumble Set, at the sizes of R171. -/
def RumbleSetFields.fit (f : RumbleSetFields) : Bool := f.carrier.all fitsByte && f.stall.all fitsWord && f.trip.all fitsWord

/-- A step's level and length, one byte each (R171). -/
def StepFields.fit (f : StepFields) : Bool := fitsByte f.level && fitsByte f.length

/-- The seven bytes of a date and time of day (R171: Calendar Set). -/
def DateTime.fit (d : DateTime) : Bool :=
  fitsWord d.year && fitsByte d.month && fitsByte d.day && fitsByte d.hour && fitsByte d.minute && fitsByte d.second

/-- The seven bytes that Event Set's length leaves for the trigger value (R171). -/
def TriggerFields.fit : TriggerFields → Bool
  | .gameDay value => decide (value < 2 ^ 56)
  | .dateTime d => d.fit
  | .daily h m s => fitsByte h && fitsByte m && fitsByte s
  | .other => true

/-- The sound part's fields, at the sizes Voice Set gives them. -/
def SoundFields.fit (f : SoundFields) : Bool :=
  fitsByte f.voice && fitsByte f.volume && fitsWord f.waveStart && fitsWord f.waveLength && fitsWord f.loopStart &&
  fitsWord f.pitchStep && fitsByte f.attackRate && fitsByte f.sustainLevel && fitsByte f.releaseRate &&
  f.keyOffAfter.all fitsByte

/-- Cue Define: 20 + 3 × n bytes in a body of at most 72, so at most 17 steps. -/
def CueFields.fit (f : CueFields) : Bool :=
  fitsByte f.cue && f.sound.all SoundFields.fit &&
  f.rumble.all fun r => fitsByte r.priority && decide (r.steps.length ≤ 17) && r.steps.all StepFields.fit

/-- Well-formed commands. A body that carries data or steps holds at most 72 bytes with its other fields. -/
def Instr.wellFormed : Instr → Bool
  | .requestFrame kind _ body => decide (1 ≤ kind.toNat) && decide (kind.toNat ≤ 0x3E) && decide (body.length ≤ 72)
  | .streamBlock _ body => decide (body.length ≤ 72)
  | .supplySet _ low critical hysteresis battery =>
    fitsWord low && fitsWord critical && fitsWord hysteresis && fitsWord battery
  | .budgetSet _ budget imax => fitsWord budget && fitsWord imax
  | .voiceSet _ voice fields => fitsByte voice && fields.fit
  | .keyOn _ voice => fitsByte voice
  | .keyOff _ voice => fitsByte voice
  | .voiceRead _ voice => fitsByte voice
  | .waveWrite _ address bytes => fitsWord address && decide (bytes.length ≤ 70)
  | .waveRead _ address count => fitsWord address && fitsByte count
  | .streamOpen _ voice start depth limit => fitsByte voice && fitsByte start && fitsByte depth && fitsByte limit
  | .streamClose _ voice => fitsByte voice
  | .streamStatus _ voice _ => fitsByte voice
  | .mixSet _ fields => fields.fit
  | .rumblePlay _ _ priority steps => fitsByte priority && decide (steps.length ≤ 23) && steps.all StepFields.fit
  | .rumbleSet _ fields => fields.fit
  | .calendarSet _ fields => fields.date.fit
  | .vcartResult fields => decide fields.turns.Nodup
  | .gameDayStart _ start rollover cap => fitsThree start && fitsThree rollover && fitsWord cap
  | .eventSet _ entry trigger cue _ => fitsByte entry && trigger.fit && cue.all fitsByte
  | .eventClear _ entry => fitsByte entry
  | .cueDefine _ fields => fields.fit
  | .cueStart _ cue _ => fitsByte cue
  | .cueCancel _ cue => fitsByte cue
  | .stageWrite _ offset bytes => fitsWord offset && decide (bytes.length ≤ 70)
  | .stageRead _ offset count => fitsWord offset && fitsByte count
  | .stageLoad _ slot => fitsByte slot
  | .commit _ slot length => fitsByte slot && fitsWord length
  | .slotRead _ slot offset count => fitsByte slot && fitsWord offset && fitsByte count
  | .slotInfo _ slot => fitsByte slot
  | .slotVerify _ slot => fitsByte slot
  | .slotErase _ slot => fitsByte slot
  | .keyOffCountdown voice => decide (voice ≤ 7)
  | _ => true

end Sys2Proof
end

