-- ==== Sys2Proof/Tests/Slice0.lean ====
section
/-! SUPPORT. The author's tests: ill-formed commands, worked values of the spec, and for each statement that has hypotheses
states and operands that meet them. -/

namespace Sys2Proof.Tests

open Sys2Proof.Machine

set_option Elab.async false

/-! ## Ill-formed commands: one for each check -/

theorem test_wf_request_frame : Instr.wellFormed (.requestFrame 0 0 []) = false ∧
    Instr.wellFormed (.requestFrame 0x3F 0 []) = false ∧
    Instr.wellFormed (.requestFrame 1 0 (List.replicate 73 0)) = false ∧ Instr.wellFormed (.requestFrame 0x3E 0 []) = true := by
  decide
theorem test_wf_stream_block : Instr.wellFormed (.streamBlock 0 (List.replicate 73 0)) = false := by decide
theorem test_wf_supply_set : Instr.wellFormed (.supplySet 0 65536 0 0 0) = false ∧
    Instr.wellFormed (.supplySet 0 0 65536 0 0) = false ∧ Instr.wellFormed (.supplySet 0 0 0 65536 0) = false ∧
    Instr.wellFormed (.supplySet 0 0 0 0 65536) = false ∧ Instr.wellFormed (.supplySet 0 65535 65535 65535 65535) = true := by
  decide
theorem test_wf_budget_set : Instr.wellFormed (.budgetSet 0 65536 0) = false ∧
    Instr.wellFormed (.budgetSet 0 0 65536) = false := by decide
/-- No field of Voice Set named. -/
def noVoiceFields : VoiceSetFields := ⟨none, none, none, none, none, none, none, none, none, none, none, false⟩
theorem test_wf_voice_set : Instr.wellFormed (.voiceSet 0 256 noVoiceFields) = false ∧
    Instr.wellFormed (.voiceSet 0 0 { noVoiceFields with volume := some 256 }) = false ∧
    Instr.wellFormed (.voiceSet 0 0 { noVoiceFields with waveStart := some 65536 }) = false ∧
    Instr.wellFormed (.voiceSet 0 0 { noVoiceFields with waveLength := some 65536 }) = false ∧
    Instr.wellFormed (.voiceSet 0 0 { noVoiceFields with loopStart := some 65536 }) = false ∧
    Instr.wellFormed (.voiceSet 0 0 { noVoiceFields with pitchStep := some 65536 }) = false ∧
    Instr.wellFormed (.voiceSet 0 0 { noVoiceFields with attackRate := some 256 }) = false ∧
    Instr.wellFormed (.voiceSet 0 0 { noVoiceFields with sustainLevel := some 256 }) = false ∧
    Instr.wellFormed (.voiceSet 0 0 { noVoiceFields with releaseRate := some 256 }) = false ∧
    Instr.wellFormed (.voiceSet 0 8 noVoiceFields) = true := by decide
theorem test_wf_voice_numbers : Instr.wellFormed (.keyOn 0 256) = false ∧ Instr.wellFormed (.keyOff 0 256) = false ∧
    Instr.wellFormed (.voiceRead 0 256) = false ∧ Instr.wellFormed (.streamClose 0 256) = false ∧
    Instr.wellFormed (.streamStatus 0 256 false) = false ∧ Instr.wellFormed (.keyOffCountdown 8) = false := by decide
theorem test_wf_memory_ranges : Instr.wellFormed (.waveWrite 0 65536 []) = false ∧
    Instr.wellFormed (.waveWrite 0 0 (List.replicate 71 0)) = false ∧ Instr.wellFormed (.waveRead 0 65536 0) = false ∧
    Instr.wellFormed (.waveRead 0 0 256) = false ∧ Instr.wellFormed (.stageWrite 0 65536 []) = false ∧
    Instr.wellFormed (.stageWrite 0 0 (List.replicate 71 0)) = false ∧ Instr.wellFormed (.stageRead 0 65536 0) = false ∧
    Instr.wellFormed (.stageRead 0 0 256) = false := by decide
theorem test_wf_stream_open : Instr.wellFormed (.streamOpen 0 256 0 0 0) = false ∧
    Instr.wellFormed (.streamOpen 0 0 256 0 0) = false ∧ Instr.wellFormed (.streamOpen 0 0 0 256 0) = false ∧
    Instr.wellFormed (.streamOpen 0 0 0 0 256) = false := by decide
theorem test_wf_mix_set : Instr.wellFormed (.mixSet 0 ⟨some 256, none, none, none, none, false⟩) = false ∧
    Instr.wellFormed (.mixSet 0 ⟨none, none, none, some 65536, none, false⟩) = false ∧
    Instr.wellFormed (.mixSet 0 ⟨none, none, none, none, some 256, false⟩) = false := by decide
theorem test_wf_rumble : Instr.wellFormed (.rumblePlay 0 .other 256 []) = false ∧
    Instr.wellFormed (.rumblePlay 0 .other 0 (List.replicate 24 ⟨0, 0, .other⟩)) = false ∧
    Instr.wellFormed (.rumblePlay 0 .other 0 [⟨256, 0, .other⟩]) = false ∧
    Instr.wellFormed (.rumblePlay 0 .other 0 [⟨0, 256, .other⟩]) = false ∧
    Instr.wellFormed (.rumbleSet 0 ⟨some 256, none, none, none, none, false⟩) = false ∧
    Instr.wellFormed (.rumbleSet 0 ⟨none, none, some 65536, none, none, false⟩) = false ∧
    Instr.wellFormed (.rumbleSet 0 ⟨none, none, none, some 65536, none, false⟩) = false := by decide
theorem test_wf_calendar : Instr.wellFormed (.calendarSet 0 ⟨⟨65536, 0, 0, 0, 0, 0⟩, false⟩) = false ∧
    Instr.wellFormed (.calendarSet 0 ⟨⟨0, 256, 0, 0, 0, 0⟩, false⟩) = false ∧ Instr.wellFormed (.calendarSet 0 ⟨⟨0, 0, 256, 0, 0, 0⟩, false⟩) = false ∧
    Instr.wellFormed (.calendarSet 0 ⟨⟨0, 0, 0, 256, 0, 0⟩, false⟩) = false ∧ Instr.wellFormed (.calendarSet 0 ⟨⟨0, 0, 0, 0, 256, 0⟩, false⟩) = false ∧
    Instr.wellFormed (.calendarSet 0 ⟨⟨0, 0, 0, 0, 0, 256⟩, false⟩) = false ∧ Instr.wellFormed (.gameDayStart 0 16777216 0 0) = false ∧
    Instr.wellFormed (.gameDayStart 0 0 16777216 0) = false ∧ Instr.wellFormed (.gameDayStart 0 0 0 65536) = false := by decide
theorem test_wf_events : Instr.wellFormed (.eventSet 0 256 .other none .other) = false ∧
    Instr.wellFormed (.eventSet 0 0 (.gameDay (2 ^ 56)) none .other) = false ∧
    Instr.wellFormed (.eventSet 0 0 (.dateTime ⟨65536, 0, 0, 0, 0, 0⟩) none .other) = false ∧
    Instr.wellFormed (.eventSet 0 0 (.daily 256 0 0) none .other) = false ∧
    Instr.wellFormed (.eventSet 0 0 (.daily 0 256 0) none .other) = false ∧
    Instr.wellFormed (.eventSet 0 0 (.daily 0 0 256) none .other) = false ∧
    Instr.wellFormed (.eventSet 0 0 .other (some 256) .other) = false ∧ Instr.wellFormed (.eventClear 0 256) = false := by decide
/-- A sound part that plays byte 0 of wave memory on voice 0. -/
def aSound : SoundFields := ⟨0, 100, 0, 1, 0, .is .once, 256, 255, 255, 255, some 2⟩
theorem test_wf_cues : Instr.wellFormed (.cueDefine 0 ⟨256, none, .other, none⟩) = false ∧
    Instr.wellFormed (.cueDefine 0 ⟨0, some { aSound with voice := 256 }, .other, none⟩) = false ∧
    Instr.wellFormed (.cueDefine 0 ⟨0, some { aSound with volume := 256 }, .other, none⟩) = false ∧
    Instr.wellFormed (.cueDefine 0 ⟨0, some { aSound with waveStart := 65536 }, .other, none⟩) = false ∧
    Instr.wellFormed (.cueDefine 0 ⟨0, some { aSound with waveLength := 65536 }, .other, none⟩) = false ∧
    Instr.wellFormed (.cueDefine 0 ⟨0, some { aSound with loopStart := 65536 }, .other, none⟩) = false ∧
    Instr.wellFormed (.cueDefine 0 ⟨0, some { aSound with pitchStep := 65536 }, .other, none⟩) = false ∧
    Instr.wellFormed (.cueDefine 0 ⟨0, some { aSound with attackRate := 256 }, .other, none⟩) = false ∧
    Instr.wellFormed (.cueDefine 0 ⟨0, some { aSound with sustainLevel := 256 }, .other, none⟩) = false ∧
    Instr.wellFormed (.cueDefine 0 ⟨0, some { aSound with releaseRate := 256 }, .other, none⟩) = false ∧
    Instr.wellFormed (.cueDefine 0 ⟨0, some { aSound with keyOffAfter := some 256 }, .other, none⟩) = false ∧
    Instr.wellFormed (.cueDefine 0 ⟨0, none, .other, some ⟨256, []⟩⟩) = false ∧
    Instr.wellFormed (.cueDefine 0 ⟨0, none, .other, some ⟨0, List.replicate 18 ⟨0, 0, .other⟩⟩⟩) = false ∧
    Instr.wellFormed (.cueDefine 0 ⟨0, none, .other, some ⟨0, [⟨256, 0, .other⟩]⟩⟩) = false ∧
    Instr.wellFormed (.cueStart 0 256 .other) = false ∧ Instr.wellFormed (.cueCancel 0 256) = false := by decide
theorem test_wf_slots : Instr.wellFormed (.stageLoad 0 256) = false ∧ Instr.wellFormed (.commit 0 256 0) = false ∧
    Instr.wellFormed (.commit 0 0 65536) = false ∧ Instr.wellFormed (.slotRead 0 256 0 0) = false ∧
    Instr.wellFormed (.slotRead 0 0 65536 0) = false ∧ Instr.wellFormed (.slotRead 0 0 0 256) = false ∧
    Instr.wellFormed (.slotInfo 0 256) = false ∧ Instr.wellFormed (.slotVerify 0 256) = false ∧
    Instr.wellFormed (.slotErase 0 256) = false := by decide

theorem test_wf_vcart_result : Instr.wellFormed (.vcartResult ⟨0, [.mixer, .mixer]⟩) = false ∧
    Instr.wellFormed (.vcartResult ⟨0, [.mixer, .mixerMark, .governor]⟩) = true := by decide

/-! ## Worked values -/

/-- The check value of the digits 1 to 9 for this CRC-16. -/
theorem test_crc_of_digits : crc16 [0x31, 0x32, 0x33, 0x34, 0x35, 0x36, 0x37, 0x38, 0x39] = 0x29B1 := by decide +kernel
theorem test_reset_grant_record_is_formed : Governor.reset.record = Governor.reset.form := by decide +kernel
theorem test_epoch_is_a_saturday : (DateTime.mk 2000 1 1 0 0 0).instant = ⟨0, 0⟩ ∧ weekday 0 = 6 := by decide +kernel
theorem test_leap_days : (DateTime.mk 2000 2 29 0 0 0).dayNumber = 59 ∧ (DateTime.mk 2000 3 1 0 0 0).dayNumber = 60 ∧
    (DateTime.mk 2100 2 29 0 0 0).ok = false ∧ (DateTime.mk 2199 12 31 23 59 59).instant = ⟨73048, 86399⟩ := by decide +kernel
theorem test_stuffing : stuffByte 0xF8 = [0xF8, 0xD8] ∧ stuffByte 0xF9 = [0xF8, 0xD9] ∧ stuffByte 0xFA = [0xFA] := by decide +kernel
theorem test_frame_round_trip : Deframer.between.bytes (wireFrame 0xF8 0xF9 [0xF9, 1]) =
    (.between, [.goodFrame 0xF8 0xF9 [0xF9, 1]]) := by decide +kernel
theorem test_short_frame_is_short : Deframer.between.bytes [1, 2, 3, 0xF9] = (.between, [.discarded .short]) := by decide +kernel
theorem test_ramp_rounds_down : EffectStep.asks ⟨50, 4, .ramp, 1, 200⟩ = 162 ∧ EffectStep.asks ⟨50, 4, .ramp, 4, 200⟩ = 50 := by
  decide +kernel
theorem test_contribution_rounds_down : liveContribution (-1) 127 255 = -127 ∧ liveContribution (-128) 127 255 = -16193 := by
  decide +kernel
theorem test_tick_ends_the_range : Calendar.tick ⟨⟨73048, 86399⟩, true, false, 5⟩ = ⟨⟨73048, 86399⟩, true, true, 0⟩ := by decide +kernel
theorem test_distance_wraps : distance 250 2 = 8 ∧ distance 2 250 = 248 := by decide +kernel

/-! ## Bodies (the layouts and naming fields of the request table) -/

theorem test_commit_body : decodeCommit [3, 0x0E, 0x00] = some (3, 3584) ∧ decodeCommit [3, 0x0E] = none := by decide +kernel
theorem test_rumble_play_body : decodeRumblePlay [0, 2, 2, 100, 5, 1, 0, 255, 0] =
      some (.is .append, 2, [⟨100, 5, .is .ramp⟩, ⟨0, 255, .is .hold⟩]) ∧
    decodeRumblePlay [1, 0, 1, 9, 9, 2] = some (.is .replace, 0, [⟨9, 9, .other⟩]) ∧ decodeRumblePlay [0, 2, 2, 100, 5, 1] = none := by
  decide +kernel
/-- Volume is bit 1, wave length bit 4 of Voice Set's naming field; bit 11 has no row. -/
theorem test_voice_set_body : spells (.voiceSet 7 5 { noVoiceFields with volume := some 9, waveLength := some 0x0201 })
      [5, 0x00, 0x12, 9, 2, 1] = true ∧
    spells (.voiceSet 7 5 { noVoiceFields with volume := some 9, waveLength := some 0x0102 }) [5, 0x00, 0x12, 9, 2, 1] = false ∧
    spells (.voiceSet 7 5 { noVoiceFields with volume := some 9, unassignedBit := true }) [5, 0x08, 0x02, 9] = true := by
  decide +kernel
theorem test_settings_bodies : spells (.mixSet 7 ⟨some 128, none, none, some 511, none, false⟩) [0x09, 128, 1, 255] = true ∧
    spells (.rumbleSet 7 ⟨some 8, none, none, some 1000, none, false⟩) [0x09, 8, 3, 0xE8] = true ∧
    spells (.rumbleSet 7 ⟨some 8, none, none, none, none, false⟩) [0x09, 8, 3, 0xE8] = false := by decide +kernel

/-- A rumble part of one step makes 23 bytes; an absent one leaves any whole number of steps. -/
theorem test_cue_define_body :
    let steps (n : Nat) : Instr := .cueDefine 7 ⟨0, some aSound, .is false, some ⟨1, List.replicate n ⟨9, 1, .is .hold⟩⟩⟩
    spells (steps 1) (List.replicate 23 0) = true ∧ spells (steps 1) (List.replicate 20 0) = false ∧
    spells (steps 4) (List.replicate 32 0) = true ∧ spells (steps 4) (List.replicate 29 0) = false ∧
    spells (.cueDefine 7 ⟨0, some aSound, .is false, none⟩) (List.replicate 21 0) = false ∧
    spells (.cueDefine 7 ⟨0, some aSound, .is false, none⟩) (List.replicate 23 0) = true := by decide +kernel

/-! ## Witnesses: for each statement with hypotheses, states and operands that meet them, clause by clause -/

/-- Ready, selected, in NORMAL supply, every notice enabled. -/
def ready : State :=
  { State.reset with
    supply := { SupplyMonitor.reset with calibration := none, supply := .normal, firstVcart := true }
    governor := Governor.reset.takeSupply .normal
    rumble := { Rumble.reset with calibrating := false }
    link := { Link.reset with lselLow := true, deframer := .between, scanDone := true, calibrationDone := true
                              catchUpDone := true, mask := 0x03FF } }
/-- The core without the cartridge supply. -/
def off : State := { State.reset with corePowered := false }
/-- `ready` in another supply state. -/
def inSupply (x : SupplyState) : State := { ready with supply := { ready.supply with supply := x } }
/-- `ready` with another driver. -/
def withDriver (f : Rumble → Rumble) : State := ready.withRumble (f ready.rumble)
/-- `ready` with another save controller. -/
def withController (f : SaveController → SaveController) : State := ready.withSave (f ready.save)
/-- A good header of a bank that holds three bytes of 0. -/
def goodHeader (generation : Nat) : Header := ⟨generation, 3, payloadCheck [] 3, none, none, false, false, true⟩
/-- `ready` with slot 0 holding these two headers, and its table entry scanned. -/
def withSlot (a b : Header) : State :=
  let st := { ready.store with headers := ready.store.headers.set 0 ⟨a, b⟩ }
  ready.withStore st |>.withSave (ready.save.setEntry 0 (scanSlot st 0))
/-- A reply. -/
def aReply : Reply := ⟨0x81, 1, .ok, .none⟩
/-- `ready` with n replies queued. -/
def withReplies (n : Nat) : State := ready.withLink { ready.link with replies := List.replicate n aReply }
/-- `ready` with a frame in transmission. -/
def sendingFrame (c : TxContent) : State := ready.withLink { ready.link with tx := some ⟨c, true⟩ }
/-- `ready` with an entry of the event table. -/
def withEntry (x : EventEntry) : State := ready.setEvent 0 x
/-- `ready` with a stream record of voice 1. -/
def withRecord (f : StreamRecord → StreamRecord) : State :=
  ready.withStream { ready.stream with records := ready.stream.records.modify 1 f }
/-- `ready` with a voice record and pending record of voice 0. -/
def withVoice0 (v : VoiceRecord → VoiceRecord) (p : PendingVoice) : State :=
  ready.withVoice { ready.voice with voices := ready.voice.voices.modify 0 v, pendings := ready.voice.pendings.set 0 p }
/-- `ready` with cue 0 defined. -/
def withCue0 (d : CueDefinition) (f : CueUnit → CueUnit) : State :=
  ready.withCue (f { ready.cue with table := ready.cue.table.set 0 (some d) })
/-- The sound part that `aSound` makes. -/
def soundPart : SoundPart := ⟨0, 100, 0, 1, 0, .once, 256, 255, 255, 255, some 2⟩
/-- A cue with both parts. -/
def aCue : CueDefinition := ⟨some soundPart, false, some ⟨1, [⟨100, 3, .hold⟩]⟩⟩
/-- 64 samples. -/
def samples : List Byte := List.replicate 64 5

/-- `s` with the request of `c` handed on, its body these bytes. -/
def handing (c : Instr) (body : List Byte) (s : State) : State :=
  match requestOf c with
  | some (kind, tag) => s.withLink { s.link with inbound := [⟨kind, tag, body, .handed⟩] }
  | none => s
/-- Zeros, for a body whose layout is not given. -/
def zeros (n : Nat) : List Byte := List.replicate n 0
/-- The request of `c`, handed on in `s` with this body, is taken up. -/
def Takes (s : State) (c : Instr) (body : List Byte) : Prop := (handing c body s).Serves c
/-- The status of the reply that the request of `c`, handed on in `s` with this body, is given. -/
def statusOf (s : State) (c : Instr) (body : List Byte) : Option Status :=
  match exec c (handing c body s) with
  | .next t => t.link.replies.getLast?.map Reply.status
  | _ => none

theorem test_ready_is_selected : ready.Selected ∧ ready.AtByteBoundary := by
  unfold State.AtByteBoundary State.Selected; decide

/-- The premise `State.Serves`, for each request of the link, the supply and the voices, in the state `ready`. -/
theorem test_requests_are_served_1 : ∀ p ∈ ([(.noticeMask 7 1023, [3, 255]), (.restart 7, []), (.supplyRead 7 true, zeros 1),
    (.supplySet 7 1500 1475 5 2000, zeros 8), (.calibrateMotorSense 7, []), (.budgetSet 7 59 401, zeros 4), (.budgetRead 7, []),
    (.voiceSet 7 0 noVoiceFields, [0, 0, 0]), (.keyOn 7 8, [8]), (.keyOff 7 7, [7]), (.voiceRead 7 7, [7]),
    (.waveWrite 7 8191 [5], [0x1F, 0xFF, 5]), (.waveRead 7 8191 1, zeros 3), (.streamOpen 7 1 255 2 16, zeros 4),
    (.streamClose 7 1, [1]), (.streamStatus 7 1 true, zeros 2)] : List (Instr × List Byte)), Takes ready p.1 p.2 := by
  unfold Takes State.Serves; decide +kernel
/-- The same of the mixer, the rumble driver, the calendar, the game days and the events. -/
theorem test_requests_are_served_2 : ∀ p ∈ ([(.mixSet 7 ⟨some 255, none, none, none, none, false⟩, [1, 255]), (.mixStatus 7 true, zeros 1),
    (.rumblePlay 7 (.is .append) 3 [⟨100, 0, .is .ramp⟩], [0, 3, 1, 100, 0, 1]), (.rumbleStop 7, []),
    (.rumbleSet 7 ⟨some 16, none, none, none, none, false⟩, [1, 16]), (.rumbleClear 7, []), (.rumbleStatus 7, []),
    (.calendarGet 7, []), (.calendarSet 7 ⟨⟨2199, 12, 31, 23, 59, 59⟩, true⟩, zeros 7), (.gameDayStart 7 5 0 1, zeros 8), (.gameDayGet 7, []),
    (.gameDayClearRewind 7, []), (.eventSet 7 15 (.gameDay 5) none (.is false), zeros 11), (.eventClear 7 15, [15]),
    (.eventList 7, [])] : List (Instr × List Byte)), Takes ready p.1 p.2 := by
  unfold Takes State.Serves; decide +kernel
/-- The same of the cues and the save store. -/
theorem test_requests_are_served_3 : ∀ p ∈ ([(.cueDefine 7 ⟨0, some aSound, .is false, none⟩, zeros 20), (.cueStart 7 0 (.is true), zeros 2),
    (.cueCancel 7 8, [8]), (.cueStatus 7, []), (.stageWrite 7 3583 [5], [0x0D, 0xFF, 5]), (.stageRead 7 0 64, zeros 3),
    (.stageLoad 7 3, [3]), (.commit 7 3 3584, [3, 14, 0]), (.commitAbort 7, []), (.slotRead 7 3 3583 64, zeros 4), (.slotInfo 7 4, [4]),
    (.slotVerify 7 3, [3]), (.slotErase 7 3, [3])] : List (Instr × List Byte)), Takes ready p.1 p.2 := by
  unfold Takes State.Serves; decide +kernel

theorem every_bank {p : Bank → Prop} (a : p .a) (b : p .b) : ∀ bank, p bank := by intro bank; cases bank <;> assumption

/-- The premise of the invariants' statements, at a state that is not the state after reset. -/
theorem test_ready_is_sound : ready.Sound where
  governor := by unfold State.GovernorSound; decide +kernel
  mixer := by unfold State.MixerSound MixChannel.Sound; decide +kernel
  rumble := by unfold State.RumbleSound; decide +kernel
  voices := by
    unfold State.VoicesSound State.VoiceSound VoiceRecord.Fits VoiceRecord.OffAtRest VoiceRecord.InRange
    decide +kernel
  cues := by
    have none_defined : ∀ c, ready.cue.table.get c = none := by decide +kernel
    exact ⟨fun c d h => (by rw [none_defined c] at h; cases h), by decide +kernel, by decide +kernel⟩
  streams := by unfold State.StreamsSound StreamRecord.Sound; decide +kernel
  calendar := by unfold State.CalendarSound; decide +kernel
  gameDays := by unfold State.GameDayLaw; decide +kernel
  events := by unfold State.EventsSound; decide +kernel
  save := by
    have none_live : ∀ slot, (ready.save.entry slot).liveBank = none := by decide +kernel
    have a : ∀ slot, (ready.store.header slot .a).good = false := by decide +kernel
    have b : ∀ slot, (ready.store.header slot .b).good = false := by decide +kernel
    refine ⟨by decide +kernel, by decide +kernel, by decide +kernel, by decide +kernel, fun _ slot => ⟨?_, ?_⟩, ?_⟩
    · intro bank h; rw [none_live slot] at h; cases h
    · exact every_bank (by rw [a slot]; simp) (by rw [b slot]; simp)
    · exact ⟨fun h => (by cases h), fun h => (by cases h), fun h => (by cases h)⟩
  memories := by
    have a : ∀ slot, ready.store.bank slot .a = [] ∧ (ready.store.header slot .a).length = 0 := by decide +kernel
    have b : ∀ slot, ready.store.bank slot .b = [] ∧ (ready.store.header slot .b).length = 0 := by decide +kernel
    have empty : ∀ n, Memory.Within [] n := fun n => ⟨rfl, by simp⟩
    exact ⟨empty _, empty _, fun slot => every_bank ((a slot).1 ▸ empty _) ((b slot).1 ▸ empty _),
      fun slot => every_bank (by rw [(a slot).2]; decide) (by rw [(b slot).2]; decide)⟩
  queues := by unfold State.QueuesSound; decide +kernel

/-- The premises of the statements about a step: a sound state with a command waiting, and the step's answer. -/
theorem test_witness_sound_step : ({ ready with pending := [.outputSample] } : State).Sound ∧
    ∃ t, step { ready with pending := [.outputSample] } = .next t := by
  have h := test_ready_is_sound
  exact ⟨⟨h.governor, h.mixer, h.rumble, h.voices, h.cues, h.streams, h.calendar, h.gameDays, h.events, h.save, h.memories,
    h.queues⟩, _, rfl⟩

/-- `ready` with the controller in this state over bank B of slot 0, whose bank A is live, nothing copied yet; the reply of the
request that it works for is deferred. -/
def busyWith (x : SaveState) : State :=
  let s := withSlot (goodHeader 2) (goodHeader 1)
  { s with save := { s.save with state := x, opSlot := 0, target := .b, length := 3, deferredTag := 9, copyCheck := payloadCheck [] 3 }
           governor := s.governor.takeBusy true
           link := { s.link with inbound := [⟨if x = .loading then 0x36 else 0x37, 9, [0], .deferred⟩] } }
/-- A commit in COPYING. -/
def copying : State := busyWith .copying

/-- Sound states of a load, a copy and a seal. -/
theorem test_busy_is_sound (x : SaveState) (hx : x = .loading ∨ x = .copying ∨ x = .sealing) : (busyWith x).Sound := by
  have h := test_ready_is_sound
  have live : ∀ slot, ((busyWith x).save.entry slot).liveBank = if slot = 0 then some .a else none := by rcases hx with rfl | rfl | rfl <;> decide +kernel
  have header : ∀ slot, ((busyWith x).save.entry slot).liveHeader =
      if slot = 0 then some ((busyWith x).store.header 0 .a) else none := by rcases hx with rfl | rfl | rfl <;> decide +kernel
  have good : ((busyWith x).store.header 0 .a).good = true := by rcases hx with rfl | rfl | rfl <;> decide +kernel
  have highest : ∀ slot, ((busyWith x).store.header slot .a).generation ≤ ((busyWith x).save.entry slot).highest ∧
      ((busyWith x).store.header slot .b).generation ≤ ((busyWith x).save.entry slot).highest := by rcases hx with rfl | rfl | rfl <;> decide +kernel
  have a : ∀ slot, (busyWith x).store.bank slot .a = [] ∧ ((busyWith x).store.header slot .a).length ≤ 3 := by rcases hx with rfl | rfl | rfl <;> decide +kernel
  have b : ∀ slot, (busyWith x).store.bank slot .b = [] ∧ ((busyWith x).store.header slot .b).length ≤ 3 := by rcases hx with rfl | rfl | rfl <;> decide +kernel
  have moved : (busyWith x).save.moved = 0 := by rcases hx with rfl | rfl | rfl <;> decide +kernel
  have none_moved : ∀ a, ¬a < (busyWith x).save.moved := fun a ha => absurd (moved ▸ ha) (Nat.not_lt_zero a)
  have empty : ∀ n, Memory.Within [] n := fun n => ⟨rfl, by simp⟩
  refine ⟨?_, h.mixer, h.rumble, h.voices, h.cues, h.streams, h.calendar, h.gameDays, h.events, ?_, ?_, ?_⟩
  · unfold State.GovernorSound; rcases hx with rfl | rfl | rfl <;> decide +kernel
  · refine ⟨by rcases hx with rfl | rfl | rfl <;> decide +kernel, by rcases hx with rfl | rfl | rfl <;> decide +kernel,
      by rcases hx with rfl | rfl | rfl <;> decide +kernel, by rcases hx with rfl | rfl | rfl <;> decide +kernel, fun _ slot => ⟨?_, ?_⟩, ?_⟩
    · intro bank hb
      rw [live slot] at hb
      by_cases hs : slot = 0
      · subst hs
        have : bank = .a := by simpa using hb.symm
        subst this
        exact ⟨header 0, good⟩
      · simp [hs] at hb
    · exact every_bank (fun _ => (highest slot).1) (fun _ => (highest slot).2)
    · exact ⟨fun _ => ⟨moved ▸ Nat.zero_le _, by rcases hx with rfl | rfl | rfl <;> decide +kernel, .a, live 0, fun a ha => absurd ha (none_moved a)⟩,
        fun _ => ⟨moved ▸ Nat.zero_le _, fun a ha => absurd ha (none_moved a)⟩, fun _ => by rcases hx with rfl | rfl | rfl <;> decide +kernel⟩
  · exact ⟨empty _, empty _, fun slot => every_bank ((a slot).1 ▸ empty _) ((b slot).1 ▸ empty _),
      fun slot => every_bank (Nat.le_trans (a slot).2 (by decide)) (Nat.le_trans (b slot).2 (by decide))⟩
  · unfold State.QueuesSound; rcases hx with rfl | rfl | rfl <;> decide +kernel

/-- LiveBanksAreNeverWritten, StageLoadCopiesTheLivePayload, CopyAndSealMakeTheTargetLive: a sound state with a live bank while the
other is written, and one in LOADING and in SEALING. -/
theorem test_witness_live_bank : copying.Sound ∧ copying.corePowered = true ∧ (copying.save.entry 0).liveBank = some .a ∧
    (∃ t, exec .copyComplete copying = .next t) ∧ (busyWith .loading).Sound ∧ (∃ t, exec .loadComplete (busyWith .loading) = .next t) ∧
    (busyWith .sealing).Sound ∧ ∃ t, exec .sealComplete (busyWith .sealing) = .next t :=
  ⟨test_busy_is_sound _ (by decide), rfl, by decide +kernel, ⟨_, rfl⟩, test_busy_is_sound _ (by decide), ⟨_, rfl⟩,
    test_busy_is_sound _ (by decide), ⟨_, rfl⟩⟩

theorem test_witness_step : State.reset.pending = [] := rfl
theorem test_witness_core_needs_its_supply : ofCoreDomain .slotScan = true ∧ off.corePowered = false := by decide
theorem test_witness_power_up : off.corePowered = false ∧ off.backup.powered = true ∧ off.store.marker = true := by decide
theorem test_witness_power_up_after_loss :
    let s : State := { off with backup := { off.backup with store := { off.store with marker := false } } }
    s.corePowered = false ∧ s.backup.powered = true ∧ s.store.marker = false ∧ ready.corePowered = true ∧
    ({ off with backup := .lost } : State).corePowered = false ∧ ({ off with backup := .lost } : State).backup.powered = false := by
  decide

/-- PowerLossesKeepWhatStillHasPower. -/
theorem test_witness_power_losses : ready.corePowered = true ∧ ready.save.state = .idle ∧ copying.save.state = .copying ∧
    (withController fun c => { c with state := .sealing }).save.state = .sealing ∧
    (withController fun c => { c with state := .loading }).save.state = .loading ∧ off.corePowered = false ∧
    ({ off with backup := .lost } : State).backup.powered = false := by decide +kernel

/-- A part that has not scanned yet, with these headers in slot 0. -/
def unscanned (a b : Header) : State := (withSlot a b).withLink Link.reset
/-- A good header whose payload check does not match. -/
def wrongPayload (generation : Nat) : Header := { goodHeader generation with payloadCheck := 7 }
/-- Which banks of slot 0 are valid. -/
def validity (s : State) : Bool × Bool := (s.store.valid 0 .a, s.store.valid 0 .b)

/-- SlotScanBuildsTheSlotTable: the generations where its clauses meet, and what the scan makes of slot 0. -/
theorem test_witness_slot_scan :
    (∀ s ∈ [unscanned (goodHeader 2) (goodHeader 2), unscanned (goodHeader 2) (wrongPayload 3)],
      s.corePowered = true ∧ s.link.scanDone = false ∧ maskEnables s.link.mask .saveScan = true) ∧
    validity (unscanned (goodHeader 2) (goodHeader 2)) = (true, true) ∧
    (scanSlot (unscanned (goodHeader 2) (goodHeader 2)).store 0).liveBank = some .a ∧
    validity (unscanned (goodHeader 2) (goodHeader 3)) = (true, true) ∧
    (scanSlot (unscanned (goodHeader 2) (goodHeader 3)).store 0).liveBank = some .b ∧
    validity (unscanned (goodHeader 2) (wrongPayload 3)) = (true, false) ∧
    (scanSlot (unscanned (goodHeader 2) (wrongPayload 3)).store 0).condition = .validFallback ∧
    validity (unscanned (goodHeader 2) (wrongPayload 2)) = (true, false) ∧
    (scanSlot (unscanned (goodHeader 2) (wrongPayload 2)).store 0).condition = .valid ∧
    validity (unscanned (wrongPayload 2) (goodHeader 1)) = (false, true) ∧
    (scanSlot (unscanned (wrongPayload 2) (goodHeader 1)).store 0).condition = .validFallback ∧
    validity (unscanned (wrongPayload 2) .invalid) = (false, false) ∧
    (scanSlot (unscanned (wrongPayload 2) .invalid).store 0).condition = .damaged ∧
    validity (unscanned .invalid .invalid) = (false, false) ∧
    (scanSlot (unscanned .invalid .invalid).store 0).condition = .empty := by decide +kernel

/-- A valid calendar at an instant. -/
def clockAt (i : Instant) : Calendar := ⟨i, true, false, 0⟩
/-- A valid record with this high-water mark. -/
def recordAt (highWater : Int) : GameDayRecord := ⟨true, 5, 5, highWater, highWater, 0, 2, 0, false, true⟩
/-- `s` with this record and calendar. -/
def withDays (s : State) (r : GameDayRecord) (c : Calendar) : State :=
  s.withBackup { s.backup with record := r, calendar := c }
/-- An ARMED entry that starts no cue. -/
def armed (t : Trigger) (d : Due) : EventEntry := ⟨.armed, t, d, none, false, false, ⟨0, 0⟩⟩
/-- The start-up of a part with one entry armed for an instant. -/
def starting (i : Instant) : State :=
  (withDays (ready.withLink Link.reset) (recordAt 3) (clockAt ⟨10, 4⟩)).setEvent 0 (armed (.dateTime i) .absent)

/-- StartUpCatchUpCreditsDaysAndFiresLate. -/
theorem test_witness_start_up :
    (starting ⟨10, 4⟩).corePowered = true ∧ (starting ⟨10, 4⟩).link.catchUpDone = false ∧
    (starting ⟨10, 4⟩).record.checkMatches = true ∧ (starting ⟨10, 4⟩).record.valid = true ∧
    (starting ⟨10, 4⟩).backup.calendar.valid = true ∧ (starting ⟨10, 4⟩).record.highWater < (starting ⟨10, 4⟩).index ∧
    ((starting ⟨10, 4⟩).entry 0).isDue (starting ⟨10, 4⟩).record ⟨10, 4⟩ = true ∧
    ((starting ⟨10, 5⟩).entry 0).isDue (starting ⟨10, 5⟩).record ⟨10, 4⟩ = false ∧
    (withDays (starting ⟨0, 0⟩) { recordAt 3 with checkMatches := false } (clockAt ⟨0, 0⟩)).record.checkMatches = false ∧
    (withEntry ⟨.fired, .gameDay 0, .absent, none, false, false, ⟨0, 0⟩⟩).entry 0 ≠ .freed := by decide +kernel

/-- The GAMEDAY notice of a start-up with this record, on day 10, every kind enabled. -/
def startUpNotice (r : GameDayRecord) : Option GameDayNotice :=
  let s := (starting ⟨10, 4⟩).withLink { Link.reset with mask := 0x03FF }
  match exec .startUpCatchUp (withDays s r (clockAt ⟨10, 4⟩)) with
  | .next t => t.link.notices.gameDay
  | _ => none
/-- StartUpCatchUpCreditsDaysAndFiresLate: days to credit (seven, of which the cap of 2 leaves two), a rewind, and a record whose
check does not match; on the day of the high-water mark there is no notice. -/
theorem test_witness_game_day_notices :
    startUpNotice (recordAt 3) = some ⟨.catchUp, true, 7, 10, 10, 2, 5, false⟩ ∧
    startUpNotice (recordAt 11) = some ⟨.rewind, true, 5, 11, 10, 0, 0, true⟩ ∧
    startUpNotice { recordAt 3 with checkMatches := false } = some ⟨.invalid, false, 5, 3, 10, 0, 0, false⟩ ∧
    startUpNotice (recordAt 10) = none := by decide +kernel

/-- `ready` over a backup memory whose marker is wrong. -/
def markerWrong : State := ready.withStore { ready.store with marker := false }
/-- RestartStartsTheCoreAgain: an idle part, a copy, a wrong marker, a frame being sent and one kept to be sent again. -/
theorem test_witness_restart : Takes ready (.restart 7) [] ∧ ready.store.marker = true ∧ ready.save.state = .idle ∧
    Takes copying (.restart 7) [] ∧ copying.save.state = .copying ∧
    Takes markerWrong (.restart 7) [] ∧ markerWrong.store.marker = false ∧
    (ready.withLink { ready.link with tx := some ⟨.reply aReply, false⟩ }).link.tx ≠ some ⟨.reply aReply, true⟩ ∧
    (sendingFrame (.reply aReply)).link.tx = some ⟨.reply aReply, true⟩ := by
  unfold Takes State.Serves; decide +kernel

/-- What is left to send after a Restart, with this link. -/
def sentAfterRestart (l : Link) : Option (List Byte) :=
  match exec (.restart 7) (handing (.restart 7) [] (ready.withLink l)) with
  | .next t => some t.link.out
  | _ => none
/-- RestartStartsTheCoreAgain: a frame being sent and one that waits, at a byte boundary and inside a byte, LSEL low and high; no
frame. -/
theorem test_witness_restart_ends_the_frame :
    let l := ready.link
    let frame (sending : Bool) := some (⟨.reply aReply, sending⟩ : TxFrame)
    sentAfterRestart { l with tx := frame true, out := [1, 2], bitCount := 0 } = some [0xF8, 0xF9] ∧
    sentAfterRestart { l with tx := frame true, out := [1, 2], bitCount := 3 } = some [1, 0xF8, 0xF9] ∧
    sentAfterRestart { l with tx := frame false, bitCount := 0 } = some [0xF8, 0xF9] ∧
    sentAfterRestart { l with tx := frame false, bitCount := 3 } = some [0xF9, 0xF8, 0xF9] ∧
    sentAfterRestart { l with tx := frame false, lselLow := false } = some [] ∧
    sentAfterRestart { l with tx := none } = some [] := by decide +kernel

/-- `ready` with another deframer. -/
def deframing (d : Deframer) : State := ready.withLink { ready.link with deframer := d }
/-- The deframer and the ABORTED count after LSEL rises. -/
def risen (begun : Bool) (s : State) : Option (Deframer × Nat) :=
  match exec (.lselRise begun) s with
  | .next t => some (t.link.deframer, t.link.counters.aborted)
  | _ => none

/-- ReceptionEndsWithTheFrameOrTheSelection: both edges, each deframer state where LSEL rises, and no power. -/
theorem test_witness_reception :
    (ready.withLink { ready.link with lselLow := false }).link.lselLow = false ∧ off.corePowered = false ∧
    (∀ d ∈ [.hunt, .between, .inFrame [1] false], (deframing d).Selected) ∧
    risen true (deframing .hunt) = some (.hunt, 0) ∧ risen false (deframing .between) = some (.between, 0) ∧
    risen true (deframing .between) = some (.hunt, 1) ∧ risen false (deframing (.inFrame [1] false)) = some (.hunt, 1) ∧
    maskEnables ready.link.mask .link = true ∧ maskEnables State.reset.link.mask .link = false := by
  unfold State.Selected; decide +kernel

/-- RequestFramesQueueOrOverrun: the first and the last request kind, 72 bytes of body, three and four requests queued. -/
theorem test_witness_request_frames :
    let l := List.replicate 3 (⟨1, 1, [], .waiting⟩ : InboundRequest)
    (ready.withLink { ready.link with inbound := l }).link.inbound.length < 4 ∧
    4 ≤ (ready.withLink { ready.link with inbound := ⟨1, 1, [], .deferred⟩ :: l }).link.inbound.length ∧
    1 ≤ (0x01 : Byte).toNat ∧ (0x3E : Byte).toNat ≤ 0x3E ∧ (List.replicate 72 (0 : Byte)).length ≤ 72 := by decide

/-- `ready` with these requests queued. -/
def queueing (l : List InboundRequest) : State := ready.withLink { ready.link with inbound := l }
/-- HandOnChecksTheOldestRequest: an unassigned code, a wrong length, a kind that needs READY and one that does not, behind a
request that is taken up; and each of the three cases in which nothing is handed on. -/
theorem test_witness_hand_on : lengthFits 0x05 [] = none ∧ lengthFits 0x01 [0] = some false ∧
    lengthFits 0x21 [] = some true ∧ lengthFits 0x01 [] = some true ∧ State.reset.link.readiness = .notReady ∧
    (withReplies 3).link.replies.length < 4 ∧ 4 ≤ (withReplies 4).link.replies.length ∧
    exec .requestHandOn (queueing [⟨0x37, 9, [], .deferred⟩, ⟨0x21, 1, [], .waiting⟩]) =
      .next (queueing [⟨0x37, 9, [], .deferred⟩, ⟨0x21, 1, [], .handed⟩]) ∧
    exec .requestHandOn (queueing [⟨0x21, 1, [], .handed⟩, ⟨0x21, 2, [], .waiting⟩]) =
      .next (queueing [⟨0x21, 1, [], .handed⟩, ⟨0x21, 2, [], .waiting⟩]) := by
  refine ⟨by decide, by decide, by decide, by decide, by decide, by decide, by decide, rfl, rfl⟩

/-- FrameStartFollowsItsOrder. -/
theorem test_witness_frame_start : (withReplies 1).AtByteBoundary ∧
    let l := { ready.link with notices := { NoticeSet.empty with clip := some 1 } }
    (withReplies 1).link.tx = none ∧ (withReplies 1).link.replies = aReply :: [] ∧
    (ready.withLink { ready.link with tx := some ⟨.reply aReply, false⟩ }).AtByteBoundary ∧
    l.notices.has .clip = true ∧ (∀ k ∈ NoticeKind.all, k.bit < NoticeKind.clip.bit → l.notices.has k = false) ∧
    ∀ k ∈ NoticeKind.all, ready.link.notices.has k = false := by
  unfold State.AtByteBoundary State.Selected; decide

/-- A notice frame of entries 0 and 1. -/
def eventsFrame : NoticeFrame :=
  ⟨0, .events [⟨0, .gameDay, false, none, ⟨0, 0⟩⟩, ⟨1, .daily, false, none, ⟨0, 0⟩⟩], [0, 1], true, false⟩
/-- It is being sent, with entry 0 fired. -/
def sendingEvents (t : Trigger) (d : Due) : State :=
  (sendingFrame (.notice eventsFrame)).setEvent 0 { armed t d with state := .fired }

/-- CompletedFramesLeaveTheirQueues: replies with and without one that waits, a dead frame, one that is rewritten, the sets,
and entries of the three kinds. -/
theorem test_witness_frame_complete :
    (sendingFrame (.reply aReply)).link.waiting = [] ∧
    ((sendingFrame (.reply aReply)).withLink { ready.link with waiting := [aReply] }).link.waiting = aReply :: [] ∧
    (sendingFrame (.notice { eventsFrame with live := false })).link.tx = some ⟨.notice { eventsFrame with live := false }, true⟩ ∧
    (NoticeContent.clip 3).kind = .clip ∧ eventsFrame.live = true ∧
    (0 : Fin 16).val ∈ eventsFrame.acting ∧ (2 : Fin 16).val ∉ eventsFrame.acting ∧
    ((sendingEvents (.gameDay 3) .absent).entry 0).trigger = .gameDay 3 ∧
    ((sendingEvents (.dateTime ⟨0, 0⟩) .absent).entry 0).trigger = .dateTime ⟨0, 0⟩ ∧
    ((sendingEvents (.daily 5) (.at ⟨0, 5⟩)).entry 0).due = .at ⟨0, 5⟩ ∧
    ((sendingEvents (.daily 5) .beyondRange).entry 0).due ≠ .at ⟨0, 5⟩ ∧
    ((sendingEvents (.daily 5) (.at ⟨0, 5⟩)).entry 0).state = .fired := by decide +kernel
/-- A kind made pending again while its frame is being sent, and a kind that is disabled. -/
theorem test_witness_pending_again :
    let s := sendingFrame (.notice ⟨3, .clip 1, [], true, false⟩)
    maskEnables s.link.mask .clip = true ∧
    (s.pend .clip fun n => { n with clip := some 2 }).link.tx = some ⟨.notice ⟨3, .clip 1, [], true, true⟩, true⟩ ∧
    maskEnables State.reset.link.mask .clip = false := by decide +kernel

theorem test_witness_status : ∀ p ∈ ([(.partStatus 7, []), (.linkStatus 7 false, zeros 1), (.linkStatus 7 true, zeros 1)] :
    List (Instr × List Byte)), (handing p.1 p.2 State.reset).link.admits p.1 = true ∧
      (handing p.1 p.2 (withReplies 3)).link.admits p.1 = true := by decide +kernel

/-- NoticeMaskDisablesKinds: the highest mask taken and the lowest refused, and EVENTS disabled with an entry in its set. -/
theorem test_witness_notice_mask : (1023 : Word16).toNat < 1024 ∧ 1024 ≤ (1024 : Word16).toNat ∧
    Takes ready (.noticeMask 7 1023) [3, 255] ∧ Takes ready (.noticeMask 7 1024) [4, 0] ∧
    (let s := (sendingEvents (.daily 5) (.at ⟨0, 5⟩)).withLink { (sendingFrame (.notice eventsFrame)).link with
       notices := { NoticeSet.empty with events := [0] } }
     Takes s (.noticeMask 7 0x03EF) [3, 0xEF] ∧ 0 ∈ s.link.notices.events ∧ s.link.notices.events.Nodup) ∧
    maskEnables 0x03EF .events = false ∧ maskEnables 0x03EF .supply = true := by
  unfold Takes State.Serves; decide +kernel

theorem test_witness_not_ready : requestOf (.budgetRead 7) = some (0x0D, 7) ∧ (0x0D : Byte) ≠ 0x01 ∧ (0x0D : Byte) ≠ 0x03 ∧
    State.reset.corePowered = true ∧ State.reset.link.readiness = .notReady ∧
    (handing (.budgetRead 7) [] State.reset).link.admits (.budgetRead 7) = true := by decide +kernel

/-- A verify of slot 0 in progress, over these headers, with the table entry as it was when both payloads matched. -/
def verifying (b : Header) : State :=
  let s := withSlot (wrongPayload 2) b
  s.withSave { s.save.setEntry 0 ⟨.valid, some .a, some (wrongPayload 2), 2, ⟨.live, .validOlder⟩⟩ with state := .verifying }
/-- FullReplyQueueMakesRepliesWait: a request with 4 replies queued, one that has not been handed on, and an operation of each
kind in flight; a verify that ends over 4 queued replies. -/
theorem test_witness_full_reply_queue :
    (let s := (verifying (goodHeader 1)).withLink { ready.link with replies := List.replicate 4 aReply }
     s.save.state = .verifying ∧ 4 ≤ s.link.replies.length ∧ s.corePowered = true ∧
     (match exec .verifyComplete s with | .next t => t.link.waiting.map Reply.kind | _ => []) = [0xBB]) ∧ requestOf (.budgetRead 7) = some (0x0D, 7) ∧ (withReplies 4).link.replies.length = 4 ∧
    (∀ e ∈ ready.link.inbound, e.stage ≠ .handed) ∧ ((withSlot (goodHeader 2) .invalid).save.entry 0).liveHeader ≠ none ∧
    (withController fun c => { c with state := .sealing }).save.state = .sealing ∧
    (ready.withSupply { ready.supply with calibration := some ⟨.requested 9, 7, 70⟩ }).supply.injected ≠ .converting := by
  decide +kernel

/-! ### Supply monitor and governor -/

/-- VCART is being converted, in this supply state with this recovery count. -/
def convertingVcart (first : Bool) (x : SupplyState) (n : Nat) : State :=
  ready.withSupply { ready.supply with round := [.vcart, .vbat, .imot], firstVcart := first, supply := x, supplyRecovery := n }
/-- The supply state and recovery count after a VCART result. -/
def vcartAfter (v : Count12) (s : State) : Option (SupplyState × Nat) :=
  match exec (.vcartResult ⟨v, []⟩) s with
  | .next t => some (t.supply.supply, t.supply.supplyRecovery)
  | _ => none

/-- VcartResultsFollowTheirTables: the counts where its rows meet, with C = 1400, L = 1500, h = 25. -/
theorem test_witness_vcart_rows :
    (convertingVcart true .low 3).supply.converting = .channel .vcart ∧
    vcartAfter 1399 (convertingVcart false .low 0) = some (.critical, 0) ∧
    vcartAfter 1400 (convertingVcart false .low 0) = some (.low, 0) ∧
    vcartAfter 1500 (convertingVcart false .low 0) = some (.normal, 0) ∧
    vcartAfter 1399 (convertingVcart true .normal 0) = some (.critical, 0) ∧
    vcartAfter 1499 (convertingVcart true .normal 0) = some (.low, 0) ∧
    vcartAfter 1500 (convertingVcart true .normal 0) = some (.normal, 0) ∧
    vcartAfter 1399 (convertingVcart true .low 3) = some (.critical, 0) ∧
    vcartAfter 1524 (convertingVcart true .low 3) = some (.low, 0) ∧
    vcartAfter 1525 (convertingVcart true .low 2) = some (.low, 3) ∧
    vcartAfter 1525 (convertingVcart true .low 3) = some (.normal, 0) ∧
    vcartAfter 1424 (convertingVcart true .critical 3) = some (.critical, 0) ∧
    vcartAfter 1425 (convertingVcart true .critical 2) = some (.critical, 3) ∧
    vcartAfter 1425 (convertingVcart true .critical 3) = some (.low, 0) := by decide +kernel

/-- SupplyChangeReachesEveryBlock: into CRITICAL and out of it. -/
theorem test_witness_supply_change : vcartAfter 1399 (convertingVcart true .normal 0) ≠ some (.normal, 0) ∧
    vcartAfter 1425 (convertingVcart true .critical 3) ≠ some (.critical, 0) ∧ maskEnables ready.link.mask .supply = true := by
  decide +kernel

/-- An entry into CRITICAL, the controller in this state over bank B of slot 0: its state after it, and the queued reply's kind. -/
def onCritical (x : SaveState) : Option (SaveState × List Byte) :=
  let s := (busyWith x).withSupply (convertingVcart true .normal 0).supply
  match exec (.vcartResult ⟨1399, []⟩) s with
  | .next t => some (t.save.state, t.link.replies.map Reply.kind)
  | _ => none
/-- SupplyChangeReachesEveryBlock: every state of the save controller. -/
theorem test_witness_critical_in_each_state : onCritical .idle = some (.idle, []) ∧
    onCritical .loading = some (.idle, [0xB6]) ∧ onCritical .waitReserve = some (.idle, [0xB7]) ∧
    onCritical .copying = some (.idle, [0xB7]) ∧ onCritical .sealing = some (.sealing, []) ∧
    onCritical .verifying = some (.idle, [0xBB]) := by decide +kernel
/-- The change from CRITICAL to LOW with these turns: the override, both latched ceilings and the governor's. -/
def released (turns : List SupplyTurn) : Option (Override × Nat × Nat × Nat) :=
  let s := { convertingVcart true .critical 3 with
    governor := Governor.reset.takeSupply .critical
    mixer := { ready.mixer with override := .held }, rumble := { ready.rumble with supplyHold := true } }
  match exec (.vcartResult ⟨1425, turns⟩) s with
  | .next t => some (t.mixer.override, t.mixer.latchedMceil, t.rumble.latchedCeiling, t.governor.record.mceil)
  | _ => none
/-- The mixer's change, its latch, then the governor's: the override is CLEAR with latched Mceil 0, and the record has 160; with the
governor's change first the latch finds 160 and the override goes to RELEASING; with the mixer's change and the governor's both
before it, to CLEAR. -/
theorem test_witness_turns : released [] = some (.releasing, 0, 0, 160) ∧
    released [.mixer, .mixerMark] = some (.clear, 0, 0, 160) ∧
    released [.governor, .mixerMark] = some (.releasing, 160, 0, 160) ∧
    released [.governor, .mixer, .mixerMark] = some (.clear, 160, 0, 160) := by decide +kernel
/-- The driver's mark before the governor's change, and after it. -/
theorem test_witness_rumble_turns : released [.rumble, .rumbleMark] = some (.releasing, 0, 0, 160) ∧
    released [.governor, .rumbleMark] = some (.releasing, 0, 96, 160) := by decide +kernel

/-- VBAT is being converted. -/
def convertingVbat (x : BatteryState) (n : Nat) : State :=
  ready.withSupply { ready.supply with round := [.vbat, .imot], battery := x, batteryRecovery := n }
/-- VbatResultsFollowTheirTable: the counts where its rows meet, with threshold 2600. -/
theorem test_witness_vbat_rows : (convertingVbat .weak 3).supply.converting = .channel .vbat ∧
    judgeBattery .unknown 0 2599 2600 = (.weak, 0) ∧ judgeBattery .unknown 0 2600 2600 = (.good, 0) ∧
    judgeBattery .good 0 2599 2600 = (.weak, 0) ∧ judgeBattery .weak 3 2649 2600 = (.weak, 0) ∧
    judgeBattery .weak 2 2650 2600 = (.weak, 3) ∧ judgeBattery .weak 3 2650 2600 = (.good, 0) := by decide +kernel

/-- RoundsAndBackVoltageRequests: a request of each kind, one merged with one outstanding among them. -/
theorem test_witness_rounds :
    (let s := (withDriver fun r => { r with applied := 1 }).withSupply { ready.supply with injected := .converting }
     0 < s.rumble.applied ∧ s.supply.injected ≠ .idle ∧ s.corePowered = true) ∧ ready.supply.round = [] ∧ (convertingVbat .good 0).supply.round ≠ [] ∧ ready.rumble.applied = 0 ∧
    0 < (withDriver fun r => { r with applied := 1 }).rumble.applied ∧ ready.supply.injected = .idle ∧
    ready.supply.calibration = none ∧ State.reset.supply.calibration ≠ none := by decide

/-- MotorResultsDetectStallAndTrip: duty 63 and 64, counts 39 and 40, run 1 and 2, counts 1000 and 1001. -/
theorem test_witness_motor_results :
    let s := (withDriver fun r => { r with applied := 64, bemfRun := 2 }).withSupply { ready.supply with injected := .converting }
    s.supply.converting = .injected ∧ 39 - s.supply.zeroOffset < s.rumble.settings.stall ∧
    s.rumble.settings.stall ≤ 40 - s.supply.zeroOffset ∧ s.rumble.settings.trip < 1001 ∧ 1000 ≤ s.rumble.settings.trip ∧
    (ready.withSupply { ready.supply with round := [.imot] }).supply.converting = .channel .imot := by decide

/-- CalibrationSetsTheZeroOffset: the seventh and the eighth conversion of both origins. -/
theorem test_witness_calibration :
    let c (n : Nat) (o : CalibrationOrigin) := ready.withSupply { ready.supply with calibration := some ⟨o, n, 70⟩ }
    (c 6 .startUp).supply.calibration = some ⟨.startUp, 6, 70⟩ ∧ (c 6 .startUp).supply.injected ≠ .converting ∧
    (c 7 (.requested 9)).supply.calibration = some ⟨.requested 9, 7, 70⟩ ∧
    Takes ready (.calibrateMotorSense 7) [] ∧ ready.supply.calibration = none ∧ ready.rumble.state = .idle ∧
    Takes (withDriver fun r => { r with state := .fault }) (.calibrateMotorSense 7) [] ∧
    (withDriver fun r => { r with state := .fault }).rumble.state ≠ .idle := by
  unfold Takes State.Serves; decide +kernel

/-- SupplySetWritesAndSupplyReadReports: the ends of the ranges, and 24 less than the low threshold refused. -/
theorem test_witness_supply_set : Takes ready (.supplySet 7 1500 1475 5 2000) (zeros 8) ∧ supplySetOk 1200 1100 5 2000 = true ∧ supplySetOk 1700 1650 100 3000 = true ∧
    supplySetOk 1500 1475 5 2000 = true ∧ supplySetOk 1500 1476 5 2000 = false ∧ supplySetOk 1199 1100 5 2000 = false ∧
    supplySetOk 1701 1650 5 2000 = false := by
  unfold Takes State.Serves; decide +kernel

/-- BudgetRequestsAndTheirArithmetic: its hypothesis, and the clamps' ends. -/
theorem test_witness_budget : Takes ready (.budgetSet 7 59 401) (zeros 4) ∧ clampBudget 59 = 60 ∧ clampBudget 401 = 400 ∧
    clampImax 19 = 20 ∧ clampImax 401 = 400 := by
  unfold Takes State.Serves; decide +kernel

/-! ### Sound -/

/-- VoiceSetWritesThePendingRecord: a wave that ends at the end of wave memory, and one byte beyond it. -/
theorem test_witness_voice_set : Takes ready (.voiceSet 7 7 { noVoiceFields with waveStart := some 8191 }) [7, 0, 8, 0x1F, 0xFF] ∧
    Takes ready (.voiceSet 7 8 noVoiceFields) [8, 0, 0] ∧
    (let f := { noVoiceFields with waveStart := some 8191 }
     f.namesField = true ∧ f.singlesOk = true ∧ 8191 + (ready.voice.voices.get 7).waveLength ≤ 8192) ∧
    8192 < 8191 + 2 ∧ noVoiceFields.namesField = false ∧ setModeOk (.is .stream) = false := by
  unfold Takes State.Serves; decide +kernel

/-- KeysVoiceReadAndWaveRequests: the last byte of wave memory, and one beyond it. -/
theorem test_witness_wave : Takes ready (.waveWrite 7 8191 [5]) [0x1F, 0xFF, 5] ∧
    Takes ready (.waveWrite 7 8191 [5, 6]) [0x1F, 0xFF, 5, 6] ∧ ready.voice.wave.wf = true ∧ 8191 + ([5] : List Byte).length ≤ 8192 ∧
    8192 < 8191 + ([5, 6] : List Byte).length ∧ 64 < (List.replicate 65 (0 : Byte)).length := by
  unfold Takes State.Serves; decide +kernel

/-- A TABLE voice in this envelope state at this level. -/
def playing (e : EnvelopeState) (level : Nat) (p : PendingVoice) : State :=
  withVoice0 (fun r => { r with mode := .table, envState := e, envLevel := level, attackRate := 10, sustainLevel := 200,
                                releaseRate := 30 }) p
/-- Voice 0 after the latch: its mode, envelope state and level. -/
def latched (s : State) : Option (VoiceMode × EnvelopeState × Nat) :=
  match exec .voiceLatch s with
  | .next t => let r := t.voice.voices.get 0; some (r.mode, r.envState, r.envLevel)
  | _ => none

/-- VoiceLatchTakesThePendingRecords: a start, a start with key OFF, the three envelope states where their rows meet, mode
OFF, a new wave, and a stream that closes. -/
theorem test_witness_voice_latch :
    latched (withVoice0 id { PendingVoice.empty with key := some .on }) = some (.table, .sustain, 255) ∧
    latched (withVoice0 id { PendingVoice.empty with mode := some .table, key := some .off }) = some (.off, .release, 0) ∧
    latched (playing .attack 189 .empty) = some (.table, .attack, 199) ∧
    latched (playing .attack 190 .empty) = some (.table, .sustain, 200) ∧
    latched (playing .sustain 190 .empty) = some (.table, .sustain, 200) ∧
    latched (playing .release 31 .empty) = some (.table, .release, 1) := by decide +kernel
theorem test_witness_voice_latch_ends :
    latched (playing .release 30 .empty) = some (.off, .release, 0) ∧
    latched (playing .sustain 200 { PendingVoice.empty with key := some .off }) = some (.table, .release, 170) ∧
    latched (playing .sustain 200 { PendingVoice.empty with mode := some .off }) = some (.off, .release, 0) ∧
    latched (playing .sustain 200 { PendingVoice.empty with waveLength := some 2 }) = some (.table, .sustain, 200) ∧
    latched (withVoice0 (fun r => { r with mode := .stream }) { PendingVoice.empty with mode := some .off }) =
      some (.off, .release, 0) ∧
    latched (withVoice0 id { PendingVoice.empty with mode := some .stream, streamOpen := true }) =
      some (.stream, .release, 0) := by decide +kernel

/-- VoiceLatchTakesThePendingRecords: an OFF voice that is not started, a STREAM voice that stays, and one whose stream closes with
two blocks held. -/
theorem test_witness_voice_latch_rest :
    latched (withVoice0 id { PendingVoice.empty with volume := some 3 }) = some (.off, .release, 0) ∧
    latched (withVoice0 (fun r => { r with mode := .stream }) .empty) = some (.stream, .release, 0) ∧
    (let s : State := (ready.withVoice { ready.voice with
       voices := ready.voice.voices.modify 1 fun r => { r with mode := .stream }
       pendings := ready.voice.pendings.set 1 { PendingVoice.empty with mode := some .off } }).withStream
         { ready.stream with freeSlots := 46
                             records := ready.stream.records.modify 1 fun r =>
                               { r with state := .play, held := [⟨5, samples⟩, ⟨6, samples⟩] } }
     (match exec .voiceLatch s with
      | .next t => some (t.stream.freeSlots, (t.stream.records.get 1).state, (t.stream.records.get 1).held)
      | _ => none) = some (48, .closed, [])) := by decide +kernel

/-- Voice 1's record in a state, waiting for block 5 with depth 2 and limit 3, holding these blocks. -/
def stream1 (x : StreamState) (held : List Byte) : StreamRecord → StreamRecord :=
  fun r => { r with state := x, x := 5, depth := 2, limit := 3, held := held.map fun q => ⟨q, samples⟩ }
/-- The counters of voice 1 after a block: late, duplicate, overrun, exhausted, unbound, resync, and blocks held. -/
def blockAfter (q : Byte) (s : State) : Option (StreamState × List Byte × List Nat) :=
  match exec (.streamBlock q (1 :: samples)) s with
  | .next t =>
    let r := t.stream.records.get 1
    let c := r.counters
    some (r.state, r.held.map Block.seq, [c.unbound, c.late, c.overrun, c.resync, c.duplicate, c.exhausted, c.reordered])
  | _ => none

/-- StreamBlocksAreJudgedInOrder and FillingStreamsFollowTheirBlocks: distances 2, 3, 127 and 128, where their cases meet. -/
theorem test_witness_stream_blocks :
    (withRecord (stream1 .play [])).Selected ∧ ready.link.deframer = .between ∧ samples.length = 64 ∧
    blockAfter 5 (withRecord (stream1 .closed [])) = some (.closed, [], [1, 0, 0, 0, 0, 0, 0]) ∧
    blockAfter 133 (withRecord (stream1 .play [])) = some (.play, [], [0, 1, 0, 0, 0, 0, 0]) ∧
    blockAfter 132 (withRecord (stream1 .play [])) = some (.play, [], [0, 0, 1, 0, 0, 0, 0]) := by
  refine ⟨by unfold State.Selected; decide, ?_⟩; decide +kernel
theorem test_witness_stream_blocks_in_the_window :
    blockAfter 8 (withRecord (stream1 .play [])) = some (.play, [], [0, 0, 1, 0, 0, 0, 0]) ∧
    blockAfter 7 (withRecord (stream1 .play [])) = some (.play, [7], [0, 0, 0, 0, 0, 0, 0]) ∧
    blockAfter 7 (withRecord (stream1 .play [7])) = some (.play, [7], [0, 0, 0, 0, 1, 0, 0]) ∧
    blockAfter 6 (withRecord (stream1 .play [7])) = some (.play, [6, 7], [0, 0, 0, 0, 0, 0, 1]) := by decide +kernel
theorem test_witness_filling_streams :
    blockAfter 6 ((withRecord (stream1 .play [])).withStream
      { (withRecord (stream1 .play [])).stream with freeSlots := 0 }) = some (.play, [], [0, 0, 0, 0, 0, 1, 0]) ∧
    blockAfter 8 (withRecord (stream1 .fill [6])) = some (.fill, [8], [0, 0, 0, 1, 0, 0, 0]) ∧
    blockAfter 7 (withRecord (stream1 .fill [6])) = some (.fill, [6, 7], [0, 0, 0, 0, 0, 0, 0]) ∧
    blockAfter 5 (withRecord (stream1 .starved [6])) = some (.play, [5, 6], [0, 0, 0, 0, 0, 0, 1]) := by decide +kernel

/-- A block for voice 8 and one of 3 bytes: the stray count and the link's BAD_LENGTH. -/
theorem test_witness_blocks_that_fit_no_record : (8 : Byte).toNat = 8 ∧ samples.length = 64 ∧ ([1, 2, 3] : List Byte).length ≠ 65 ∧
    (match exec (.streamBlock 5 (8 :: samples)) ready with | .next t => t.stream.stray | _ => 0) = 1 ∧
    (match exec (.streamBlock 5 [1, 2, 3]) ready with | .next t => t.link.counters.badLength | _ => 0) = 1 := by decide +kernel

/-- StreamRequestsOpenCloseAndReport: the ends of its ranges. -/
theorem test_witness_stream_requests : Takes ready (.streamOpen 7 1 255 2 16) (zeros 4) ∧ Takes ready (.streamClose 7 1) [1] ∧
    Takes (withRecord (stream1 .fill [])) (.streamClose 7 1) [1] ∧ (255 ≤ 255 ∧ 2 ≤ 2 ∧ 2 ≤ 16 ∧ 16 ≤ 16) ∧ 255 < 256 ∧ 16 < 17 ∧
    (ready.stream.records.get 1).state = .closed ∧ ((withRecord (stream1 .fill [])).stream.records.get 1).state ≠ .closed := by
  unfold Takes State.Serves; decide +kernel

/-- PlayoutTakesOneBlockAPeriod: block X held, and the first, second and third missing period. -/
theorem test_witness_playout : ready.corePowered = true ∧
    (((withRecord (stream1 .play [5])).stream.records.get 1).held.find? fun b => b.seq == 5) = some ⟨5, samples⟩ ∧
    ((withRecord (stream1 .play [6])).stream.records.get 1).holds 5 = false ∧
    ((withRecord fun r => { stream1 .play [] r with missingRun := 2 }).stream.records.get 1).missingRun = 2 ∧
    conditioned 1 [0xFF, 5] = [0xFF, 2] ∧ conditioned 2 [0xFC, 5] = [0xFF, 1] := by decide +kernel

/-- MixSettingsArePendingUntilTheLatch: the ends of its ranges. -/
theorem test_witness_mix_set : Takes ready (.mixSet 7 ⟨some 255, none, none, none, none, false⟩) [1, 255] ∧
    MixSetFields.ok ⟨some 255, none, none, some 511, some 1, false⟩ = true ∧
    MixSetFields.ok ⟨some 256, none, none, none, none, false⟩ = false ∧
    MixSetFields.ok ⟨none, none, none, some 512, none, false⟩ = false ∧
    MixSetFields.ok ⟨none, none, none, none, some 0, false⟩ = false ∧
    MixSetFields.ok ⟨none, none, none, none, none, false⟩ = false := by
  unfold Takes State.Serves; decide +kernel

/-- OutputSampleMixesTheVoices: a position inside the wave, a ONCE wave that ends, a LOOP wave that goes round. -/
theorem test_witness_output_sample :
    let v (m : LoopMode) (n : Nat) : State :=
      withVoice0 (fun r => { r with mode := .table, waveLength := n, loopStart := 1, loopMode := m, posInt := 1 }) .empty
    let pos (s : State) : Option (VoiceMode × Nat) := match exec .outputSample s with
      | .next t => some ((t.voice.voices.get 0).mode, (t.voice.voices.get 0).posInt)
      | _ => none
    ready.corePowered = true ∧ pos (v .once 3) = some (.table, 2) ∧ pos (v .once 2) = some (.off, 0) ∧
    pos (v .loop 2) = some (.table, 1) := by decide +kernel

/-- Two loud voices clip, with no clip counted in the period and with one: the code, the count, the mark and the CLIP notice. -/
theorem test_witness_clip :
    let loud (r : VoiceRecord) : VoiceRecord := { r with mode := .table, waveLength := 9, envLevel := 255 }
    let s (clipNow : Bool) : State := (ready.withVoice { ready.voice with
      wave := [(0, 0x7F)], voices := (ready.voice.voices.modify 0 loud).modify 1 loud }).withMixer
        { ready.mixer with latchedMceil := 255, clipNow := clipNow, inForce := { ready.mixer.inForce with master := 255 } }
    let after (s : State) : Option (Nat × Nat × Bool × Option Nat) := match exec .outputSample s with
      | .next t => some (t.mixer.code, t.mixer.clipCount, t.mixer.clipNow, t.link.notices.clip)
      | _ => none
    after (s false) = some (1023, 1, true, some 1) ∧ after (s true) = some (1023, 0, true, none) := by decide +kernel

/-- The tone after a sample: the count one below the half period, and at it. -/
theorem test_witness_tone_phase :
    let s (n : Nat) : State := ready.withMixer { ready.mixer with
      inForce := { ready.mixer.inForce with tone := true, halfPeriod := 3 }, toneCount := n }
    let tone (s : State) : Option (Bool × Nat) := match exec .outputSample s with
      | .next t => some (t.mixer.tonePositive, t.mixer.toneCount)
      | _ => none
    tone (s 1) = some (true, 2) ∧ tone (s 2) = some (false, 0) := by decide +kernel

/-! ### Rumble -/

/-- The driver with this many queued steps at priority 2. -/
def queued (n : Nat) : State :=
  withDriver fun r => { r with state := .running, queue := List.replicate n ⟨9, 1, .hold, 1, 0⟩, priority := some 2 }
/-- The status of a Rumble Play of two steps; `mode` is the code of `m`. -/
def played (m : PlayMode) (mode p : Nat) (s : State) : Option Status :=
  statusOf s (.rumblePlay 1 (.is m) p [⟨100, 0, .is .ramp⟩, ⟨0, 255, .is .hold⟩])
    [BitVec.ofNat 8 mode, BitVec.ofNat 8 p, 2, 100, 0, 1, 0, 255, 0]

/-- RumblePlayIsJudgedByPriority: every answer of its list, 14 and 15 steps held. -/
theorem test_witness_rumble_play :
    Takes ready (.rumblePlay 7 (.is .append) 3 [⟨100, 0, .is .ramp⟩]) [0, 3, 1, 100, 0, 1] ∧
    played .append 0 0 (withDriver fun r => { r with state := .fault }) = some .faulted ∧
    played .append 0 0 (withDriver fun r => { r with calibrating := true }) = some .busy ∧ played .append 0 3 ready = some .ok ∧
    played .replace 1 1 (queued 1) = some .outranked ∧ played .replace 1 2 (queued 16) = some .ok ∧
    played .append 0 3 (queued 16) = some .ok ∧ played .append 0 2 (queued 14) = some .ok ∧
    played .append 0 2 (queued 15) = some .queueFull ∧ played .append 0 4 ready = some .badField := by
  unfold Takes State.Serves; decide +kernel

/-- RumbleRequestsStopSetClearAndReport: both clears, and the ends of Rumble Set's ranges. -/
theorem test_witness_rumble_requests : Takes (withDriver fun r => { r with state := .fault }) (.rumbleClear 7) [] ∧ ready.rumble.state ≠ .fault ∧
    RumbleSetFields.ok ⟨some 16, none, some 4095, some 20, none, false⟩ = true ∧
    RumbleSetFields.ok ⟨none, none, none, some 1000, none, false⟩ = true ∧
    RumbleSetFields.ok ⟨some 3, none, none, none, none, false⟩ = false ∧
    RumbleSetFields.ok ⟨none, none, some 4096, none, none, false⟩ = false ∧
    RumbleSetFields.ok ⟨none, none, none, some 19, none, false⟩ = false ∧
    RumbleSetFields.ok ⟨none, none, none, some 1001, none, false⟩ = false := by
  unfold Takes State.Serves; decide +kernel

/-- The queue, the requested level, the duty and the state after a period mark. -/
def mark (s : State) : Option (List EffectStep × Nat × Nat × DriverState) :=
  match exec .rumblePeriodMark s with
  | .next t => some (t.rumble.queue, t.rumble.requested, t.rumble.applied, t.rumble.state)
  | _ => none
/-- A driver RUNNING these steps, driven before. -/
def running (l : List EffectStep) : State :=
  withDriver fun r => { r with state := .running, queue := l, priority := some 1, applied := 5 }
/-- RumblePeriodMarkAdvancesAndDrives: queues that start, go on, move on and drain; the kick; a commit that waits. -/
theorem test_witness_rumble_mark :
    mark (running [⟨100, 2, .ramp, 0, 0⟩]) = some ([⟨100, 2, .ramp, 1, 0⟩], 50, 50, .running) ∧
    mark (running [⟨100, 2, .ramp, 1, 0⟩]) = some ([⟨100, 2, .ramp, 2, 0⟩], 100, 100, .running) ∧
    mark (running [⟨100, 2, .hold, 2, 0⟩, ⟨7, 1, .hold, 0, 0⟩]) = some ([⟨7, 1, .hold, 1, 0⟩], 7, 7, .running) := by
  decide +kernel
theorem test_witness_rumble_mark_ends :
    mark (running [⟨100, 2, .hold, 2, 0⟩]) = some ([], 0, 0, .idle) ∧
    mark (withDriver fun r => { r with state := .running, queue := [⟨7, 1, .hold, 0, 0⟩], priority := some 1 }) =
      some ([⟨7, 1, .hold, 1, 0⟩], 7, 243, .running) ∧
    ({ copying with save := { copying.save with state := .waitReserve } } : State).governor.record.reserve = true := by
  decide +kernel

/-- The slot of a waiting commit after the mark on which its target is invalidated, and the points of a carrier cycle. -/
theorem test_witness_target_invalidated :
    let s : State := { copying with save := { copying.save with state := .waitReserve } }
    let entry : Option SlotEntry := match exec .rumblePeriodMark s with
      | .next t => some (t.save.entry 0)
      | _ => none
    s.save.state = .waitReserve ∧ s.governor.record.reserve = true ∧
    entry.map SlotEntry.condition = some .valid ∧ entry.map SlotEntry.highest = some 2 ∧
    entry.map (fun e => e.standings.get .b) = some .neverWritten ∧
    (let r := { ready.rumble with state := .running, applied := 5 }
     r.motorOn 4 = true ∧ r.motorOn 5 = false) := by decide +kernel

/-! ### Calendar, game days, events -/

/-- `ready` with a valid clock and record. -/
def dated (s : Instant) (highWater : Int) : State := withDays ready (recordAt highWater) (clockAt s)

/-- CalendarRequestsReadAndSet: a date refused, CRITICAL, and entries that the set makes due or not. -/
theorem test_witness_calendar : Takes ready (.calendarSet 7 ⟨⟨2199, 12, 31, 23, 59, 59⟩, false⟩) (zeros 7) ∧
    Takes (inSupply .critical) (.calendarSet 7 ⟨⟨2199, 12, 31, 23, 59, 59⟩, true⟩) (zeros 7) ∧ (DateTime.mk 2199 12 31 23 59 59).ok = true ∧
    (DateTime.mk 2199 12 32 0 0 0).ok = false ∧ (inSupply .critical).supply.supply = .critical ∧
    ready.supply.supply ≠ .critical ∧ (armed (.gameDay 5) .absent).isDue (recordAt 3) ⟨0, 0⟩ = true ∧
    (armed (.gameDay 6) .absent).isDue (recordAt 3) ⟨0, 0⟩ = false ∧
    (armed (.daily 5) (.at ⟨1, 5⟩)).isDue (recordAt 3) ⟨1, 5⟩ = true ∧
    (armed (.daily 5) .beyondRange).isDue (recordAt 3) ⟨73048, 86399⟩ = false := by
  unfold Takes State.Serves; decide +kernel
/-- The counter and the high-water mark after a Calendar Set to day 3 that a tick into day 4 comes with. -/
def setBack (ticked : Bool) : Option (Nat × Int) :=
  match exec (.calendarSet 7 ⟨⟨2000, 1, 4, 0, 0, 0⟩, ticked⟩) (handing (.calendarSet 7 ⟨⟨2000, 1, 4, 0, 0, 0⟩, ticked⟩) (zeros 7) (dated ⟨3, 86399⟩ 3)) with
  | .next t => some (t.record.counter, t.record.highWater)
  | _ => none
/-- A backward Set at a crossing: the second event carries day 4, though the calendar is set to day 3. -/
theorem test_witness_calendar_set_at_a_crossing : (dated ⟨3, 86399⟩ 3).backup.powered = true ∧
    (dated ⟨3, 86399⟩ 3).link.catchUpDone = true ∧
    Takes (dated ⟨3, 86399⟩ 3) (.calendarSet 7 ⟨⟨2000, 1, 4, 0, 0, 0⟩, true⟩) (zeros 7) ∧ setBack false = some (5, 3) ∧
    setBack true = some (6, 4) := by
  unfold Takes State.Serves; decide +kernel

/-- SecondTickCountsAndFires: the last second of a day and of the range, a crossing, a jump, and neither. -/
theorem test_witness_second_tick : (dated ⟨3, 86399⟩ 3).backup.powered = true ∧ (dated ⟨3, 86399⟩ 3).now.day < 73048 ∧
    gameDayIndex 0 ⟨4, 0⟩ = (dated ⟨3, 86399⟩ 3).record.highWater + 1 ∧
    (dated ⟨3, 86399⟩ 2).record.highWater + 1 < gameDayIndex 0 ⟨4, 0⟩ ∧
    gameDayIndex 0 ⟨4, 0⟩ ≤ (dated ⟨3, 86399⟩ 4).record.highWater ∧ 86399 ≤ (dated ⟨73048, 86399⟩ 3).now.second ∧
    73048 ≤ (dated ⟨73048, 86399⟩ 3).now.day ∧ ({ off with backup := .lost } : State).backup.powered = false ∧
    (dated ⟨3, 5⟩ 3).corePowered = true ∧ (dated ⟨3, 5⟩ 3).link.catchUpDone = true := by decide +kernel

/-- The GAMEDAY notice after a command. -/
def gameDayNotice (c : Instr) (s : State) : Option GameDayNotice :=
  match exec c s with
  | .next t => t.link.notices.gameDay
  | _ => none
/-- CalendarRequestsReadAndSet and SecondTickCountsAndFires: a CATCH_UP and a REWIND of a set, a crossing's notice, and a CATCH_UP of a
second event. -/
theorem test_witness_game_day_notices_of_a_set :
    let set (day : Nat) : Instr := .calendarSet 7 ⟨⟨2000, 1, day, 0, 0, 0⟩, false⟩
    gameDayNotice (set 9) (handing (set 9) (zeros 7) (dated ⟨3, 5⟩ 3)) = some ⟨.catchUp, true, 7, 8, 8, 2, 3, false⟩ ∧
    gameDayNotice (set 2) (handing (set 2) (zeros 7) (dated ⟨3, 5⟩ 3)) = some ⟨.rewind, true, 5, 3, 1, 0, 0, true⟩ ∧
    gameDayNotice .secondTick (dated ⟨3, 86399⟩ 3) = some ⟨.crossing, true, 6, 4, 4, 1, 0, false⟩ ∧
    gameDayNotice .secondTick (dated ⟨9, 5⟩ 3) = some ⟨.catchUp, true, 7, 9, 9, 2, 4, false⟩ := by decide +kernel

/-- DatesAndInstantsNameEachOther: the first and the last. -/
theorem test_witness_dates : (DateTime.mk 2000 1 1 0 0 0).ok = true ∧ (DateTime.mk 2199 12 31 23 59 59).ok = true ∧
    (Instant.mk 73048 86399).dateTime = ⟨2199, 12, 31, 23, 59, 59⟩ := by decide +kernel

/-- GameDayRequestsStartReportAndClear: the ends of its ranges and each refusal's state. -/
theorem test_witness_game_days : Takes (dated ⟨3, 5⟩ 3) (.gameDayStart 7 999999 86399 65535) (zeros 8) ∧ (999999 ≤ 999999 ∧ 86399 ≤ 86399 ∧ 1 ≤ 1 ∧ 65535 ≤ 65535) ∧
    ¬(1000000 ≤ 999999) ∧ ready.backup.calendar.valid = false ∧ (dated ⟨3, 5⟩ 3).backup.calendar.valid = true ∧
    ready.record.valid = false ∧ (dated ⟨3, 5⟩ 3).record.rewind = false ∧
    Takes (withDays ready { recordAt 3 with rewind := true } (clockAt ⟨0, 0⟩)) (.gameDayClearRewind 7) [] ∧
    (withDays ready { recordAt 3 with rewind := true } (clockAt ⟨0, 0⟩)).record.rewind = true := by
  unfold Takes State.Serves; decide +kernel

/-- EventSetArmsAndJudgesAnEntry: the greatest game-day value, each trigger kind, due and not, and each refusal's state. -/
theorem test_witness_event_set : Takes (dated ⟨3, 5⟩ 3) (.eventSet 7 0 (.gameDay 1073048) (some 0) (.is false)) (zeros 11) ∧
    ((dated ⟨3, 5⟩ 3).entry 0).state ≠ .fired ∧
    Takes (withEntry { armed (.gameDay 0) .absent with state := .fired }) (.eventSet 7 0 (.gameDay 5) none (.is false)) (zeros 11) ∧
    Takes (dated ⟨3, 5⟩ 3) (.eventSet 7 16 .other (some 8) .other) (zeros 11) ∧
    ready.record.valid = false ∧ ready.backup.calendar.valid = false := by
  unfold Takes State.Serves; decide +kernel
theorem test_witness_event_triggers : (Trigger.gameDay 1073048).SpelledBy (.gameDay 1073048) ∧
    (Trigger.daily 86399).SpelledBy (.daily 23 59 59) ∧
    (Trigger.dateTime ⟨73048, 86399⟩).SpelledBy (.dateTime ⟨2199, 12, 31, 23, 59, 59⟩) ∧
    (armed (.gameDay 5) .absent).Met (recordAt 3) ⟨3, 5⟩ ∧ ¬(armed (.gameDay 6) .absent).Met (recordAt 3) ⟨3, 5⟩ :=
  ⟨⟨by decide, rfl⟩, ⟨by decide, by decide, by decide, rfl⟩, ⟨by decide +kernel, by decide +kernel⟩, ⟨rfl, by decide⟩,
    fun h => absurd h.2 (by decide)⟩

/-- An event that fires at once with a defined cue, not quantized: what its start comes to. -/
theorem test_witness_event_starts_a_cue :
    let c : Instr := .eventSet 7 0 (.gameDay 5) (some 0) (.is false)
    let s : State := { dated ⟨3, 5⟩ 3 with cue := (withCue0 aCue id).cue }
    Takes s c (zeros 11) ∧ s.cue.table.get 0 = some aCue ∧ maskEnables s.link.mask .cue = true ∧
    (match exec c (handing c (zeros 11) s) with | .next t => t.link.notices.cue | _ => none) =
      some ⟨.acted .played .played, 0, 0⟩ := by
  unfold Takes State.Serves; decide +kernel

/-- An event of entry 0 fires at once and starts cue 0, quantized or not: the CUE notice and how many starts wait. -/
def eventStarts (q : Bool) (s : State) : Option (Option CueNotice × Nat) :=
  let c : Instr := .eventSet 7 0 (.gameDay 5) (some 0) (.is q)
  match exec c (handing c (zeros 11) { s with backup := (dated ⟨3, 5⟩ 3).backup }) with
  | .next t => some (t.link.notices.cue, t.cue.starts.length)
  | _ => none
/-- EventSetArmsAndJudgesAnEntry: an undefined cue, and a quantized start behind three and behind four that wait. -/
theorem test_witness_event_starts : eventStarts false ready = some (some ⟨.noCue, 0, 0⟩, 0) ∧
    eventStarts true ready = some (some ⟨.noCue, 0, 0⟩, 0) ∧
    eventStarts true (withCue0 aCue fun c => { c with starts := List.replicate 3 ⟨0, .event 1⟩ }) = some (none, 4) ∧
    eventStarts true (withCue0 aCue fun c => { c with starts := List.replicate 4 ⟨0, .event 1⟩ }) =
      some (some ⟨.dropped, 0, 0⟩, 4) := by decide +kernel

/-- Entries 2 and 5 ARMED, the first for a day count of 6 or less, the second for second 0 of the day, both with a cue, on the last
second of `day`, of which the record knows. -/
def twoCues (day : Nat) (quantize : Bool) : State :=
  let s := (dated ⟨day, 86399⟩ 3).setEvent 2 { armed (.gameDay 6) .absent with cue := some 0, quantize := quantize }
  { s.setEvent 5 { armed (.daily 0) (.at ⟨4, 0⟩) with cue := some 7 } with cue := (withCue0 aCue id).cue }
/-- What has been started: the key of voice 0, the driver's steps, the starts that wait, the CUE notice and the EVENTS set. -/
structure Started where
  key : Option Key
  steps : Nat
  starts : List PendingStart
  cue : Option CueNotice
  events : List (Fin 16)
  deriving DecidableEq, Repr
/-- What has been started after a command. -/
def startedBy (c : Instr) (s : State) : Option Started :=
  match exec c s with
  | .next t => some ⟨(t.voice.pendings.get 0).key, t.rumble.queue.length, t.cue.starts, t.link.notices.cue, t.link.notices.events⟩
  | _ => none
/-- SecondTickCountsAndFires: two firings on time at a crossing, in entry-number order, the first acting or waiting and the second
naming no defined cue; the same entries fired late, when three days have passed, start nothing. -/
theorem test_witness_firings_start_their_cues :
    startedBy .secondTick (twoCues 3 false) = some ⟨some .on, 1, [], some ⟨.noCue, 7, 5⟩, [2, 5]⟩ ∧
    startedBy .secondTick (twoCues 3 true) = some ⟨none, 0, [⟨0, .event 2⟩], some ⟨.noCue, 7, 5⟩, [2, 5]⟩ ∧
    startedBy .secondTick (twoCues 6 false) = some ⟨none, 0, [], none, [2, 5]⟩ := by decide +kernel
/-- GameDayRequestsStartReportAndClear: a Game Day Start whose count makes one of the two due, and one that makes none. -/
theorem test_witness_game_day_start_starts_a_cue :
    let begin' (n : Nat) : Instr := .gameDayStart 7 n 0 1
    let s := { twoCues 3 false with backup := { (twoCues 3 false).backup with calendar := clockAt ⟨3, 5⟩ } }
    startedBy (begin' 6) (handing (begin' 6) (zeros 8) s) = some ⟨some .on, 1, [], some ⟨.acted .played .played, 0, 2⟩, [2]⟩ ∧
    startedBy (begin' 5) (handing (begin' 5) (zeros 8) s) = some ⟨none, 0, [], none, []⟩ := by decide +kernel
/-- CalendarRequestsReadAndSet: the firings of a second event taken after the clock-set event. -/
theorem test_witness_ticked_set_starts_a_cue :
    let c : Instr := .calendarSet 7 ⟨⟨2000, 1, 4, 0, 0, 0⟩, true⟩
    startedBy c (handing c (zeros 7) (twoCues 3 false)) = some ⟨some .on, 1, [], some ⟨.noCue, 7, 5⟩, [2, 5]⟩ := by
  decide +kernel

/-- EventClearFreesAnEntryAndListReports. -/
theorem test_witness_event_clear : Takes ready (.eventClear 7 15) [15] ∧ Takes ready (.eventClear 7 16) [16] ∧
    (ready.entry 15).state = .free ∧ Takes (withEntry (armed (.daily 5) .absent)) (.eventClear 7 0) [0] ∧
    ((withEntry (armed (.daily 5) .absent)).entry 0).state ≠ .free ∧ ready.supply.supply ≠ .critical := by
  unfold Takes State.Serves; decide +kernel

/-! ### Cues -/

/-- CueTableIsDefinedAndStartsAreCancelled: a sound part that ends at the end of wave memory, and a list with two starts. -/
theorem test_witness_cue_table : Takes ready (.cueDefine 7 ⟨7, some aSound, .is false, none⟩) (zeros 20) ∧
    Takes (ready.withCue { ready.cue with starts := [⟨1, .request 4⟩, ⟨0, .event 3⟩] }) (.cueCancel 7 0) [0] ∧ (aCue.sound.isSome = true ∨ aCue.rumble.isSome = true) ∧
    (8191 + 1 ≤ 8192 ∧ 0 < 1) ∧ CueFields.stored ⟨7, some { aSound with waveStart := 8191 }, .is false, none⟩ =
      some (7, ⟨some { soundPart with waveStart := 8191 }, false, none⟩) ∧
    CueFields.stored ⟨8, some aSound, .is false, none⟩ = none ∧
    CueFields.stored ⟨0, none, .is false, none⟩ = none ∧
    (∀ x ∈ [(⟨1, .request 4⟩ : PendingStart)], x.cue ≠ 0) := by
  unfold Takes State.Serves; decide +kernel

/-- What an unquantised start of cue 0 comes to. -/
def started (s : State) : Option ReplyBody :=
  match exec (.cueStart 1 0 (.is false)) (handing (.cueStart 1 0 (.is false)) [0, 0] s) with
  | .next t => t.link.replies.getLast?.map Reply.body
  | _ => none

/-- CueStartActsOrWaits: both parts in each of their outcomes; three and four starts waiting. -/
theorem test_witness_cue_start : Takes (withCue0 aCue id) (.cueStart 1 0 (.is true)) [0, 0] ∧ (withCue0 aCue id).cue.table.get 0 = some aCue ∧
    started (withCue0 aCue id) = some (.cueReport 0 .played .played) ∧
    started ((withCue0 aCue id).writePending 0 fun p => { p with mode := some .stream }) =
      some (.cueReport 0 .skipped .played) ∧
    started ((withCue0 aCue id).withRumble { ready.rumble with state := .fault }) = some (.cueReport 0 .played .faulted) ∧
    started ((withCue0 aCue id).withRumble { ready.rumble with calibrating := true }) = some (.cueReport 0 .played .busy) ∧
    started ((withCue0 aCue id).withRumble (queued 1).rumble) = some (.cueReport 0 .played .outranked) ∧
    started (withCue0 ⟨none, true, some ⟨2, []⟩⟩ id) = some (.cueReport 0 .absent .played) ∧
    started (withCue0 { aCue with rumble := none } id) = some (.cueReport 0 .played .absent) ∧
    (ready.cue.table.get 0) = none ∧ (withCue0 aCue fun c => { c with starts := List.replicate 3 ⟨0, .event 1⟩ }).cue.starts.length < 4 := by
  unfold Takes State.Serves; decide +kernel

/-- CueStartActsOrWaits: four starts waiting. -/
theorem test_witness_cue_start_queue_full :
    let s := withCue0 aCue fun c => { c with starts := List.replicate 4 ⟨0, .event 1⟩ }
    Takes s (.cueStart 1 0 (.is true)) [0, 0] ∧ 4 ≤ s.cue.starts.length ∧ s.cue.table.get 0 = some aCue ∧
    statusOf s (.cueStart 1 0 (.is true)) [0, 0] = some .queueFull := by
  unfold Takes State.Serves; decide +kernel

/-- CueMarksCountAndReleaseStarts: the 31st and the 32nd mark, countdowns at 1 and at 0, and a measure mark with a start. -/
theorem test_witness_cue_marks :
    let s (n : Nat) : State := withCue0 aCue fun c => { c with countdowns := c.countdowns.set 0 (some ⟨n, 0, true⟩) }
    let m : State := withCue0 aCue fun c => { c with measureDue := true, starts := [⟨0, .request 4⟩] }
    (s 1).cue.measureDue = false ∧ (s 1).cue.countdowns.get 0 = some ⟨1, 0, true⟩ ∧ (s 0).cue.countdowns.get 0 = some ⟨0, 0, true⟩ ∧
    m.cue.measureDue = true ∧ m.cue.starts = [⟨0, .request 4⟩] ∧ m.cue.table.get 0 ≠ none ∧
    (∀ v, m.cue.countdowns.get v = none) := by decide +kernel
/-- Work left over at the next period mark: a countdown at 0, and a measure mark with no start and with one. -/
theorem test_witness_work_left_over :
    let s : State := withCue0 aCue fun c => { c with countdowns := c.countdowns.set 2 (some ⟨0, 0, true⟩) }
    let m (l : List PendingStart) : State := withCue0 aCue fun c => { c with measureDue := true, starts := l }
    let after (s : State) : Option (Option Key × Option Key × Bool × Nat) := match exec .cuePeriodMark s with
      | .next t => some ((t.voice.pendings.get 2).key, (t.voice.pendings.get 0).key, t.cue.measureDue, t.cue.periodCount)
      | _ => none
    s.cue.countdowns.get 2 = some ⟨0, 0, true⟩ ∧ after s = some (some .off, none, false, 1) ∧
    (m []).cue.measureDue = true ∧ (m []).cue.starts = [] ∧ after (m []) = some (none, none, false, 1) ∧
    after (m [⟨0, .event 3⟩]) = some (none, some .on, false, 1) := by decide +kernel
/-- A measure mark with a request's start and an event's: the replies and the CUE notice after it. -/
theorem test_witness_measure_in_order :
    let s : State := withCue0 aCue fun c => { c with measureDue := true, starts := [⟨0, .request 4⟩, ⟨0, .event 3⟩] }
    let after : Option (List Reply × Option CueNotice) := match exec .measureMark s with
      | .next t => some (t.link.replies, t.link.notices.cue)
      | _ => none
    s.cue.starts = ⟨0, .request 4⟩ :: [⟨0, .event 3⟩] ∧ maskEnables s.link.mask .cue = true ∧
    after = some ([⟨0xB1, 4, .ok, .cueReport 0 .played .played⟩], some ⟨.acted .played .played, 0, 3⟩) := by decide +kernel

/-! ### Save store -/

/-- StagingIsWrittenAndRead: the last byte of the staging area, each lock, and a load in progress. -/
theorem test_witness_staging : Takes ready (.stageWrite 7 3583 [5]) [0x0D, 0xFF, 5] ∧ 3583 + ([5] : List Byte).length ≤ 3584 ∧
    Takes ready (.stageWrite 7 3584 [5]) [0x0E, 0, 5] ∧ ¬3584 + ([5] : List Byte).length ≤ 3584 ∧
    Takes copying (.stageWrite 7 0 [5]) [0, 0, 5] ∧ copying.save.state = .copying ∧ ready.store.staging.wf = true ∧
    ready.save.state ≠ .loading ∧
    (let s := busyWith .loading
     Takes s (.stageRead 7 0 64) (zeros 3) ∧ s.save.state = .loading ∧ (s.save.entry s.save.opSlot).liveBank = some .a ∧
     s.save.moved ≤ s.save.length) := by
  unfold Takes State.Serves; decide +kernel

/-- StageLoadCopiesTheLivePayload: an EMPTY, a DAMAGED, a VALID and a VALID_FALLBACK slot, and a load in progress. -/
theorem test_witness_stage_load : Takes ready (.stageLoad 7 3) [3] ∧ (ready.save.entry 3).condition = .empty ∧
    ((withSlot (wrongPayload 2) .invalid).save.entry 0).condition = .damaged ∧
    Takes (withSlot (goodHeader 2) .invalid) (.stageLoad 7 0) [0] ∧
    ((withSlot (goodHeader 2) .invalid).save.entry 0).condition = .valid ∧
    ((withSlot (goodHeader 2) .invalid).save.entry 0).liveHeader = some (goodHeader 2) ∧
    ((withSlot (goodHeader 2) (wrongPayload 3)).save.entry 0).condition = .validFallback ∧
    (let s := busyWith .loading
     s.save.state = .loading ∧ (s.save.entry s.save.opSlot).liveHeader = some (goodHeader 2)) := by
  unfold Takes State.Serves; decide +kernel

/-- CommitBeginsAndAborts: both ends of the length, the last generation, each supply state, and a commit to abort. -/
theorem test_witness_commit : Takes ready (.commit 7 3 3584) [3, 14, 0] ∧ Takes ready (.commit 7 0 0) [0, 0, 0] ∧
    ready.save.state = .idle ∧ ready.supply.supply = .normal ∧ (ready.save.entry 0).highest ≠ 4294967295 ∧
    ((withSlot (goodHeader 4294967295) .invalid).save.entry 0).highest = 4294967295 ∧
    Takes (inSupply .low) (.commit 7 0 1) [0, 0, 1] ∧ Takes (inSupply .critical) (.commit 7 0 1) [0, 0, 1] ∧
    Takes (busyWith .waitReserve) (.commitAbort 7) [] ∧ (busyWith .waitReserve).save.state = .waitReserve ∧
    Takes copying (.commitAbort 7) [] ∧ copying.save.state = .copying ∧ Takes (busyWith .sealing) (.commitAbort 7) [] := by
  unfold Takes State.Serves; decide +kernel

/-- Whether bank B of slot 0 is valid after a seal, and the bank that a scan would then find live. -/
def sealedLive (s : State) : Option (Bool × Option Bank) :=
  match exec .sealComplete s with
  | .next t => some (t.store.valid 0 .b, scanLive t.store 0)
  | _ => none
/-- CopyAndSealMakeTheTargetLive, and what the seal makes of the slot. -/
theorem test_witness_copy_and_seal : copying.save.state = .copying ∧ copying.save.moved ≤ copying.save.length ∧
    (copying.store.bank 0 .b).wf = true ∧
    (let s := busyWith .sealing
     s.save.state = .sealing ∧ (s.save.entry 0).liveBank = some (Bank.other .b) ∧
     sealedLive s = some (true, some .b)) ∧
    (let s := withController fun c => { c with state := .sealing, opSlot := 1, target := .a, length := 3 }
     s.corePowered = true ∧ s.save.state = .sealing ∧ (s.save.entry 1).liveBank = none ∧
     (match exec .sealComplete s with | .next t => some ((t.save.entry 1).standings) | _ => none) =
       some ⟨.live, .neverWritten⟩) := by decide +kernel

/-- SlotsAreReadReportedAndErased: the last offset and the greatest count, and each condition. -/
theorem test_witness_slots : Takes ready (.slotRead 7 3 3583 64) (zeros 4) ∧ Takes ready (.slotInfo 7 4) [4] ∧
    Takes copying (.slotErase 7 0) [0] ∧ (3583 ≤ 3583 ∧ 64 ≤ 64) ∧ ¬3584 ≤ 3583 ∧ (ready.save.entry 3).condition = .empty ∧
    ((withSlot (wrongPayload 2) .invalid).save.entry 0).condition = .damaged ∧
    ((withSlot (goodHeader 2) .invalid).save.entry 0).liveBank = some .a ∧ copying.save.state ≠ .idle ∧
    ready.save.state = .idle := by
  unfold Takes State.Serves; decide +kernel

/-- SlotVerifyChecksTheLivePayload: a payload that matches, one that falls back, and one with nothing to fall back to. -/
theorem test_witness_slot_verify : Takes ready (.slotVerify 7 3) [3] ∧ (verifying (goodHeader 1)).save.state = .verifying ∧
    ((verifying (goodHeader 1)).save.entry 0).liveBank = some .a ∧
    (verifyOutcome (verifying (goodHeader 1)).store 0 ((verifying (goodHeader 1)).save.entry 0)).1 = .fellBack ∧
    (verifyOutcome (verifying .invalid).store 0 ((verifying .invalid).save.entry 0)).1 = .damaged ∧
    (verifyOutcome copying.store 0 (copying.save.entry 0)).1 = .matched := by
  unfold Takes State.Serves; decide +kernel

/-- SentFramesAreReceivedWhole: a body of 72 bytes; a state with one byte, and with two, to send; no power. -/
theorem test_witness_sent_frames : (List.replicate 72 (0xF9 : Byte)).length ≤ 72 ∧ ready.AtByteBoundary ∧
    ready.link.deframer = .between ∧ off.corePowered = false ∧
    (let s := ready.withLink { ready.link with tx := some ⟨.reply aReply, true⟩, out := [0xF9], delimiterSent := true }
     s.AtByteBoundary ∧ s.link.tx = some ⟨.reply aReply, true⟩) ∧
    (let s := ready.withLink { ready.link with tx := some ⟨.reply aReply, true⟩, out := [0xA5, 0xF9] }
     s.link.out = 0xA5 :: [0xF9] ∧ ([0xF9] : List Byte) ≠ [] ∧ s.sentByte.link.out = [0xF9]) ∧ ready.link.tx = none ∧ ready.link.out = [] := by
  unfold State.AtByteBoundary State.Selected; decide
/-- Eight clocks with the byte 0xA5 on LDI and nothing to send: a delimiter goes out, most significant bit first, and the byte
received begins a frame. -/
theorem test_one_byte_each_way :
    let c := ready.clock [true, false, true, false, false, true, false, true]
    c.1 = [some true, some true, some true, some true, some true, some false, some false, some true] ∧
    c.2.link.deframer = .inFrame [0xA5] false ∧ c.2.link.bitCount = 0 := by decide +kernel

end Sys2Proof.Tests
end

