-- ==== Sys2Proof/Proofs/SupplyMonitor.lean ====
section
/-! SUPPORT. The requests of the supply monitor: what Supply Set and Supply Read do when their owner takes them (R13, R14). -/

namespace Sys2Proof.Machine

/-! ## Supply Set -/

/-- The ranges of the four settings, and the critical threshold at least 25 below the low one (R13). -/
def SupplySettingsInRange (low critical hysteresis battery : Nat) : Prop :=
  (1200 ≤ low ∧ low ≤ 1700) ∧ (1100 ≤ critical ∧ critical ≤ 1650) ∧ critical + 25 ≤ low ∧
  (5 ≤ hysteresis ∧ hysteresis ≤ 100) ∧ (2000 ≤ battery ∧ battery ≤ 3000)

/-- The monitor with the four settings replaced, as a Supply Set leaves it (R13). -/
def SupplyMonitor.withSettings (m : SupplyMonitor) (low critical hysteresis battery : Nat) : SupplyMonitor :=
  { m with low := low, critical := critical, hysteresis := hysteresis, battThreshold := battery
           supplyRecovery := 0, batteryRecovery := 0 }

theorem supplySetOk_iff (low critical hysteresis battery : Nat) :
    supplySetOk low critical hysteresis battery = true ↔ SupplySettingsInRange low critical hysteresis battery := by
  simp only [supplySetOk, SupplySettingsInRange, Bool.and_eq_true, decide_eq_true_eq, and_assoc]

theorem takeSupplySet_of_inRange {low critical hysteresis battery : Nat}
    (h : SupplySettingsInRange low critical hysteresis battery) (s : State) :
    takeSupplySet low critical hysteresis battery s =
      accept (s.withSupply (s.supply.withSettings low critical hysteresis battery))
        (.supplySet low critical hysteresis battery) :=
  if_pos ((supplySetOk_iff _ _ _ _).2 h)

theorem takeSupplySet_of_not_inRange {low critical hysteresis battery : Nat}
    (h : ¬SupplySettingsInRange low critical hysteresis battery) (s : State) :
    takeSupplySet low critical hysteresis battery s = refuse s .badField :=
  if_neg fun ok => h ((supplySetOk_iff _ _ _ _).1 ok)

theorem exec_supplySet (tag : Byte) (low critical hysteresis battery : Nat) (s : State) :
    exec (.supplySet tag low critical hysteresis battery) s =
      serve (.supplySet tag low critical hysteresis battery) (takeSupplySet low critical hysteresis battery) s := rfl

/-- Settings in their ranges are written, in every supply state. -/
theorem exec_supplySet_accepted {s : State} {tag : Byte} {low critical hysteresis battery : Nat}
    (hs : s.Serves (.supplySet tag low critical hysteresis battery))
    (h : SupplySettingsInRange low critical hysteresis battery) :
    exec (.supplySet tag low critical hysteresis battery) s =
      .next ((s.withSupply (s.supply.withSettings low critical hysteresis battery)).replied Kind.supplySet tag .ok
        (.supplySet low critical hysteresis battery)) := by
  rw [exec_supplySet]
  exact serve_accepted rfl hs (takeSupplySet_of_inRange h s)

/-- A setting out of its range leaves all four as they are. -/
theorem exec_supplySet_refused {s : State} {tag : Byte} {low critical hysteresis battery : Nat}
    (hs : s.Serves (.supplySet tag low critical hysteresis battery))
    (h : ¬SupplySettingsInRange low critical hysteresis battery) :
    exec (.supplySet tag low critical hysteresis battery) s =
      .next (s.replied Kind.supplySet tag .badField .none) := by
  rw [exec_supplySet]
  exact serve_refused rfl hs (takeSupplySet_of_not_inRange h s)

/-! ## Supply Read -/

/-- What Supply Read reports of the monitor (R14). -/
def SupplyMonitor.report (m : SupplyMonitor) : ReplyBody :=
  .supplyRead m.vcart m.vbat m.imot m.bemfRaw m.bemfCorrected m.zeroOffset m.supply m.supplyRecovery m.battery
    m.batteryRecovery m.low m.critical m.hysteresis m.battThreshold m.skipped m.calibration.isSome

/-- The monitor after a Supply Read with this clear flag (R14). -/
def SupplyMonitor.afterRead (m : SupplyMonitor) (clear : Bool) : SupplyMonitor :=
  { m with skipped := if clear = true then 0 else m.skipped }

/-- The report is of the monitor before the count is cleared. -/
theorem takeSupplyRead_eq (clear : Bool) (s : State) :
    takeSupplyRead clear s = accept (s.withSupply (s.supply.afterRead clear)) s.supply.report := by
  cases clear with
  | true => rfl
  | false => rfl

theorem exec_supplyRead (tag : Byte) (clear : Bool) (s : State) :
    exec (.supplyRead tag clear) s = serve (.supplyRead tag clear) (takeSupplyRead clear) s := rfl

theorem exec_supplyRead_accepted {s : State} {tag : Byte} {clear : Bool} (hs : s.Serves (.supplyRead tag clear)) :
    exec (.supplyRead tag clear) s =
      .next ((s.withSupply (s.supply.afterRead clear)).replied Kind.supplyRead tag .ok s.supply.report) := by
  rw [exec_supplyRead]
  exact serve_accepted rfl hs (takeSupplyRead_eq clear s)

/-! ## The obligation -/

/-- Settles O23: Supply Set by its two cases, settings in their ranges or not; Supply Read by its one. -/
theorem supplySetWritesAndSupplyReadReports : Obligations.SupplySetWritesAndSupplyReadReports := by
  unfold Obligations.SupplySetWritesAndSupplyReadReports
  refine ⟨fun s tag low critical hysteresis battery hs => ⟨fun inRange => ?_, fun outOfRange => ?_⟩,
    fun s tag clear hs => ?_⟩
  · exact exec_supplySet_accepted hs inRange
  · exact exec_supplySet_refused hs outOfRange
  · exact exec_supplyRead_accepted hs

end Sys2Proof.Machine
end

