-- ==== Sys2Proof/Proofs/Governor.lean ====
section
/-! SUPPORT. The requests of the load governor: the record that Budget Set forms by the budget arithmetic, and what Budget Read
reports (R24 to R29). -/

namespace Sys2Proof.Machine

/-! ## The budget arithmetic -/

/-- The effective master volume of the inputs in force (R24). -/
def Governor.effectiveVolume (g : Governor) : Nat := min g.volume (masterCeiling g.supply)

/-- The headroom as R25 gives it: the budget less the three loads, a signed number, and 0 in place of one below 0. -/
def Governor.signedHeadroom (g : Governor) : Nat :=
  ((g.budget : Int) - 30 - audioEstimate g.effectiveVolume - (if g.busy = true then 25 else 0)).toNat

/-- Taking the loads away together, with a difference of naturals, holds the headroom at 0 from below as R25 says. -/
theorem Governor.form_headroom (g : Governor) : g.form.headroom = g.signedHeadroom := by
  have truncated : ∀ loads : Nat,
      g.budget - (30 + loads + saveReserve g.busy) =
        ((g.budget : Int) - 30 - loads - (if g.busy = true then 25 else 0)).toNat := by
    intro loads
    cases g.busy with
    | false => simp only [saveReserve, Bool.false_eq_true, if_false]; omega
    | true => simp only [saveReserve, if_true]; omega
  exact truncated (audioEstimate g.effectiveVolume)

/-- The record by R24 to R26: every field is of the inputs in force alone. -/
theorem Governor.form_eq (g : Governor) : g.form =
    { supply := g.supply, mceil := masterCeiling g.supply
      dceil := min (min 255 (g.signedHeadroom * 255 / g.imax)) (supplyCap g.supply)
      reserve := g.busy, audio := audioEstimate g.effectiveVolume, headroom := g.signedHeadroom } := by
  rw [← g.form_headroom]; rfl

/-! ## Budget Set and Budget Read -/

/-- A Budget Set replaces the two settings and the record, and no other input (R28, R20). -/
theorem Governor.takeBudget_eq (g : Governor) (budget imax : Nat) :
    g.takeBudget budget imax =
      { g with budget := budget, imax := imax, record := ({ g with budget := budget, imax := imax } : Governor).form } := rfl

theorem exec_budgetSet (tag : Byte) (budget imax : Nat) (s : State) :
    exec (.budgetSet tag budget imax) s = serve (.budgetSet tag budget imax) (takeBudgetSet budget imax) s := rfl

/-- Budget Set is accepted whatever its fields, and its reply carries what was written. -/
theorem exec_budgetSet_accepted {s : State} {tag : Byte} {budget imax : Nat} (hs : s.Serves (.budgetSet tag budget imax)) :
    exec (.budgetSet tag budget imax) s =
      .next ((s.withGovernor (s.governor.takeBudget (clampBudget budget) (clampImax imax))).replied Kind.budgetSet tag .ok
        (.budgetSet (clampBudget budget) (clampImax imax)
          (s.governor.takeBudget (clampBudget budget) (clampImax imax)).record)) := by
  rw [exec_budgetSet]
  exact serve_accepted rfl hs rfl

theorem exec_budgetRead (tag : Byte) (s : State) :
    exec (.budgetRead tag) s = serve (.budgetRead tag) takeBudgetRead s := rfl

theorem exec_budgetRead_accepted {s : State} {tag : Byte} (hs : s.Serves (.budgetRead tag)) :
    exec (.budgetRead tag) s =
      .next (s.replied Kind.budgetRead tag .ok
        (.budgetRead s.governor.record s.governor.budget s.governor.imax s.governor.volume s.governor.busy)) := by
  rw [exec_budgetRead]
  exact serve_accepted rfl hs rfl

/-! ## The obligation -/

/-- Settles O24: Budget Set by the arithmetic of the record it forms, Budget Read by its report. -/
theorem budgetRequestsAndTheirArithmetic : Obligations.BudgetRequestsAndTheirArithmetic := by
  unfold Obligations.BudgetRequestsAndTheirArithmetic
  refine ⟨fun s tag budget imax hs => ?_, fun s tag hs => ?_⟩
  · rw [exec_budgetSet_accepted hs, Governor.takeBudget_eq, Governor.form_eq]
    rfl
  · exact exec_budgetRead_accepted hs

end Sys2Proof.Machine
end

