-- ==== Sys2Proof/Proofs/VoiceRequests.lean ====
section
/-! SUPPORT. The key, voice and wave requests of the voice engine: what each does when its owner takes it, and when it refuses
(R48, R49, R51, R52). -/

namespace Sys2Proof.Machine

/-! ## Numbers, ranges and runs of bytes -/

theorem number?_val {n : Nat} (i : Fin n) : number? n i.val = some i := dif_pos i.isLt

theorem number?_of_le {n k : Nat} (h : n ≤ k) : number? n k = none := dif_neg (Nat.not_lt.2 h)

/-- The range check tests the first address too, which adds nothing: a range of at least one byte that ends inside the memory
begins there. -/
theorem rangeOk_iff (size address count : Nat) :
    rangeOk size address count = true ↔ 1 ≤ count ∧ count ≤ 64 ∧ address + count ≤ size := by
  simp only [rangeOk, Bool.and_eq_true, decide_eq_true_eq]
  omega

theorem not_rangeOk_iff (size address count : Nat) :
    ¬rangeOk size address count = true ↔ count = 0 ∨ 64 < count ∨ size < address + count := by
  rw [rangeOk_iff]
  omega

/-- A run of bytes, each by its own address. -/
theorem Memory.readBytes_eq_map (m : Memory) (count : Nat) : ∀ address : Nat,
    Memory.readBytes m address count = (List.range count).map fun i => Memory.read m (address + i) := by
  induction count with
  | zero => intro address; rfl
  | succ count ih =>
    intro address
    rw [Memory.readBytes, ih (address + 1), List.range_succ_eq_map, List.map_cons, List.map_map]
    have shifted (i : Nat) : address + 1 + i = address + (i + 1) := by omega
    simp only [shifted, Function.comp_def, Nat.add_zero, Nat.succ_eq_add_one]

/-! ## Key On and Key Off -/

/-- The voice engine with the pending key of voice `v` replaced (R51). -/
def VoiceEngine.withKey (e : VoiceEngine) (v : Fin 8) (key : Key) : VoiceEngine :=
  { e with pendings := e.pendings.set v { e.pendings.get v with key := some key } }

theorem takeKeyRequest_val (key : Key) (v : Fin 8) (s : State) :
    takeKeyRequest key v.val s = accept (s.withVoice (s.voice.withKey v key)) (.voice v.val) := by
  rw [takeKeyRequest, number?_val]; rfl

theorem takeKeyRequest_of_le (key : Key) {voice : Nat} (h : 8 ≤ voice) (s : State) :
    takeKeyRequest key voice s = refuse s .badField := by
  rw [takeKeyRequest, number?_of_le h]

theorem exec_keyOn (tag : Byte) (voice : Nat) (s : State) :
    exec (.keyOn tag voice) s = serve (.keyOn tag voice) (takeKeyRequest .on voice) s := rfl

theorem exec_keyOff (tag : Byte) (voice : Nat) (s : State) :
    exec (.keyOff tag voice) s = serve (.keyOff tag voice) (takeKeyRequest .off voice) s := rfl

theorem exec_keyOn_accepted {s : State} {tag : Byte} {v : Fin 8} (hs : s.Serves (.keyOn tag v.val)) :
    exec (.keyOn tag v.val) s =
      .next ((s.withVoice (s.voice.withKey v .on)).replied Kind.keyOn tag .ok (.voice v.val)) := by
  rw [exec_keyOn]
  exact serve_accepted rfl hs (takeKeyRequest_val .on v s)

theorem exec_keyOff_accepted {s : State} {tag : Byte} {v : Fin 8} (hs : s.Serves (.keyOff tag v.val)) :
    exec (.keyOff tag v.val) s =
      .next ((s.withVoice (s.voice.withKey v .off)).replied Kind.keyOff tag .ok (.voice v.val)) := by
  rw [exec_keyOff]
  exact serve_accepted rfl hs (takeKeyRequest_val .off v s)

theorem exec_keyOn_refused {s : State} {tag : Byte} {voice : Nat} (hs : s.Serves (.keyOn tag voice)) (h : 8 ≤ voice) :
    exec (.keyOn tag voice) s = .next (s.replied Kind.keyOn tag .badField .none) := by
  rw [exec_keyOn]
  exact serve_refused rfl hs (takeKeyRequest_of_le .on h s)

theorem exec_keyOff_refused {s : State} {tag : Byte} {voice : Nat} (hs : s.Serves (.keyOff tag voice)) (h : 8 ≤ voice) :
    exec (.keyOff tag voice) s = .next (s.replied Kind.keyOff tag .badField .none) := by
  rw [exec_keyOff]
  exact serve_refused rfl hs (takeKeyRequest_of_le .off h s)

/-! ## Voice Read -/

theorem takeVoiceRead_val (v : Fin 8) (s : State) :
    takeVoiceRead v.val s = accept s (.voiceRead (s.voice.voices.get v) (s.voice.pendings.get v)) := by
  rw [takeVoiceRead, number?_val]

theorem takeVoiceRead_of_le {voice : Nat} (h : 8 ≤ voice) (s : State) : takeVoiceRead voice s = refuse s .badField := by
  rw [takeVoiceRead, number?_of_le h]

theorem exec_voiceRead (tag : Byte) (voice : Nat) (s : State) :
    exec (.voiceRead tag voice) s = serve (.voiceRead tag voice) (takeVoiceRead voice) s := rfl

theorem exec_voiceRead_accepted {s : State} {tag : Byte} {v : Fin 8} (hs : s.Serves (.voiceRead tag v.val)) :
    exec (.voiceRead tag v.val) s =
      .next (s.replied Kind.voiceRead tag .ok (.voiceRead (s.voice.voices.get v) (s.voice.pendings.get v))) := by
  rw [exec_voiceRead]
  exact serve_accepted rfl hs (takeVoiceRead_val v s)

theorem exec_voiceRead_refused {s : State} {tag : Byte} {voice : Nat} (hs : s.Serves (.voiceRead tag voice))
    (h : 8 ≤ voice) : exec (.voiceRead tag voice) s = .next (s.replied Kind.voiceRead tag .badField .none) := by
  rw [exec_voiceRead]
  exact serve_refused rfl hs (takeVoiceRead_of_le h s)

/-! ## Wave Write and Wave Read -/

/-- The voice engine with bytes written to wave memory (R48). -/
def VoiceEngine.withWaveBytes (e : VoiceEngine) (address : Nat) (bytes : List Byte) : VoiceEngine :=
  { e with wave := e.wave.writeBytes address bytes }

theorem takeWaveWrite_of_rangeOk {address : Nat} {bytes : List Byte} (h : rangeOk 8192 address bytes.length = true)
    (s : State) : takeWaveWrite address bytes s =
      accept (s.withVoice (s.voice.withWaveBytes address bytes)) (.written address bytes.length) :=
  if_pos h

theorem takeWaveWrite_of_not_rangeOk {address : Nat} {bytes : List Byte} (h : ¬rangeOk 8192 address bytes.length = true)
    (s : State) : takeWaveWrite address bytes s = refuse s .badField :=
  if_neg h

theorem takeWaveRead_of_rangeOk {address count : Nat} (h : rangeOk 8192 address count = true) (s : State) :
    takeWaveRead address count s =
      accept s (.waveRead address ((List.range count).map fun i => s.voice.wave.read (address + i))) := by
  rw [takeWaveRead, if_pos h, Memory.readBytes_eq_map]

theorem takeWaveRead_of_not_rangeOk {address count : Nat} (h : ¬rangeOk 8192 address count = true) (s : State) :
    takeWaveRead address count s = refuse s .badField :=
  if_neg h

theorem exec_waveWrite (tag : Byte) (address : Nat) (bytes : List Byte) (s : State) :
    exec (.waveWrite tag address bytes) s = serve (.waveWrite tag address bytes) (takeWaveWrite address bytes) s := rfl

theorem exec_waveRead (tag : Byte) (address count : Nat) (s : State) :
    exec (.waveRead tag address count) s = serve (.waveRead tag address count) (takeWaveRead address count) s := rfl

theorem exec_waveWrite_accepted {s : State} {tag : Byte} {address : Nat} {bytes : List Byte}
    (hs : s.Serves (.waveWrite tag address bytes)) (h : rangeOk 8192 address bytes.length = true) :
    exec (.waveWrite tag address bytes) s =
      .next ((s.withVoice (s.voice.withWaveBytes address bytes)).replied Kind.waveWrite tag .ok
        (.written address bytes.length)) := by
  rw [exec_waveWrite]
  exact serve_accepted rfl hs (takeWaveWrite_of_rangeOk h s)

theorem exec_waveWrite_refused {s : State} {tag : Byte} {address : Nat} {bytes : List Byte}
    (hs : s.Serves (.waveWrite tag address bytes)) (h : ¬rangeOk 8192 address bytes.length = true) :
    exec (.waveWrite tag address bytes) s = .next (s.replied Kind.waveWrite tag .badField .none) := by
  rw [exec_waveWrite]
  exact serve_refused rfl hs (takeWaveWrite_of_not_rangeOk h s)

theorem exec_waveRead_accepted {s : State} {tag : Byte} {address count : Nat}
    (hs : s.Serves (.waveRead tag address count)) (h : rangeOk 8192 address count = true) :
    exec (.waveRead tag address count) s =
      .next (s.replied Kind.waveRead tag .ok
        (.waveRead address ((List.range count).map fun i => s.voice.wave.read (address + i)))) := by
  rw [exec_waveRead]
  exact serve_accepted rfl hs (takeWaveRead_of_rangeOk h s)

theorem exec_waveRead_refused {s : State} {tag : Byte} {address count : Nat}
    (hs : s.Serves (.waveRead tag address count)) (h : ¬rangeOk 8192 address count = true) :
    exec (.waveRead tag address count) s = .next (s.replied Kind.waveRead tag .badField .none) := by
  rw [exec_waveRead]
  exact serve_refused rfl hs (takeWaveRead_of_not_rangeOk h s)

/-! ## The obligation -/

/-- Settles O26: Key On, Key Off and Voice Read by the voice number, one of 0 to 7 or above; Wave Write and Wave Read by the range
check, Wave Write's memory by the read-after-write laws. -/
theorem keysVoiceReadAndWaveRequests : Obligations.KeysVoiceReadAndWaveRequests := by
  unfold Obligations.KeysVoiceReadAndWaveRequests
  refine ⟨fun s tag v => ⟨exec_keyOn_accepted, exec_keyOff_accepted, exec_voiceRead_accepted⟩,
    fun s tag voice high => ⟨fun hs => exec_keyOn_refused hs high, fun hs => exec_keyOff_refused hs high,
      fun hs => exec_voiceRead_refused hs high⟩,
    fun s tag address bytes hs canonical => ⟨fun inside => ?_, fun outside => ?_⟩,
    fun s tag address count hs => ⟨fun inside => ?_, fun outside => ?_⟩⟩
  · refine ⟨s.withVoice (s.voice.withWaveBytes address bytes),
      exec_waveWrite_accepted hs ((rangeOk_iff _ _ _).2 inside), rfl, rfl, rfl, fun i hi => ?_, fun a away => ?_⟩
    · exact Memory.read_writeBytes_inside bytes hi canonical
    · exact Memory.read_writeBytes_outside bytes away
  · exact exec_waveWrite_refused hs ((not_rangeOk_iff _ _ _).2 outside)
  · exact exec_waveRead_accepted hs ((rangeOk_iff _ _ _).2 inside)
  · exact exec_waveRead_refused hs ((not_rangeOk_iff _ _ _).2 outside)

end Sys2Proof.Machine
end

