-- ==== Sys2Proof/Proofs/StreamRequests.lean ====
section
/-! SUPPORT. The requests of the stream buffers: what Stream Open, Stream Close and Stream Status do when their owner takes them,
and when it refuses them (R69, R70, R72). -/

namespace Sys2Proof.Machine

/-! ## What the requests write -/

/-- The voice engine with the pending mode and the stream-open mark of voice `v` replaced (R69, R70). -/
def VoiceEngine.withPendingMode (e : VoiceEngine) (v : Fin 8) (mode : VoiceMode) (mark : Bool) : VoiceEngine :=
  { e with pendings := e.pendings.set v { e.pendings.get v with mode := some mode, streamOpen := mark } }

/-- The start, target depth and limit that a Stream Open may give (R69). -/
def StreamOpenInRange (start depth limit : Nat) : Prop := start ≤ 255 ∧ 2 ≤ depth ∧ depth ≤ limit ∧ limit ≤ 16

/-- The owner tests both ends of the depth and of the limit; with the depth at most the limit, two of these ends follow. -/
theorem streamOpenInRange_iff (start depth limit : Nat) : StreamOpenInRange start depth limit ↔
    start ≤ 255 ∧ (2 ≤ depth ∧ depth ≤ 16) ∧ (2 ≤ limit ∧ limit ≤ 16) ∧ depth ≤ limit := by
  unfold StreamOpenInRange
  omega

theorem not_streamOpenInRange_iff (start depth limit : Nat) :
    ¬StreamOpenInRange start depth limit ↔ 255 < start ∨ depth < 2 ∨ 16 < limit ∨ limit < depth := by
  unfold StreamOpenInRange
  omega

/-- The buffers with voice `v`'s record opened and the slots of its held blocks given back (R69). -/
def StreamBuffers.openVoice (sb : StreamBuffers) (v : Fin 8) (start depth limit : Nat) : StreamBuffers :=
  sb.put v ((sb.records.get v).opened (BitVec.ofNat 8 start) depth limit, sb.freeSlots + (sb.records.get v).held.length)

/-- A stream that is not CLOSED gives back the slots of its held blocks when it closes (R71). -/
theorem StreamBuffers.close_of_ne_closed {sb : StreamBuffers} {v : Fin 8} (h : (sb.records.get v).state ≠ .closed) :
    sb.close v = sb.put v ({ (sb.records.get v) with state := .closed, held := [], periodValues := silence },
      sb.freeSlots + (sb.records.get v).held.length) :=
  if_neg h

/-- The buffers after a Stream Status with its clear flag (R72). -/
def StreamBuffers.afterStatus (sb : StreamBuffers) (v : Fin 8) (clear : Bool) : StreamBuffers :=
  if clear = true then sb.clearCounters v else sb

/-- What Stream Status reports of voice `v` (R72). -/
def StreamBuffers.report (sb : StreamBuffers) (v : Fin 8) : ReplyBody :=
  let r := sb.records.get v
  .streamStatus r.state r.x r.depth r.limit r.missingRun (r.held.map Block.seq) r.counters sb.freeSlots sb.stray

/-! ## Stream Open -/

theorem takeStreamOpen_of_inRange (v : Fin 8) {start depth limit : Nat} (h : StreamOpenInRange start depth limit)
    (s : State) : takeStreamOpen v.val start depth limit s =
      accept ((s.withStream (s.stream.openVoice v start depth limit)).withVoice (s.voice.withPendingMode v .stream true))
        (.streamOpen v.val start depth limit) := by
  rw [takeStreamOpen, number?_val]
  exact if_pos ((streamOpenInRange_iff _ _ _).1 h)

theorem takeStreamOpen_of_not_inRange (v : Fin 8) {start depth limit : Nat} (h : ¬StreamOpenInRange start depth limit)
    (s : State) : takeStreamOpen v.val start depth limit s = refuse s .badField := by
  rw [takeStreamOpen, number?_val]
  exact if_neg (mt (streamOpenInRange_iff _ _ _).2 h)

theorem takeStreamOpen_of_le {voice : Nat} (h : 8 ≤ voice) (start depth limit : Nat) (s : State) :
    takeStreamOpen voice start depth limit s = refuse s .badField := by
  rw [takeStreamOpen, number?_of_le h]

theorem exec_streamOpen (tag : Byte) (voice start depth limit : Nat) (s : State) :
    exec (.streamOpen tag voice start depth limit) s =
      serve (.streamOpen tag voice start depth limit) (takeStreamOpen voice start depth limit) s := rfl

theorem exec_streamOpen_accepted {s : State} {tag : Byte} {v : Fin 8} {start depth limit : Nat}
    (hs : s.Serves (.streamOpen tag v.val start depth limit)) (h : StreamOpenInRange start depth limit) :
    exec (.streamOpen tag v.val start depth limit) s =
      .next (((s.withStream (s.stream.openVoice v start depth limit)).withVoice
        (s.voice.withPendingMode v .stream true)).replied Kind.streamOpen tag .ok (.streamOpen v.val start depth limit)) := by
  rw [exec_streamOpen]
  exact serve_accepted rfl hs (takeStreamOpen_of_inRange v h s)

/-- A Stream Open is refused for its voice or for a value out of its range. -/
theorem exec_streamOpen_refused {s : State} {tag : Byte} {voice start depth limit : Nat}
    (hs : s.Serves (.streamOpen tag voice start depth limit)) (h : 8 ≤ voice ∨ ¬StreamOpenInRange start depth limit) :
    exec (.streamOpen tag voice start depth limit) s = .next (s.replied Kind.streamOpen tag .badField .none) := by
  rw [exec_streamOpen]
  refine serve_refused rfl hs ?_
  by_cases hv : voice < 8
  · exact takeStreamOpen_of_not_inRange ⟨voice, hv⟩ (h.resolve_left (Nat.not_le.2 hv)) s
  · exact takeStreamOpen_of_le (Nat.not_lt.1 hv) start depth limit s

/-! ## Stream Close -/

theorem takeStreamClose_of_closed {s : State} {v : Fin 8} (h : (s.stream.records.get v).state = .closed) :
    takeStreamClose v.val s = refuse s .nothingPending := by
  rw [takeStreamClose, number?_val]
  exact if_pos h

/-- The stream-open mark stays as it is (R70). -/
theorem takeStreamClose_of_ne_closed {s : State} {v : Fin 8} (h : (s.stream.records.get v).state ≠ .closed) :
    takeStreamClose v.val s =
      accept ((s.withStream (s.stream.close v)).withVoice
        (s.voice.withPendingMode v .off (s.voice.pendings.get v).streamOpen)) (.voice v.val) := by
  rw [takeStreamClose, number?_val]
  exact if_neg h

theorem takeStreamClose_of_le {voice : Nat} (h : 8 ≤ voice) (s : State) :
    takeStreamClose voice s = refuse s .badField := by
  rw [takeStreamClose, number?_of_le h]

theorem exec_streamClose (tag : Byte) (voice : Nat) (s : State) :
    exec (.streamClose tag voice) s = serve (.streamClose tag voice) (takeStreamClose voice) s := rfl

theorem exec_streamClose_accepted {s : State} {tag : Byte} {v : Fin 8} (hs : s.Serves (.streamClose tag v.val))
    (h : (s.stream.records.get v).state ≠ .closed) :
    exec (.streamClose tag v.val) s =
      .next (((s.withStream (s.stream.close v)).withVoice
        (s.voice.withPendingMode v .off (s.voice.pendings.get v).streamOpen)).replied Kind.streamClose tag .ok
          (.voice v.val)) := by
  rw [exec_streamClose]
  exact serve_accepted rfl hs (takeStreamClose_of_ne_closed h)

theorem exec_streamClose_nothingPending {s : State} {tag : Byte} {v : Fin 8} (hs : s.Serves (.streamClose tag v.val))
    (h : (s.stream.records.get v).state = .closed) :
    exec (.streamClose tag v.val) s = .next (s.replied Kind.streamClose tag .nothingPending .none) := by
  rw [exec_streamClose]
  exact serve_refused rfl hs (takeStreamClose_of_closed h)

theorem exec_streamClose_refused {s : State} {tag : Byte} {voice : Nat} (hs : s.Serves (.streamClose tag voice))
    (h : 8 ≤ voice) : exec (.streamClose tag voice) s = .next (s.replied Kind.streamClose tag .badField .none) := by
  rw [exec_streamClose]
  exact serve_refused rfl hs (takeStreamClose_of_le h s)

/-! ## Stream Status -/

/-- The reply carries the values from before the clearing (R72). -/
theorem takeStreamStatus_val (v : Fin 8) (clear : Bool) (s : State) :
    takeStreamStatus v.val clear s =
      accept (s.withStream (s.stream.afterStatus v clear)) (s.stream.report v) := by
  rw [takeStreamStatus, number?_val]
  cases clear with
  | false => rfl
  | true => rfl

theorem takeStreamStatus_of_le {voice : Nat} (h : 8 ≤ voice) (clear : Bool) (s : State) :
    takeStreamStatus voice clear s = refuse s .badField := by
  rw [takeStreamStatus, number?_of_le h]

theorem exec_streamStatus (tag : Byte) (voice : Nat) (clear : Bool) (s : State) :
    exec (.streamStatus tag voice clear) s = serve (.streamStatus tag voice clear) (takeStreamStatus voice clear) s := rfl

theorem exec_streamStatus_accepted {s : State} {tag : Byte} {v : Fin 8} {clear : Bool}
    (hs : s.Serves (.streamStatus tag v.val clear)) :
    exec (.streamStatus tag v.val clear) s =
      .next ((s.withStream (s.stream.afterStatus v clear)).replied Kind.streamStatus tag .ok (s.stream.report v)) := by
  rw [exec_streamStatus]
  exact serve_accepted rfl hs (takeStreamStatus_val v clear s)

theorem exec_streamStatus_refused {s : State} {tag : Byte} {voice : Nat} {clear : Bool}
    (hs : s.Serves (.streamStatus tag voice clear)) (h : 8 ≤ voice) :
    exec (.streamStatus tag voice clear) s = .next (s.replied Kind.streamStatus tag .badField .none) := by
  rw [exec_streamStatus]
  exact serve_refused rfl hs (takeStreamStatus_of_le h clear s)

/-! ## The obligation -/

/-- Settles O30: each request by its voice number, one of 0 to 7 or above; Stream Open further by the ranges of its values, Stream
Close by whether the record is CLOSED. -/
theorem streamRequestsOpenCloseAndReport : Obligations.StreamRequestsOpenCloseAndReport := by
  unfold Obligations.StreamRequestsOpenCloseAndReport
  intro s tag v
  refine ⟨fun start depth limit hstart hdepth hle hlimit hs => ?opened, fun start depth limit outside hs => ?outOfRange,
    exec_streamClose_nothingPending, fun hs notClosed => ?closed, fun clear => exec_streamStatus_accepted,
    fun voice high start depth limit clear => ⟨fun hs => exec_streamOpen_refused hs (Or.inl high),
      fun hs => exec_streamClose_refused hs high, fun hs => exec_streamStatus_refused hs high⟩⟩
  case opened => exact exec_streamOpen_accepted hs ⟨hstart, hdepth, hle, hlimit⟩
  case outOfRange => exact exec_streamOpen_refused hs (Or.inr ((not_streamOpenInRange_iff _ _ _).2 outside))
  case closed =>
    rw [exec_streamClose_accepted hs notClosed, StreamBuffers.close_of_ne_closed notClosed]
    rfl

end Sys2Proof.Machine
end

