-- ==== Sys2Proof/Proofs/MixerRequests.lean ====
section
/-! SUPPORT. The requests of the mixer and its latch: which Mix Sets are accepted and what they write (R75, R86), what Mix Status
reports (R87), and what the period mark takes from the pending record and reports to the governor (R76). -/

namespace Sys2Proof

open Machine

/-! ## The settings a Mix Set carries -/

/-- At least one setting stands in the request (R86). -/
def MixSetFields.CarriesSetting (f : MixSetFields) : Prop :=
  f.master.isSome = true ∨ f.global.isSome = true ∨ f.tone.isSome = true ∨ f.amplitude.isSome = true ∨
  f.halfPeriod.isSome = true

/-- The ranges of the three numbers (R86). -/
def MixSetFields.InRange (f : MixSetFields) : Prop :=
  (∀ x ∈ f.master, x ≤ 255) ∧ (∀ x ∈ f.amplitude, x ≤ 511) ∧ ∀ x ∈ f.halfPeriod, 1 ≤ x ∧ x ≤ 255

/-- Neither enumerated setting has a code without a meaning (R86). -/
def MixSetFields.NamesValues (f : MixSetFields) : Prop := f.global ≠ some .other ∧ f.tone ≠ some .other

/-- The request that carries exactly these settings, the enumerated ones by codes that name them. -/
def MixSetFields.naming (w : PendingMix) : MixSetFields :=
  ⟨w.master, w.global.map .is, w.tone.map .is, w.amplitude, w.halfPeriod, false⟩

theorem Machine.all_named_iff {α : Type} (o : Option (Coded α)) : o.all named = true ↔ o ≠ some .other := by
  match o with
  | none => simp
  | some (.is _) => simp [named, coded?]
  | some .other => simp [named, coded?]

theorem Machine.map_is_ne_other {α : Type} (o : Option α) : o.map Coded.is ≠ some .other := by
  cases o <;> simp

theorem Machine.bind_coded_map_is {α : Type} (o : Option α) : (o.map Coded.is).bind coded? = o := by
  cases o <;> rfl

/-- The checks of R86, all of which an accepted Mix Set passes. -/
theorem MixSetFields.ok_iff (f : MixSetFields) :
    f.ok = true ↔ f.unassignedBit = false ∧ f.CarriesSetting ∧ f.NamesValues ∧ f.InRange := by
  simp only [MixSetFields.ok, Bool.and_eq_true, Bool.or_eq_true, Bool.not_eq_true', all_named_iff]
  simp only [Option.all_eq_true, byteOk, rateOk, Bool.and_eq_true, decide_eq_true_eq, or_assoc]
  constructor
  · rintro ⟨⟨⟨⟨⟨⟨assigned, carries⟩, master⟩, global⟩, tone⟩, amplitude⟩, halfPeriod⟩
    exact ⟨assigned, carries, ⟨global, tone⟩, master, amplitude, halfPeriod⟩
  · rintro ⟨assigned, carries, ⟨global, tone⟩, master, amplitude, halfPeriod⟩
    exact ⟨⟨⟨⟨⟨⟨assigned, carries⟩, master⟩, global⟩, tone⟩, amplitude⟩, halfPeriod⟩

theorem MixSetFields.carriesSetting_naming (w : PendingMix) : (MixSetFields.naming w).CarriesSetting ↔
    w.master.isSome = true ∨ w.amplitude.isSome = true ∨ w.halfPeriod.isSome = true ∨ w.global.isSome = true ∨
    w.tone.isSome = true := by
  simp only [MixSetFields.CarriesSetting, MixSetFields.naming, Option.isSome_map]
  grind

theorem MixSetFields.naming_ok_iff (w : PendingMix) :
    (MixSetFields.naming w).ok = true ↔ (MixSetFields.naming w).CarriesSetting ∧ (MixSetFields.naming w).InRange := by
  have namesValues : (MixSetFields.naming w).NamesValues := ⟨map_is_ne_other w.global, map_is_ne_other w.tone⟩
  rw [MixSetFields.ok_iff]
  exact ⟨fun ⟨_, carries, _, inRange⟩ => ⟨carries, inRange⟩,
    fun ⟨carries, inRange⟩ => ⟨rfl, carries, namesValues, inRange⟩⟩

theorem MixSetFields.written_naming (w : PendingMix) : (MixSetFields.naming w).written = w := by
  simp only [MixSetFields.written, MixSetFields.naming, bind_coded_map_is]

theorem MixSetFields.not_carriesSetting {f : MixSetFields} (hm : f.master = none) (ha : f.amplitude = none)
    (hh : f.halfPeriod = none) (hg : f.global = none) (ht : f.tone = none) : ¬f.CarriesSetting := by
  simp [MixSetFields.CarriesSetting, hm, ha, hh, hg, ht]

/-- A number out of its range, named. -/
theorem MixSetFields.not_inRange {f : MixSetFields} (h : (∃ x ∈ f.master, 255 < x) ∨ (∃ x ∈ f.amplitude, 511 < x) ∨
    ∃ x ∈ f.halfPeriod, x = 0 ∨ 255 < x) : ¬f.InRange := by
  rintro ⟨master, amplitude, halfPeriod⟩
  obtain ⟨x, hx, above⟩ | ⟨x, hx, above⟩ | ⟨x, hx, outside⟩ := h
  · exact absurd (master x hx) (Nat.not_le.2 above)
  · exact absurd (amplitude x hx) (Nat.not_le.2 above)
  · have := halfPeriod x hx
    omega

namespace Machine

/-! ## Mix Set -/

/-- The mixer with these settings written into its pending record (R75). -/
def Mixer.withPending (m : Mixer) (w : PendingMix) : Mixer := { m with pending := m.pending.merge w }

theorem takeMixSet_of_ok {f : MixSetFields} (h : f.ok = true) (s : State) :
    takeMixSet f s = accept (s.withMixer (s.mixer.withPending f.written)) (.mixSet f.written) :=
  if_pos h

theorem takeMixSet_of_not_ok {f : MixSetFields} (h : ¬f.ok = true) (s : State) : takeMixSet f s = refuse s .badField :=
  if_neg h

theorem exec_mixSet (tag : Byte) (f : MixSetFields) (s : State) :
    exec (.mixSet tag f) s = serve (.mixSet tag f) (takeMixSet f) s := rfl

theorem exec_mixSet_refused {s : State} {tag : Byte} {f : MixSetFields} (hs : s.Serves (.mixSet tag f))
    (h : ¬f.ok = true) : exec (.mixSet tag f) s = .next (s.replied Kind.mixSet tag .badField .none) := by
  rw [exec_mixSet]
  exact serve_refused rfl hs (takeMixSet_of_not_ok h s)

/-- Settings that name values and are in range are written, and the reply carries them. -/
theorem exec_mixSet_naming {s : State} {tag : Byte} {w : PendingMix} (hs : s.Serves (.mixSet tag (.naming w)))
    (carries : (MixSetFields.naming w).CarriesSetting) (inRange : (MixSetFields.naming w).InRange) :
    exec (.mixSet tag (.naming w)) s =
      .next ((s.withMixer (s.mixer.withPending w)).replied Kind.mixSet tag .ok (.mixSet w)) := by
  have taken := takeMixSet_of_ok ((MixSetFields.naming_ok_iff w).2 ⟨carries, inRange⟩) s
  rw [MixSetFields.written_naming] at taken
  rw [exec_mixSet]
  exact serve_accepted rfl hs taken

/-! ## Mix Status -/

/-- What Mix Status reports of the mixer (R87). -/
def Mixer.report (m : Mixer) : ReplyBody :=
  .mixStatus m.inForce m.pending m.latchedMceil m.effective m.override m.tonePositive m.toneCount m.clipCount m.clipLast
    m.clipNow m.code

/-- The mixer after a Mix Status with this clear flag (R87). -/
def Mixer.afterStatus (m : Mixer) (clear : Bool) : Mixer :=
  { m with clipCount := if clear = true then 0 else m.clipCount }

/-- The report is of the mixer before the count is cleared. -/
theorem takeMixStatus_eq (clear : Bool) (s : State) :
    takeMixStatus clear s = accept (s.withMixer (s.mixer.afterStatus clear)) s.mixer.report := by
  cases clear with
  | true => rfl
  | false => rfl

theorem exec_mixStatus (tag : Byte) (clear : Bool) (s : State) :
    exec (.mixStatus tag clear) s = serve (.mixStatus tag clear) (takeMixStatus clear) s := rfl

theorem exec_mixStatus_accepted {s : State} {tag : Byte} {clear : Bool} (hs : s.Serves (.mixStatus tag clear)) :
    exec (.mixStatus tag clear) s =
      .next ((s.withMixer (s.mixer.afterStatus clear)).replied Kind.mixStatus tag .ok s.mixer.report) := by
  rw [exec_mixStatus]
  exact serve_accepted rfl hs (takeMixStatus_eq clear s)

/-! ## The latch -/

/-- The settings in force after the latch: the pending ones, and those in force where none is pending (R76). -/
def Mixer.latchedSettings (m : Mixer) : MixSettings :=
  { master := m.pending.master.getD m.inForce.master, global := m.pending.global.getD m.inForce.global
    tone := m.pending.tone.getD m.inForce.tone, amplitude := m.pending.amplitude.getD m.inForce.amplitude
    halfPeriod := m.pending.halfPeriod.getD m.inForce.halfPeriod }

/-- The latch, its tone by whether the test tone goes from off to on (R76). -/
theorem Mixer.latch_eq (m : Mixer) (mceil : Nat) :
    m.latch mceil = { m with
      clipLast := m.clipNow, clipNow := false, pending := .empty, inForce := m.latchedSettings, latchedMceil := mceil
      tonePositive := if m.latchedSettings.tone = true ∧ m.inForce.tone = false then true else m.tonePositive
      toneCount := if m.latchedSettings.tone = true ∧ m.inForce.tone = false then 0 else m.toneCount
      override := if m.override = .releasing then .clear else m.override } := by
  have starts_iff : (m.latchedSettings.tone && !m.inForce.tone) = true ↔
      m.latchedSettings.tone = true ∧ m.inForce.tone = false := by simp
  have positive : (m.latchedSettings.tone && !m.inForce.tone || m.tonePositive) =
      if (m.latchedSettings.tone && !m.inForce.tone) = true then true else m.tonePositive := by
    cases m.latchedSettings.tone && !m.inForce.tone <;> rfl
  simp only [← starts_iff, ← positive]
  rfl

/-- A master volume that the latch takes is reported to the governor. -/
theorem State.mixerMark_of_some {s : State} {volume : Nat} (h : s.mixer.pending.master = some volume) :
    s.mixerMark = (s.withMixer (s.mixer.latch s.governor.record.mceil)).withGovernor (s.governor.takeVolume volume) := by
  rw [State.mixerMark, h]
  rfl

theorem State.mixerMark_of_none {s : State} (h : s.mixer.pending.master = none) :
    s.mixerMark = s.withMixer (s.mixer.latch s.governor.record.mceil) := by
  rw [State.mixerMark, h]

/-- The ceiling is of the record before a report forms it again. -/
theorem State.mixerMark_mixer (s : State) : s.mixerMark.mixer = s.mixer.latch s.governor.record.mceil := by
  cases h : s.mixer.pending.master with
  | none => rw [State.mixerMark_of_none h]; rfl
  | some volume => rw [State.mixerMark_of_some h]; rfl

/-- With the mixer and the governor put back, the period mark has changed nothing. -/
theorem State.mixerMark_restored (s : State) : { s.mixerMark with mixer := s.mixer, governor := s.governor } = s := by
  obtain ⟨governor, mixer, h⟩ := s.mixerMark_frame
  rw [h]

theorem exec_mixerLatch_powered {s : State} (h : s.corePowered = true) : exec .mixerLatch s = .next s.mixerMark :=
  onCore_powered h _

/-- A report replaces the volume and the record, and the record is then that of the inputs in force (R20, R22). -/
theorem Governor.takeVolume_spec (g : Governor) (volume : Nat) :
    (g.takeVolume volume).volume = volume ∧ (g.takeVolume volume).record = (g.takeVolume volume).form ∧
    { g.takeVolume volume with volume := g.volume, record := g.record } = g :=
  ⟨rfl, rfl, rfl⟩

/-! ## The obligation -/

/-- Settles O32: Mix Set by whether its checks pass, Mix Status by its one case, the latch by whether a master volume is pending. -/
theorem mixSettingsArePendingUntilTheLatch : Obligations.MixSettingsArePendingUntilTheLatch := by
  unfold Obligations.MixSettingsArePendingUntilTheLatch
  refine ⟨fun s tag m a h g tone hs => ⟨fun carries master amplitude halfPeriod => ?written, fun faulty => ?refused⟩,
    fun s tag f hs unnamed => ?unnamed, fun s tag clear hs => exec_mixStatus_accepted hs, fun s powered => ?latch⟩
  case written =>
    exact exec_mixSet_naming (w := ⟨m, g, tone, a, h⟩) hs ((MixSetFields.carriesSetting_naming _).2 carries)
      ⟨master, amplitude, halfPeriod⟩
  case refused =>
    refine exec_mixSet_refused hs fun ok => ?_
    obtain ⟨-, carries, -, inRange⟩ := (MixSetFields.ok_iff _).1 ok
    obtain ⟨hm, ha, hh, rfl, rfl⟩ | outside := faulty
    · exact MixSetFields.not_carriesSetting hm ha hh rfl rfl carries
    · exact MixSetFields.not_inRange outside inRange
  case unnamed =>
    refine exec_mixSet_refused hs fun ok => ?_
    obtain ⟨assigned, -, ⟨global, tone⟩, -⟩ := (MixSetFields.ok_iff _).1 ok
    obtain bit | other | other := unnamed
    · exact Bool.false_ne_true (assigned.symm.trans bit)
    · exact global other
    · exact tone other
  case latch =>
    refine ⟨s.mixerMark, exec_mixerLatch_powered powered, s.mixerMark_restored, ?_, fun untaken => ?_, fun volume taken => ?_⟩
    · rw [s.mixerMark_mixer, Mixer.latch_eq]; rfl
    · rw [State.mixerMark_of_none untaken, State.withMixer_governor]
    · rw [State.mixerMark_of_some taken, State.withGovernor_governor]
      exact s.governor.takeVolume_spec volume

end Machine

end Sys2Proof
end

