-- ==== Sys2Proof/Proofs/RumbleDriver.lean ====
section
/-! SUPPORT. The rumble driver at its period mark, from the step that its queue moves on by to the acknowledgement that a waiting
commit takes (R91, R92, R97 to R101, R159, R160), and what motor results make of it, with its entry into FAULT (R102 to R104). -/

namespace Sys2Proof.Machine

/-! ## A step and the level it asks for -/

/-- The step as the mark that it starts at leaves it (R92). -/
def EffectStep.started (e : EffectStep) (level : Nat) : EffectStep := { e with elapsed := 1, start := level }

/-- The periods that have begun are no more than the step's length (R91), for a step that has a length. -/
def EffectStep.InCourse (e : EffectStep) : Prop := e.length = 0 ∨ e.elapsed ≤ e.length

theorem EffectStep.started_inCourse (e : EffectStep) (level : Nat) : (e.started level).InCourse := by
  simp only [EffectStep.InCourse, EffectStep.started]
  omega

theorem EffectStep.asks_of_hold {e : EffectStep} (h : e.shape = .hold) : e.asks = e.level := by
  rw [EffectStep.asks, h]

/-- Up to its last period a ramp has fallen by no more than the level it started at. -/
theorem EffectStep.ramp_nonneg {e : EffectStep} (h : e.InCourse) :
    0 ≤ (e.start : Int) + ((e.level : Int) - e.start) * e.elapsed / e.length := by
  obtain lengthless | positive := Nat.eq_zero_or_pos e.length
  · rw [lengthless, Int.natCast_zero, Int.ediv_zero]
    omega
  · have within : e.elapsed ≤ e.length := h.resolve_left positive.ne'
    have fallen : -(e.start : Int) ≤ ((e.level : Int) - e.start) * e.elapsed / e.length := by
      rw [Int.le_ediv_iff_mul_le (by omega)]
      have periods : (e.start : Int) * e.elapsed ≤ e.start * e.length := by exact_mod_cast Nat.mul_le_mul_left _ within
      have risen : 0 ≤ (e.level : Int) * e.elapsed := by positivity
      calc -(e.start : Int) * e.length ≤ e.level * e.elapsed - e.start * e.elapsed := by rw [Int.neg_mul]; omega
        _ = ((e.level : Int) - e.start) * e.elapsed := (Int.sub_mul _ _ _).symm
    omega

/-- The level of R92 is never cut off at 0. -/
theorem EffectStep.asks_of_ramp {e : EffectStep} (h : e.shape = .ramp) (course : e.InCourse) :
    (e.asks : Int) = e.start + ((e.level : Int) - e.start) * e.elapsed / e.length := by
  rw [EffectStep.asks, h]
  exact Int.toNat_of_nonneg (EffectStep.ramp_nonneg course)

/-! ## The queue moves on by one period -/

theorem startHead_tail (level : Nat) (q : List EffectStep) : (startHead level q).tail = q.tail := by
  cases q with
  | nil => rfl
  | cons e es => rfl

theorem startHead_head? (level : Nat) (q : List EffectStep) :
    (startHead level q).head? = q.head?.map fun e => e.started level := by
  cases q with
  | nil => rfl
  | cons e es => rfl

theorem advanceQueue_of_waiting {e : EffectStep} (h : e.elapsed = 0) (level : Nat) (es : List EffectStep) :
    advanceQueue level (e :: es) = e.started level :: es :=
  if_pos h

theorem advanceQueue_of_running {e : EffectStep} (begun : e.elapsed ≠ 0) (h : e.elapsed < e.length) (level : Nat)
    (es : List EffectStep) : advanceQueue level (e :: es) = { e with elapsed := e.elapsed + 1 } :: es := by
  rw [advanceQueue, if_neg begun, if_pos h]

theorem advanceQueue_of_ended {e : EffectStep} (begun : e.elapsed ≠ 0) (h : e.length ≤ e.elapsed) (level : Nat)
    (es : List EffectStep) : advanceQueue level (e :: es) = startHead level es := by
  rw [advanceQueue, if_neg begun, if_neg (Nat.not_lt.2 h)]

theorem startHead_inCourse {level : Nat} {q es : List EffectStep} {e : EffectStep} (h : startHead level q = e :: es) :
    e.InCourse := by
  cases q with
  | nil => exact absurd h.symm (List.cons_ne_nil e es)
  | cons x xs =>
    obtain ⟨rfl, -⟩ := List.cons.inj h
    exact x.started_inCourse level

/-- Whatever the queue was, the head after the mark is in its course. -/
theorem advanceQueue_inCourse {level : Nat} {q es : List EffectStep} {e : EffectStep} (h : advanceQueue level q = e :: es) :
    e.InCourse := by
  cases q with
  | nil => exact absurd h.symm (List.cons_ne_nil e es)
  | cons x xs =>
    obtain waiting | begun := eq_or_ne x.elapsed 0
    · rw [advanceQueue_of_waiting waiting] at h
      obtain ⟨rfl, -⟩ := List.cons.inj h
      exact x.started_inCourse level
    · obtain within | ended := Nat.lt_or_ge x.elapsed x.length
      · rw [advanceQueue_of_running begun within] at h
        obtain ⟨rfl, -⟩ := List.cons.inj h
        exact Or.inr within
      · rw [advanceQueue_of_ended begun ended] at h
        exact startHead_inCourse h

/-! ## The driver after its period mark -/

theorem Rumble.advance_of_nil {r : Rumble} (h : advanceQueue r.requested r.queue = []) :
    r.advance.requested = 0 ∧ r.advance.priority = none := by
  simp [Rumble.advance, h]

theorem Rumble.advance_priority {r : Rumble} (h : advanceQueue r.requested r.queue ≠ []) :
    r.advance.priority = r.priority := by
  simp [Rumble.advance, h]

theorem Rumble.advance_requested {r : Rumble} {e : EffectStep} {es : List EffectStep}
    (h : advanceQueue r.requested r.queue = e :: es) : r.advance.requested = e.asks := by
  simp [Rumble.advance, h]

/-- Step 6 of R97 at the driver: RUNNING goes to IDLE with an empty queue. -/
def Rumble.drained (r : Rumble) : Rumble :=
  { r with state := if r.queue = [] ∧ r.state = .running then .idle else r.state }

theorem Rumble.drained_of_running {r : Rumble} (empty : r.queue = []) (running : r.state = .running) :
    r.drained = { r with state := .idle } := by
  rw [Rumble.drained, if_pos ⟨empty, running⟩]

theorem Rumble.drained_of_not {r : Rumble} (h : ¬(r.queue = [] ∧ r.state = .running)) : r.drained = r := by
  rw [Rumble.drained, if_neg h]

/-- Steps 1 to 5 of R97. -/
def Rumble.driven (r : Rumble) (grant : GrantRecord) : Rumble := ((r.latch grant).advance).drive

/-- Steps 1 to 6 of R97 at the driver. -/
def Rumble.marked (r : Rumble) (grant : GrantRecord) : Rumble := (r.driven grant).drained

section

variable (r : Rumble) (grant : GrantRecord)

theorem Rumble.marked_queue : (r.marked grant).queue = advanceQueue r.requested r.queue := rfl

theorem Rumble.marked_state : (r.marked grant).state =
    if (r.marked grant).queue = [] ∧ r.state = .running then .idle else r.state := rfl

variable {r grant}

theorem Rumble.marked_of_nil (h : (r.marked grant).queue = []) :
    (r.marked grant).requested = 0 ∧ (r.marked grant).priority = none :=
  Rumble.advance_of_nil (r := r.latch grant) h

theorem Rumble.marked_priority (h : (r.marked grant).queue ≠ []) : (r.marked grant).priority = r.priority :=
  Rumble.advance_priority (r := r.latch grant) h

theorem Rumble.marked_requested {e : EffectStep} {es : List EffectStep} (h : (r.marked grant).queue = e :: es) :
    (r.marked grant).requested = e.asks :=
  Rumble.advance_requested (r := r.latch grant) h

theorem Rumble.marked_applied_heldOff (h : r.supplyHold = true ∨ r.calibrating = true) : (r.marked grant).applied = 0 :=
  if_pos (Bool.or_eq_true_iff.2 h)

/-- Neither the latch nor the queue's advance changes what holds the output off. -/
theorem Rumble.latched_not_heldOff (supply : r.supplyHold = false) (calibration : r.calibrating = false) :
    ((r.latch grant).advance).heldOff = false :=
  Bool.or_eq_false_iff.2 ⟨supply, calibration⟩

/-- The kick test is of the duty history as the mark has moved it on: what was the newer value, and the duty just ended (R98). -/
theorem Rumble.latched_kicks_iff (supply : r.supplyHold = false) (calibration : r.calibrating = false) :
    ((r.latch grant).advance).kicks = true ↔
      r.settings.kick = true ∧ r.historyNewer = 0 ∧ r.applied = 0 ∧ 0 < (r.marked grant).requested := by
  simp only [Rumble.kicks, Rumble.latched_not_heldOff supply calibration, Bool.not_false, Bool.and_true, Bool.and_eq_true,
    decide_eq_true_eq, and_assoc]
  exact Iff.rfl

theorem Rumble.marked_applied_free (supply : r.supplyHold = false) (calibration : r.calibrating = false) :
    (r.marked grant).applied =
      if r.settings.kick = true ∧ r.historyNewer = 0 ∧ r.applied = 0 ∧ 0 < (r.marked grant).requested then grant.dceil
      else min (r.marked grant).requested grant.dceil := by
  simp only [← Rumble.latched_kicks_iff (grant := grant) supply calibration]
  exact if_neg (Bool.eq_false_iff.1 (Rumble.latched_not_heldOff supply calibration))

end

/-! ## The RUMBLE notice -/

/-- Making the notice pending touches the link alone. -/
theorem State.pendRumble_eq (s : State) (c : RumbleNotice) :
    s.pendRumble c = s.withLink (s.link.pend .rumble fun n => { n with rumble := some c }) := rfl

theorem Link.pend_rumble_notice {l : Link} (h : maskEnables l.mask .rumble = true) (c : RumbleNotice) :
    (l.pend .rumble fun n => { n with rumble := some c }).notices.rumble = some c := by
  rw [Link.pend_enabled h]

/-- The link after the driver's drain step: DRAINED is pending when the queue has drained and its notice is on (R99). -/
def Rumble.drainLink (r : Rumble) (l : Link) : Link :=
  if r.queue = [] ∧ r.state = .running ∧ r.settings.drainNotice = true then
    l.pend .rumble fun n => { n with rumble := some ⟨.drained, .idle, r.cause, 0⟩ }
  else l

theorem Rumble.drainLink_of_noticed {r : Rumble} (empty : r.queue = []) (running : r.state = .running)
    (noticed : r.settings.drainNotice = true) (l : Link) :
    r.drainLink l = l.pend .rumble fun n => { n with rumble := some ⟨.drained, .idle, r.cause, 0⟩ } :=
  if_pos ⟨empty, running, noticed⟩

theorem Rumble.drainLink_of_not {r : Rumble} (h : r.queue ≠ [] ∨ r.state ≠ .running ∨ r.settings.drainNotice = false)
    (l : Link) : r.drainLink l = l := by
  refine if_neg fun ⟨empty, running, noticed⟩ => ?_
  obtain held | still | silent := h
  · exact held empty
  · exact still running
  · exact Bool.false_ne_true (silent.symm.trans noticed)

theorem State.drainRumble_eq (s : State) :
    s.drainRumble = (s.withRumble s.rumble.drained).withLink (s.rumble.drainLink s.link) := by
  by_cases drains : s.rumble.queue = [] ∧ s.rumble.state = .running
  · obtain ⟨empty, running⟩ := drains
    rw [Rumble.drained_of_running empty running]
    cases noticed : s.rumble.settings.drainNotice with
    | false =>
      rw [Rumble.drainLink_of_not (Or.inr (Or.inr noticed))]
      simp only [State.drainRumble, empty, running, noticed]
      rfl
    | true =>
      rw [Rumble.drainLink_of_noticed empty running noticed]
      simp only [State.drainRumble, empty, running, noticed, Rumble.notice]
      rfl
  · rw [Rumble.drained_of_not drains, Rumble.drainLink_of_not ((not_and_or.1 drains).imp_right Or.inl)]
    simp only [State.drainRumble, List.isEmpty_iff, if_neg drains]
    rfl

/-! ## The reserve acknowledgement -/

theorem State.acknowledgeReserve_of_waiting {s : State} (h : s.save.state = .waitReserve) :
    s.acknowledgeReserve true = s.enterCopying := by
  simp only [State.acknowledgeReserve, h]

/-- Without the reserve, or outside WAIT_RESERVE, the acknowledgement does nothing (R159). -/
theorem State.acknowledgeReserve_of_not {s : State} {reserve : Bool} (h : s.save.state ≠ .waitReserve ∨ reserve = false) :
    s.acknowledgeReserve reserve = s := by
  unfold State.acknowledgeReserve
  split
  · next waiting =>
    obtain elsewhere | refused := h
    · exact absurd waiting elsewhere
    · exact absurd refused Bool.noConfusion
  · rfl

theorem State.acknowledgeReserve_frame (s : State) (reserve : Bool) :
    ∃ save backup, s.acknowledgeReserve reserve = { s with save := save, backup := backup } := by
  unfold State.acknowledgeReserve
  split
  · exact ⟨_, _, rfl⟩
  · exact ⟨_, _, rfl⟩

@[simp] theorem State.acknowledgeReserve_rumble (s : State) (reserve : Bool) :
    (s.acknowledgeReserve reserve).rumble = s.rumble := by
  obtain ⟨_, _, h⟩ := s.acknowledgeReserve_frame reserve; rw [h]

@[simp] theorem State.acknowledgeReserve_link (s : State) (reserve : Bool) :
    (s.acknowledgeReserve reserve).link = s.link := by
  obtain ⟨_, _, h⟩ := s.acknowledgeReserve_frame reserve; rw [h]

theorem BankPair.get_set_self {α : Type} (p : BankPair α) (bank : Bank) (x : α) : (p.set bank x).get bank = x := by
  cases bank with
  | a => rfl
  | b => rfl

theorem BankPair.get_set_other {α : Type} (p : BankPair α) (bank : Bank) (x : α) :
    (p.set bank x).get bank.other = p.get bank.other := by
  cases bank with
  | a => rfl
  | b => rfl

/-- With no live bank the slot's condition is of the other bank's header, which stands alone (R160). -/
theorem SlotEntry.invalidated_condition (e : SlotEntry) (target : Bank) (otherGood : Bool) :
    (e.invalidated target otherGood).condition =
      if e.liveBank ≠ none then .valid else if otherGood = true then .damaged else .empty := by
  simp only [SlotEntry.invalidated, Option.isSome_iff_ne_none]

theorem State.enterCopying_entry_ne (s : State) {k : Fin 4} (h : k ≠ s.save.opSlot) :
    s.enterCopying.save.entry k = s.save.entry k :=
  Tab.get_set_ne _ h.symm _

theorem State.enterCopying_entry (s : State) : s.enterCopying.save.entry s.save.opSlot =
    (s.save.entry s.save.opSlot).invalidated s.save.target (s.store.header s.save.opSlot s.save.target.other).good :=
  Tab.get_set_self _ _ _

/-! ## The period mark -/

/-- The state after steps 1 to 6 of R97, which are of the driver and its notice. -/
def State.rumbleMarked (s : State) : State :=
  (s.withRumble (s.rumble.marked s.governor.record)).withLink
    ((s.rumble.driven s.governor.record).drainLink s.link)

theorem State.rumbleMarked_save (s : State) : s.rumbleMarked.save = s.save := rfl

theorem State.rumbleMark_eq (s : State) : s.rumbleMark = s.rumbleMarked.acknowledgeReserve s.governor.record.reserve := by
  rw [State.rumbleMark, State.drainRumble_eq]
  rfl

theorem State.rumbleMark_rumble (s : State) : s.rumbleMark.rumble = s.rumble.marked s.governor.record := by
  rw [State.rumbleMark_eq, State.acknowledgeReserve_rumble]
  rfl

theorem State.rumbleMark_link (s : State) :
    s.rumbleMark.link = (s.rumble.driven s.governor.record).drainLink s.link := by
  rw [State.rumbleMark_eq, State.acknowledgeReserve_link]
  rfl

/-- With the driver, the link, the controller and backup memory put back, the period mark has changed nothing. -/
theorem State.rumbleMark_restored (s : State) :
    { s.rumbleMark with rumble := s.rumble, link := s.link, save := s.save, backup := s.backup } = s := by
  obtain ⟨rumble, save, link, backup, h⟩ := s.rumbleMark_frame
  rw [h]

/-- A mark that no waiting commit takes leaves the controller and backup memory as they are. -/
theorem State.rumbleMark_of_not_acknowledged {s : State}
    (h : s.save.state ≠ .waitReserve ∨ s.governor.record.reserve = false) :
    s.rumbleMark.save = s.save ∧ s.rumbleMark.backup = s.backup := by
  have untouched : s.rumbleMark = s.rumbleMarked := by
    rw [State.rumbleMark_eq]
    exact State.acknowledgeReserve_of_not h
  rw [untouched]
  exact ⟨rfl, rfl⟩

theorem State.rumbleMark_of_acknowledged {s : State} (waiting : s.save.state = .waitReserve)
    (reserve : s.governor.record.reserve = true) : s.rumbleMark = s.rumbleMarked.enterCopying := by
  rw [State.rumbleMark_eq, reserve]
  exact State.acknowledgeReserve_of_waiting waiting

theorem exec_rumblePeriodMark_powered {s : State} (h : s.corePowered = true) :
    exec .rumblePeriodMark s = .next s.rumbleMark :=
  onCore_powered h _

/-- MDRV by R89 and R101. -/
theorem Rumble.motorOn_iff (r : Rumble) (point : Nat) : r.motorOn point = true ↔ r.state = .running ∧ 0 < r.applied ∧
    r.supplyHold = false ∧ r.calibrating = false ∧ r.coastOpen = false ∧ point < r.applied := by
  simp only [Rumble.motorOn, Bool.and_eq_true, decide_eq_true_eq, Bool.not_eq_true', and_assoc]

/-! ## The obligation of the period mark -/

/-- Settles O36: the driver and its notice by the state after steps 1 to 6, the queue by its head, not started, in its course or
ended; the controller by whether a commit waits for the reserve that the mark acknowledges. -/
theorem rumblePeriodMarkAdvancesAndDrives : Obligations.RumblePeriodMarkAdvancesAndDrives := by
  unfold Obligations.RumblePeriodMarkAdvancesAndDrives
  refine ⟨fun s powered => ⟨s.rumbleMark, exec_rumblePeriodMark_powered powered, s.rumbleMark_restored, ?_⟩,
    Rumble.motorOn_iff⟩
  dsimp only
  rw [s.rumbleMark_rumble, s.rumbleMark_link]
  refine ⟨rfl, fun empty => ?empty, fun e es cons => ⟨fun waiting => ?starts, fun begun within => ?goesOn,
      fun begun ended => ⟨?tail, ?head⟩⟩, Rumble.marked_of_nil, Rumble.marked_priority,
    fun e es cons => ⟨fun hold => ?hold, fun ramp => ?ramp⟩, Rumble.marked_applied_heldOff, Rumble.marked_applied_free,
    Rumble.marked_state _ _, fun empty running noticed enabled => ?drained, fun quiet => Rumble.drainLink_of_not quiet _,
    State.rumbleMark_of_not_acknowledged, fun waiting reserve => ?copying⟩
  case empty => rw [Rumble.marked_queue, empty]; rfl
  case starts => rw [Rumble.marked_queue, cons, advanceQueue_of_waiting waiting]; rfl
  case goesOn => rw [Rumble.marked_queue, cons, advanceQueue_of_running begun within]
  case tail => rw [Rumble.marked_queue, cons, advanceQueue_of_ended begun ended, startHead_tail]
  case head => rw [Rumble.marked_queue, cons, advanceQueue_of_ended begun ended, startHead_head?]; rfl
  case hold => rw [Rumble.marked_requested cons, EffectStep.asks_of_hold hold]
  case ramp => rw [Rumble.marked_requested cons, EffectStep.asks_of_ramp ramp (advanceQueue_inCourse cons)]
  case drained =>
    rw [Rumble.drainLink_of_noticed (r := s.rumble.driven s.governor.record) empty running noticed]
    exact Link.pend_rumble_notice enabled _
  case copying =>
    rw [State.rumbleMark_of_acknowledged waiting reserve]
    refine ⟨rfl, fun k other => s.rumbleMarked.enterCopying_entry_ne other, ?_, rfl⟩
    rw [← s.rumbleMarked_save, State.enterCopying_entry]
    exact ⟨rfl, rfl, rfl, BankPair.get_set_self _ _ _, BankPair.get_set_other _ _ _,
      SlotEntry.invalidated_condition _ _ _⟩

/-! ## Motor results -/

/-- The driver on its entry into FAULT (R104). -/
def Rumble.faulted (r : Rumble) (cause : FaultCause) : Rumble :=
  { r with state := .fault, cause := cause, applied := 0, requested := 0, queue := [], priority := none }

theorem State.rumbleFault_eq (s : State) (cause : FaultCause) : s.rumbleFault cause =
    (s.withRumble (s.rumble.faulted cause)).pendRumble ⟨.fault, .fault, cause, 0⟩ := rfl

theorem State.rumbleFault_notice {s : State} (h : maskEnables s.link.mask .rumble = true) (cause : FaultCause) :
    (s.rumbleFault cause).link.notices.rumble = some ⟨.fault, .fault, cause, 0⟩ := by
  rw [State.rumbleFault_eq, State.pendRumble_eq]
  exact Link.pend_rumble_notice h _

/-- A result without drive, or not below the threshold, ends the run (R102). -/
theorem State.takeBemf_of_turning {s : State} {corrected : Nat}
    (h : s.rumble.applied < 64 ∨ s.rumble.settings.stall ≤ corrected) :
    s.takeBemf corrected = s.withRumble { s.rumble with bemfRun := 0 } := by
  have turning : ¬(64 ≤ s.rumble.applied ∧ corrected < s.rumble.settings.stall) := by omega
  simp only [State.takeBemf, if_neg turning]
  rfl

/-- A low result under drive counts, and at three in a row the motor is stalled. -/
theorem State.takeBemf_of_low {s : State} {corrected : Nat} (drive : 64 ≤ s.rumble.applied)
    (low : corrected < s.rumble.settings.stall) : s.takeBemf corrected =
      if 2 ≤ s.rumble.bemfRun then (s.withRumble { s.rumble with bemfRun := s.rumble.bemfRun + 1 }).rumbleFault .stall
      else s.withRumble { s.rumble with bemfRun := s.rumble.bemfRun + 1 } := by
  simp only [State.takeBemf, if_pos (And.intro drive low), Nat.reduceLeDiff]

theorem State.takeImot_of_above {s : State} {count : Nat} (above : s.rumble.settings.trip < count)
    (drive : 0 < s.rumble.applied) : s.takeImot count = s.rumbleFault .trip :=
  if_pos ⟨above, drive⟩

theorem State.takeImot_of_not {s : State} {count : Nat} (h : count ≤ s.rumble.settings.trip ∨ s.rumble.applied = 0) :
    s.takeImot count = s :=
  if_neg (by omega)

/-- The monitor with a BEMF result stored, raw and corrected, and its injected conversion over (R5). -/
def SupplyMonitor.withBemf (m : SupplyMonitor) (raw : Nat) : SupplyMonitor :=
  { m with bemfRaw := raw, bemfCorrected := raw - m.zeroOffset, injected := .idle }

/-- The monitor with an IMOT result stored, and the round gone on (R2). -/
def SupplyMonitor.withImot (m : SupplyMonitor) (count : Nat) : SupplyMonitor :=
  { m with imot := count, round := m.round.tail }

theorem exec_bemfResult {s : State} {raw : Count12} (powered : s.corePowered = true)
    (converting : s.supply.converting = .injected) : exec (.bemfResult raw) s =
      .next ((s.withSupply (s.supply.withBemf raw.val)).takeBemf (raw.val - s.supply.zeroOffset)) :=
  (onCore_powered powered _).trans (congrArg Host.Outcome.next (if_pos converting))

theorem exec_imotResult {s : State} {count : Count12} (powered : s.corePowered = true)
    (converting : s.supply.converting = .channel .imot) : exec (.imotResult count) s =
      .next ((s.withSupply (s.supply.withImot count.val)).takeImot count.val) :=
  (onCore_powered powered _).trans (congrArg Host.Outcome.next (if_pos converting))

/-! ## The obligation of the motor results -/

/-- Settles O21: a BEMF result by whether it is low under drive and by the run before it, an IMOT result by whether it is above the
trip current under drive. -/
theorem motorResultsDetectStallAndTrip : Obligations.MotorResultsDetectStallAndTrip := by
  unfold Obligations.MotorResultsDetectStallAndTrip
  refine ⟨fun s raw powered converting => ⟨fun turning => ?turning, fun drive low short => ?low, fun drive low two => ?third⟩,
    fun s count powered converting => ⟨fun harmless => ?harmless, fun above drive => ?trip⟩⟩
  case turning =>
    rw [exec_bemfResult powered converting, State.takeBemf_of_turning (s := s.withSupply (s.supply.withBemf raw.val)) turning]
    rfl
  case low =>
    rw [exec_bemfResult powered converting, State.takeBemf_of_low (s := s.withSupply (s.supply.withBemf raw.val)) drive low,
      State.withSupply_rumble, if_neg (by omega)]
    rfl
  case third =>
    refine ⟨_, exec_bemfResult powered converting, ?_⟩
    rw [State.takeBemf_of_low (s := s.withSupply (s.supply.withBemf raw.val)) drive low,
      State.withSupply_rumble, two, if_pos (Nat.le_refl 2)]
    exact ⟨rfl, rfl, fun enabled => State.rumbleFault_notice enabled .stall⟩
  case harmless =>
    rw [exec_imotResult powered converting, State.takeImot_of_not (s := s.withSupply (s.supply.withImot count.val)) harmless]
    rfl
  case trip =>
    refine ⟨_, exec_imotResult powered converting, ?_⟩
    rw [State.takeImot_of_above (s := s.withSupply (s.supply.withImot count.val)) above drive]
    exact ⟨rfl, rfl, fun enabled => State.rumbleFault_notice enabled .trip⟩

end Sys2Proof.Machine
end

