-- ==== Sys2Proof/Proofs/Restart.lean ====
section
/-! SUPPORT. Restart (R177): what the operation in flight leaves in backup memory when it stops, the marker check after it, and
the end of a frame in transmission. -/

namespace Sys2Proof.Machine

/-! ## The save store -/

theorem BankPair.get_set_ne {α : Type} (p : BankPair α) {bank other : Bank} (h : other ≠ bank) (x : α) :
    (p.set bank x).get other = p.get other := by
  cases bank <;> cases other
  case a.b => rfl
  case b.a => rfl
  all_goals exact absurd rfl h

/-- Payload bytes written into one bank leave every other bank as it is. -/
theorem SaveStore.bank_writeBank_ne (st : SaveStore) {slot k : Fin 4} {target bank : Bank} (h : k ≠ slot ∨ bank ≠ target)
    (offset : Nat) (bytes : List Byte) : (st.writeBank slot target offset bytes).bank k bank = st.bank k bank := by
  unfold SaveStore.bank SaveStore.writeBank
  by_cases hk : slot = k
  · subst hk
    have hb : bank ≠ target := h.resolve_left fun ne => ne rfl
    rw [Tab.get_modify_self, BankPair.get_set_ne _ hb]
  · rw [Tab.get_modify_ne _ hk]

/-! ## The operation in flight stops -/

/-- How far the load or copy in progress has come when it stops (log entry 7). -/
def State.stopPoint (s : State) : Nat := copyAdvance s.save.moved s.save.length (Config.copyProgress s.freeCount)

/-- The staging area with the bytes of a load up to its stop (R157); without a live bank there are none. -/
def State.stagingAtStop (s : State) : Memory :=
  match (s.save.entry s.save.opSlot).liveBank with
  | some bank => Memory.writeBytes s.store.staging s.save.moved
      (Memory.readBytes (s.store.bank s.save.opSlot bank) s.save.moved (s.stopPoint - s.save.moved))
  | none => s.store.staging

/-- The bytes of a copy up to its stop (R160). -/
def State.copiedAtStop (s : State) : List Byte :=
  Memory.readBytes s.store.staging s.save.moved (s.stopPoint - s.save.moved)

/-- With no operation in flight, or one that has begun no writing, nothing is left to stop. -/
def SaveState.WritesNothing (x : SaveState) : Prop := x = .idle ∨ x = .waitReserve ∨ x = .verifying

theorem State.stopOperation_of_sealing {s : State} (h : s.save.state = .sealing) : s.stopOperation.backup =
    { s.backup with store := s.store.writeHeader s.save.opSlot s.save.target s.sealedHeader } := by
  simp only [State.stopOperation, h]
  rfl

theorem State.stopOperation_of_writesNothing {s : State} (h : s.save.state.WritesNothing) : s.stopOperation = s := by
  rcases h with h | h | h <;> simp only [State.stopOperation, State.copySoFar, h]

theorem State.stopOperation_of_loading {s : State} (h : s.save.state = .loading) : s.stopOperation.backup =
    { s.backup with store := { s.store with staging := s.stagingAtStop } } := by
  simp only [State.stopOperation, State.copySoFar, State.copyUpTo, State.stagingAtStop, h]
  cases (s.save.entry s.save.opSlot).liveBank with
  | none => rfl
  | some bank => rfl

theorem State.stopOperation_of_copying {s : State} (h : s.save.state = .copying) : s.stopOperation.backup =
    { s.backup with store := s.store.writeBank s.save.opSlot s.save.target s.save.moved s.copiedAtStop } := by
  simp only [State.stopOperation, State.copySoFar, State.copyUpTo, h]
  rfl

/-- Everything that the stop of an operation can leave in backup memory. -/
theorem State.stopOperation_cases (s : State) :
    (s.save.state.WritesNothing ∧ s.stopOperation.backup = s.backup) ∨
    (s.save.state = .loading ∧ s.stopOperation.backup =
      { s.backup with store := { s.store with staging := s.stagingAtStop } }) ∨
    (s.save.state = .copying ∧ s.stopOperation.backup =
      { s.backup with store := s.store.writeBank s.save.opSlot s.save.target s.save.moved s.copiedAtStop }) ∨
    (s.save.state = .sealing ∧ s.stopOperation.backup =
      { s.backup with store := s.store.writeHeader s.save.opSlot s.save.target s.sealedHeader }) := by
  have resting (h : s.save.state.WritesNothing) : s.save.state.WritesNothing ∧ s.stopOperation.backup = s.backup :=
    ⟨h, by rw [State.stopOperation_of_writesNothing h]⟩
  cases h : s.save.state with
  | idle => exact .inl (h ▸ resting (.inl h))
  | waitReserve => exact .inl (h ▸ resting (.inr (.inl h)))
  | verifying => exact .inl (h ▸ resting (.inr (.inr h)))
  | loading => exact .inr (.inl ⟨rfl, State.stopOperation_of_loading h⟩)
  | copying => exact .inr (.inr (.inl ⟨rfl, State.stopOperation_of_copying h⟩))
  | sealing => exact .inr (.inr (.inr ⟨rfl, State.stopOperation_of_sealing h⟩))

/-- The stop of an operation changes nothing of the backup domain but the save store, and there never the marker. -/
theorem State.stopOperation_frame (s : State) : ∃ store,
    s.stopOperation.backup = { s.backup with store := store } ∧ store.marker = s.store.marker := by
  obtain ⟨_, h⟩ | ⟨_, h⟩ | ⟨_, h⟩ | ⟨_, h⟩ := s.stopOperation_cases <;> exact ⟨_, h, rfl⟩

@[simp] theorem State.stopOperation_marker (s : State) : s.stopOperation.backup.store.marker = s.store.marker := by
  obtain ⟨_, h, hm⟩ := s.stopOperation_frame
  rw [h]
  exact hm

@[simp] theorem State.stopOperation_powered (s : State) : s.stopOperation.backup.powered = s.backup.powered := by
  obtain ⟨_, h, _⟩ := s.stopOperation_frame
  rw [h]

/-- Only the target bank of a copy is written. -/
theorem State.stopOperation_bank {s : State} {slot : Fin 4} {bank : Bank}
    (h : s.save.state ≠ .copying ∨ slot ≠ s.save.opSlot ∨ bank ≠ s.save.target) :
    s.stopOperation.backup.store.bank slot bank = s.store.bank slot bank := by
  obtain ⟨_, hb⟩ | ⟨_, hb⟩ | ⟨copying, hb⟩ | ⟨_, hb⟩ := s.stopOperation_cases
  case inr.inr.inl => rw [hb]; exact SaveStore.bank_writeBank_ne _ (h.resolve_left fun ne => ne copying) _ _
  all_goals exact congrArg (·.store.bank slot bank) hb

/-- Only a seal writes a header. -/
theorem State.stopOperation_headers {s : State} (h : s.save.state ≠ .sealing) :
    s.stopOperation.backup.store.headers = s.store.headers := by
  obtain ⟨_, hb⟩ | ⟨_, hb⟩ | ⟨_, hb⟩ | ⟨hs, _⟩ := s.stopOperation_cases
  case inr.inr.inr => exact absurd hs h
  all_goals exact congrArg (·.store.headers) hb

/-- Only a load writes the staging area. -/
theorem State.stopOperation_staging {s : State} (h : s.save.state ≠ .loading) :
    s.stopOperation.backup.store.staging = s.store.staging := by
  obtain ⟨_, hb⟩ | ⟨hl, _⟩ | ⟨_, hb⟩ | ⟨_, hb⟩ := s.stopOperation_cases
  case inr.inl => exact absurd hl h
  all_goals exact congrArg (·.store.staging) hb

/-! ## The marker check (R153) -/

theorem Backup.checkMarker_of_right {b : Backup} (h : b.store.marker = true) : b.checkMarker = b := if_pos h

theorem Backup.checkMarker_of_wrong {b : Backup} (h : b.store.marker = false) : b.checkMarker = b.handleLoss :=
  if_neg (by rw [h]; exact Bool.false_ne_true)

@[simp] theorem Backup.checkMarker_marker (b : Backup) : b.checkMarker.store.marker = true := by
  cases h : b.store.marker with
  | true => rw [Backup.checkMarker_of_right h, h]
  | false => rw [Backup.checkMarker_of_wrong h]; rfl

@[simp] theorem Backup.checkMarker_powered (b : Backup) : b.checkMarker.powered = b.powered := by
  cases h : b.store.marker with
  | true => rw [Backup.checkMarker_of_right h]
  | false => rw [Backup.checkMarker_of_wrong h]; rfl

@[simp] theorem Backup.checkMarker_bank (b : Backup) (slot : Fin 4) (bank : Bank) :
    b.checkMarker.store.bank slot bank = b.store.bank slot bank := by
  cases h : b.store.marker with
  | true => rw [Backup.checkMarker_of_right h]
  | false => rw [Backup.checkMarker_of_wrong h]; rfl

/-! ## The end of a frame in transmission (R173) -/

theorem Link.endFrame_of_frame {l : Link} (frame : l.tx ≠ none) (low : l.lselLow = true) :
    l.endFrame = (if l.bitCount = 0 then [] else [l.out.headD 0xF9]) ++ [0xF8, 0xF9] :=
  if_pos ⟨Option.isSome_iff_ne_none.2 frame, low⟩

theorem Link.endFrame_of_noFrame {l : Link} (h : l.tx = none ∨ l.lselLow = false) : l.endFrame = l.out := by
  refine if_neg fun ⟨frame, low⟩ => ?_
  rcases h with h | h
  · rw [h] at frame; exact Bool.false_ne_true frame
  · rw [h] at low; exact Bool.false_ne_true low

/-! ## Restart -/

theorem exec_restart (tag : Byte) (s : State) : exec (.restart tag) s = execRestart tag s := rfl

theorem exec_restart_served {s : State} {tag : Byte} (hs : s.Serves (.restart tag)) :
    exec (.restart tag) s = .next (s.restarted tag) := by
  obtain ⟨powered, ready, admits⟩ := hs
  rw [exec_restart, execRestart, onRequest_admitted rfl powered admits]
  simp only [ready]

theorem State.restarted_backup (s : State) (tag : Byte) : (s.restarted tag).backup = s.stopOperation.backup.checkMarker := rfl

theorem State.restarted_save (s : State) (tag : Byte) : (s.restarted tag).save = .atStart (!s.store.marker) := by
  rw [← s.stopOperation_marker]
  rfl

theorem State.restarted_link (s : State) (tag : Byte) : (s.restarted tag).link =
    { Link.reset with
      lselLow := s.link.lselLow, bitCount := s.link.bitCount, shiftIn := s.link.shiftIn, ldo := s.link.ldo
      delimiterSent := s.link.delimiterSent, out := s.link.endFrame, replies := [⟨0x84, tag, .ok, .none⟩] } := rfl

theorem State.restarted_backup_of_right {s : State} (h : s.store.marker = true) (tag : Byte) :
    (s.restarted tag).backup = s.stopOperation.backup :=
  (s.restarted_backup tag).trans (Backup.checkMarker_of_right (s.stopOperation_marker.trans h))

theorem State.restarted_backup_of_wrong {s : State} (h : s.store.marker = false) (tag : Byte) :
    (s.restarted tag).backup = s.stopOperation.backup.handleLoss :=
  (s.restarted_backup tag).trans (Backup.checkMarker_of_wrong (s.stopOperation_marker.trans h))

theorem State.restarted_bank {s : State} {slot : Fin 4} {bank : Bank} (tag : Byte)
    (h : s.save.state ≠ .copying ∨ slot ≠ s.save.opSlot ∨ bank ≠ s.save.target) :
    (s.restarted tag).store.bank slot bank = s.store.bank slot bank :=
  (Backup.checkMarker_bank _ slot bank).trans (State.stopOperation_bank h)

/-- Settles O7: the core and the link by the fields of the restarted state, the last bytes to send by whether a frame is in
transmission, the backup domain by whether its marker is right and by the operation in flight. -/
theorem restartStartsTheCoreAgain : Obligations.RestartStartsTheCoreAgain := by
  unfold Obligations.RestartStartsTheCoreAgain
  intro s tag hs
  refine ⟨s.restarted tag, exec_restart_served hs, ?_⟩
  rw [s.restarted_save tag, s.restarted_link tag]
  refine ⟨rfl, rfl, rfl, rfl, rfl, rfl, rfl, rfl, rfl, rfl, rfl, rfl, rfl, rfl, rfl, rfl, rfl, rfl, rfl, rfl, rfl, rfl,
    Link.endFrame_of_frame, Link.endFrame_of_noFrame, Backup.checkMarker_marker _,
    (Backup.checkMarker_powered _).trans s.stopOperation_powered, fun _ _ => State.restarted_bank tag,
    fun right => ?right, fun wrong => ?wrong⟩
  case right =>
    obtain ⟨store, frame, _⟩ := s.stopOperation_frame
    simp only [State.record, State.store, State.restarted_backup_of_right right]
    exact ⟨by rw [frame], by rw [frame], by rw [frame], fun resting => by rw [State.stopOperation_of_writesNothing resting],
      fun sealing => by rw [State.stopOperation_of_sealing sealing]; rfl, State.stopOperation_headers,
      State.stopOperation_staging⟩
  case wrong =>
    simp only [State.record, State.store, State.restarted_backup_of_wrong wrong]
    exact ⟨rfl, rfl, rfl, rfl, rfl⟩

end Sys2Proof.Machine
end

