-- ==== Sys2Proof/Proofs/EventTable.lean ====
section
/-! SUPPORT. The requests of the event table: what Event Clear and Event List do when their owner takes them, and what the freeing
of an entry leaves of the EVENTS set and of the frame that carries it (R136, R138). -/

namespace Sys2Proof.Machine

/-! ## The frame that carries a freed entry (R136) -/

/-- Whatever is in transmission, its completion no longer releases the freed entry, and releases every other as before. -/
theorem actingEntries_withoutActing (e : Fin 16) (tx : Option TxFrame) :
    actingEntries (withoutActing e tx) = (actingEntries tx).filter (· != e.val) := by
  match tx with
  | none => rfl
  | some ⟨.reply _, _⟩ => rfl
  | some ⟨.notice ⟨_, content, _, live, _⟩, _⟩ =>
    cases content with
    | events _ =>
      cases live with
      | true => rfl
      | false => rfl
    | _ => cases live <;> rfl

theorem mem_actingEntries_withoutActing {e : Fin 16} {tx : Option TxFrame} {k : Nat} :
    k ∈ actingEntries (withoutActing e tx) ↔ k ∈ actingEntries tx ∧ k ≠ e.val := by
  rw [actingEntries_withoutActing, List.mem_filter, bne_iff_ne]

theorem not_mem_actingEntries_withoutActing (e : Fin 16) (tx : Option TxFrame) :
    e.val ∉ actingEntries (withoutActing e tx) :=
  fun h => (mem_actingEntries_withoutActing.1 h).2 rfl

theorem mem_actingEntries_withoutActing_of_ne {e : Fin 16} {k : Nat} (h : k ≠ e.val) (tx : Option TxFrame) :
    k ∈ actingEntries (withoutActing e tx) ↔ k ∈ actingEntries tx :=
  mem_actingEntries_withoutActing.trans (and_iff_left h)

/-! ## Freeing an entry (R138) -/

/-- Freeing an entry changes backup memory, the pending set and the frame in transmission alone. -/
theorem State.clearEntry_frame (s : State) (e : Fin 16) :
    { s.clearEntry e with backup := s.backup, link := s.link } = s ∧
    { (s.clearEntry e).link with notices := s.link.notices, tx := s.link.tx } = s.link := ⟨rfl, rfl⟩

theorem State.clearEntry_backup (s : State) (e : Fin 16) :
    (s.clearEntry e).backup = { s.backup with events := s.backup.events.set e .freed } := rfl

theorem State.clearEntry_notices (s : State) (e : Fin 16) :
    (s.clearEntry e).link.notices =
      { s.link.notices with events := s.link.notices.events.filter fun x => x ≠ e } := by
  have others : s.link.notices.events.filter (· != e) = s.link.notices.events.filter fun x => x ≠ e :=
    List.filter_congr fun _ _ => Bool.eq_iff_iff.2 (bne_iff_ne.trans decide_eq_true_iff.symm)
  rw [← others]
  rfl

theorem State.clearEntry_tx (s : State) (e : Fin 16) : (s.clearEntry e).link.tx = withoutActing e s.link.tx := rfl

/-! ## Event Clear -/

theorem takeEventClear_of_le {entry : Nat} (h : 16 ≤ entry) (s : State) : takeEventClear entry s = refuse s .badField := by
  rw [takeEventClear, number?_of_le h]

theorem takeEventClear_of_critical {s : State} (e : Fin 16) (h : s.supply.supply = .critical) :
    takeEventClear e.val s = refuse s .supplyCritical := by
  rw [takeEventClear, number?_val]
  exact if_pos h

theorem takeEventClear_of_free {s : State} {e : Fin 16} (hc : s.supply.supply ≠ .critical)
    (hf : (s.entry e).state = .free) : takeEventClear e.val s = refuse s .nothingPending := by
  rw [takeEventClear, number?_val]
  exact (if_neg hc).trans (if_pos hf)

theorem takeEventClear_of_not_free {s : State} {e : Fin 16} (hc : s.supply.supply ≠ .critical)
    (hf : (s.entry e).state ≠ .free) : takeEventClear e.val s = accept (s.clearEntry e) .none := by
  rw [takeEventClear, number?_val]
  exact (if_neg hc).trans (if_neg hf)

theorem exec_eventClear (tag : Byte) (entry : Nat) (s : State) :
    exec (.eventClear tag entry) s = serve (.eventClear tag entry) (takeEventClear entry) s := rfl

/-- Event Clear is refused with the status its owner refuses it with. -/
theorem exec_eventClear_refused {s : State} {tag : Byte} {entry : Nat} {status : Status}
    (hs : s.Serves (.eventClear tag entry)) (h : takeEventClear entry s = refuse s status) :
    exec (.eventClear tag entry) s = .next (s.replied Kind.eventClear tag status .none) := by
  rw [exec_eventClear]
  exact serve_refused rfl hs h

theorem exec_eventClear_accepted {s : State} {tag : Byte} {e : Fin 16} (hs : s.Serves (.eventClear tag e.val))
    (hc : s.supply.supply ≠ .critical) (hf : (s.entry e).state ≠ .free) :
    exec (.eventClear tag e.val) s = .next ((s.clearEntry e).replied Kind.eventClear tag .ok .none) := by
  rw [exec_eventClear]
  exact serve_accepted rfl hs (takeEventClear_of_not_free hc hf)

/-! ## Event List -/

theorem exec_eventList (tag : Byte) (s : State) : exec (.eventList tag) s = serve (.eventList tag) takeEventList s := rfl

theorem exec_eventList_accepted {s : State} {tag : Byte} (hs : s.Serves (.eventList tag)) :
    exec (.eventList tag) s = .next (s.replied Kind.eventList tag .ok (.eventList s.backup.events)) := by
  rw [exec_eventList]
  exact serve_accepted rfl hs rfl

/-! ## The obligation -/

/-- Settles O42: Event List by its report; Event Clear by the entry's number, the supply and whether the entry is FREE. An
entry that is freed leaves the frame in transmission by the rule for what that frame still releases. -/
theorem eventClearFreesAnEntryAndListReports : Obligations.EventClearFreesAnEntryAndListReports := by
  unfold Obligations.EventClearFreesAnEntryAndListReports
  refine ⟨fun s tag => ⟨exec_eventList_accepted, fun entry high hs => ?outOfRange⟩,
    fun s tag e hs => ⟨fun critical => ?critical, fun supplied free => ?free, fun supplied notFree => ?cleared⟩⟩
  case outOfRange => exact exec_eventClear_refused hs (takeEventClear_of_le high s)
  case critical => exact exec_eventClear_refused hs (takeEventClear_of_critical e critical)
  case free => exact exec_eventClear_refused hs (takeEventClear_of_free supplied free)
  case cleared =>
    obtain ⟨frame, linkFrame⟩ := s.clearEntry_frame e
    refine ⟨s.clearEntry e, exec_eventClear_accepted hs supplied notFree, frame, s.clearEntry_backup e, linkFrame,
      s.clearEntry_notices e, ?_⟩
    rw [s.clearEntry_tx e]
    exact ⟨not_mem_actingEntries_withoutActing e _, fun k other => mem_actingEntries_withoutActing_of_ne other _⟩

end Sys2Proof.Machine
end

