-- ==== Sys2Proof/Proofs/CommitRequests.lean ====
section
/-! SUPPORT. Commit and Commit Abort: what each does when its owner takes it, when it refuses, and what the end of a commit in
flight leaves as it is (R158, R162). -/

namespace Sys2Proof.Machine

/-! ## Commit (R158) -/

theorem SlotEntry.commitTarget_eq (e : SlotEntry) : e.commitTarget = if e.liveBank = some .a then .b else .a := by
  unfold SlotEntry.commitTarget
  match e.liveBank with
  | none => rfl
  | some .a => rfl
  | some .b => rfl

/-- The controller of a commit that has just begun. -/
def SaveController.beginCommit (c : SaveController) (tag : Byte) (slot : Fin 4) (length : Nat) : SaveController :=
  { c with state := .waitReserve, opSlot := slot, length := length, moved := 0, deferredTag := tag
           target := if (c.entry slot).liveBank = some .a then .b else .a }

theorem takeCommit_of_outOfRange {slot length : Nat} (h : 4 ≤ slot ∨ length = 0 ∨ 3584 < length) (tag : Byte) (s : State) :
    takeCommit tag slot length s = refuse s .badField := by
  by_cases hslot : slot < 4
  · have hlength : ¬(1 ≤ length ∧ length ≤ 3584) := by omega
    rw [takeCommit, number?_val ⟨slot, hslot⟩]
    exact if_pos hlength
  · rw [takeCommit, number?_of_le (Nat.not_lt.1 hslot)]

section
variable {s : State} {slot : Fin 4} {length : Nat} (tag : Byte) (inRange : 1 ≤ length ∧ length ≤ 3584)
include inRange

theorem takeCommit_of_busy (busy : s.save.state ≠ .idle) : takeCommit tag slot.val length s = refuse s .busy := by
  simp only [takeCommit, number?_val, if_neg (not_not_intro inRange), if_pos busy]

variable (idle : s.save.state = .idle)
include idle

theorem takeCommit_of_low (low : s.supply.supply = .low) : takeCommit tag slot.val length s = refuse s .supplyLow := by
  simp only [takeCommit, number?_val, if_neg (not_not_intro inRange), if_neg (not_not_intro idle), if_pos low]

theorem takeCommit_of_critical (critical : s.supply.supply = .critical) :
    takeCommit tag slot.val length s = refuse s .supplyCritical := by
  have notLow : s.supply.supply ≠ .low := critical ▸ nofun
  simp only [takeCommit, number?_val, if_neg (not_not_intro inRange), if_neg (not_not_intro idle), if_neg notLow,
    if_pos critical]

variable (normal : s.supply.supply = .normal)
include normal

theorem takeCommit_of_exhausted (last : (s.save.entry slot).highest = 4294967295) :
    takeCommit tag slot.val length s = refuse s .genExhausted := by
  have notLow : s.supply.supply ≠ .low := normal ▸ nofun
  have notCritical : s.supply.supply ≠ .critical := normal ▸ nofun
  simp only [takeCommit, number?_val, if_neg (not_not_intro inRange), if_neg (not_not_intro idle), if_neg notLow,
    if_neg notCritical, if_pos last]

theorem takeCommit_begins (notLast : (s.save.entry slot).highest ≠ 4294967295) :
    takeCommit tag slot.val length s = defer (s.leaveIdle (s.save.beginCommit tag slot length)) := by
  have notLow : s.supply.supply ≠ .low := normal ▸ nofun
  have notCritical : s.supply.supply ≠ .critical := normal ▸ nofun
  simp only [takeCommit, number?_val, if_neg (not_not_intro inRange), if_neg (not_not_intro idle), if_neg notLow,
    if_neg notCritical, if_neg notLast, SlotEntry.commitTarget_eq, SaveController.beginCommit]

end

theorem exec_commit (tag : Byte) (slot length : Nat) (s : State) :
    exec (.commit tag slot length) s = serve (.commit tag slot length) (takeCommit tag slot length) s := rfl

/-- Commit is refused with the status its owner refuses it with. -/
theorem exec_commit_refused {s : State} {tag : Byte} {slot length : Nat} {status : Status}
    (hs : s.Serves (.commit tag slot length)) (h : takeCommit tag slot length s = refuse s status) :
    exec (.commit tag slot length) s = .next (s.replied Kind.commit tag status .none) := by
  rw [exec_commit]
  exact serve_refused rfl hs h

theorem exec_commit_begins {s : State} {tag : Byte} {slot : Fin 4} {length : Nat} (hs : s.Serves (.commit tag slot.val length))
    (inRange : 1 ≤ length ∧ length ≤ 3584) (idle : s.save.state = .idle) (normal : s.supply.supply = .normal)
    (notLast : (s.save.entry slot).highest ≠ 4294967295) : exec (.commit tag slot.val length) s =
      .next ((s.leaveIdle (s.save.beginCommit tag slot length)).deferring Kind.commit tag) := by
  rw [exec_commit]
  exact serve_deferred rfl hs (takeCommit_begins tag inRange idle normal notLast)

/-! ## A commit that has not begun to seal -/

/-- A commit is in flight that has not begun to seal, so that Commit Abort ends it (R162). -/
def SaveState.Abortable (x : SaveState) : Prop := x = .waitReserve ∨ x = .copying

theorem SaveState.Abortable.ne_sealing {x : SaveState} (h : x.Abortable) : x ≠ .sealing := by
  rcases h with rfl | rfl
  · nofun
  · nofun

/-- A commit that stops before its seal has changed nothing of the backup domain but the banks. -/
theorem State.stopOperation_banks {s : State} (h : s.save.state.Abortable) : ∃ banks,
    s.stopOperation.backup = { s.backup with store := { s.store with banks := banks } } := by
  rcases h with waiting | copying
  · rw [State.stopOperation_of_writesNothing (.inr (.inl waiting))]
    exact ⟨_, rfl⟩
  · rw [State.stopOperation_of_copying copying]
    exact ⟨_, rfl⟩

/-! ## An operation abandoned -/

theorem State.stopOperation_of_ne_sealing {s : State} (h : s.save.state ≠ .sealing) : s.stopOperation = s.copySoFar := by
  unfold State.stopOperation
  split
  · next sealing => exact absurd sealing h
  · rfl

/-- Copying changes nothing of the controller but how far it has come. -/
theorem State.copyUpTo_save (s : State) (upTo : Nat) : ∃ m, (s.copyUpTo upTo).save = { s.save with moved := m } := by
  unfold State.copyUpTo
  dsimp only
  split
  · split
    · exact ⟨upTo, rfl⟩
    · exact ⟨s.save.moved, rfl⟩
  · exact ⟨upTo, rfl⟩
  · exact ⟨s.save.moved, rfl⟩

theorem State.copySoFar_save (s : State) : ∃ m, s.copySoFar.save = { s.save with moved := m } := by
  unfold State.copySoFar
  split
  · exact s.copyUpTo_save _
  · exact s.copyUpTo_save _
  · exact ⟨s.save.moved, rfl⟩

/-- An abandoned operation changes the controller, the governor, backup memory and the count of free values alone. -/
theorem State.stopForAbandon_frame (s : State) :
    { s.stopForAbandon with save := s.save, governor := s.governor, backup := s.backup, freeCount := s.freeCount } = s := by
  obtain ⟨_, _, _, h⟩ := s.copySoFar_frame
  rw [State.stopForAbandon, h]
  rfl

theorem State.stopForAbandon_save (s : State) : ∃ m, s.stopForAbandon.save = { s.save with state := .idle, moved := m } := by
  obtain ⟨m, h⟩ := s.copySoFar_save
  exact ⟨m, by rw [State.stopForAbandon, State.returnIdle_eq, h]; rfl⟩

theorem State.stopForAbandon_governor (s : State) : s.stopForAbandon.governor = s.governor.takeBusy false := by
  obtain ⟨_, _, _, h⟩ := s.copySoFar_frame
  rw [State.stopForAbandon, h]
  rfl

/-- Abandoned before a seal, an operation leaves in backup memory what it leaves there when the core stops. -/
theorem State.stopForAbandon_backup {s : State} (h : s.save.state ≠ .sealing) :
    s.stopForAbandon.backup = s.stopOperation.backup := by
  rw [State.stopOperation_of_ne_sealing h]
  rfl

/-! ## Commit Abort (R162) -/

theorem takeCommitAbort_of_abortable {s : State} (h : s.save.state.Abortable) :
    takeCommitAbort s = ⟨s.stopForAbandon, some (.ok, .none), [s.abandonedReply]⟩ := by
  rcases h with waiting | copying
  · simp only [takeCommitAbort, waiting]
  · simp only [takeCommitAbort, copying]

theorem takeCommitAbort_of_sealing {s : State} (h : s.save.state = .sealing) : takeCommitAbort s = refuse s .tooLate := by
  simp only [takeCommitAbort, h]

theorem takeCommitAbort_of_noCommit {s : State} (h : s.save.state = .idle ∨ s.save.state = .loading ∨ s.save.state = .verifying) :
    takeCommitAbort s = refuse s .nothingPending := by
  rcases h with idle | loading | verifying
  · simp only [takeCommitAbort, idle]
  · simp only [takeCommitAbort, loading]
  · simp only [takeCommitAbort, verifying]

theorem exec_commitAbort (tag : Byte) (s : State) :
    exec (.commitAbort tag) s = serve (.commitAbort tag) takeCommitAbort s := rfl

/-- Commit Abort is refused with the status its owner refuses it with. -/
theorem exec_commitAbort_refused {s : State} {tag : Byte} {status : Status} (hs : s.Serves (.commitAbort tag))
    (h : takeCommitAbort s = refuse s status) :
    exec (.commitAbort tag) s = .next (s.replied Kind.commitAbort tag status .none) := by
  rw [exec_commitAbort]
  exact serve_refused rfl hs h

/-- The abort's own reply joins first, the deferred reply of the commit it ended follows (log entry 25). -/
theorem exec_commitAbort_ends {s : State} {tag : Byte} (hs : s.Serves (.commitAbort tag)) (h : s.save.state.Abortable) :
    exec (.commitAbort tag) s = .next ((s.stopForAbandon.replied Kind.commitAbort tag .ok .none).concluded
      Kind.commit s.save.deferredTag .abandoned .none) := by
  rw [exec_commitAbort, serve_of_serves rfl hs, takeCommitAbort_of_abortable h]
  rfl

/-! ## The obligation -/

/-- Settles O48: Commit by the first check it fails, in the order of R158; Commit Abort by the controller's state. What an
ended commit leaves in backup memory is what the stop of an operation leaves there. -/
theorem commitBeginsAndAborts : Obligations.CommitBeginsAndAborts := by
  unfold Obligations.CommitBeginsAndAborts
  refine ⟨fun s tag slot length hs outOfRange => exec_commit_refused hs (takeCommit_of_outOfRange outOfRange tag s),
    fun s tag slot length hs positive fits => ?commit,
    fun s tag hs => ⟨fun sealing => exec_commitAbort_refused hs (takeCommitAbort_of_sealing sealing),
      fun noCommit => exec_commitAbort_refused hs (takeCommitAbort_of_noCommit noCommit), fun abortable => ?abort⟩⟩
  case commit =>
    have inRange : 1 ≤ length ∧ length ≤ 3584 := ⟨positive, fits⟩
    exact ⟨fun busy => exec_commit_refused hs (takeCommit_of_busy tag inRange busy),
      fun idle low => exec_commit_refused hs (takeCommit_of_low tag inRange idle low),
      fun idle critical => exec_commit_refused hs (takeCommit_of_critical tag inRange idle critical),
      fun idle normal last => exec_commit_refused hs (takeCommit_of_exhausted tag inRange idle normal last),
      fun idle normal notLast => exec_commit_begins hs inRange idle normal notLast⟩
  case abort =>
    have notSealing : s.save.state ≠ .sealing := SaveState.Abortable.ne_sealing abortable
    obtain ⟨moved, save⟩ := s.stopForAbandon_save
    obtain ⟨banks, backup⟩ := State.stopOperation_banks abortable
    refine ⟨s.stopForAbandon, exec_commitAbort_ends hs abortable, s.stopForAbandon_frame, by rw [save], by rw [save],
      s.stopForAbandon_governor, ?_⟩
    rw [State.store, State.stopForAbandon_backup notSealing]
    exact ⟨fun waiting => by rw [State.stopOperation_of_writesNothing (.inr (.inl waiting))], by rw [backup],
      by rw [backup]; rfl, fun slot bank other => State.stopOperation_bank (.inr other)⟩

end Sys2Proof.Machine
end

