-- ==== Sys2Proof/Proofs/Footprints.lean ====
section
/-! SUPPORT. Which parts of the state each command can change, said once for all 81 rows, so that an invariant is argued only at
the commands that touch what it speaks of. -/

namespace Sys2Proof.Machine

set_option Elab.async false

/-! ## Parts of the state -/

/-- The parts of the state that the invariants speak of. -/
inductive Part where
  | commands | power | supplyState | calibration | governor | voices | pendings | wave | stream | mixer | rumble | cue | save
  | calendar | record | events | store | queues | announced
  deriving DecidableEq

/-- The queues of the link (R172). -/
def Link.queues (l : Link) : List InboundRequest × List Reply × List Reply := (l.inbound, l.replies, l.waiting)

/-- What the EVENTS notice rests on: the start-up flag, the mask, the set, and the members that a frame releases (R136). -/
def Link.announced (l : Link) : Bool × Word16 × List (Fin 16) × List Nat :=
  (l.catchUpDone, l.mask, l.notices.events, actingEntries l.tx)

/-- From `s` to `t` the part is as it was. -/
def State.Same (s t : State) : Part → Prop
  | .commands => t.pending = s.pending
  | .power => t.corePowered = s.corePowered
  | .supplyState => t.supply.supply = s.supply.supply
  | .calibration => t.supply.calibration = s.supply.calibration
  | .governor => t.governor = s.governor
  | .voices => t.voice.voices = s.voice.voices
  | .pendings => t.voice.pendings = s.voice.pendings
  | .wave => t.voice.wave = s.voice.wave
  | .stream => t.stream = s.stream
  | .mixer => t.mixer = s.mixer
  | .rumble => t.rumble = s.rumble
  | .cue => t.cue = s.cue
  | .save => t.save = s.save
  | .calendar => t.backup.calendar = s.backup.calendar
  | .record => t.backup.record = s.backup.record
  | .events => t.backup.events = s.backup.events
  | .store => t.backup.store = s.backup.store
  | .queues => t.link.queues = s.link.queues
  | .announced => t.link.announced = s.link.announced

/-- From `s` to `t` every part but those named is as it was. -/
def State.Keeps (s t : State) (touched : List Part) : Prop := ∀ p, p ∉ touched → s.Same t p

namespace State.Keeps

variable {s t u : State} {a b c : List Part}

theorem refl (s : State) (a : List Part) : s.Keeps s a := fun p _ => by cases p <;> rfl

theorem of_eq (h : t = s) (a : List Part) : s.Keeps t a := h ▸ refl s a

theorem mono (h : s.Keeps t a) (ab : a ⊆ b := by decide) : s.Keeps t b := fun p hp => h p fun ha => hp (ab ha)

theorem trans (h : s.Keeps t a) (h' : t.Keeps u a) : s.Keeps u a := fun p hp => by
  have first := h p hp
  have second := h' p hp
  cases p <;> exact Eq.trans second first

/-- One operation after another touches what either touches. -/
theorem andThen (h : s.Keeps t a) (h' : t.Keeps u b) (ac : a ⊆ c := by decide) (bc : b ⊆ c := by decide) : s.Keeps u c :=
  (h.mono ac).trans (h'.mono bc)

theorem ite {p : Prop} [Decidable p] (h : s.Keeps t a) (h' : s.Keeps u a) : s.Keeps (if p then t else u) a := by
  split
  · exact h
  · exact h'

theorem foldl {α : Type} {f : State → α → State} (h : ∀ (s : State) (x : α), s.Keeps (f s x) a) :
    ∀ (l : List α) (s : State), s.Keeps (l.foldl f s) a
  | [], s => refl s a
  | x :: l, s => (h s x).trans (foldl h l (f s x))

end State.Keeps

/-! ## The setters -/

section
variable (s : State)

/-- The monitor's readings and counts, beside the supply state and the calibration. -/
theorem keeps_withReadings {b : SupplyMonitor} (supply : b.supply = s.supply.supply := by rfl)
    (calibration : b.calibration = s.supply.calibration := by rfl) : s.Keeps (s.withSupply b) [] := by
  intro p _
  cases p
  case supplyState => exact supply
  case calibration => exact calibration
  all_goals rfl

theorem keeps_withSupplyState {b : SupplyMonitor} (calibration : b.calibration = s.supply.calibration) :
    s.Keeps (s.withSupply b) [.supplyState] := by
  intro p hp
  cases p
  case supplyState => exact absurd (List.mem_singleton_self _) hp
  case calibration => exact calibration
  all_goals rfl

theorem keeps_withCalibration {b : SupplyMonitor} (supply : b.supply = s.supply.supply := by rfl) :
    s.Keeps (s.withSupply b) [.calibration] := by
  intro p hp
  cases p
  case supplyState => exact supply
  case calibration => exact absurd (List.mem_singleton_self _) hp
  all_goals rfl

theorem keeps_withGovernor (b : Governor) : s.Keeps (s.withGovernor b) [.governor] := by
  intro p hp
  cases p
  case governor => exact absurd (List.mem_singleton_self _) hp
  all_goals rfl

theorem keeps_withPendings (pendings : Tab 8 PendingVoice) :
    s.Keeps (s.withVoice { s.voice with pendings := pendings }) [.pendings] := by
  intro p hp
  cases p
  case pendings => exact absurd (List.mem_singleton_self _) hp
  all_goals rfl

theorem keeps_withVoices (voices : Tab 8 VoiceRecord) : s.Keeps (s.withVoice { s.voice with voices := voices }) [.voices] := by
  intro p hp
  cases p
  case voices => exact absurd (List.mem_singleton_self _) hp
  all_goals rfl

theorem keeps_withWave (wave : Memory) : s.Keeps (s.withVoice { s.voice with wave := wave }) [.wave] := by
  intro p hp
  cases p
  case wave => exact absurd (List.mem_singleton_self _) hp
  all_goals rfl

theorem keeps_withStream (b : StreamBuffers) : s.Keeps (s.withStream b) [.stream] := by
  intro p hp
  cases p
  case stream => exact absurd (List.mem_singleton_self _) hp
  all_goals rfl

theorem keeps_withMixer (b : Mixer) : s.Keeps (s.withMixer b) [.mixer] := by
  intro p hp
  cases p
  case mixer => exact absurd (List.mem_singleton_self _) hp
  all_goals rfl

theorem keeps_withRumble (b : Rumble) : s.Keeps (s.withRumble b) [.rumble] := by
  intro p hp
  cases p
  case rumble => exact absurd (List.mem_singleton_self _) hp
  all_goals rfl

theorem keeps_withCue (b : CueUnit) : s.Keeps (s.withCue b) [.cue] := by
  intro p hp
  cases p
  case cue => exact absurd (List.mem_singleton_self _) hp
  all_goals rfl

theorem keeps_withSave (b : SaveController) : s.Keeps (s.withSave b) [.save] := by
  intro p hp
  cases p
  case save => exact absurd (List.mem_singleton_self _) hp
  all_goals rfl

theorem keeps_withStore (st : SaveStore) : s.Keeps (s.withStore st) [.store] := by
  intro p hp
  cases p
  case store => exact absurd (List.mem_singleton_self _) hp
  all_goals rfl

theorem keeps_withCalendar (c : Calendar) : s.Keeps (s.withBackup { s.backup with calendar := c }) [.calendar] := by
  intro p hp
  cases p
  case calendar => exact absurd (List.mem_singleton_self _) hp
  all_goals rfl

theorem keeps_withEvents (events : Tab 16 EventEntry) : s.Keeps (s.withBackup { s.backup with events := events }) [.events] := by
  intro p hp
  cases p
  case events => exact absurd (List.mem_singleton_self _) hp
  all_goals rfl

theorem keeps_setEvent (e : Fin 16) (x : EventEntry) : s.Keeps (s.setEvent e x) [.events] := keeps_withEvents s _

theorem keeps_writeRecord (r : GameDayRecord) : s.Keeps (s.writeRecord r) [.record] := by
  intro p hp
  cases p
  case record => exact absurd (List.mem_singleton_self _) hp
  all_goals rfl

theorem keeps_countFree : s.Keeps s.countFree [] := by
  intro p _
  cases p <;> rfl

theorem keeps_withLink {l : Link} (queues : l.queues = s.link.queues) (announced : l.announced = s.link.announced) :
    s.Keeps (s.withLink l) [] := by
  intro p _
  cases p
  case queues => exact queues
  case announced => exact announced
  all_goals rfl

theorem keeps_withQueues {l : Link} (announced : l.announced = s.link.announced) : s.Keeps (s.withLink l) [.queues] := by
  intro p hp
  cases p
  case queues => exact absurd (List.mem_singleton_self _) hp
  case announced => exact announced
  all_goals rfl

theorem keeps_withAnnounced {l : Link} (queues : l.queues = s.link.queues) : s.Keeps (s.withLink l) [.announced] := by
  intro p hp
  cases p
  case announced => exact absurd (List.mem_singleton_self _) hp
  case queues => exact queues
  all_goals rfl

theorem keeps_withLink_any (l : Link) : s.Keeps (s.withLink l) [.queues, .announced] := by
  intro p hp
  cases p
  case announced => exact absurd (by decide) hp
  case queues => exact absurd (by decide) hp
  all_goals rfl

end

/-! ## Notices -/

theorem actingEntries_markRewritten (k : NoticeKind) (tx : Option TxFrame) : actingEntries (markRewritten k tx) = actingEntries tx := by
  match tx with
  | none => rfl
  | some ⟨.reply _, _⟩ => rfl
  | some ⟨.notice _, _⟩ => rfl

/-- A notice whose put leaves the EVENTS set as it is changes nothing of what EVENTS rests on. -/
theorem Link.pend_announced (l : Link) (k : NoticeKind) {put : NoticeSet → NoticeSet} (h : (put l.notices).events = l.notices.events) :
    (l.pend k put).announced = l.announced := by
  unfold Link.pend
  split
  · simp only [Link.announced, actingEntries_markRewritten, h]
  · rfl

theorem Link.pend_queues (l : Link) (k : NoticeKind) (put : NoticeSet → NoticeSet) : (l.pend k put).queues = l.queues := by
  simp only [Link.queues, Link.pend_inbound, Link.pend_replies, Link.pend_waiting]

theorem Link.count_announced (l : Link) (rise : LinkCounters → LinkCounters) : (l.count rise).announced = l.announced :=
  Link.pend_announced { l with counters := rise l.counters } .link rfl

theorem Link.count_queues (l : Link) (rise : LinkCounters → LinkCounters) : (l.count rise).queues = l.queues :=
  Link.pend_queues { l with counters := rise l.counters } .link _

section
variable (s : State)

theorem keeps_pend (k : NoticeKind) {put : NoticeSet → NoticeSet} (h : (put s.link.notices).events = s.link.notices.events) :
    s.Keeps (s.pend k put) [] :=
  keeps_withLink s (Link.pend_queues _ _ _) (Link.pend_announced _ _ h)

theorem keeps_pendRumble (n : RumbleNotice) : s.Keeps (s.pendRumble n) [] := keeps_pend s .rumble rfl
theorem keeps_pendSaveScan (n : ScanNotice) : s.Keeps (s.pendSaveScan n) [] := keeps_pend s .saveScan rfl
theorem keeps_pendGameDay (n : GameDayNotice) : s.Keeps (s.pendGameDay n) [] := keeps_pend s .gameDay rfl
theorem keeps_pendCue (n : CueNotice) : s.Keeps (s.pendCue n) [] := keeps_pend s .cue rfl
theorem keeps_pendClip (n : Nat) : s.Keeps (s.pendClip n) [] := keeps_pend s .clip rfl
theorem keeps_joinStream (v : Fin 8) : s.Keeps (s.joinStream v) [] := keeps_pend s .stream rfl
theorem keeps_joinVoiceEnd (v : Fin 8) : s.Keeps (s.joinVoiceEnd v) [] := keeps_pend s .voiceEnd rfl
theorem keeps_pendSupply : s.Keeps s.pendSupply [] := keeps_pend s .supply rfl

theorem keeps_joinEvents (e : Fin 16) : s.Keeps (s.joinEvents e) [.announced] :=
  keeps_withAnnounced s (Link.pend_queues _ _ _)

theorem keeps_count (rise : LinkCounters → LinkCounters) : s.Keeps (s.withLink (s.link.count rise)) [] :=
  keeps_withLink s (Link.count_queues _ _) (Link.count_announced _ _)

/-! ## Replies -/

theorem Link.deliver_announced (l : Link) (r : Reply) : (l.deliver r).announced = l.announced := by
  unfold Link.deliver
  split
  · rfl
  · rfl

theorem keeps_deliver (r : Reply) : s.Keeps (s.withLink (s.link.deliver r)) [.queues] :=
  keeps_withQueues s (Link.deliver_announced _ r)

theorem keeps_answer (kind tag : Byte) (status : Status) (body : ReplyBody) : s.Keeps (s.answer kind tag status body) [.queues] :=
  keeps_deliver s _

theorem keeps_reply (kind tag : Byte) (status : Status) (body : ReplyBody) : s.Keeps (s.reply kind tag status body) [.queues] :=
  keeps_withQueues s rfl

end

/-- A request's replies change the queues beside what its owner changed. -/
theorem Taken.keeps_finish (t : Taken) (kind tag : Byte) : t.state.Keeps (t.finish kind tag) [.queues] := by
  unfold Taken.finish
  refine State.Keeps.trans ?_ (State.Keeps.foldl (fun s r => keeps_deliver s r) _ _)
  dsimp only
  split
  · exact keeps_reply _ _ _ _ _
  · exact keeps_withQueues _ rfl

/-! ## The game-day unit and the event table -/

section
variable (s : State)

theorem keeps_releaseEntry (e : Fin 16) : s.Keeps (s.releaseEntry e) [.events] := keeps_setEvent s _ _

theorem keeps_reportFiring (e : Fin 16) : s.Keeps (s.reportFiring e) [.events, .announced] :=
  ((keeps_setEvent s _ _).andThen (keeps_joinEvents _ e)).ite ((keeps_releaseEntry s e).mono)

theorem keeps_fireLate (i : Instant) (e : Fin 16) : s.Keeps (s.fireLate i e) [.events, .announced] :=
  (keeps_setEvent s _ _).andThen (keeps_reportFiring _ e)

theorem keeps_sweepLate (i : Instant) : s.Keeps (s.sweepLate i) [.events, .announced] :=
  State.Keeps.foldl (fun s e => (keeps_fireLate s i e).ite (.refl s _)) _ s

theorem keeps_pendGameDayOf (reason : GameDayReason) (index : Int) (credited : Nat) :
    s.Keeps (s.pendGameDayOf reason index credited) [] := keeps_pendGameDay s _

theorem keeps_cross (index : Int) : s.Keeps (s.cross index) [.record] :=
  (keeps_writeRecord s _).andThen (keeps_pendGameDayOf _ _ _ _)

theorem keeps_creditDays (index : Int) : s.Keeps (s.creditDays index) [.record] :=
  ((keeps_writeRecord s _).andThen (keeps_pendGameDayOf _ _ _ _)).ite
    (((keeps_writeRecord s _).andThen (keeps_pendGameDayOf _ _ _ _)).ite (.refl s _))

theorem keeps_catchUp (i : Instant) : s.Keeps (s.catchUp i) [.record, .events, .announced] :=
  ((keeps_creditDays s _).ite (.refl s _)).andThen (keeps_sweepLate _ i)

theorem keeps_checkRecord : s.Keeps s.checkRecord [.record] :=
  (State.Keeps.refl s _).ite ((keeps_writeRecord s _).andThen (keeps_pendGameDayOf _ _ _ _))

theorem keeps_catchUpDone : s.Keeps (s.withLink { s.link with catchUpDone := true }) [.announced] := keeps_withAnnounced s rfl

theorem keeps_startUp : s.Keeps s.startUp [.record, .events, .announced] := by
  have rejoined : s.checkRecord.Keeps ((numbers 16).foldl rejoin s.checkRecord) [.announced] :=
    State.Keeps.foldl (fun s e => (keeps_joinEvents s e).ite (.refl s _)) _ _
  have credited (s : State) : s.Keeps (if s.record.valid ∧ s.backup.calendar.valid then s.creditDays s.index else s) [.record] :=
    (keeps_creditDays s _).ite (.refl s _)
  unfold State.startUp
  dsimp only
  have days := (((keeps_checkRecord s).andThen rejoined (c := [.record, .announced])).andThen (credited _)
    (c := [.record, .announced]))
  refine State.Keeps.andThen (a := [.record, .events, .announced]) ?_ (keeps_catchUpDone _)
  exact days.andThen (keeps_sweepLate _ _)

/-! ## Starts of cues -/

theorem keeps_writePending (v : Fin 8) (write : PendingVoice → PendingVoice) : s.Keeps (s.writePending v write) [.pendings] :=
  keeps_withPendings s _

theorem keeps_setCountdown (v : Fin 8) (c : Option Countdown) : s.Keeps (s.setCountdown v c) [.cue] := keeps_withCue s _

theorem keeps_actSound (c : Fin 8) (steal : Bool) (part : Option SoundPart) :
    s.Keeps (s.actSound c steal part).1 [.pendings, .cue] := by
  cases part with
  | none => exact .refl s _
  | some p =>
    unfold State.actSound
    dsimp only
    split
    · exact .refl s _
    · exact (keeps_writePending s _ _).andThen (keeps_setCountdown _ _ _)

theorem keeps_actRumble (part : Option RumblePart) : s.Keeps (s.actRumble part).1 [.rumble] := by
  cases part with
  | none => exact .refl s _
  | some p =>
    unfold State.actRumble
    dsimp only
    split
    · exact keeps_withRumble s _
    · exact .refl s _

theorem keeps_actParts (c : Fin 8) : s.Keeps (s.actParts c).1 [.pendings, .rumble, .cue] := by
  unfold State.actParts
  split
  · exact .refl s _
  · exact (keeps_actSound s _ _ _).andThen (keeps_actRumble _ _)

theorem keeps_actPending_event (c : Fin 8) (entry : Nat) :
    s.Keeps (actPending s ⟨c, .event entry⟩) [.pendings, .rumble, .cue] :=
  (keeps_actParts s c).andThen (keeps_pendCue _ _)

theorem keeps_actPending (p : PendingStart) : s.Keeps (actPending s p) [.pendings, .rumble, .cue, .queues] := by
  obtain ⟨c, source⟩ := p
  cases source with
  | request tag => exact (keeps_actParts s c).andThen (keeps_answer _ _ _ _ _)
  | event entry => exact (keeps_actPending_event s c entry).mono

theorem keeps_actStarts : s.Keeps s.actStarts [.pendings, .rumble, .cue, .queues] :=
  (keeps_withCue s _).andThen (State.Keeps.foldl keeps_actPending _ _)

theorem keeps_eventStart (cue entry : Nat) (quantize : Bool) :
    s.Keeps (s.eventStart cue entry quantize) [.pendings, .rumble, .cue] := by
  unfold State.eventStart
  split
  · exact (keeps_pendCue s _).mono
  · exact ((keeps_pendCue s _).mono).ite
      ((((keeps_withCue s _).mono).ite ((keeps_pendCue s _).mono)).ite (keeps_actPending_event s _ entry))

theorem keeps_fireOnTime (i : Instant) (e : Fin 16) :
    s.Keeps (s.fireOnTime i e) [.pendings, .rumble, .cue, .events, .announced] := by
  unfold State.fireOnTime
  dsimp only
  refine .andThen (a := [.pendings, .rumble, .cue, .events]) ?_ (keeps_reportFiring _ e)
  split
  · exact (keeps_setEvent s _ _).andThen (keeps_eventStart _ _ _ _)
  · exact (keeps_setEvent s _ _).mono

theorem keeps_judgeOnTime (i : Instant) (e : Fin 16) :
    s.Keeps (judgeOnTime i s e) [.pendings, .rumble, .cue, .events, .announced] :=
  (keeps_fireOnTime s i e).ite (.refl s _)

theorem keeps_sweepOnTime (i : Instant) : s.Keeps (s.sweepOnTime i) [.pendings, .rumble, .cue, .events, .announced] :=
  State.Keeps.foldl (fun s e => keeps_judgeOnTime s i e) _ s

theorem keeps_secondEvent (i : Instant) :
    s.Keeps (s.secondEvent i) [.record, .pendings, .rumble, .cue, .events, .announced] := by
  unfold State.secondEvent
  dsimp only
  split
  · exact (keeps_catchUp s i).mono
  · exact ((keeps_cross s _).ite (.refl s _)).andThen (keeps_sweepOnTime _ i)

theorem keeps_finishCountdown (v : Fin 8) : s.Keeps (s.finishCountdown v) [.pendings, .cue] := by
  unfold State.finishCountdown
  split
  · exact ((keeps_writePending s _ _).andThen (keeps_setCountdown _ _ _)).ite (.refl s _)
  · exact .refl s _

theorem keeps_finishMark : s.Keeps s.finishMark [.pendings, .rumble, .cue, .queues] := by
  have keyOffs := State.Keeps.foldl keeps_finishCountdown (numbers 8) s
  unfold State.finishMark
  dsimp only
  split
  · exact keyOffs.andThen (keeps_actStarts _)
  · exact keyOffs.mono

/-! ## The calendar -/

theorem keeps_countSecond : s.Keeps s.countSecond.1 [.calendar] := keeps_withCalendar s _

theorem keeps_afterSecond (i : Option Instant) :
    s.Keeps (s.afterSecond i) [.record, .pendings, .rumble, .cue, .events, .announced] := by
  cases i with
  | none => exact .refl s _
  | some i => exact keeps_secondEvent s i

/-- What the second event, the clock-set event and the tick touch between them. -/
def clockParts : List Part := [.calendar, .record, .pendings, .rumble, .cue, .events, .announced]

theorem keeps_secondTick : s.Keeps s.secondTick clockParts :=
  ((keeps_countSecond s).andThen (keeps_afterSecond _ _)).ite (.refl s _)

theorem keeps_clockSet (old : Instant) : s.Keeps (s.clockSet old) [.record, .events, .announced] :=
  ((keeps_withEvents s _).ite (.refl s _)).andThen (keeps_catchUp _ _)

theorem keeps_setClock (d : DateTime) : s.Keeps (s.setClock d) [.calendar, .record, .events, .announced] :=
  (keeps_withCalendar s _).andThen (keeps_clockSet _ _)

theorem keeps_setClockTicked (d : DateTime) : s.Keeps (s.setClockTicked d) clockParts :=
  (((keeps_countSecond s).andThen (keeps_setClock _ d)
    (c := [.calendar, .record, .events, .announced])).andThen (keeps_afterSecond _ _)).ite ((keeps_setClock s d).mono)

/-! ## The save store -/

theorem keeps_copyUpTo (upTo : Nat) : s.Keeps (s.copyUpTo upTo) [.save, .store] := by
  unfold State.copyUpTo
  dsimp only
  split
  · split
    · exact (keeps_withSave s _).andThen (keeps_withStore _ _)
    · exact .refl s _
  · exact (keeps_withSave s _).andThen (keeps_withStore _ _)
  · exact .refl s _

theorem keeps_copySoFar : s.Keeps s.copySoFar [.save, .store] := by
  unfold State.copySoFar
  split
  · exact (keeps_copyUpTo s _).andThen (keeps_countFree _)
  · exact (keeps_copyUpTo s _).andThen (keeps_countFree _)
  · exact .refl s _

theorem keeps_leaveIdle (c : SaveController) : s.Keeps (s.leaveIdle c) [.save, .governor] :=
  (keeps_withSave s c).andThen (keeps_withGovernor _ _)

theorem keeps_returnIdle : s.Keeps s.returnIdle [.save, .governor] :=
  (keeps_withSave s _).andThen (keeps_withGovernor _ _)

theorem keeps_stopForAbandon : s.Keeps s.stopForAbandon [.save, .store, .governor] :=
  (keeps_copySoFar s).andThen (keeps_returnIdle _)

theorem keeps_abandonForCritical : s.Keeps s.abandonForCritical [.save, .store, .governor, .queues] := by
  have ends (kind tag : Byte) (status : Status) (body : ReplyBody) :
      s.Keeps (s.stopForAbandon.answer kind tag status body) [.save, .store, .governor, .queues] :=
    (keeps_stopForAbandon s).andThen (keeps_answer _ _ _ _ _)
  unfold State.abandonForCritical
  dsimp only
  split
  · exact .refl s _
  · exact .refl s _
  all_goals exact ends _ _ _ _

theorem keeps_writeSeal : s.Keeps s.writeSeal [.store] := keeps_withStore s _

theorem keeps_acknowledgeReserve (reserve : Bool) : s.Keeps (s.acknowledgeReserve reserve) [.save, .store] := by
  unfold State.acknowledgeReserve
  split
  · exact (keeps_withSave s _).andThen (keeps_withStore _ _)
  · exact .refl s _

theorem keeps_completeLoad : s.Keeps s.completeLoad [.save, .store, .governor, .queues] := by
  unfold State.completeLoad
  split
  · exact ((keeps_copyUpTo s _).andThen (keeps_returnIdle _) (c := [.save, .store, .governor])).andThen (keeps_answer _ _ _ _ _)
  · exact .refl s _

theorem keeps_completeCopy : s.Keeps s.completeCopy [.save, .store] := by
  unfold State.completeCopy
  split
  · exact (keeps_copyUpTo s _).andThen (keeps_withSave _ _)
  · exact .refl s _

theorem keeps_completeSeal : s.Keeps s.completeSeal [.save, .store, .governor, .queues] := by
  unfold State.completeSeal
  split
  · exact (((keeps_writeSeal s).andThen (keeps_withSave _ _) (c := [.save, .store])).andThen (keeps_returnIdle _)
      (c := [.save, .store, .governor])).andThen (keeps_answer _ _ _ _ _)
  · exact .refl s _

theorem keeps_completeVerify : s.Keeps s.completeVerify [.save, .governor, .queues] := by
  unfold State.completeVerify
  split
  · exact ((keeps_withSave s _).andThen (keeps_returnIdle _) (c := [.save, .governor])).andThen (keeps_answer _ _ _ _ _)
  · exact .refl s _

theorem keeps_scan : s.Keeps s.scan [.save] :=
  ((keeps_withSave s _).andThen (keeps_pendSaveScan _ _) (c := [.save])).andThen (keeps_withLink _ rfl rfl)

/-! ## The rumble driver, the mixer and the supply monitor -/

theorem keeps_drainRumble : s.Keeps s.drainRumble [.rumble] := by
  unfold State.drainRumble
  dsimp only
  split
  · exact ((keeps_withRumble s _).andThen (keeps_pendRumble _ _)).ite (keeps_withRumble s _)
  · exact .refl s _

theorem keeps_rumbleMark : s.Keeps s.rumbleMark [.rumble, .save, .store] :=
  ((keeps_withRumble s _).andThen (keeps_drainRumble _) (c := [.rumble])).andThen (keeps_acknowledgeReserve _ _)

theorem keeps_rumbleFault (cause : FaultCause) : s.Keeps (s.rumbleFault cause) [.rumble] :=
  (keeps_withRumble s _).andThen (keeps_pendRumble _ _)

theorem keeps_takeBemf (corrected : Nat) : s.Keeps (s.takeBemf corrected) [.rumble] :=
  ((keeps_withRumble s _).andThen (keeps_rumbleFault _ _)).ite (keeps_withRumble s _)

theorem keeps_takeImot (count : Nat) : s.Keeps (s.takeImot count) [.rumble] := (keeps_rumbleFault s _).ite (.refl s _)

theorem keeps_mixerMark : s.Keeps s.mixerMark [.mixer, .governor] := by
  unfold State.mixerMark
  dsimp only
  split
  · exact (keeps_withMixer s _).andThen (keeps_withGovernor _ _)
  · exact (keeps_withMixer s _).mono

/-- What a supply-state change touches at the four blocks it goes to. -/
def supplyParts : List Part := [.governor, .mixer, .rumble, .save, .store, .queues]

theorem keeps_takeTurn (supply : SupplyState) (turn : SupplyTurn) : s.Keeps (takeTurn supply s turn) supplyParts := by
  cases turn
  case governor => exact (keeps_withGovernor s _).mono
  case mixer => exact (keeps_withMixer s _).mono
  case rumble => exact (keeps_withRumble s _).mono
  case save => exact ((keeps_abandonForCritical s).mono).ite (.refl s _)
  case mixerMark => exact (keeps_mixerMark s).mono
  case rumbleMark => exact (keeps_rumbleMark s).mono

theorem keeps_supplyChanged (supply : SupplyState) (turns : List SupplyTurn) :
    s.Keeps (s.supplyChanged supply turns) supplyParts :=
  (State.Keeps.foldl (fun s turn => keeps_takeTurn s supply turn) _ s).andThen (keeps_pendSupply _)

@[simp] theorem SupplyMonitor.takeVcart_calibration (m : SupplyMonitor) (v : Nat) :
    (m.takeVcart v).calibration = m.calibration := by
  unfold SupplyMonitor.takeVcart
  split
  · split
    rfl
  · rfl

theorem keeps_takeVcart (v : Nat) (turns : List SupplyTurn) : s.Keeps (s.takeVcart v turns) (.supplyState :: supplyParts) := by
  have taken : s.Keeps (s.withSupply (s.supply.takeVcart v).roundOn) [.supplyState] :=
    keeps_withSupplyState s (s.supply.takeVcart_calibration v)
  exact (taken.mono).ite (taken.andThen (keeps_supplyChanged _ _ _))

theorem keeps_takeVbat (v : Nat) : s.Keeps (s.takeVbat v) [] :=
  (keeps_withReadings s).ite ((keeps_withReadings s).andThen (keeps_pendSupply _))

theorem keeps_takeCalibration (raw : Nat) : s.Keeps (s.takeCalibration raw) [.calibration, .rumble, .queues] := by
  have ends (s : State) (origin : CalibrationOrigin) (sum : Nat) :
      s.Keeps (s.endCalibration origin sum) [.calibration, .rumble, .queues] := by
    have cleared {m : SupplyMonitor} {r : Rumble} (same : m.supply = s.supply.supply := by rfl) :
        s.Keeps ((s.withSupply m).withRumble r) [.calibration, .rumble] :=
      (keeps_withCalibration s same).andThen (keeps_withRumble _ r)
    cases origin with
    | startUp => exact State.Keeps.andThen cleared (keeps_withLink _ rfl rfl)
    | requested tag => exact State.Keeps.andThen cleared (keeps_answer _ _ _ _ _)
  unfold State.takeCalibration
  split
  · exact .refl s _
  · next c _ =>
    have counted : s.Keeps (s.withSupply { s.supply with bemfRaw := raw, calibration := some ⟨c.origin, c.taken + 1, c.sum + raw⟩ })
        [.calibration] := keeps_withCalibration s
    exact (counted.mono).ite (counted.andThen (ends _ _ _))

/-! ## Voices, streams and output samples -/

theorem keeps_latchOne (v : Fin 8) : s.Keeps (latchOne s v) [.voices, .pendings, .stream] := by
  have records (voices : Tab 8 VoiceRecord) (pendings : Tab 8 PendingVoice) : s.Keeps
      (s.withVoice { s.voice with voices := voices, pendings := pendings }) [.voices, .pendings] :=
    (keeps_withVoices s voices).andThen (keeps_withPendings _ pendings)
  unfold latchOne
  dsimp only
  have latched (p : Prop) [Decidable p] (voices : Tab 8 VoiceRecord) (pendings : Tab 8 PendingVoice) (b : State → StreamBuffers) :
      let s' := s.withVoice { s.voice with voices := voices, pendings := pendings }
      s.Keeps (if p then s'.withStream (b s') else s') [.voices, .pendings, .stream] :=
    ((records _ _).andThen (keeps_withStream _ _)).ite ((records _ _).mono)
  split
  · exact (latched _ _ _ fun s => s.stream.close v).andThen (keeps_joinVoiceEnd _ v)
  · exact latched _ _ _ fun s => s.stream.close v

theorem keeps_advanceOne (v : Fin 8) : s.Keeps (advanceOne s v) [.voices] :=
  (((keeps_withVoices s _).andThen (keeps_joinVoiceEnd _ v)).ite (keeps_withVoices s _)).ite (.refl s _)

theorem keeps_countClip : s.Keeps s.countClip [.mixer] :=
  (State.Keeps.refl s _).ite ((keeps_withMixer s _).andThen (keeps_pendClip _ _))

theorem keeps_outputSample : s.Keeps s.outputSample [.mixer, .voices, .stream] := by
  have advanced (s : State) : s.Keeps s.advanceVoices [.voices] := State.Keeps.foldl keeps_advanceOne _ s
  have mixed := keeps_withMixer s
  unfold State.outputSample
  dsimp only
  refine .andThen (a := [.mixer, .voices]) (.andThen (a := [.mixer]) ?_ (advanced _)) (keeps_withStream _ _)
  exact (mixed _).ite ((mixed _).trans (keeps_countClip _))

theorem keeps_playoutOne (v : Fin 8) : s.Keeps (playoutOne s v) [.stream] :=
  ((keeps_withStream s _).andThen (keeps_joinStream _ v)).ite (keeps_withStream s _)

theorem keeps_playoutAll : s.Keeps s.playoutAll [.stream] :=
  (keeps_withStream s _).trans (State.Keeps.foldl keeps_playoutOne _ _)

/-! ## The link -/

theorem keeps_takeBlock (q : Byte) (body : List Byte) : s.Keeps (s.takeBlock q body) [.stream] := by
  unfold State.takeBlock
  split
  · exact (keeps_withStream s _).ite ((keeps_count s _).mono)
  · exact (keeps_count s _).mono

theorem keeps_receive (after : Deframer) {event : State → State} {touched : List Part} (h : ∀ s : State, s.Keeps (event s) touched) :
    s.Keeps (s.receive after event) touched := by
  have deframed (d : Deframer) : s.Keeps (s.withLink { s.link with deframer := d }) touched :=
    (keeps_withLink s rfl rfl).mono (List.nil_subset _)
  exact ((deframed _).ite ((deframed _).trans (h _))).ite (.refl s _)

theorem keeps_discardFrame (cause : DiscardCause) : s.Keeps (s.discardFrame cause) [] :=
  keeps_receive s _ fun s => keeps_count s _

theorem keeps_classify (kind tag : Byte) (body : List Byte) : s.Keeps (s.classify kind tag body) [.stream, .queues] := by
  have enqueued : s.Keeps (s.withLink (s.link.enqueue kind tag body)) [.stream, .queues] := by
    unfold Link.enqueue
    split
    · exact State.Keeps.mono (a := [.queues]) (keeps_withQueues s rfl)
    · exact (keeps_count s _).mono
  exact ((keeps_takeBlock s _ _).mono).ite (enqueued.ite ((keeps_count s _).mono))

theorem keeps_receiveGood (kind tag : Byte) (body : List Byte) : s.Keeps (s.receiveGood kind tag body) [.stream, .queues] :=
  (keeps_receive s _ fun s => keeps_classify s kind tag body).ite ((keeps_discardFrame s _).mono)

theorem keeps_handOn : s.Keeps s.handOn [.queues] := by
  unfold State.handOn
  split
  · exact .refl s _
  · split
    · split
      · exact keeps_withQueues s rfl
      · exact keeps_withQueues s rfl
    · exact .refl s _

theorem keeps_startFrame : s.Keeps s.startFrame [.announced] := by
  unfold State.startFrame
  split
  · exact (State.Keeps.refl s _).ite (keeps_withAnnounced s rfl)
  · split
    · exact keeps_withAnnounced s rfl
    · split
      · exact keeps_withAnnounced s rfl
      · exact keeps_withAnnounced s rfl

theorem keeps_completeNotice (f : NoticeFrame) : s.Keeps (s.completeNotice f) [.announced, .events] := by
  unfold State.completeNotice
  dsimp only
  split
  · refine State.Keeps.andThen (keeps_withAnnounced s ?queues)
      (State.Keeps.foldl (f := releaseDelivered f.acting) (fun s e => (keeps_releaseEntry s e).ite (.refl s _)) _ _)
    rfl
  · exact State.Keeps.mono (keeps_withAnnounced s rfl)

theorem keeps_completeFrame : s.Keeps s.completeFrame [.queues, .announced, .events] := by
  unfold State.completeFrame
  split
  · exact (keeps_withLink_any s _).mono
  · exact (keeps_completeNotice s _).mono
  · exact .refl s _

theorem keeps_setMask (mask : Word16) : s.Keeps (s.setMask mask) [.announced, .events] := by
  refine State.Keeps.andThen (keeps_withAnnounced s ?queues) (State.Keeps.foldl (fun s e => keeps_releaseEntry s e) _ _)
  rfl

theorem keeps_clearEntry (e : Fin 16) : s.Keeps (s.clearEntry e) [.announced, .events] :=
  (keeps_setEvent s _ _).andThen (keeps_withAnnounced _ rfl)

theorem actingEntries_cutShort (tx : Option TxFrame) : actingEntries (tx.map TxFrame.cutShort) = actingEntries tx := by
  match tx with
  | none => rfl
  | some ⟨.reply _, _⟩ => rfl
  | some ⟨.notice _, _⟩ => rfl

theorem Link.select_queues (l : Link) : l.select.queues = l.queues := by
  unfold Link.select
  split <;> rfl

theorem Link.select_announced (l : Link) : l.select.announced = l.announced := by
  unfold Link.select
  split <;> rfl

theorem Link.deselect_queues (l : Link) (begun : Bool) : (l.deselect begun).queues = l.queues := by
  unfold Link.deselect
  dsimp only
  split
  · split
    · exact Link.count_queues _ _
    · rfl
  · rfl

theorem Link.deselect_announced (l : Link) (begun : Bool) : (l.deselect begun).announced = l.announced := by
  have cut (l : Link) : Link.announced { l with tx := l.tx.map TxFrame.cutShort } = l.announced := by
    simp only [Link.announced, actingEntries_cutShort]
  unfold Link.deselect
  dsimp only
  split
  · split
    · exact (Link.count_announced _ _).trans (cut l)
    · exact cut l
  · rfl

end

end Sys2Proof.Machine
end

