-- ==== Sys2Proof/Proofs/Footprint.lean ====
section
/-! SUPPORT. What each command can change: the parts that its row touches, one case for each of the 81 rows. -/

namespace Sys2Proof.Machine

set_option Elab.async false

/-! ## The owners of the requests -/

@[simp] theorem refuse_state (s : State) (status : Status) : (refuse s status).state = s := rfl
@[simp] theorem accept_state (s : State) (body : ReplyBody) : (accept s body).state = s := rfl
@[simp] theorem defer_state (s : State) : (defer s).state = s := rfl

section
variable (s : State)

theorem keeps_takeVoiceSet (voice : Nat) (f : VoiceSetFields) : s.Keeps (takeVoiceSet voice f s).state [.pendings] := by
  unfold takeVoiceSet
  split
  · exact .refl s _
  · split
    · exact keeps_writePending s _ _
    · exact .refl s _

theorem keeps_takeKeyRequest (key : Key) (voice : Nat) : s.Keeps (takeKeyRequest key voice s).state [.pendings] := by
  unfold takeKeyRequest
  split
  · exact .refl s _
  · exact keeps_writePending s _ _

theorem keeps_takeVoiceRead (voice : Nat) : s.Keeps (takeVoiceRead voice s).state [] := by
  unfold takeVoiceRead
  split
  · exact .refl s _
  · exact .refl s _

theorem keeps_takeWaveWrite (address : Nat) (bytes : List Byte) : s.Keeps (takeWaveWrite address bytes s).state [.wave] := by
  unfold takeWaveWrite
  split
  · exact keeps_withWave s _
  · exact .refl s _

theorem keeps_takeWaveRead (address count : Nat) : s.Keeps (takeWaveRead address count s).state [] := by
  unfold takeWaveRead
  split
  · exact .refl s _
  · exact .refl s _

theorem keeps_takeStreamOpen (voice start depth limit : Nat) :
    s.Keeps (takeStreamOpen voice start depth limit s).state [.stream, .pendings] := by
  unfold takeStreamOpen
  split
  · exact .refl s _
  · split
    · exact (keeps_withStream s _).andThen (keeps_writePending _ _ _)
    · exact .refl s _

theorem keeps_takeStreamClose (voice : Nat) : s.Keeps (takeStreamClose voice s).state [.stream, .pendings] := by
  unfold takeStreamClose
  split
  · exact .refl s _
  · split
    · exact .refl s _
    · exact (keeps_withStream s _).andThen (keeps_writePending _ _ _)

theorem keeps_takeStreamStatus (voice : Nat) (clear : Bool) : s.Keeps (takeStreamStatus voice clear s).state [.stream] := by
  unfold takeStreamStatus
  split
  · exact .refl s _
  · exact (keeps_withStream s _).ite (.refl s _)

theorem keeps_takeMixSet (f : MixSetFields) : s.Keeps (takeMixSet f s).state [.mixer] := by
  unfold takeMixSet
  split
  · exact keeps_withMixer s _
  · exact .refl s _

theorem keeps_takeMixStatus (clear : Bool) : s.Keeps (takeMixStatus clear s).state [.mixer] := by
  unfold takeMixStatus
  exact (keeps_withMixer s _).ite (.refl s _)

theorem keeps_takeRumblePlay (mode : Coded PlayMode) (priority : Nat) (steps : List StepFields) :
    s.Keeps (takeRumblePlay mode priority steps s).state [.rumble] := by
  unfold takeRumblePlay
  split
  · split
    · split
      · exact keeps_withRumble s _
      · exact .refl s _
    · exact .refl s _
  · exact .refl s _

theorem keeps_takeRumbleStop : s.Keeps (takeRumbleStop s).state [.rumble] := keeps_withRumble s _

theorem keeps_takeRumbleSet (f : RumbleSetFields) : s.Keeps (takeRumbleSet f s).state [.rumble] := by
  unfold takeRumbleSet
  split
  · exact keeps_withRumble s _
  · exact .refl s _

theorem keeps_takeRumbleClear : s.Keeps (takeRumbleClear s).state [.rumble] := by
  unfold takeRumbleClear
  split
  · exact keeps_withRumble s _
  · exact .refl s _

theorem keeps_takeCalendarSet (f : CalendarSetFields) : s.Keeps (takeCalendarSet f s).state clockParts := by
  have unset : s.Keeps (if f.ticked then s.secondTick else s) clockParts := (keeps_secondTick s).ite (.refl s _)
  unfold takeCalendarSet
  dsimp only
  split
  · exact unset
  · split
    · exact unset
    · exact (keeps_setClockTicked s _).ite ((keeps_setClock s _).mono)

theorem keeps_takeGameDayStart (start rollover cap : Nat) : s.Keeps (takeGameDayStart start rollover cap s).state
    [.record, .pendings, .rumble, .cue, .events, .announced] := by
  have begun (s : State) :
      let s' := s.writeRecord (startedRecord start rollover cap s.now)
      s.Keeps ((s'.pendGameDayOf .started s'.index start).sweepOnTime s'.now)
        [.record, .pendings, .rumble, .cue, .events, .announced] := by
    intro s'
    have written : s.Keeps s' [.record] := keeps_writeRecord s _
    exact (written.andThen (keeps_pendGameDayOf s' _ _ _) (c := [.record])).andThen (keeps_sweepOnTime _ _)
  unfold takeGameDayStart
  dsimp only
  split
  · exact .refl s _
  · split
    · exact .refl s _
    · split
      · exact .refl s _
      · rw [accept_state]
        exact begun s

theorem keeps_takeGameDayClearRewind : s.Keeps (takeGameDayClearRewind s).state [.record] := by
  unfold takeGameDayClearRewind
  split
  · exact .refl s _
  · split
    · exact .refl s _
    · split
      · exact .refl s _
      · exact keeps_writeRecord s _

theorem keeps_takeEventSet (entry : Nat) (trigger : TriggerFields) (cue : Option Nat) (quantize : Coded Bool) :
    s.Keeps (takeEventSet entry trigger cue quantize s).state [.pendings, .rumble, .cue, .events, .announced] := by
  unfold takeEventSet
  dsimp only
  split
  · split
    · split
      · exact .refl s _
      · split
        · exact .refl s _
        · split
          · exact .refl s _
          · exact (keeps_setEvent s _ _).andThen (keeps_judgeOnTime _ _ _)
    · exact .refl s _
  · exact .refl s _

theorem keeps_takeEventClear (entry : Nat) : s.Keeps (takeEventClear entry s).state [.announced, .events] := by
  unfold takeEventClear
  split
  · exact .refl s _
  · split
    · exact .refl s _
    · split
      · exact .refl s _
      · exact keeps_clearEntry s _

theorem keeps_takeCueDefine (f : CueFields) : s.Keeps (takeCueDefine f s).state [.cue] := by
  unfold takeCueDefine
  split
  · exact keeps_withCue s _
  · exact .refl s _

theorem keeps_takeCueStart (tag : Byte) (cue : Nat) (quantize : Coded Bool) :
    s.Keeps (takeCueStart tag cue quantize s).state [.pendings, .rumble, .cue] := by
  unfold takeCueStart
  dsimp only
  split
  · split
    · exact .refl s _
    · split
      · split
        · exact (keeps_withCue s _).mono
        · exact .refl s _
      · exact keeps_actParts s _
  · exact .refl s _

theorem keeps_takeCueCancel (cue : Nat) : s.Keeps (takeCueCancel cue s).state [.cue] := by
  unfold takeCueCancel
  split
  · exact .refl s _
  · split
    · exact .refl s _
    · unfold cancelled
      split
      · exact keeps_withCue s _
      · exact (keeps_withCue s _).andThen (keeps_pendCue _ _)

theorem keeps_takeStageWrite (offset : Nat) (bytes : List Byte) : s.Keeps (takeStageWrite offset bytes s).state [.store] := by
  unfold takeStageWrite
  split
  · exact .refl s _
  · split
    · exact .refl s _
    · split
      · exact .refl s _
      · exact keeps_withStore s _

theorem keeps_takeStageRead (offset count : Nat) : s.Keeps (takeStageRead offset count s).state [.save, .store] := by
  unfold takeStageRead
  split
  · exact (keeps_copySoFar s).ite (.refl s _)
  · exact .refl s _

theorem keeps_takeStageLoad (tag : Byte) (slot : Nat) : s.Keeps (takeStageLoad tag slot s).state [.save, .governor] := by
  unfold takeStageLoad
  split
  · exact .refl s _
  · split
    · exact .refl s _
    · exact keeps_leaveIdle s _

theorem keeps_takeCommit (tag : Byte) (slot length : Nat) : s.Keeps (takeCommit tag slot length s).state [.save, .governor] := by
  unfold takeCommit
  split
  · exact .refl s _
  · split
    · exact .refl s _
    · split
      · exact .refl s _
      · split
        · exact .refl s _
        · split
          · exact .refl s _
          · split
            · exact .refl s _
            · exact keeps_leaveIdle s _

theorem keeps_takeCommitAbort : s.Keeps (takeCommitAbort s).state [.save, .store, .governor] := by
  unfold takeCommitAbort
  split
  · exact keeps_stopForAbandon s
  · exact keeps_stopForAbandon s
  · exact .refl s _
  · exact .refl s _

theorem keeps_takeSlotRead (slot offset count : Nat) : s.Keeps (takeSlotRead slot offset count s).state [] := by
  unfold takeSlotRead
  dsimp only
  split
  · exact .refl s _
  · split
    · exact .refl s _
    · split <;> exact .refl s _

theorem keeps_takeSlotInfo (slot : Nat) : s.Keeps (takeSlotInfo slot s).state [] := by
  unfold takeSlotInfo
  split
  · exact .refl s _
  · exact .refl s _

theorem keeps_takeSlotVerify (tag : Byte) (slot : Nat) : s.Keeps (takeSlotVerify tag slot s).state [.save, .governor] := by
  unfold takeSlotVerify
  split
  · exact .refl s _
  · split
    · exact .refl s _
    · exact keeps_leaveIdle s _

theorem keeps_takeSlotErase (slot : Nat) : s.Keeps (takeSlotErase slot s).state [.save, .store] := by
  unfold takeSlotErase
  split
  · exact .refl s _
  · split
    · exact .refl s _
    · split
      · exact .refl s _
      · exact (keeps_withSave s _).andThen (keeps_withStore _ _)

theorem keeps_takeCalibrate (tag : Byte) : s.Keeps (takeCalibrate tag s).state [.calibration, .rumble] := by
  unfold takeCalibrate
  split
  · exact .refl s _
  · split
    · exact .refl s _
    · exact (keeps_withCalibration s).andThen (keeps_withRumble _ _)

theorem keeps_takeSupplySet (low critical hysteresis battery : Nat) :
    s.Keeps (takeSupplySet low critical hysteresis battery s).state [] := by
  unfold takeSupplySet
  split
  · exact keeps_withReadings s
  · exact .refl s _

theorem keeps_takeSupplyRead (clear : Bool) : s.Keeps (takeSupplyRead clear s).state [] := by
  unfold takeSupplyRead
  exact State.Keeps.ite (a := []) (keeps_withReadings s) (.refl s _)

theorem keeps_takeNoticeMask (mask : Word16) : s.Keeps (takeNoticeMask mask s).state [.announced, .events] := by
  unfold takeNoticeMask
  split
  · exact keeps_setMask s _
  · exact .refl s _

theorem keeps_takeLinkStatus (clear : Bool) : s.Keeps (takeLinkStatus clear s).state [] := by
  unfold takeLinkStatus
  exact State.Keeps.ite (a := []) (keeps_withLink s rfl rfl) (.refl s _)

end

/-! ## The rows of the two power domains -/

/-- Every part but the queue of commands. -/
def everyPart : List Part :=
  [.power, .supplyState, .calibration, .governor, .voices, .pendings, .wave, .stream, .mixer, .rumble, .cue, .save, .calendar, .record, .events,
   .store, .queues, .announced]

theorem keeps_commands {s t : State} (h : t.pending = s.pending) : s.Keeps t everyPart := by
  intro p hp
  cases p
  case commands => exact h
  all_goals exact absurd (by decide) hp

theorem keeps_powerReturn (s : State) : s.Keeps (s.withBackup s.backup.powerReturn) [.calendar] := by
  have returned : s.backup.powerReturn.record = s.backup.record ∧ s.backup.powerReturn.events = s.backup.events ∧
      s.backup.powerReturn.store = s.backup.store := by
    unfold Backup.powerReturn
    split
    · exact ⟨rfl, rfl, rfl⟩
    · exact ⟨rfl, rfl, rfl⟩
  obtain ⟨record, events, store⟩ := returned
  intro p hp
  cases p
  case calendar => exact absurd (List.mem_singleton_self _) hp
  case record => exact record
  case events => exact events
  case store => exact store
  all_goals rfl

theorem State.powerUp_pending (s : State) : s.powerUp.pending = s.pending := by
  unfold State.powerUp
  dsimp only
  split <;> rfl

theorem keeps_withBackup (s : State) (b : Backup) : s.Keeps (s.withBackup b) [.calendar, .record, .events, .store] := by
  intro p hp
  cases p
  case calendar => exact absurd (by decide) hp
  case record => exact absurd (by decide) hp
  case events => exact absurd (by decide) hp
  case store => exact absurd (by decide) hp
  all_goals rfl

/-! ## The commands -/

/-- The parts that a command can change. -/
def footprint : Instr → List Part
  | .powerUp | .cartridgeSupplyLoss | .restart _ => everyPart
  | .slotScan => [.save]
  | .startUpCatchUp => [.record, .events, .announced]
  | .lselFall | .lselRise _ | .frameDiscarded _ | .huntDelimiter => []
  | .requestFrame _ _ _ | .streamBlock _ _ => [.stream, .queues]
  | .requestHandOn | .partStatus _ | .linkStatus _ _ => [.queues]
  | .frameStart => [.announced]
  | .frameTransmitComplete => [.queues, .announced, .events]
  | .noticeMask _ _ => [.queues, .announced, .events]
  | .supplyRead _ _ | .supplySet _ _ _ _ _ => [.queues]
  | .calibrateMotorSense _ => [.queues, .calibration, .rumble]
  | .calibrationConversion _ => [.calibration, .rumble, .queues]
  | .budgetSet _ _ _ => [.queues, .governor]
  | .budgetRead _ => [.queues]
  | .voiceSet _ _ _ | .keyOn _ _ | .keyOff _ _ => [.queues, .pendings]
  | .voiceRead _ _ | .waveRead _ _ _ => [.queues]
  | .waveWrite _ _ _ => [.queues, .wave]
  | .streamOpen _ _ _ _ _ | .streamClose _ _ => [.queues, .stream, .pendings]
  | .streamStatus _ _ _ => [.queues, .stream]
  | .mixSet _ _ | .mixStatus _ _ => [.queues, .mixer]
  | .rumblePlay _ _ _ _ | .rumbleStop _ | .rumbleSet _ _ | .rumbleClear _ => [.queues, .rumble]
  | .rumbleStatus _ | .calendarGet _ | .gameDayGet _ | .eventList _ | .cueStatus _ | .slotRead _ _ _ _ | .slotInfo _ _ => [.queues]
  | .calendarSet _ _ => .queues :: clockParts
  | .gameDayStart _ _ _ _ => [.queues, .record, .pendings, .rumble, .cue, .events, .announced]
  | .gameDayClearRewind _ => [.queues, .record]
  | .eventSet _ _ _ _ _ => [.queues, .pendings, .rumble, .cue, .events, .announced]
  | .eventClear _ _ => [.queues, .announced, .events]
  | .cueDefine _ _ | .cueCancel _ _ => [.queues, .cue]
  | .cueStart _ _ _ => [.queues, .pendings, .rumble, .cue]
  | .stageWrite _ _ _ => [.queues, .store]
  | .stageRead _ _ _ | .slotErase _ _ => [.queues, .save, .store]
  | .stageLoad _ _ | .commit _ _ _ | .slotVerify _ _ => [.queues, .save, .governor]
  | .commitAbort _ => [.queues, .save, .store, .governor]
  | .loadComplete | .sealComplete => [.save, .store, .governor, .queues]
  | .copyComplete => [.save, .store]
  | .verifyComplete => [.save, .governor, .queues]
  | .roundStart | .vbatResult _ => []
  | .vcartResult _ => .supplyState :: supplyParts
  | .imotResult _ | .bemfResult _ | .coastWindow => [.rumble]
  | .voiceLatch => [.voices, .pendings, .stream]
  | .streamPlayout => [.stream]
  | .mixerLatch => [.mixer, .governor]
  | .outputSample => [.mixer, .voices, .stream]
  | .rumblePeriodMark => [.rumble, .save, .store]
  | .cuePeriodMark | .measureMark => [.pendings, .rumble, .cue, .queues]
  | .keyOffCountdown _ => [.pendings, .cue]
  | .secondTick => clockParts
  | .backupDomainPowerLoss => [.calendar, .record, .events, .store]
  | .backupDomainPowerReturn => [.calendar]

/-- A command changes nothing beside the parts of its footprint. -/
def Instr.Footed (c : Instr) : Prop := ∀ s t : State, exec c s = .next t → s.Keeps t (footprint c)

theorem footed_of_next {c : Instr} {effect : State → State} (he : ∀ s, exec c s = .next (effect s))
    (hk : ∀ s : State, s.Keeps (effect s) (footprint c)) : Instr.Footed c := by
  intro s t h
  rw [he s] at h
  injection h with h
  exact h ▸ hk s

theorem footed_of_core {c : Instr} (effect : State → State) (he : ∀ s, exec c s = onCore s effect)
    (hk : ∀ s : State, s.Keeps (effect s) (footprint c)) : Instr.Footed c := by
  intro s t h
  rcases onCore_cases ((he s).symm.trans h) with ⟨_, rfl⟩ | ⟨_, rfl⟩
  · exact hk s
  · exact .refl _ _

/-- A request touches the queues beside what its owner touches. -/
theorem footed_of_serve {c : Instr} {kind tag : Byte} {owner : State → Taken} {touched : List Part}
    (hk : ∀ s : State, s.Keeps (owner s).state touched) (hf : footprint c = .queues :: touched := by rfl)
    (hc : requestOf c = some (kind, tag) := by rfl) (he : ∀ s, exec c s = serve c owner s := by exact fun _ => rfl) :
    Instr.Footed c := by
  intro s t h
  have queues : [Part.queues] ⊆ .queues :: touched := List.cons_subset_cons _ (List.nil_subset _)
  rw [hf]
  rcases serve_cases hc ((he s).symm.trans h) with rfl | ⟨_, _, _, rfl⟩ | ⟨_, rfl⟩
  · exact .refl _ _
  · exact (keeps_reply s kind tag .notReady .none).mono queues
  · exact (hk s).andThen (Taken.keeps_finish _ _ _) (List.subset_cons_self _ _) queues

theorem footed_of_request {c : Instr} (effect : Byte → Byte → State → State) (he : ∀ s, exec c s = onRequest c effect s)
    (hk : ∀ (kind tag : Byte) (s : State), s.Keeps (effect kind tag s) (footprint c)) : Instr.Footed c := by
  refine footed_of_core _ he fun s => ?_
  split
  · exact (hk _ _ s).ite (.refl _ _)
  · exact .refl _ _

/-! ### The two power domains -/

theorem footed_powerUp : Instr.Footed .powerUp := footed_of_next (fun _ => rfl) fun s => keeps_commands s.powerUp_pending
theorem footed_cartridgeSupplyLoss : Instr.Footed .cartridgeSupplyLoss :=
  footed_of_core _ (fun _ => rfl) fun _ => keeps_commands rfl

theorem footed_restart (tag : Byte) : Instr.Footed (.restart tag) := by
  refine footed_of_request (fun kind tag s => match s.link.readiness with
    | .notReady => s.reply kind tag .notReady .none
    | .ready => s.restarted tag) (fun _ => rfl) fun kind tag s => ?_
  split
  · exact State.Keeps.mono (b := everyPart) (keeps_reply s _ _ _ _)
  · exact keeps_commands rfl

theorem footed_backupDomainPowerLoss : Instr.Footed .backupDomainPowerLoss :=
  footed_of_next (fun _ => rfl) fun s => (State.Keeps.refl s _).ite (keeps_withBackup s _)
theorem footed_backupDomainPowerReturn : Instr.Footed .backupDomainPowerReturn :=
  footed_of_next (fun _ => rfl) keeps_powerReturn

theorem footed_slotScan : Instr.Footed .slotScan := by
  refine footed_of_core _ (fun _ => rfl) fun s => ?_
  split
  · exact .refl s _
  · exact keeps_scan s

theorem footed_startUpCatchUp : Instr.Footed .startUpCatchUp := by
  refine footed_of_core _ (fun _ => rfl) fun s => ?_
  split
  · exact .refl s _
  · exact keeps_startUp s

/-! ### The link -/

theorem footed_lselFall : Instr.Footed .lselFall := by
  refine footed_of_next (fun _ => rfl) fun s => ?_
  split
  · exact keeps_withLink s s.link.select_queues s.link.select_announced
  · exact keeps_withLink s rfl rfl

theorem footed_lselRise (begun : Bool) : Instr.Footed (.lselRise begun) := by
  refine footed_of_next (fun _ => rfl) fun s => ?_
  split
  · exact keeps_withLink s (s.link.deselect_queues begun) (s.link.deselect_announced begun)
  · exact keeps_withLink s rfl rfl

theorem footed_huntDelimiter : Instr.Footed .huntDelimiter := by
  refine footed_of_core _ (fun _ => rfl) fun s => ?_
  split
  · exact keeps_withLink s rfl rfl
  · exact .refl s _

theorem footed_frameStart : Instr.Footed .frameStart := by
  refine footed_of_core _ (fun _ => rfl) fun s => ?_
  split
  · exact keeps_startFrame s
  · exact .refl s _

theorem footed_frameTransmitComplete : Instr.Footed .frameTransmitComplete := by
  refine footed_of_core _ (fun _ => rfl) fun s => ?_
  split
  · exact keeps_completeFrame s
  · exact .refl s _

theorem footed_linkStatus (tag : Byte) (clear : Bool) : Instr.Footed (.linkStatus tag clear) :=
  footed_of_request _ (fun _ => rfl) fun kind tag s =>
    State.Keeps.andThen (c := [.queues]) (keeps_takeLinkStatus s clear) (Taken.keeps_finish _ kind tag)

/-! ### The converter's rounds and results -/

theorem SupplyMonitor.periodMark_supply (m : SupplyMonitor) : m.periodMark.supply = m.supply := by
  unfold SupplyMonitor.periodMark
  split <;> rfl

theorem SupplyMonitor.periodMark_calibration (m : SupplyMonitor) : m.periodMark.calibration = m.calibration := by
  unfold SupplyMonitor.periodMark
  split <;> rfl

theorem SupplyMonitor.requestBemf_supply (m : SupplyMonitor) : m.requestBemf.supply = m.supply := by
  unfold SupplyMonitor.requestBemf
  split <;> rfl

theorem SupplyMonitor.requestBemf_calibration (m : SupplyMonitor) : m.requestBemf.calibration = m.calibration := by
  unfold SupplyMonitor.requestBemf
  split <;> rfl

theorem footed_calibrationConversion (raw : Count12) : Instr.Footed (.calibrationConversion raw) :=
  footed_of_core _ (fun _ => rfl) fun s => (keeps_takeCalibration s _).ite (.refl s _)
theorem footed_vcartResult (f : VcartFields) : Instr.Footed (.vcartResult f) :=
  footed_of_core _ (fun _ => rfl) fun s => (keeps_takeVcart s _ _).ite (.refl s _)
theorem footed_vbatResult (count : Count12) : Instr.Footed (.vbatResult count) :=
  footed_of_core _ (fun _ => rfl) fun s => (keeps_takeVbat s _).ite (.refl s _)

theorem footed_imotResult (count : Count12) : Instr.Footed (.imotResult count) := by
  refine footed_of_core _ (fun _ => rfl) fun s => ?_
  split
  · exact State.Keeps.andThen (c := [.rumble]) (keeps_withReadings s) (keeps_takeImot _ _)
  · exact .refl s _

theorem footed_bemfResult (raw : Count12) : Instr.Footed (.bemfResult raw) := by
  refine footed_of_core _ (fun _ => rfl) fun s => ?_
  split
  · exact State.Keeps.andThen (c := [.rumble]) (keeps_withReadings s) (keeps_takeBemf _ _)
  · exact .refl s _

theorem footed_coastWindow : Instr.Footed .coastWindow := by
  refine footed_of_core _ (fun _ => rfl) fun s => ?_
  split
  · exact State.Keeps.andThen (c := [.rumble]) (keeps_withRumble s _)
      (keeps_withReadings _ s.supply.requestBemf_supply s.supply.requestBemf_calibration)
  · exact .refl s _

/-! ### Marks of the cue unit -/

theorem footed_cuePeriodMark : Instr.Footed .cuePeriodMark :=
  footed_of_core _ (fun _ => rfl) fun s =>
    State.Keeps.andThen (c := [.pendings, .rumble, .cue, .queues]) (keeps_finishMark s) (keeps_withCue _ _)

theorem footed_keyOffCountdown (voice : Nat) : Instr.Footed (.keyOffCountdown voice) := by
  refine footed_of_core _ (fun _ => rfl) fun s => ?_
  split
  · exact keeps_finishCountdown s _
  · exact .refl s _

theorem footed_measureMark : Instr.Footed .measureMark :=
  footed_of_core _ (fun _ => rfl) fun s => (keeps_finishMark s).ite (.refl s _)

/-! ### All rows -/

theorem footed (c : Instr) : Instr.Footed c := by
  cases c
  case powerUp => exact footed_powerUp
  case cartridgeSupplyLoss => exact footed_cartridgeSupplyLoss
  case restart tag => exact footed_restart tag
  case backupDomainPowerLoss => exact footed_backupDomainPowerLoss
  case backupDomainPowerReturn => exact footed_backupDomainPowerReturn
  case slotScan => exact footed_slotScan
  case startUpCatchUp => exact footed_startUpCatchUp
  case secondTick => exact footed_of_next (fun _ => rfl) keeps_secondTick
  case lselFall => exact footed_lselFall
  case lselRise begun => exact footed_lselRise begun
  case huntDelimiter => exact footed_huntDelimiter
  case requestFrame kind tag body => exact footed_of_core _ (fun _ => rfl) fun s => keeps_receiveGood s kind tag body
  case streamBlock q body => exact footed_of_core _ (fun _ => rfl) fun s => keeps_receiveGood s 0x3F q body
  case frameDiscarded cause => exact footed_of_core _ (fun _ => rfl) fun s => keeps_discardFrame s cause
  case requestHandOn => exact footed_of_core _ (fun _ => rfl) keeps_handOn
  case frameStart => exact footed_frameStart
  case frameTransmitComplete => exact footed_frameTransmitComplete
  case partStatus tag =>
    exact footed_of_request _ (fun _ => rfl) fun kind tag s => Taken.keeps_finish (takePartStatus s) kind tag
  case linkStatus tag clear => exact footed_linkStatus tag clear
  case noticeMask tag mask => exact footed_of_serve fun s => keeps_takeNoticeMask s mask
  case supplyRead tag clear => exact footed_of_serve fun s => keeps_takeSupplyRead s clear
  case supplySet tag low critical hysteresis battery => exact footed_of_serve fun s => keeps_takeSupplySet s _ _ _ _
  case calibrateMotorSense tag => exact footed_of_serve fun s => keeps_takeCalibrate s tag
  case calibrationConversion raw => exact footed_calibrationConversion raw
  case budgetSet tag budget imax =>
    exact footed_of_serve (owner := takeBudgetSet budget imax) fun s => keeps_withGovernor s _
  case budgetRead tag => exact footed_of_serve (owner := takeBudgetRead) fun s => .refl s []
  case roundStart => exact footed_of_core _ (fun _ => rfl) fun s =>
    keeps_withReadings s s.supply.periodMark_supply s.supply.periodMark_calibration
  case vcartResult f => exact footed_vcartResult f
  case vbatResult count => exact footed_vbatResult count
  case imotResult count => exact footed_imotResult count
  case bemfResult raw => exact footed_bemfResult raw
  case coastWindow => exact footed_coastWindow
  case voiceSet tag voice f => exact footed_of_serve fun s => keeps_takeVoiceSet s voice f
  case keyOn tag voice => exact footed_of_serve fun s => keeps_takeKeyRequest s .on voice
  case keyOff tag voice => exact footed_of_serve fun s => keeps_takeKeyRequest s .off voice
  case voiceRead tag voice => exact footed_of_serve fun s => keeps_takeVoiceRead s voice
  case waveWrite tag address bytes => exact footed_of_serve fun s => keeps_takeWaveWrite s address bytes
  case waveRead tag address count => exact footed_of_serve fun s => keeps_takeWaveRead s address count
  case streamOpen tag voice start depth limit => exact footed_of_serve fun s => keeps_takeStreamOpen s voice start depth limit
  case streamClose tag voice => exact footed_of_serve fun s => keeps_takeStreamClose s voice
  case streamStatus tag voice clear => exact footed_of_serve fun s => keeps_takeStreamStatus s voice clear
  case mixSet tag f => exact footed_of_serve fun s => keeps_takeMixSet s f
  case mixStatus tag clear => exact footed_of_serve fun s => keeps_takeMixStatus s clear
  case voiceLatch => exact footed_of_core State.latchVoices (fun _ => rfl) fun s => State.Keeps.foldl keeps_latchOne _ s
  case streamPlayout => exact footed_of_core _ (fun _ => rfl) keeps_playoutAll
  case mixerLatch => exact footed_of_core _ (fun _ => rfl) keeps_mixerMark
  case outputSample => exact footed_of_core _ (fun _ => rfl) keeps_outputSample
  case rumblePlay tag mode priority steps => exact footed_of_serve fun s => keeps_takeRumblePlay s mode priority steps
  case rumbleStop tag => exact footed_of_serve keeps_takeRumbleStop
  case rumbleSet tag f => exact footed_of_serve fun s => keeps_takeRumbleSet s f
  case rumbleClear tag => exact footed_of_serve keeps_takeRumbleClear
  case rumbleStatus tag => exact footed_of_serve (owner := takeRumbleStatus) fun s => .refl s []
  case rumblePeriodMark => exact footed_of_core _ (fun _ => rfl) keeps_rumbleMark
  case calendarGet tag => exact footed_of_serve (owner := takeCalendarGet) fun s => .refl s []
  case calendarSet tag f => exact footed_of_serve fun s => keeps_takeCalendarSet s f
  case gameDayStart tag start rollover cap => exact footed_of_serve fun s => keeps_takeGameDayStart s start rollover cap
  case gameDayGet tag => exact footed_of_serve (owner := takeGameDayGet) fun s => .refl s []
  case gameDayClearRewind tag => exact footed_of_serve keeps_takeGameDayClearRewind
  case eventSet tag entry trigger cue quantize =>
    exact footed_of_serve fun s => keeps_takeEventSet s entry trigger cue quantize
  case eventClear tag entry => exact footed_of_serve fun s => keeps_takeEventClear s entry
  case eventList tag => exact footed_of_serve (owner := takeEventList) fun s => .refl s []
  case cueDefine tag f => exact footed_of_serve fun s => keeps_takeCueDefine s f
  case cueStart tag cue quantize => exact footed_of_serve fun s => keeps_takeCueStart s tag cue quantize
  case cueCancel tag cue => exact footed_of_serve fun s => keeps_takeCueCancel s cue
  case cueStatus tag => exact footed_of_serve (owner := takeCueStatus) fun s => .refl s []
  case cuePeriodMark => exact footed_cuePeriodMark
  case keyOffCountdown voice => exact footed_keyOffCountdown voice
  case measureMark => exact footed_measureMark
  case stageWrite tag offset bytes => exact footed_of_serve fun s => keeps_takeStageWrite s offset bytes
  case stageRead tag offset count => exact footed_of_serve fun s => keeps_takeStageRead s offset count
  case stageLoad tag slot => exact footed_of_serve fun s => keeps_takeStageLoad s tag slot
  case commit tag slot length => exact footed_of_serve fun s => keeps_takeCommit s tag slot length
  case commitAbort tag => exact footed_of_serve keeps_takeCommitAbort
  case slotRead tag slot offset count => exact footed_of_serve fun s => keeps_takeSlotRead s slot offset count
  case slotInfo tag slot => exact footed_of_serve fun s => keeps_takeSlotInfo s slot
  case slotVerify tag slot => exact footed_of_serve fun s => keeps_takeSlotVerify s tag slot
  case slotErase tag slot => exact footed_of_serve fun s => keeps_takeSlotErase s slot
  case loadComplete => exact footed_of_core _ (fun _ => rfl) keeps_completeLoad
  case copyComplete => exact footed_of_core _ (fun _ => rfl) keeps_completeCopy
  case sealComplete => exact footed_of_core _ (fun _ => rfl) keeps_completeSeal
  case verifyComplete => exact footed_of_core _ (fun _ => rfl) keeps_completeVerify

/-- A command changes nothing beside the parts of its footprint. -/
theorem exec_footprint {c : Instr} {s t : State} (h : exec c s = .next t) : s.Keeps t (footprint c) := footed c s t h

end Sys2Proof.Machine
end

