-- ==== Sys2Proof/Proofs/Invariants.lean ====
section
/-! SUPPORT. How an invariant of every step is proved: it does not speak of the queue of commands, so that it is enough that every
command keeps it. -/

namespace Sys2Proof.Machine

set_option Elab.async false

/-- A step idles, or runs the front command on the queue's rest. -/
theorem step_cases {s t : State} (h : step s = .next t) :
    t = s ∨ ∃ c rest, s.pending = c :: rest ∧ exec c { s with pending := rest } = .next t := by
  cases hp : s.pending with
  | nil =>
    simp only [step, hp] at h
    injection h with h
    exact .inl h.symm
  | cons c rest =>
    simp only [step, hp] at h
    exact .inr ⟨c, rest, rfl, h⟩

/-- The invariants do not speak of the queue of commands. -/
theorem State.Sound.withCommands {s : State} (h : s.Sound) (rest : List Instr) : ({ s with pending := rest } : State).Sound :=
  ⟨h.governor, h.mixer, h.rumble, h.voices, h.cues, h.streams, h.calendar, h.gameDays, h.events, h.save, h.memories, h.queues⟩

/-- What is kept of the state: it is one of the invariants, and it speaks of these parts alone. -/
structure Invariant (P : State → Prop) (speaks : List Part) : Prop where
  sound : ∀ s : State, s.Sound → P s
  keeps : ∀ {s t : State}, (∀ p ∈ speaks, s.Same t p) → P s → P t

/-- Every sound state is left by the command in a state with `P`. -/
def KeptBy (P : State → Prop) (c : Instr) : Prop := ∀ s t : State, s.Sound → exec c s = .next t → P t

section
variable {P : State → Prop} {speaks : List Part} {c : Instr}

/-- Whether a list of touched parts leaves alone what is spoken of. -/
def clearOf (speaks touched : List Part) : Bool := speaks.all fun p => !touched.contains p

theorem not_mem_of_clearOf {speaks touched : List Part} (h : clearOf speaks touched = true) {p : Part} (hp : p ∈ speaks) :
    p ∉ touched := by
  have := List.all_eq_true.1 h p hp
  simpa using this

theorem Invariant.of_keeps (inv : Invariant P speaks) {s t : State} {touched : List Part} (h : s.Keeps t touched) (hs : P s)
    (clear : clearOf speaks touched = true := by rfl) : P t :=
  inv.keeps (fun p hp => h p (not_mem_of_clearOf clear hp)) hs

/-- A command that touches nothing of what is spoken of. -/
theorem Invariant.untouched (inv : Invariant P speaks) (clear : clearOf speaks (footprint c) = true := by rfl) : KeptBy P c :=
  fun s _ hs h => inv.of_keeps (exec_footprint h) (inv.sound s hs) clear

theorem kept_of_next {effect : State → State} (he : ∀ s, exec c s = .next (effect s)) (hk : ∀ s : State, s.Sound → P (effect s)) :
    KeptBy P c := by
  intro s t hs h
  rw [he s] at h
  injection h with h
  exact h ▸ hk s hs

theorem Invariant.of_core (inv : Invariant P speaks) (effect : State → State) (he : ∀ s, exec c s = onCore s effect)
    (hk : ∀ s : State, s.Sound → s.corePowered = true → P (effect s)) : KeptBy P c := by
  intro s t hs h
  rcases onCore_cases ((he s).symm.trans h) with ⟨powered, rfl⟩ | ⟨_, rfl⟩
  · exact hk s hs powered
  · exact inv.sound _ hs

/-- A request, by what its owner makes of the state; its replies touch the queues alone. -/
theorem Invariant.of_serve (inv : Invariant P speaks) {kind tag : Byte} {owner : State → Taken}
    (ho : ∀ s : State, s.Sound → s.Serves c → P (owner s).state) (clear : clearOf speaks [.queues] = true := by rfl)
    (hc : requestOf c = some (kind, tag) := by rfl) (he : ∀ s, exec c s = serve c owner s := by exact fun _ => rfl) :
    KeptBy P c := by
  intro s t hs h
  rcases serve_cases hc ((he s).symm.trans h) with rfl | ⟨_, _, _, rfl⟩ | ⟨serves, rfl⟩
  · exact inv.sound _ hs
  · exact inv.of_keeps (keeps_reply s kind tag .notReady .none) (inv.sound _ hs) clear
  · exact inv.of_keeps (Taken.keeps_finish _ kind tag) (ho s hs serves) clear

/-- Restart, by what it makes of the state after READY. -/
theorem Invariant.of_restart (inv : Invariant P speaks) {tag : Byte} (hk : ∀ s : State, s.Sound → P (s.restarted tag))
    (clear : clearOf speaks [.queues] = true := by rfl) : KeptBy P (.restart tag) := by
  refine inv.of_core (fun s => match requestOf (.restart tag) with
    | some (kind, tag) => if s.link.admits (.restart tag) then match s.link.readiness with
      | .notReady => s.reply kind tag .notReady .none
      | .ready => s.restarted tag
      else s
    | none => s) (fun _ => rfl) fun s hs _ => ?_
  dsimp only [requestOf]
  split
  · split
    · exact inv.of_keeps (keeps_reply s _ _ _ _) (inv.sound _ hs) clear
    · exact hk s hs
  · exact inv.sound _ hs

/-- What every command makes of a sound state, every step does. -/
theorem Invariant.step (inv : Invariant P speaks) (kept : ∀ c, KeptBy P c) {s t : State} (hs : s.Sound) (h : step s = .next t) :
    P t := by
  rcases step_cases h with rfl | ⟨c, rest, _, he⟩
  · exact inv.sound _ hs
  · exact kept c _ t (hs.withCommands rest) he

end

end Sys2Proof.Machine
end

