-- ==== Sys2Proof/Proofs/StreamInvariant.lean ====
section
/-! SUPPORT. What every step keeps of the stream buffers: the 48 slots of the pool, and the window of every stream (R54, R55). -/

namespace Sys2Proof.Machine

set_option Elab.async false

/-! ## Distances (R54) -/

theorem distance_inj {x a b : Byte} (h : distance x a = distance x b) : a = b := by
  unfold distance at h
  bv_omega

theorem distance_self (x : Byte) : distance x x = 0 := by
  unfold distance
  bv_omega

/-- When X goes up by one, every other number comes one nearer. -/
theorem distance_succ {x q : Byte} (h : q ≠ x) : distance (x + 1) q + 1 = distance x q := by
  unfold distance
  bv_omega

/-! ## Held blocks in order -/

/-- Blocks in strictly rising distance from `x`. -/
abbrev Ordered (x : Byte) (held : List Block) : Prop := held.Pairwise fun a b => distance x a.seq < distance x b.seq

theorem mem_insertBlock {x : Byte} {b c : Block} {held : List Block} : c ∈ insertBlock x b held ↔ c = b ∨ c ∈ held := by
  induction held with
  | nil => simp [insertBlock]
  | cons h hs ih =>
    unfold insertBlock
    split
    · simp
    · simp only [List.mem_cons, ih]
      tauto

theorem length_insertBlock (x : Byte) (b : Block) (held : List Block) : (insertBlock x b held).length = held.length + 1 := by
  induction held with
  | nil => rfl
  | cons h hs ih =>
    unfold insertBlock
    split
    · rfl
    · simp only [List.length_cons, ih]

/-- A block whose number is not held joins in its order. -/
theorem ordered_insertBlock {x : Byte} {b : Block} {held : List Block} (ordered : Ordered x held)
    (new : ∀ h ∈ held, h.seq ≠ b.seq) : Ordered x (insertBlock x b held) := by
  induction held with
  | nil => exact List.pairwise_singleton _ _
  | cons h hs ih =>
    obtain ⟨first, rest⟩ := List.pairwise_cons.1 ordered
    unfold insertBlock
    split
    · next before =>
      refine List.pairwise_cons.2 ⟨fun c hc => ?_, ordered⟩
      rcases List.mem_cons.1 hc with rfl | hc
      · exact before
      · exact before.trans (first c hc)
    · next notBefore =>
      have apart : distance x b.seq ≠ distance x h.seq := fun same => new h List.mem_cons_self (distance_inj same).symm
      refine List.pairwise_cons.2 ⟨fun c hc => ?_, ih rest fun c hc => new c (List.mem_cons_of_mem _ hc)⟩
      rcases mem_insertBlock.1 hc with rfl | hc
      · omega
      · exact first c hc

/-! ## One record -/

/-- A change of the counters alone keeps a record sound. -/
theorem StreamRecord.Sound.withCounters {r : StreamRecord} (h : r.Sound) (c : StreamCounters) :
    StreamRecord.Sound { r with counters := c } := h

theorem StreamRecord.not_holds {r : StreamRecord} {q : Byte} (h : ¬r.holds q = true) : ∀ b ∈ r.held, b.seq ≠ q := by
  intro b hb same
  exact h (List.any_eq_true.2 ⟨b, hb, beq_iff_eq.2 same⟩)

theorem silence_length : silence.length = 64 := List.length_replicate

/-- What is left of a record when its held blocks are released and it is closed. -/
theorem StreamRecord.Sound.closed {r : StreamRecord} (h : r.Sound) :
    StreamRecord.Sound { r with state := .closed, held := [], periodValues := silence } := by
  obtain ⟨depths, _, _, _, missing, _, last, _⟩ := h
  exact ⟨depths, List.Pairwise.nil, fun _ hb => (List.not_mem_nil hb).elim, fun _ => rfl, missing, nofun, last, silence_length⟩

/-- A store of a block inside the window whose number is not held (R60). -/
theorem StreamRecord.Sound.store {r : StreamRecord} (h : r.Sound) {b : Block} (inside : distance r.x b.seq < r.limit)
    (new : ∀ c ∈ r.held, c.seq ≠ b.seq) (samples : b.samples.length = 64) (isOpen : r.state ≠ .closed) : (r.store b).Sound := by
  obtain ⟨depths, ordered, window, _, missing, playing, last, period⟩ := h
  have stored : StreamRecord.Sound { r with held := insertBlock r.x b r.held } := by
    refine ⟨depths, ordered_insertBlock ordered new, fun c hc => ?_, fun closed => absurd closed isOpen, missing, playing, last, period⟩
    rcases mem_insertBlock.1 hc with rfl | hc
    · exact ⟨inside, samples⟩
    · exact window c hc
  unfold StreamRecord.store
  dsimp only
  split
  · exact stored.withCounters _
  · exact stored

theorem StreamRecord.store_held (r : StreamRecord) (b : Block) : (r.store b).held.length = r.held.length + 1 := by
  unfold StreamRecord.store
  dsimp only
  split
  · exact length_insertBlock _ _ _
  · exact length_insertBlock _ _ _

theorem StreamRecord.Sound.fillCheck {r : StreamRecord} (h : r.Sound) : r.fillCheck.Sound := by
  have ⟨depths, ordered, window, _, _, _, last, _⟩ := h
  unfold StreamRecord.fillCheck
  split
  · exact ⟨depths, ordered, window, nofun, Nat.zero_le _, fun _ => Nat.zero_le _, last, silence_length⟩
  · exact h

theorem StreamRecord.fillCheck_held (r : StreamRecord) : r.fillCheck.held = r.held := by
  unfold StreamRecord.fillCheck
  split <;> rfl

/-- An outcome whose record is sound and whose slots are those there were. -/
structure StreamRecord.Balanced (r : StreamRecord) (free : Nat) (o : StreamOutcome) : Prop where
  sound : o.1.Sound
  slots : o.2 + o.1.held.length = free + r.held.length

theorem StreamRecord.Sound.resynchronise {r : StreamRecord} (h : r.Sound) {b : Block} (samples : b.samples.length = 64) (free : Nat) :
    r.Balanced free (r.resynchronise b free) := by
  obtain ⟨depths, _, _, _, _, _, last, _⟩ := h
  have moved (c : StreamCounters) : StreamRecord.Sound { r.flush with
      x := b.seq, missingRun := 0, state := .fill, periodValues := silence, counters := c } :=
    ⟨depths, List.Pairwise.nil, fun _ hb => (List.not_mem_nil hb).elim, nofun, Nat.zero_le _, nofun, last, silence_length⟩
  unfold StreamRecord.resynchronise
  dsimp only
  split
  · next none => exact ⟨moved _, none.symm⟩
  · next some =>
    have inside : distance b.seq b.seq < r.limit := by rw [distance_self]; omega
    refine ⟨((moved _).store inside (fun _ hc => (List.not_mem_nil hc).elim) samples nofun).fillCheck, ?_⟩
    simp only [StreamRecord.fillCheck_held, StreamRecord.store_held, StreamRecord.flush, List.length_nil]
    omega

/-- Every case of R57 keeps the record sound and the slots together. -/
theorem StreamRecord.Sound.arrive {r : StreamRecord} (h : r.Sound) {b : Block} (samples : b.samples.length = 64) (free : Nat) :
    r.Balanced free (r.arrive b free) := by
  unfold StreamRecord.arrive
  dsimp only
  split
  · exact ⟨h.withCounters _, rfl⟩
  next isOpen =>
  split
  · exact ⟨h.withCounters _, rfl⟩
  split
  · split
    · exact h.resynchronise samples free
    · exact ⟨h.withCounters _, rfl⟩
  next inside =>
  split
  · exact ⟨h.withCounters _, rfl⟩
  next new =>
  split
  · exact ⟨h.withCounters _, rfl⟩
  next some =>
  have stored : (r.store b).Sound := h.store (Nat.not_le.1 inside) (StreamRecord.not_holds new) samples isOpen
  have slots : free - 1 + (r.store b).held.length = free + r.held.length := by
    rw [StreamRecord.store_held]
    omega
  split
  · exact ⟨stored.fillCheck, by rw [StreamRecord.fillCheck_held]; exact slots⟩
  · exact ⟨stored, slots⟩

/-! ## Playout -/

theorem conditioned_length (run : Nat) {last : List Byte} (h : last.length = 64) : (conditioned run last).length = 64 := by
  unfold conditioned
  split
  · rw [List.length_map, h]
  · rw [List.length_map, h]
  · exact silence_length

/-- Blocks none of which is block X keep their order and come inside the window of X + 1. -/
theorem ordered_succ {x : Byte} {held : List Block} (ordered : Ordered x held) (others : ∀ b ∈ held, b.seq ≠ x) :
    Ordered (x + 1) held := by
  refine List.Pairwise.imp_of_mem (fun {a b} ha hb before => ?_) ordered
  have := distance_succ (others a ha)
  have := distance_succ (others b hb)
  omega

theorem StreamRecord.Sound.miss {r : StreamRecord} (h : r.Sound) (playing : r.state = .play) (missing : ∀ b ∈ r.held, b.seq ≠ r.x) :
    r.miss.Sound := by
  obtain ⟨depths, ordered, window, _, _, run, last, _⟩ := h
  have run := run playing
  refine ⟨depths, ordered_succ ordered missing, fun b hb => ⟨?_, (window b hb).2⟩, fun closed => ?_, Nat.succ_le_succ run,
    fun still => ?_, last, conditioned_length _ last⟩
  · have := distance_succ (missing b hb)
    have := (window b hb).1
    change distance (r.x + 1) b.seq < r.limit
    omega
  all_goals
    unfold StreamRecord.miss at *
    dsimp only at *
    split at *
  · cases closed
  · rw [playing] at closed
    cases closed
  · cases still
  · omega

theorem StreamRecord.Sound.play {r : StreamRecord} (h : r.Sound) (playing : r.state = .play) {b : Block} (hb : b ∈ r.held) :
    (r.play b).Sound := by
  obtain ⟨depths, ordered, window, _, _, _, _, _⟩ := h
  have others : ∀ c ∈ r.held.filter fun h => h.seq != r.x, c.seq ≠ r.x := fun c hc => bne_iff_ne.1 (List.mem_filter.1 hc).2
  refine ⟨depths, ordered_succ (ordered.filter _) others, fun c hc => ?_, fun closed => ?_, Nat.zero_le _, fun _ => Nat.zero_le _,
    (window b hb).2, (window b hb).2⟩
  · have := distance_succ (others c hc)
    have := (window c (List.mem_filter.1 hc).1)
    change distance (r.x + 1) c.seq < r.limit ∧ _
    exact ⟨by omega, this.2⟩
  · have closed : r.state = .closed := closed
    rw [playing] at closed
    cases closed

theorem StreamRecord.Sound.playout {r : StreamRecord} (h : r.Sound) :
    r.playout.1.Sound ∧ r.playout.2.1 + r.playout.1.held.length = r.held.length := by
  have ⟨depths, ordered, window, closed, missing, _, last, _⟩ := h
  unfold StreamRecord.playout
  split
  · next playing =>
    split
    · next b found =>
      have shorter : (r.play b).held.length ≤ r.held.length := List.length_filter_le _ _
      exact ⟨h.play playing (List.mem_of_find?_eq_some found), Nat.sub_add_cancel shorter⟩
    · next absent =>
      refine ⟨h.miss playing fun b hb same => ?_, Nat.zero_add _⟩
      exact List.find?_eq_none.1 absent b hb (beq_iff_eq.2 same)
  · next idle =>
    exact ⟨⟨depths, ordered, window, closed, missing, fun playing => absurd playing idle, last, silence_length⟩, Nat.zero_add _⟩

/-! ## The bank of records -/

/-- The pool's 48 slots, and every record (R55). -/
def StreamBuffers.Sound (sb : StreamBuffers) : Prop := sb.freeSlots + sb.heldCount = 48 ∧ ∀ v, (sb.records.get v).Sound

theorem sum_map_set {α : Type} (f : α → Nat) (a : α) :
    ∀ (l : List α) (i : Nat) (h : i < l.length), ((l.set i a).map f).sum + f l[i] = (l.map f).sum + f a
  | x :: l, 0, _ => by simp only [List.set_cons_zero, List.map_cons, List.sum_cons, List.getElem_cons_zero]; omega
  | x :: l, i + 1, h => by
    have rest := sum_map_set f a l i (Nat.lt_of_succ_lt_succ h)
    simp only [List.set_cons_succ, List.map_cons, List.sum_cons, List.getElem_cons_succ]
    omega

/-- One record in place of another, with the slots together as they were. -/
theorem StreamBuffers.Sound.put {sb : StreamBuffers} (h : sb.Sound) {v : Fin 8} {o : StreamOutcome}
    (ho : (sb.records.get v).Balanced sb.freeSlots o) : (sb.put v o).Sound := by
  obtain ⟨pool, records⟩ := h
  constructor
  · have replaced := sum_map_set (fun r : StreamRecord => r.held.length) o.1 sb.records.cells v.val
      (sb.records.size_eq.symm ▸ v.isLt)
    have slots : o.2 + o.1.held.length = sb.freeSlots + (sb.records.cells[v.val]'(sb.records.size_eq.symm ▸ v.isLt)).held.length :=
      ho.slots
    change o.2 + ((sb.records.cells.set v.val o.1).map fun r => r.held.length).sum = 48
    change sb.freeSlots + (sb.records.cells.map fun r => r.held.length).sum = 48 at pool
    omega
  · intro w
    change ((sb.records.set v o.1).get w).Sound
    rw [Tab.get_set]
    split
    · exact ho.sound
    · exact records w

theorem StreamBuffers.Sound.close {sb : StreamBuffers} (h : sb.Sound) (v : Fin 8) : (sb.close v).Sound := by
  by_cases closed : (sb.records.get v).state = .closed
  · have same : sb.close v = sb := if_pos closed
    rw [same]
    exact h
  · rw [StreamBuffers.close_of_ne_closed closed]
    exact h.put ⟨(h.2 v).closed, rfl⟩

theorem StreamBuffers.Sound.take {sb : StreamBuffers} (h : sb.Sound) (q voiceByte : Byte) {samples : List Byte}
    (length : samples.length = 64) : (sb.take q voiceByte samples).Sound := by
  unfold StreamBuffers.take
  split
  · exact h.put ((h.2 _).arrive length _)
  · exact h

theorem StreamBuffers.Sound.clearCounters {sb : StreamBuffers} (h : sb.Sound) (v : Fin 8) : (sb.clearCounters v).Sound :=
  StreamBuffers.Sound.put (o := ({ sb.records.get v with counters := .zero }, sb.freeSlots)) h ⟨(h.2 v).withCounters _, rfl⟩

theorem StreamBuffers.sound_reset : StreamBuffers.reset.Sound := by
  refine ⟨rfl, fun v => ?_⟩
  have reset : StreamBuffers.reset.records.get v = .reset := Tab.get_replicate _ v
  rw [reset]
  exact ⟨by decide, List.Pairwise.nil, fun _ hb => (List.not_mem_nil hb).elim, fun _ => rfl, Nat.zero_le _, nofun,
    silence_length, silence_length⟩

/-! ## The commands -/

theorem streamsInvariant : Invariant State.StreamsSound [.stream] where
  sound _ hs := hs.streams
  keeps {s t} same h := by
    have same : t.stream = s.stream := same .stream List.mem_cons_self
    unfold State.StreamsSound
    rw [same]
    exact h

theorem streamsSound_takeBlock {s : State} (h : s.StreamsSound) (q : Byte) (body : List Byte) : (s.takeBlock q body).StreamsSound := by
  unfold State.takeBlock
  split
  · split
    · next length => exact StreamBuffers.Sound.take h q _ length
    · exact h
  · exact h

theorem streamsSound_receiveGood {s : State} (h : s.StreamsSound) (kind tag : Byte) (body : List Byte) :
    (s.receiveGood kind tag body).StreamsSound := by
  have classified : ∀ s : State, s.StreamsSound → (s.classify kind tag body).StreamsSound := by
    intro s h
    unfold State.classify
    split
    · exact streamsSound_takeBlock h tag body
    · split
      · exact h
      · exact h
  unfold State.receiveGood
  split
  · unfold State.receive
    split
    · split
      · exact h
      · exact classified _ h
    · exact h
  · exact streamsInvariant.of_keeps (keeps_discardFrame s _) h

theorem streamsSound_playoutAll {s : State} (h : s.StreamsSound) : s.playoutAll.StreamsSound := by
  refine foldl_keeps (P := State.StreamsSound) (fun s v h => ?_) _ h
  have record := (h.2 v).playout
  have put : StreamBuffers.Sound (s.stream.put v ((s.stream.records.get v).playout.1,
      s.stream.freeSlots + (s.stream.records.get v).playout.2.1)) :=
    StreamBuffers.Sound.put h ⟨record.1, by rw [Nat.add_assoc, record.2]⟩
  unfold playoutOne
  dsimp only
  split
  · exact put
  · exact put

theorem streamsSound_latchVoices {s : State} (h : s.StreamsSound) : s.latchVoices.StreamsSound := by
  refine foldl_keeps (P := State.StreamsSound) (fun s v h => ?_) _ h
  have closed (p : Prop) [Decidable p] : (if p then s.stream.close v else s.stream).Sound := by
    split
    · exact StreamBuffers.Sound.close h v
    · exact h
  unfold latchOne
  dsimp only
  split
  · split
    · exact StreamBuffers.Sound.close h v
    · exact h
  · split
    · exact StreamBuffers.Sound.close h v
    · exact h

theorem streamsSound_takeStreamOpen {s : State} (h : s.StreamsSound) (voice start depth limit : Nat) :
    (takeStreamOpen voice start depth limit s).state.StreamsSound := by
  unfold takeStreamOpen
  split
  · exact h
  split
  · next inRange =>
    obtain ⟨_, depths, limits, within⟩ := inRange
    exact StreamBuffers.Sound.put h ⟨⟨⟨depths.1, within, limits.2⟩, List.Pairwise.nil, fun _ hb => (List.not_mem_nil hb).elim, nofun,
      Nat.zero_le _, nofun, silence_length, silence_length⟩, rfl⟩
  · exact h

theorem streamsSound_takeStreamClose {s : State} (h : s.StreamsSound) (voice : Nat) :
    (takeStreamClose voice s).state.StreamsSound := by
  unfold takeStreamClose
  split
  · exact h
  split
  · exact h
  · exact StreamBuffers.Sound.close h _

theorem streamsSound_takeStreamStatus {s : State} (h : s.StreamsSound) (voice : Nat) (clear : Bool) :
    (takeStreamStatus voice clear s).state.StreamsSound := by
  unfold takeStreamStatus
  split
  · exact h
  · rw [accept_state]
    split
    · exact StreamBuffers.Sound.clearCounters h _
    · exact h

theorem streamsSound_sampleIndex {s : State} (h : s.StreamsSound) (n : Nat) :
    (s.withStream { s.stream with sampleIndex := n }).StreamsSound := h

/-- An output sample moves the sample index alone. -/
theorem streamsSound_outputSample {s : State} (h : s.StreamsSound) : s.outputSample.StreamsSound := by
  have advanced (s : State) : s.Keeps s.advanceVoices [.voices] := State.Keeps.foldl keeps_advanceOne _ s
  have counted (s : State) (b : Mixer) (p : Prop) [Decidable p] :
      s.Keeps (if p then s.withMixer b else (s.withMixer b).countClip) [.mixer] :=
    (keeps_withMixer s b).ite ((keeps_withMixer s b).trans (keeps_countClip _))
  unfold State.outputSample
  refine streamsSound_sampleIndex ?_ _
  exact streamsInvariant.of_keeps (advanced _) (streamsInvariant.of_keeps (counted s _ _) h)

/-- Every command keeps the streams sound. -/
theorem streamsSound_kept (c : Instr) : KeptBy State.StreamsSound c := by
  have inv := streamsInvariant
  cases c
  case powerUp => exact kept_of_next (fun _ => rfl) fun _ _ => StreamBuffers.sound_reset
  case cartridgeSupplyLoss => exact inv.of_core _ (fun _ => rfl) fun _ _ _ => StreamBuffers.sound_reset
  case restart tag => exact inv.of_restart fun _ _ => StreamBuffers.sound_reset
  case requestFrame kind tag body => exact inv.of_core _ (fun _ => rfl) fun s hs _ => streamsSound_receiveGood hs.streams kind tag body
  case streamBlock q body => exact inv.of_core _ (fun _ => rfl) fun s hs _ => streamsSound_receiveGood hs.streams 0x3F q body
  case streamOpen tag voice start depth limit =>
    exact inv.of_serve fun s hs _ => streamsSound_takeStreamOpen hs.streams voice start depth limit
  case streamClose tag voice => exact inv.of_serve fun s hs _ => streamsSound_takeStreamClose hs.streams voice
  case streamStatus tag voice clear => exact inv.of_serve fun s hs _ => streamsSound_takeStreamStatus hs.streams voice clear
  case voiceLatch => exact inv.of_core _ (fun _ => rfl) fun s hs _ => streamsSound_latchVoices hs.streams
  case streamPlayout => exact inv.of_core _ (fun _ => rfl) fun s hs _ => streamsSound_playoutAll hs.streams
  case outputSample => exact inv.of_core _ (fun _ => rfl) fun s hs _ => streamsSound_outputSample hs.streams
  all_goals exact inv.untouched

/-- Settles O56: the record and pool of every arrival, playout and close, and the commands that touch them. -/
theorem streamsStaySound : Obligations.StreamsStaySound := by
  unfold Obligations.StreamsStaySound
  intro s t hs h
  exact streamsInvariant.step streamsSound_kept hs h

end Sys2Proof.Machine
end

