-- ==== Sys2Proof/Proofs/Dates.lean ====
section
/-! SUPPORT. Dates and instants name each other (section 7.4): the lengths of years and months, and the conversions both ways. -/

namespace Sys2Proof.Machine

set_option Elab.async false

/-! ## The greatest number with a property -/

theorem greatest_le (p : Nat → Bool) : ∀ top, greatest p top ≤ top
  | 0 => Nat.le_refl 0
  | n + 1 => by
    unfold greatest
    split
    · exact Nat.le_refl _
    · exact Nat.le_succ_of_le (greatest_le p n)

theorem greatest_has (p : Nat → Bool) : ∀ top, greatest p top = 0 ∨ p (greatest p top) = true
  | 0 => .inl rfl
  | n + 1 => by
    unfold greatest
    split
    · next h => exact .inr h
    · exact greatest_has p n

theorem greatest_above {p : Nat → Bool} : ∀ {top j : Nat}, greatest p top < j → j ≤ top → p j = false
  | 0, j, below, le => by omega
  | n + 1, j, below, le => by
    unfold greatest at below
    split at below
    · omega
    · next h =>
      rcases Nat.lt_or_eq_of_le le with lt | rfl
      · exact greatest_above below (Nat.le_of_lt_succ lt)
      · exact Bool.eq_false_iff.2 h

/-- The greatest number with a property is the one that has it and above which none does. -/
theorem greatest_eq {p : Nat → Bool} {top k : Nat} (le : k ≤ top) (has : p k = true)
    (above : ∀ j, k < j → j ≤ top → p j = false) : greatest p top = k := by
  rcases Nat.lt_trichotomy (greatest p top) k with lt | eq | gt
  · have := greatest_above lt le
    simp_all
  · exact eq
  · have none := above _ gt (greatest_le p top)
    rcases greatest_has p top with zero | some
    · omega
    · simp_all

/-! ## Years -/

def yearLength (y : Nat) : Nat := if leapYear y then 366 else 365

theorem leapYear_iff (y : Nat) : leapYear y = true ↔ y % 4 = 0 ∧ (y % 100 ≠ 0 ∨ y % 400 = 0) := by
  simp [leapYear]

/-- The multiples of `k` below n + 1 are those below n, and n itself when it is one. -/
theorem ceilDiv_succ (n : Nat) {k : Nat} (hk : 0 < k) : ceilDiv (n + 1) k = ceilDiv n k + if n % k = 0 then 1 else 0 := by
  have split := Nat.succ_div (a := n + (k - 1)) (b := k)
  have multiple : k ∣ n + (k - 1) + 1 ↔ n % k = 0 := by
    rw [show n + (k - 1) + 1 = n + k by omega, Nat.dvd_add_self_right, Nat.dvd_iff_mod_eq_zero]
  simp only [multiple] at split
  unfold ceilDiv
  rw [show n + 1 + (k - 1) = n + (k - 1) + 1 by omega]
  exact split

/-- The next year begins after all days of this one (R115). -/
theorem newYear_succ (n : Nat) : newYear (n + 1) = newYear n + yearLength (2000 + n) := by
  by_cases zero : n = 0
  · subst zero
    rfl
  have fewer : ceilDiv n 100 ≤ ceilDiv n 4 := by
    unfold ceilDiv
    omega
  have leap : yearLength (2000 + n) = 365 + (if n % 4 = 0 then 1 else 0) - (if n % 100 = 0 then 1 else 0) +
      (if n % 400 = 0 then 1 else 0) := by
    have leap := leapYear_iff (2000 + n)
    unfold yearLength
    split
    · next isLeap =>
      have := leap.1 isLeap
      split <;> split <;> split <;> omega
    · next notLeap =>
      have := mt leap.2 notLeap
      split <;> split <;> split <;> omega
  rw [leap]
  unfold newYear leapYearsBefore
  rw [if_neg zero, if_neg (Nat.succ_ne_zero n), ceilDiv_succ n (by decide), ceilDiv_succ n (by decide), ceilDiv_succ n (by decide)]
  split <;> split <;> split <;> omega

theorem yearLength_pos (y : Nat) : 0 < yearLength y := by
  unfold yearLength
  split
  · decide
  · decide

theorem newYear_mono : StrictMono newYear :=
  strictMono_nat_of_lt_succ fun n => by
    have := yearLength_pos (2000 + n)
    rw [newYear_succ]
    omega

/-- A day of year 2000 + n. -/
theorem greatest_newYear {n day : Nat} (le : n ≤ 199) (begun : newYear n ≤ day) (before : day < newYear (n + 1)) :
    greatest (fun n => decide (newYear n ≤ day)) 199 = n := by
  refine greatest_eq le (decide_eq_true begun) fun j lt _ => ?_
  have later : newYear (n + 1) ≤ newYear j := newYear_mono.monotone lt
  exact decide_eq_false (by omega)

/-- The year in which a day of the range falls. -/
theorem newYear_greatest {day : Nat} (h : day ≤ 73048) :
    let n := greatest (fun n => decide (newYear n ≤ day)) 199
    n ≤ 199 ∧ newYear n ≤ day ∧ day < newYear (n + 1) := by
  intro n
  have le : n ≤ 199 := greatest_le _ _
  refine ⟨le, ?_, ?_⟩
  · rcases greatest_has (fun n => decide (newYear n ≤ day)) 199 with zero | some
    · have none : n = 0 := zero
      rw [none]
      exact Nat.zero_le day
    · exact of_decide_eq_true some
  · rcases Nat.lt_or_eq_of_le le with lt | eq
    · have none := greatest_above (Nat.lt_succ_self n) lt
      exact Nat.not_le.1 (of_decide_eq_false none)
    · rw [eq]
      have : newYear (199 + 1) = 73049 := rfl
      omega

/-! ## Months -/

/-- The next month begins after all days of this one, and the twelfth ends with the year. -/
theorem daysBeforeMonth_succ (y : Nat) {m : Nat} (ge : 1 ≤ m) (le : m ≤ 12) :
    daysBeforeMonth y m + daysInMonth y m = if m = 12 then yearLength y else daysBeforeMonth y (m + 1) := by
  unfold daysBeforeMonth daysInMonth yearLength
  cases leapYear y with
  | false => interval_cases m <;> rfl
  | true => interval_cases m <;> rfl

theorem daysBeforeMonth_later (y : Nat) {m : Nat} (ge : 1 ≤ m) : ∀ {j : Nat}, m < j → j ≤ 12 →
    daysBeforeMonth y m + daysInMonth y m ≤ daysBeforeMonth y j := by
  intro j lt
  induction j, lt using Nat.le_induction with
  | base =>
    intro le
    rw [daysBeforeMonth_succ y ge (by omega), if_neg (by omega)]
  | succ j lt ih =>
    intro le
    have lengths := daysBeforeMonth_succ y (m := j) (by omega) (by omega)
    rw [if_neg (by omega)] at lengths
    have := ih (by omega)
    omega

theorem daysBeforeMonth_one (y : Nat) : daysBeforeMonth y 1 = 0 := by
  unfold daysBeforeMonth
  cases leapYear y <;> rfl

/-- A day of a year lies in the month whose days reach over it. -/
theorem greatest_month {y m r : Nat} (ge : 1 ≤ m) (le : m ≤ 12) (begun : daysBeforeMonth y m ≤ r)
    (before : r < daysBeforeMonth y m + daysInMonth y m) :
    greatest (fun m => decide (1 ≤ m) && decide (daysBeforeMonth y m ≤ r)) 12 = m := by
  refine greatest_eq le (by simp [ge, begun]) fun j lt top => ?_
  have later := daysBeforeMonth_later y ge lt top
  have : ¬daysBeforeMonth y j ≤ r := by omega
  simp [this]

theorem month_greatest {y r : Nat} (h : r < yearLength y) :
    let m := greatest (fun m => decide (1 ≤ m) && decide (daysBeforeMonth y m ≤ r)) 12
    (1 ≤ m ∧ m ≤ 12) ∧ daysBeforeMonth y m ≤ r ∧ r < daysBeforeMonth y m + daysInMonth y m := by
  intro m
  have le : m ≤ 12 := greatest_le _ _
  have january : daysBeforeMonth y 1 ≤ r := by rw [daysBeforeMonth_one]; exact Nat.zero_le r
  have ge : 1 ≤ m := by
    by_contra zero
    have none := greatest_above (p := fun m => decide (1 ≤ m) && decide (daysBeforeMonth y m ≤ r)) (j := 1) (top := 12)
      (Nat.not_le.1 zero) (by decide)
    simp [january] at none
  have begun : daysBeforeMonth y m ≤ r := by
    rcases greatest_has (fun m => decide (1 ≤ m) && decide (daysBeforeMonth y m ≤ r)) 12 with zero | some
    · omega
    · exact of_decide_eq_true (Bool.and_eq_true_iff.1 some).2
  refine ⟨⟨ge, le⟩, begun, ?_⟩
  rw [daysBeforeMonth_succ y ge le]
  split
  · exact h
  · have none := greatest_above (p := fun m => decide (1 ≤ m) && decide (daysBeforeMonth y m ≤ r)) (Nat.lt_succ_self m) (by omega)
    have : ¬daysBeforeMonth y (m + 1) ≤ r := by simpa using none
    omega

/-! ## Dates and instants -/

/-- The ranges of a date and a time of day, as propositions (R117). -/
theorem dateTime_ok_iff (d : DateTime) : d.ok = true ↔
    (2000 ≤ d.year ∧ d.year ≤ 2199) ∧ (1 ≤ d.month ∧ d.month ≤ 12) ∧ (1 ≤ d.day ∧ d.day ≤ daysInMonth d.year d.month) ∧
    d.hour ≤ 23 ∧ d.minute ≤ 59 ∧ d.second ≤ 59 := by
  simp only [DateTime.ok, timeOk, Bool.and_eq_true, decide_eq_true_eq, and_assoc]

/-- The day number of a date in range is a day of its year and of its month. -/
theorem dayNumber_eq {d : DateTime} (h : d.ok = true) : ∃ n r, d.year = 2000 + n ∧ n ≤ 199 ∧ d.dayNumber = newYear n + r ∧
    r + 1 = daysBeforeMonth d.year d.month + d.day ∧ r < yearLength d.year := by
  obtain ⟨⟨from2000, to2199⟩, ⟨month1, month12⟩, ⟨day1, dayLast⟩, _⟩ := (dateTime_ok_iff d).1 h
  refine ⟨d.year - 2000, daysBeforeMonth d.year d.month + d.day - 1, by omega, by omega, ?_, by omega, ?_⟩
  · unfold DateTime.dayNumber
    omega
  · have last := daysBeforeMonth_succ d.year month1 month12
    split at last
    · omega
    · have december := daysBeforeMonth_later d.year (m := d.month) (j := 12) month1 (by omega) (Nat.le_refl _)
      have year := daysBeforeMonth_succ d.year (m := 12) (by decide) (Nat.le_refl _)
      rw [if_pos rfl] at year
      omega

theorem dayNumber_le {d : DateTime} (h : d.ok = true) : d.dayNumber ≤ 73048 := by
  obtain ⟨n, r, year, le, day, _, short⟩ := dayNumber_eq h
  have next := newYear_succ n
  have last : newYear (n + 1) ≤ newYear 200 := newYear_mono.monotone (by omega)
  have : newYear 200 = 73049 := rfl
  rw [year] at short
  omega

theorem timeOfDay_le {hour minute second : Nat} (h : hour ≤ 23) (m : minute ≤ 59) (n : second ≤ 59) :
    timeOfDay hour minute second ≤ 86399 := by
  unfold timeOfDay
  omega

/-- The instant of a date in range lies in the range of the calendar. -/
theorem instant_inRange {d : DateTime} (h : d.ok = true) : d.instant.day ≤ 73048 ∧ d.instant.second ≤ 86399 := by
  obtain ⟨_, _, _, hour, minute, second⟩ := (dateTime_ok_iff d).1 h
  exact ⟨dayNumber_le h, timeOfDay_le hour minute second⟩

/-- The date of the instant of a date in range. -/
theorem dateTime_instant {d : DateTime} (h : d.ok = true) : d.instant.dateTime = d := by
  obtain ⟨n, r, year, le, day, inMonth, short⟩ := dayNumber_eq h
  obtain ⟨_, ⟨month1, month12⟩, ⟨day1, dayLast⟩, hour, minute, second⟩ := (dateTime_ok_iff d).1 h
  have next := newYear_succ n
  have years : greatest (fun n => decide (newYear n ≤ d.dayNumber)) 199 = n :=
    greatest_newYear le (by omega) (by rw [year] at short; omega)
  have rest : d.dayNumber - newYear n = r := by omega
  have months : greatest (fun m => decide (1 ≤ m) && decide (daysBeforeMonth d.year m ≤ r)) 12 = d.month :=
    greatest_month month1 month12 (by omega) (by omega)
  have hours : timeOfDay d.hour d.minute d.second / 3600 = d.hour ∧ timeOfDay d.hour d.minute d.second % 3600 / 60 = d.minute ∧
      timeOfDay d.hour d.minute d.second % 60 = d.second := by
    unfold timeOfDay
    omega
  obtain ⟨sameHour, sameMinute, sameSecond⟩ := hours
  unfold Instant.dateTime DateTime.instant
  dsimp only
  rw [years, rest, ← year, months, sameHour, sameMinute, sameSecond]
  have sameDay : r - daysBeforeMonth d.year d.month + 1 = d.day := by omega
  rw [sameDay]

/-- An instant of the range has a date in range that names it. -/
theorem instant_dateTime {i : Instant} (day : i.day ≤ 73048) (second : i.second ≤ 86399) :
    i.dateTime.ok = true ∧ i.dateTime.instant = i := by
  obtain ⟨le, begun, before⟩ := newYear_greatest day
  generalize hn : greatest (fun n => decide (newYear n ≤ i.day)) 199 = n at le begun before
  rw [newYear_succ] at before
  obtain ⟨⟨month1, month12⟩, inMonth, overMonth⟩ := month_greatest (y := 2000 + n) (r := i.day - newYear n) (by omega)
  generalize hm : greatest (fun m => decide (1 ≤ m) && decide (daysBeforeMonth (2000 + n) m ≤ i.day - newYear n)) 12 = m at *
  have date : i.dateTime = ⟨2000 + n, m, i.day - newYear n - daysBeforeMonth (2000 + n) m + 1, i.second / 3600,
      i.second % 3600 / 60, i.second % 60⟩ := by
    unfold Instant.dateTime
    dsimp only
    rw [hn, hm]
  rw [date]
  constructor
  · refine (dateTime_ok_iff _).2 ⟨⟨?_, ?_⟩, ⟨month1, month12⟩, ⟨?_, ?_⟩, ?_, ?_, ?_⟩
    all_goals
      dsimp only
      omega
  · have sameDay : newYear (2000 + n - 2000) + daysBeforeMonth (2000 + n) m +
        (i.day - newYear n - daysBeforeMonth (2000 + n) m + 1) - 1 = i.day := by
      rw [Nat.add_sub_cancel_left]
      omega
    have sameSecond : timeOfDay (i.second / 3600) (i.second % 3600 / 60) (i.second % 60) = i.second := by
      unfold timeOfDay
      omega
    unfold DateTime.instant DateTime.dayNumber
    dsimp only
    rw [sameDay, sameSecond]

/-- Settles O39: both conversions, by the year and the month in which a day falls. -/
theorem datesAndInstantsNameEachOther : Obligations.DatesAndInstantsNameEachOther := by
  unfold Obligations.DatesAndInstantsNameEachOther
  refine ⟨fun d ok => ?_, fun i day second => instant_dateTime day second⟩
  obtain ⟨day, second⟩ := instant_inRange ok
  exact ⟨day, second, dateTime_instant ok⟩

end Sys2Proof.Machine
end

