-- ==== Sys2Proof/Proofs/CalendarInvariant.lean ====
section
/-! SUPPORT. What every step keeps of the calendar and of the game-day record: the calendar's range (R110), and the law of R122. -/

namespace Sys2Proof.Machine

set_option Elab.async false

/-! ## The calendar -/

/-- The instant of a calendar in its range (R110). -/
def Calendar.InRange (c : Calendar) : Prop := c.now.day ≤ 73048 ∧ c.now.second ≤ 86399

theorem Calendar.inRange_restarted : Calendar.restarted.InRange := ⟨Nat.zero_le _, Nat.zero_le _⟩

theorem Calendar.InRange.tick {c : Calendar} (h : c.InRange) : c.tick.InRange := by
  obtain ⟨day, second⟩ := h
  unfold Calendar.tick lastSecond lastDay
  split
  · exact ⟨day, by dsimp only; omega⟩
  · split
    · exact ⟨by dsimp only; omega, Nat.zero_le _⟩
    · exact ⟨day, second⟩

/-! ## The game-day record -/

/-- The law of R122: the counter's rise and the forfeited days are the days from the start mark to the high-water mark. -/
def GameDayRecord.Lawful (r : GameDayRecord) : Prop :=
  r.valid = true → (r.counter : Int) - r.start + r.forfeited = r.highWater - r.startMark

theorem GameDayRecord.lawful_of_invalid {r : GameDayRecord} (h : r.valid = false) : r.Lawful :=
  fun valid => absurd valid (h ▸ Bool.false_ne_true)

theorem GameDayRecord.lawful_started (start rollover cap : Nat) (now : Instant) : (startedRecord start rollover cap now).Lawful := by
  intro _
  simp only [startedRecord]
  omega

/-- A crossing adds one day on each side (R126). -/
theorem GameDayRecord.Lawful.crossed {r : GameDayRecord} (h : r.Lawful) {index : Int} (next : index = r.highWater + 1) :
    GameDayRecord.Lawful { r with counter := r.counter + 1, highWater := index } := by
  intro valid
  have := h valid
  dsimp only
  omega

/-- A catch-up adds the days passed: those credited to the counter, the others to the forfeited (R127). -/
theorem GameDayRecord.Lawful.credited {r : GameDayRecord} (h : r.Lawful) {index : Int} (passed : 0 < index - r.highWater) :
    let credited := min (index - r.highWater).toNat r.cap
    GameDayRecord.Lawful { r with counter := r.counter + credited, highWater := index
                                  forfeited := r.forfeited + ((index - r.highWater).toNat - credited) } := by
  intro credited valid
  have := h valid
  dsimp only
  omega

/-! ## What the unit's work makes of the two -/

/-- Both together: what O57 states. -/
def State.DaysSound (s : State) : Prop := s.CalendarSound ∧ s.GameDayLaw

theorem daysSound_iff (s : State) : s.DaysSound ↔ s.backup.calendar.InRange ∧ s.record.Lawful := Iff.rfl

theorem daysInvariant : Invariant State.DaysSound [.calendar, .record] where
  sound _ hs := ⟨hs.calendar, hs.gameDays⟩
  keeps {s t} same h := by
    have calendar : t.backup.calendar = s.backup.calendar := same .calendar (by decide)
    have record : t.record = s.record := same .record (by decide)
    rw [daysSound_iff, calendar, record]
    exact h

section
variable {s : State} (h : s.DaysSound)
include h

theorem daysSound_writeRecord {r : GameDayRecord} (lawful : r.Lawful) : (s.writeRecord r).DaysSound := ⟨h.1, lawful⟩

theorem daysSound_withCalendar {c : Calendar} (inRange : c.InRange) :
    (s.withBackup { s.backup with calendar := c }).DaysSound := ⟨inRange, h.2⟩

theorem daysSound_cross {index : Int} (next : index = s.record.highWater + 1) : (s.cross index).DaysSound :=
  daysInvariant.of_keeps (keeps_pendGameDayOf _ _ _ _) (daysSound_writeRecord h (GameDayRecord.Lawful.crossed h.2 next))

theorem daysSound_creditDays (index : Int) : (s.creditDays index).DaysSound := by
  unfold State.creditDays
  dsimp only
  split
  · next passed =>
    exact daysInvariant.of_keeps (keeps_pendGameDayOf _ _ _ _) (daysSound_writeRecord h (GameDayRecord.Lawful.credited h.2 passed))
  · split
    · exact daysInvariant.of_keeps (keeps_pendGameDayOf _ _ _ _) (daysSound_writeRecord h h.2)
    · exact h

theorem daysSound_catchUp (i : Instant) : (s.catchUp i).DaysSound := by
  unfold State.catchUp
  refine daysInvariant.of_keeps (keeps_sweepLate _ i) ?_
  split
  · exact daysSound_creditDays h _
  · exact h

theorem daysSound_secondEvent (i : Instant) : (s.secondEvent i).DaysSound := by
  unfold State.secondEvent
  dsimp only
  split
  · exact daysSound_catchUp h i
  · refine daysInvariant.of_keeps (keeps_sweepOnTime _ i) ?_
    split
    · next crossing => exact daysSound_cross h crossing.2
    · exact h

theorem daysSound_afterSecond (i : Option Instant) : (s.afterSecond i).DaysSound := by
  cases i with
  | none => exact h
  | some i => exact daysSound_secondEvent h i

theorem daysSound_countSecond : s.countSecond.1.DaysSound := daysSound_withCalendar h (Calendar.InRange.tick h.1)

theorem daysSound_secondTick : s.secondTick.DaysSound := by
  unfold State.secondTick
  split
  · exact daysSound_afterSecond (daysSound_countSecond h) _
  · exact h

theorem daysSound_clockSet (old : Instant) : (s.clockSet old).DaysSound := by
  unfold State.clockSet
  dsimp only
  refine daysSound_catchUp ?_ _
  split
  · exact h
  · exact h

theorem daysSound_setClock {d : DateTime} (ok : d.ok = true) : (s.setClock d).DaysSound :=
  daysSound_clockSet (daysSound_withCalendar (c := ⟨d.instant, true, false, 0⟩) h (instant_inRange ok)) _

theorem daysSound_setClockTicked {d : DateTime} (ok : d.ok = true) : (s.setClockTicked d).DaysSound := by
  unfold State.setClockTicked
  split
  · exact daysSound_afterSecond (daysSound_setClock (daysSound_countSecond h) ok) _
  · exact daysSound_setClock h ok

theorem daysSound_takeCalendarSet (f : CalendarSetFields) : (takeCalendarSet f s).state.DaysSound := by
  have unset : (if f.ticked then s.secondTick else s).DaysSound := by
    split
    · exact daysSound_secondTick h
    · exact h
  unfold takeCalendarSet
  dsimp only
  split
  · exact unset
  next ok =>
  have ok : f.date.ok = true := Bool.eq_true_of_not_eq_false ok
  split
  · exact unset
  · rw [accept_state]
    split
    · exact daysSound_setClockTicked h ok
    · exact daysSound_setClock h ok

theorem daysSound_takeGameDayStart (start rollover cap : Nat) : (takeGameDayStart start rollover cap s).state.DaysSound := by
  unfold takeGameDayStart
  dsimp only
  split
  · exact h
  split
  · exact h
  split
  · exact h
  · rw [accept_state]
    refine daysInvariant.of_keeps (keeps_sweepOnTime _ _) (daysInvariant.of_keeps (keeps_pendGameDayOf _ _ _ _) ?_)
    exact daysSound_writeRecord h (GameDayRecord.lawful_started _ _ _ _)

theorem daysSound_takeGameDayClearRewind : (takeGameDayClearRewind s).state.DaysSound := by
  unfold takeGameDayClearRewind
  split
  · exact h
  split
  · exact h
  split
  · exact h
  · exact daysSound_writeRecord h h.2

theorem daysSound_checkRecord : s.checkRecord.DaysSound := by
  unfold State.checkRecord
  dsimp only
  split
  · exact h
  · exact daysInvariant.of_keeps (keeps_pendGameDayOf _ _ _ _)
      (daysSound_writeRecord h (GameDayRecord.lawful_of_invalid rfl))

theorem daysSound_startUp : s.startUp.DaysSound := by
  have rejoined (s : State) : s.Keeps ((numbers 16).foldl rejoin s) [.announced] :=
    State.Keeps.foldl (fun s e => (keeps_joinEvents s e).ite (.refl s _)) _ _
  have joined := daysInvariant.of_keeps (rejoined _) (daysSound_checkRecord h)
  unfold State.startUp
  dsimp only
  refine daysInvariant.of_keeps (keeps_catchUpDone _) (daysInvariant.of_keeps (keeps_sweepLate _ _) ?_)
  split
  · exact daysSound_creditDays joined _
  · exact joined

end

/-! ## The power domains -/

theorem daysSound_lost {b : Backup} (calendar : b.calendar = .restarted) (record : b.record = .lost) :
    b.calendar.InRange ∧ b.record.Lawful := by
  rw [calendar, record]
  exact ⟨Calendar.inRange_restarted, GameDayRecord.lawful_of_invalid rfl⟩

/-- The marker check leaves the two as they are, or handles the backup loss (R153). -/
theorem daysSound_checkMarker {b : Backup} (h : b.calendar.InRange ∧ b.record.Lawful) :
    b.checkMarker.calendar.InRange ∧ b.checkMarker.record.Lawful := by
  unfold Backup.checkMarker
  split
  · exact h
  · exact daysSound_lost rfl rfl

theorem daysSound_powerReturn {s : State} (h : s.DaysSound) : (s.withBackup s.backup.powerReturn).DaysSound := by
  rw [daysSound_iff]
  unfold Backup.powerReturn
  split
  · exact h
  · exact ⟨Calendar.inRange_restarted, h.2⟩

/-- What stops in backup memory is a copy or a header write. -/
theorem keeps_stopOperation (s : State) : s.Keeps s.stopOperation [.save, .store] := by
  unfold State.stopOperation
  split
  · exact (keeps_writeSeal s).mono
  · exact keeps_copySoFar s

theorem daysSound_stopCore {s : State} (h : s.DaysSound) : s.stopCore.DaysSound := by
  have stopped : s.stopOperation.DaysSound := daysInvariant.of_keeps (keeps_stopOperation s) h
  exact stopped

theorem daysSound_powerUp {s : State} (h : s.DaysSound) : s.powerUp.DaysSound := by
  have stopped : (if s.corePowered then s.stopCore else s).DaysSound := by
    split
    · exact daysSound_stopCore h
    · exact h
  exact daysSound_checkMarker (daysSound_powerReturn stopped)

theorem daysSound_restarted {s : State} (h : s.DaysSound) (tag : Byte) : (s.restarted tag).DaysSound :=
  daysSound_checkMarker (daysSound_stopCore h)

/-- Every command keeps the calendar in its range and the law of the record. -/
theorem daysSound_kept (c : Instr) : KeptBy State.DaysSound c := by
  have inv := daysInvariant
  have start {s : State} := inv.sound s
  cases c
  case powerUp => exact kept_of_next (fun _ => rfl) fun s hs => daysSound_powerUp (start hs)
  case cartridgeSupplyLoss => exact inv.of_core _ (fun _ => rfl) fun s hs _ => daysSound_stopCore (start hs)
  case restart tag => exact inv.of_restart fun s hs => daysSound_restarted (start hs) tag
  case backupDomainPowerLoss =>
    refine kept_of_next (fun _ => rfl) fun s hs => ?_
    split
    · exact start hs
    · exact daysSound_lost rfl rfl
  case backupDomainPowerReturn => exact kept_of_next (fun _ => rfl) fun s hs => daysSound_powerReturn (start hs)
  case startUpCatchUp =>
    refine inv.of_core _ (fun _ => rfl) fun s hs _ => ?_
    split
    · exact start hs
    · exact daysSound_startUp (start hs)
  case secondTick => exact kept_of_next (fun _ => rfl) fun s hs => daysSound_secondTick (start hs)
  case calendarSet tag f => exact inv.of_serve fun s hs _ => daysSound_takeCalendarSet (start hs) f
  case gameDayStart tag first rollover cap =>
    exact inv.of_serve fun s hs _ => daysSound_takeGameDayStart (start hs) first rollover cap
  case gameDayClearRewind tag => exact inv.of_serve fun s hs _ => daysSound_takeGameDayClearRewind (start hs)
  all_goals exact inv.untouched

/-- Settles O57: the range of the calendar and the law of the record, by the commands that touch one of the two. -/
theorem calendarAndGameDaysStaySound : Obligations.CalendarAndGameDaysStaySound := by
  unfold Obligations.CalendarAndGameDaysStaySound
  intro s t hs h
  exact daysInvariant.step daysSound_kept hs h

end Sys2Proof.Machine
end

