-- ==== Sys2Proof/Proofs/StartInvariants.lean ====
section
/-! SUPPORT. The invariants of what a start of a cue touches: it is enough that a start keeps them, for a firing, a second event and
the requests that fire do nothing else to it. -/

namespace Sys2Proof.Machine

set_option Elab.async false

/-- What the calendar, the record and the event table change beside starting cues. -/
def dayParts : List Part := [.calendar, .record, .events, .announced]

theorem clearOf_mono {speaks a b : List Part} (h : clearOf speaks b = true) (ab : a ⊆ b) : clearOf speaks a = true := by
  refine List.all_eq_true.2 fun p hp => ?_
  have := not_mem_of_clearOf h hp
  simp only [Bool.not_eq_true', List.contains_eq_mem, decide_eq_false_iff_not]
  exact fun hm => this (ab hm)

section
variable {P : State → Prop} {speaks : List Part} (inv : Invariant P speaks) (clear : clearOf speaks dayParts = true)
  (start : ∀ (s : State) (cue entry : Nat) (quantize : Bool), P s → P (s.eventStart cue entry quantize))
include inv clear start

theorem Invariant.fireOnTime {s : State} (h : P s) (i : Instant) (e : Fin 16) : P (s.fireOnTime i e) := by
  have fired : P (s.setEvent e ((s.entry e).fired i false)) :=
    inv.of_keeps (keeps_setEvent s _ _) h (clearOf_mono clear (by decide))
  unfold State.fireOnTime
  dsimp only
  refine inv.of_keeps (keeps_reportFiring _ e) ?_ (clearOf_mono clear (by decide))
  split
  · exact start _ _ _ _ fired
  · exact fired

theorem Invariant.judgeOnTime {s : State} (h : P s) (i : Instant) (e : Fin 16) : P (judgeOnTime i s e) := by
  unfold Machine.judgeOnTime
  split
  · exact inv.fireOnTime clear start h i e
  · exact h

theorem Invariant.sweepOnTime {s : State} (h : P s) (i : Instant) : P (s.sweepOnTime i) :=
  foldl_keeps (P := P) (f := Machine.judgeOnTime i) (fun _ e h => inv.judgeOnTime clear start h i e) _ h

theorem Invariant.secondEvent {s : State} (h : P s) (i : Instant) : P (s.secondEvent i) := by
  unfold State.secondEvent
  dsimp only
  split
  · exact inv.of_keeps (keeps_catchUp s i) h (clearOf_mono clear (by decide))
  · refine inv.sweepOnTime clear start ?_ i
    split
    · exact inv.of_keeps (keeps_cross s _) h (clearOf_mono clear (by decide))
    · exact h

theorem Invariant.afterSecond {s : State} (h : P s) (i : Option Instant) : P (s.afterSecond i) := by
  cases i with
  | none => exact h
  | some i => exact inv.secondEvent clear start h i

theorem Invariant.secondTick {s : State} (h : P s) : P s.secondTick := by
  unfold State.secondTick
  split
  · exact inv.afterSecond clear start (inv.of_keeps (keeps_countSecond s) h (clearOf_mono clear (by decide))) _
  · exact h

theorem Invariant.setClockTicked {s : State} (h : P s) (d : DateTime) : P (s.setClockTicked d) := by
  have set {s : State} (h : P s) : P (s.setClock d) := inv.of_keeps (keeps_setClock s d) h (clearOf_mono clear (by decide))
  unfold State.setClockTicked
  split
  · exact inv.afterSecond clear start (set (inv.of_keeps (keeps_countSecond s) h (clearOf_mono clear (by decide)))) _
  · exact set h

theorem Invariant.takeCalendarSet {s : State} (h : P s) (f : CalendarSetFields) : P (takeCalendarSet f s).state := by
  have unset : P (if f.ticked then s.secondTick else s) := by
    split
    · exact inv.secondTick clear start h
    · exact h
  unfold Machine.takeCalendarSet
  dsimp only
  split
  · exact unset
  · split
    · exact unset
    · rw [accept_state]
      split
      · exact inv.setClockTicked clear start h _
      · exact inv.of_keeps (keeps_setClock s _) h (clearOf_mono clear (by decide))

theorem Invariant.takeGameDayStart {s : State} (h : P s) (first rollover cap : Nat) :
    P (takeGameDayStart first rollover cap s).state := by
  unfold Machine.takeGameDayStart
  dsimp only
  split
  · exact h
  split
  · exact h
  split
  · exact h
  · rw [accept_state]
    refine inv.sweepOnTime clear start (inv.of_keeps (keeps_pendGameDayOf _ _ _ _) ?_ (clearOf_mono clear (by decide))) _
    exact inv.of_keeps (keeps_writeRecord s _) h (clearOf_mono clear (by decide))

theorem Invariant.takeEventSet {s : State} (h : P s) (entry : Nat) (trigger : TriggerFields) (cue : Option Nat)
    (quantize : Coded Bool) : P (takeEventSet entry trigger cue quantize s).state := by
  unfold Machine.takeEventSet
  dsimp only
  split
  · split
    · split
      · exact h
      split
      · exact h
      split
      · exact h
      · rw [accept_state]
        exact inv.judgeOnTime clear start (inv.of_keeps (keeps_setEvent s _ _) h (clearOf_mono clear (by decide))) _ _
    · exact h
  · exact h

end

end Sys2Proof.Machine
end

