-- ==== Sys2Proof/Proofs/VoiceInvariant.lean ====
section
/-! SUPPORT. What every step keeps of the voices and the cues: a record inside its ranges, now and with its pending fields, and
cues that can be played (R33, R34, R141). -/

namespace Sys2Proof.Machine

set_option Elab.async false

/-! ## Records and pending records -/

/-- The pending fields lie in the ranges of their fields (R50). -/
def PendingVoice.InRange (p : PendingVoice) : Prop :=
  p.volume.getD 0 ≤ 127 ∧ (1 ≤ p.pitchStep.getD 1 ∧ p.pitchStep.getD 1 ≤ 2048) ∧
  (1 ≤ p.attackRate.getD 1 ∧ p.attackRate.getD 1 ≤ 255) ∧ p.sustainLevel.getD 0 ≤ 255 ∧
  (1 ≤ p.releaseRate.getD 1 ∧ p.releaseRate.getD 1 ≤ 255)

/-- A record and its pending record: both in range, the record's wave inside wave memory now and after the latch (R33, R50). -/
def VoiceRecord.SoundWith (r : VoiceRecord) (p : PendingVoice) : Prop :=
  r.Fits ∧ r.OffAtRest ∧ r.InRange ∧ (r.takeFields p).Fits ∧ p.InRange

theorem voiceSound_iff (s : State) (v : Fin 8) :
    s.VoiceSound v ↔ (s.voice.voices.get v).SoundWith (s.voice.pendings.get v) := Iff.rfl

theorem PendingVoice.inRange_empty : PendingVoice.empty.InRange := by
  unfold PendingVoice.InRange PendingVoice.empty
  decide

/-- With nothing pending a record is sound when it stands as it should. -/
theorem VoiceRecord.soundWith_empty {r : VoiceRecord} (fits : r.Fits) (rest : r.OffAtRest) (range : r.InRange) :
    r.SoundWith .empty := ⟨fits, rest, range, fits, PendingVoice.inRange_empty⟩

theorem waveFits_iff (start length loop : Nat) : waveFits start length loop = true ↔ start + length ≤ 8192 ∧ loop < length := by
  simp only [waveFits, Bool.and_eq_true, decide_eq_true_eq]

/-! ## Writes into a pending record -/

/-- Key, mode and stream-open mark have no part in the ranges. -/
theorem VoiceRecord.SoundWith.otherPending {r : VoiceRecord} {p : PendingVoice} (h : r.SoundWith p) (mode : Option VoiceMode)
    (key : Option Key) (mark : Bool) : r.SoundWith { p with mode := mode, key := key, streamOpen := mark } := h

theorem Option.or_getD_le {a b : Option Nat} {d n : Nat} (ha : a.getD d ≤ n) (hb : b.getD d ≤ n) : (a.or b).getD d ≤ n := by
  cases a with
  | none => exact hb
  | some a => exact ha

theorem Option.le_or_getD {a b : Option Nat} {d n : Nat} (ha : n ≤ a.getD d) (hb : n ≤ b.getD d) : n ≤ (a.or b).getD d := by
  cases a with
  | none => exact hb
  | some a => exact ha

theorem PendingVoice.InRange.merge {p w : PendingVoice} (hp : p.InRange) (hw : w.InRange) : (p.merge w).InRange := by
  obtain ⟨volume, pitch, attack, sustain, release⟩ := hp
  obtain ⟨volume', pitch', attack', sustain', release'⟩ := hw
  exact ⟨Option.or_getD_le volume' volume, ⟨Option.le_or_getD pitch'.1 pitch.1, Option.or_getD_le pitch'.2 pitch.2⟩,
    ⟨Option.le_or_getD attack'.1 attack.1, Option.or_getD_le attack'.2 attack.2⟩, Option.or_getD_le sustain' sustain,
    ⟨Option.le_or_getD release'.1 release.1, Option.or_getD_le release'.2 release.2⟩⟩

theorem rateOk_iff (n : Nat) : rateOk n = true ↔ 1 ≤ n ∧ n ≤ 255 := by
  simp only [rateOk, Bool.and_eq_true, decide_eq_true_eq]

theorem getD_rate {a : Option Nat} (h : a.all rateOk = true) : 1 ≤ a.getD 1 ∧ a.getD 1 ≤ 255 := by
  cases a with
  | none => exact ⟨Nat.le_refl 1, by decide⟩
  | some n => exact (rateOk_iff n).1 h

theorem getD_byte {a : Option Nat} (h : a.all byteOk = true) : a.getD 0 ≤ 255 := by
  cases a with
  | none => exact Nat.zero_le _
  | some n => exact of_decide_eq_true h

theorem clampVolume_le (v : Nat) : clampVolume v ≤ 127 := Nat.min_le_right _ _

theorem clampPitch_inRange (p : Nat) : 1 ≤ clampPitch p ∧ clampPitch p ≤ 2048 := by
  unfold clampPitch
  omega

/-- What Voice Set writes lies in its ranges (R50). -/
theorem VoiceSetFields.inRange_written {f : VoiceSetFields} (h : f.singlesOk = true) : f.written.InRange := by
  simp only [VoiceSetFields.singlesOk, Bool.and_eq_true] at h
  obtain ⟨⟨⟨_, attack⟩, sustain⟩, release⟩ := h
  refine ⟨?_, ?_, getD_rate attack, getD_byte sustain, getD_rate release⟩
  · change (f.volume.map clampVolume).getD 0 ≤ 127
    cases f.volume with
    | none => exact Nat.zero_le _
    | some v => exact clampVolume_le v
  · change 1 ≤ (f.pitchStep.map clampPitch).getD 1 ∧ (f.pitchStep.map clampPitch).getD 1 ≤ 2048
    cases f.pitchStep with
    | none => exact ⟨Nat.le_refl 1, by decide⟩
    | some p => exact clampPitch_inRange p

theorem Option.or_getD {α : Type} (a b : Option α) (d : α) : (a.or b).getD d = a.getD (b.getD d) := by
  cases a <;> rfl

theorem VoiceRecord.SoundWith.voiceSet {r : VoiceRecord} {p : PendingVoice} (h : r.SoundWith p) {f : VoiceSetFields}
    (singles : f.singlesOk = true) (fits : voiceSetFits f.written p r = true) : r.SoundWith (p.merge f.written) := by
  obtain ⟨now, rest, range, _, pending⟩ := h
  exact ⟨now, rest, range, (waveFits_iff _ _ _).1 fits, pending.merge (VoiceSetFields.inRange_written singles)⟩

/-- A cue's sound part brings every table field of its own (R145). -/
theorem VoiceRecord.SoundWith.writeInto {r : VoiceRecord} {p : PendingVoice} (h : r.SoundWith p) {part : SoundPart}
    (sound : part.Sound) : r.SoundWith (part.writeInto p) := by
  obtain ⟨now, rest, range, _, _⟩ := h
  obtain ⟨fits, volume, pitch, attack, sustain, release⟩ := sound
  exact ⟨now, rest, range, fits, volume, pitch, attack, sustain, release⟩

/-! ## The latch -/

/-- A record in all but its position: the wave of a TABLE voice may have grown shorter than where it stands. -/
structure VoiceRecord.SoundButPosition (r : VoiceRecord) : Prop where
  fits : r.Fits
  rest : r.OffAtRest
  volume : r.volume ≤ 127
  pitch : 1 ≤ r.pitchStep ∧ r.pitchStep ≤ 2048
  posFrac : r.posFrac ≤ 255
  envLevel : r.envLevel ≤ 255
  attack : 1 ≤ r.attackRate ∧ r.attackRate ≤ 255
  sustain : r.sustainLevel ≤ 255
  release : 1 ≤ r.releaseRate ∧ r.releaseRate ≤ 255

/-- The position of a TABLE voice lies in its wave (R33). -/
def VoiceRecord.PositionInWave (r : VoiceRecord) : Prop := r.mode = .table → r.posInt < r.waveLength

namespace VoiceRecord.SoundButPosition

variable {r : VoiceRecord} (h : r.SoundButPosition)
include h

theorem soundWith_empty (position : r.PositionInWave) : r.SoundWith .empty :=
  VoiceRecord.soundWith_empty h.fits h.rest
    ⟨h.volume, h.pitch, h.posFrac, position, h.envLevel, h.attack, h.sustain, h.release⟩

theorem turnedOff : r.turnedOff.SoundButPosition :=
  ⟨h.fits, fun _ => ⟨rfl, rfl, rfl, rfl⟩, h.volume, h.pitch, Nat.zero_le _, Nat.zero_le _, h.attack, h.sustain, h.release⟩

theorem started : r.started.SoundButPosition :=
  ⟨h.fits, nofun, h.volume, h.pitch, Nat.zero_le _, Nat.zero_le _, h.attack, h.sustain, h.release⟩

/-- A wave has at least one sample, so that its beginning lies in it. -/
theorem waveLength_pos : 0 < r.waveLength := Nat.zero_lt_of_lt h.fits.2

theorem takeMode (mode : Option VoiceMode) : (r.takeMode mode).1.SoundButPosition := by
  unfold VoiceRecord.takeMode
  split
  · exact h
  · dsimp only
    split
    · exact h
    · exact h.turnedOff
  · split
    · exact h
    · exact h.started
  · exact ⟨h.fits, nofun, h.volume, h.pitch, h.posFrac, h.envLevel, h.attack, h.sustain, h.release⟩

theorem takeWave (old : VoiceRecord) (startedNow : Bool) : (r.takeWave old startedNow).SoundButPosition := by
  unfold VoiceRecord.takeWave
  split
  · next moved =>
    exact ⟨h.fits, fun off => absurd (moved.1.symm.trans off) nofun, h.volume, h.pitch, Nat.zero_le _, h.envLevel, h.attack,
      h.sustain, h.release⟩
  · exact h

/-- The key starts the voice, releases it, or does nothing. -/
theorem takeKey (position : r.PositionInWave) (mode : Option VoiceMode) (key : Option Key) :
    (r.takeKey mode key).SoundButPosition ∧ (r.takeKey mode key).PositionInWave := by
  unfold VoiceRecord.takeKey
  split
  · exact ⟨h, position⟩
  · split
    · exact ⟨h, position⟩
    · exact ⟨h, position⟩
    · exact ⟨h, position⟩
    · exact ⟨h.started, fun _ => h.waveLength_pos⟩
  · split
    · next playing =>
      exact ⟨⟨h.fits, fun off => absurd (playing.1.symm.trans off) nofun, h.volume, h.pitch, h.posFrac, h.envLevel, h.attack,
        h.sustain, h.release⟩, position⟩
    · exact ⟨h, position⟩

theorem stepEnvelope (position : r.PositionInWave) :
    r.stepEnvelope.1.SoundButPosition ∧ r.stepEnvelope.1.PositionInWave := by
  have level (state : EnvelopeState) {n : Nat} (le : n ≤ 255) (table : r.mode = .table) :
      VoiceRecord.SoundButPosition { r with envLevel := n, envState := state } :=
    ⟨h.fits, fun off => absurd (table.symm.trans off) nofun, h.volume, h.pitch, h.posFrac, le, h.attack, h.sustain, h.release⟩
  unfold VoiceRecord.stepEnvelope
  split
  · next table =>
    split
    · exact ⟨level _ ((Nat.min_le_right _ _).trans h.sustain) table, position⟩
    · exact ⟨level _ h.sustain table, position⟩
    · dsimp only
      split
      · exact ⟨h.turnedOff, nofun⟩
      · exact ⟨level _ ((Nat.sub_le _ _).trans h.envLevel) table, position⟩
  · exact ⟨h, position⟩

/-- One output sample of a TABLE voice: the position stays in the wave, goes back to the loop, or the voice ends (R40, R41). -/
theorem advance (table : r.mode = .table) : r.advance.1.SoundButPosition ∧ r.advance.1.PositionInWave := by
  have moved (pos frac : Nat) : VoiceRecord.SoundButPosition { r with posInt := pos, posFrac := frac % 256 } :=
    ⟨h.fits, fun off => absurd (table.symm.trans off) nofun, h.volume, h.pitch, Nat.le_of_lt_succ (Nat.mod_lt frac (by decide)),
      h.envLevel, h.attack, h.sustain, h.release⟩
  have loop := h.fits.2
  unfold VoiceRecord.advance
  dsimp only
  split
  · next inside => exact ⟨moved _ _, fun _ => inside⟩
  · split
    · refine ⟨moved _ _, fun _ => ?_⟩
      have back := Nat.mod_lt (r.posInt + (r.posFrac + r.pitchStep) / 256 - r.waveLength) (Nat.sub_pos_of_lt loop)
      dsimp only
      omega
    · exact ⟨h.turnedOff, nofun⟩

end VoiceRecord.SoundButPosition

theorem Option.getD_le {a : Option Nat} {d e n : Nat} (ha : a.getD d ≤ n) (he : e ≤ n) : a.getD e ≤ n := by
  cases a with
  | none => exact he
  | some a => exact ha

theorem Option.le_getD {a : Option Nat} {d e n : Nat} (ha : n ≤ a.getD d) (he : n ≤ e) : n ≤ a.getD e := by
  cases a with
  | none => exact he
  | some a => exact ha

/-- Step 1 of the latch: in range in all but the position. -/
theorem VoiceRecord.SoundWith.takeFields {r : VoiceRecord} {p : PendingVoice} (h : r.SoundWith p) :
    (r.takeFields p).SoundButPosition := by
  obtain ⟨_, rest, ⟨volume, pitch, frac, _, level, attack, sustain, release⟩, fits, volume', pitch', attack', sustain', release'⟩ := h
  exact ⟨fits, rest, Option.getD_le volume' volume, ⟨Option.le_getD pitch'.1 pitch.1, Option.getD_le pitch'.2 pitch.2⟩, frac, level,
    ⟨Option.le_getD attack'.1 attack.1, Option.getD_le attack'.2 attack.2⟩, Option.getD_le sustain' sustain,
    ⟨Option.le_getD release'.1 release.1, Option.getD_le release'.2 release.2⟩⟩

/-- After step 3 the position lies in the wave: the voice was started, or its wave is new and it goes back to 0, or both are as they
were (R37). -/
theorem VoiceRecord.SoundWith.position {r : VoiceRecord} {p : PendingVoice} (h : r.SoundWith p) (mode : Option VoiceMode) :
    (((r.takeFields p).takeMode mode).1.takeWave r ((r.takeFields p).takeMode mode).2).PositionInWave := by
  have fields := h.takeFields
  have old : r.PositionInWave := h.2.2.1.2.2.2.1
  have kept (v : VoiceRecord) (sound : v.SoundButPosition) (mode : v.mode = r.mode) (pos : v.posInt = r.posInt) :
      (v.takeWave r false).PositionInWave := by
    unfold VoiceRecord.takeWave
    split
    · exact fun _ => sound.waveLength_pos
    · next same =>
      intro table
      have length : v.waveLength = r.waveLength := by
        by_contra changed
        exact same ⟨table, rfl, .inr changed⟩
      rw [pos, length]
      exact old (mode ▸ table)
  have off (v : VoiceRecord) (notTable : v.mode ≠ .table) (startedNow : Bool) : (v.takeWave r startedNow).PositionInWave := by
    intro table
    unfold VoiceRecord.takeWave at table
    rw [if_neg fun moved => notTable moved.1] at table
    exact absurd table notTable
  unfold VoiceRecord.takeMode
  split
  · exact kept _ fields rfl rfl
  · dsimp only
    split
    · exact kept _ fields rfl rfl
    · exact off _ (fun h => by cases h) _
  · split
    · exact kept _ fields rfl rfl
    · intro _
      unfold VoiceRecord.takeWave
      rw [if_neg fun moved => Bool.noConfusion moved.2.1]
      exact fields.waveLength_pos
  · exact off _ (fun h => by cases h) _

/-- A whole latch and the envelope step after it. -/
theorem VoiceRecord.SoundWith.latch {r : VoiceRecord} {p : PendingVoice} (h : r.SoundWith p) :
    (r.latch p).1.stepEnvelope.1.SoundWith .empty := by
  have keyed : (r.latch p).1.SoundButPosition ∧ (r.latch p).1.PositionInWave :=
    ((h.takeFields.takeMode p.mode).takeWave r _).takeKey (h.position p.mode) _ _
  have stepped := keyed.1.stepEnvelope keyed.2
  exact stepped.1.soundWith_empty stepped.2

theorem VoiceRecord.SoundWith.soundButPosition {r : VoiceRecord} {p : PendingVoice} (h : r.SoundWith p) : r.SoundButPosition := by
  obtain ⟨fits, rest, ⟨volume, pitch, frac, _, level, attack, sustain, release⟩, _⟩ := h
  exact ⟨fits, rest, volume, pitch, frac, level, attack, sustain, release⟩

/-- An output sample changes neither what is pending nor what the pending fields are taken over. -/
theorem VoiceRecord.SoundWith.advance {r : VoiceRecord} {p : PendingVoice} (h : r.SoundWith p) (table : r.mode = .table) :
    r.advance.1.SoundWith p := by
  have moved := h.soundButPosition.advance table
  have fits : (r.advance.1.takeFields p).Fits := by
    have same : r.advance.1.waveStart = r.waveStart ∧ r.advance.1.waveLength = r.waveLength ∧
        r.advance.1.loopStart = r.loopStart := by
      unfold VoiceRecord.advance
      dsimp only
      split
      · exact ⟨rfl, rfl, rfl⟩
      · split
        · exact ⟨rfl, rfl, rfl⟩
        · exact ⟨rfl, rfl, rfl⟩
    obtain ⟨start, length, loop⟩ := same
    unfold VoiceRecord.Fits VoiceRecord.takeFields
    dsimp only
    rw [start, length, loop]
    exact h.2.2.2.1
  have whole := moved.1.soundWith_empty moved.2
  exact ⟨moved.1.fits, moved.1.rest, whole.2.2.1, fits, h.2.2.2.2⟩

theorem VoiceRecord.soundWith_reset : VoiceRecord.reset.SoundWith .empty := by
  refine VoiceRecord.soundWith_empty ?_ ?_ ?_
  · unfold VoiceRecord.Fits VoiceRecord.reset
    decide
  · exact fun _ => ⟨rfl, rfl, rfl, rfl⟩
  · unfold VoiceRecord.InRange VoiceRecord.reset
    decide

/-! ## The cue table -/

theorem length_takenSteps : ∀ {fs : List StepFields} {ps : List PlayStep}, takenSteps fs = some ps → ps.length = fs.length
  | [], _, h => by cases h; rfl
  | f :: fs, _, h => by
    unfold takenSteps at h
    split at h
    · next rest =>
      cases h
      simp only [List.length_cons, length_takenSteps rest]
    · cases h

/-- A sound part that Cue Define stores can be played (R141). -/
theorem SoundFields.sound_of_stored {f : SoundFields} {p : SoundPart} (h : f.stored = some p) : p.Sound := by
  unfold SoundFields.stored at h
  split at h
  · split at h
    · next ok =>
      simp only [Bool.and_eq_true] at ok
      obtain ⟨⟨⟨⟨_, attack⟩, sustain⟩, release⟩, fits⟩ := ok.1
      cases h
      exact ⟨(waveFits_iff _ _ _).1 fits, clampVolume_le _, clampPitch_inRange _, (rateOk_iff _).1 attack, of_decide_eq_true sustain,
        (rateOk_iff _).1 release⟩
    · cases h
  · cases h

theorem RumbleFields.sound_of_stored {f : RumbleFields} {p : RumblePart} (h : f.stored = some p) :
    p.priority ≤ 3 ∧ 1 ≤ p.steps.length ∧ p.steps.length ≤ 4 := by
  unfold RumbleFields.stored at h
  split at h
  · next ok =>
    simp only [Bool.and_eq_true, decide_eq_true_eq] at ok
    obtain ⟨steps, taken, rfl⟩ := Option.map_eq_some_iff.1 h
    dsimp only
    rw [length_takenSteps taken]
    exact ⟨ok.1.1, ok.1.2, ok.2⟩
  · cases h

/-- A part that is stored comes from a part that is given, and an absent one from an absent one. -/
theorem storedPart_eq_some {α β : Type} {store : α → Option β} {a : Option α} {b : β} (h : storedPart store a = some (some b)) :
    ∃ x, store x = some b := by
  cases a with
  | none => cases h
  | some a =>
    obtain ⟨c, hc, same⟩ := Option.map_eq_some_iff.1 h
    cases same
    exact ⟨a, hc⟩

theorem CueFields.sound_of_stored {f : CueFields} {c : Fin 8} {d : CueDefinition} (h : f.stored = some (c, d)) : d.Sound := by
  unfold CueFields.stored at h
  split at h
  · next sound steal rumble _ hs _ hr =>
    split at h
    · cases h
    · next present =>
      cases h
      refine ⟨?_, fun p hp => ?_, fun p hp => ?_⟩
      · by_contra none
        cases sound <;> cases rumble <;> simp_all
      · obtain ⟨_, stored⟩ := storedPart_eq_some (hs.trans (congrArg some (Option.mem_def.1 hp)))
        exact SoundFields.sound_of_stored stored
      · obtain ⟨_, stored⟩ := storedPart_eq_some (hr.trans (congrArg some (Option.mem_def.1 hp)))
        exact RumbleFields.sound_of_stored stored
  · cases h

/-! ## What the operations make of the two -/

/-- Voices and cues together: what O55 states. -/
def State.PlaySound (s : State) : Prop := s.VoicesSound ∧ s.CuesSound

theorem playInvariant : Invariant State.PlaySound [.voices, .pendings, .cue] where
  sound _ hs := ⟨hs.voices, hs.cues⟩
  keeps {s t} same h := by
    have voices : t.voice.voices = s.voice.voices := same .voices (by decide)
    have pendings : t.voice.pendings = s.voice.pendings := same .pendings (by decide)
    have cue : t.cue = s.cue := same .cue (by decide)
    unfold State.PlaySound State.VoicesSound State.VoiceSound State.CuesSound
    rw [voices, pendings, cue]
    exact h

section
variable {s : State} (h : s.PlaySound)
include h

theorem playSound_writePending (v : Fin 8) {write : PendingVoice → PendingVoice}
    (hw : ∀ {r : VoiceRecord} {p : PendingVoice}, r = s.voice.voices.get v → p = s.voice.pendings.get v → r.SoundWith p →
      r.SoundWith (write p)) : (s.writePending v write).PlaySound := by
  refine ⟨fun w => ?_, h.2⟩
  change (s.voice.voices.get w).SoundWith ((s.voice.pendings.modify v write).get w)
  by_cases same : v = w
  · subst same
    rw [Tab.get_modify_self]
    exact hw rfl rfl (h.1 v)
  · rw [Tab.get_modify_ne _ same]
    exact h.1 w

theorem playSound_setCountdown (v : Fin 8) (c : Option Countdown) : (s.setCountdown v c).PlaySound := h

theorem playSound_actSound (c : Fin 8) (steal : Bool) {part : Option SoundPart} (sound : ∀ p ∈ part, p.Sound) :
    (s.actSound c steal part).1.PlaySound := by
  cases part with
  | none => exact h
  | some p =>
    unfold State.actSound
    dsimp only
    split
    · exact h
    · exact playSound_setCountdown (playSound_writePending h _ fun _ _ hp => hp.writeInto (sound p rfl)) _ _

theorem playSound_actParts (c : Fin 8) : (s.actParts c).1.PlaySound := by
  unfold State.actParts
  split
  · exact h
  · next d defined =>
    exact playInvariant.of_keeps (keeps_actRumble _ _) (playSound_actSound h _ _ (h.2.1 c d defined).2.1)

theorem playSound_actPending (p : PendingStart) : (actPending s p).PlaySound := by
  have acted := playSound_actParts h p.cue
  unfold actPending
  dsimp only
  split
  · exact playInvariant.of_keeps (keeps_answer _ _ _ _ _) acted
  · exact playInvariant.of_keeps (keeps_pendCue _ _) acted

theorem playSound_actStarts : s.actStarts.PlaySound := by
  unfold State.actStarts
  refine foldl_keeps (P := State.PlaySound) (fun _ p h => playSound_actPending h p) _ ?_
  exact ⟨h.1, h.2.1, Nat.zero_le _, h.2.2.2⟩

/-- A start that joins the list finds a place there (R142). -/
theorem playSound_joinStarts {p : PendingStart} (place : s.cue.starts.length < 4) :
    (s.withCue { s.cue with starts := s.cue.starts ++ [p] }).PlaySound := by
  refine ⟨h.1, h.2.1, ?_, h.2.2.2⟩
  change (s.cue.starts ++ [p]).length ≤ 4
  rw [List.length_append]
  exact place

theorem playSound_eventStart (cue entry : Nat) (quantize : Bool) : (s.eventStart cue entry quantize).PlaySound := by
  unfold State.eventStart
  split
  · exact playInvariant.of_keeps (keeps_pendCue _ _) h
  · split
    · exact playInvariant.of_keeps (keeps_pendCue _ _) h
    · split
      · split
        · next place => exact playSound_joinStarts h place
        · exact playInvariant.of_keeps (keeps_pendCue _ _) h
      · exact playSound_actPending h _

theorem playSound_finishCountdown (v : Fin 8) : (s.finishCountdown v).PlaySound := by
  unfold State.finishCountdown
  split
  · split
    · exact playSound_setCountdown (playSound_writePending h _ fun _ _ hp => hp.otherPending _ _ _) _ _
    · exact h
  · exact h

theorem playSound_finishMark : s.finishMark.PlaySound := by
  have keyOffs := foldl_keeps (P := State.PlaySound) (fun _ v h => playSound_finishCountdown h v) (numbers 8) h
  unfold State.finishMark
  dsimp only
  split
  · exact playSound_actStarts keyOffs
  · exact keyOffs

theorem playSound_cueMark : s.cueMark.PlaySound := by
  have finished := playSound_finishMark h
  unfold State.cueMark
  generalize s.finishMark = m at finished
  obtain ⟨voices, table, starts, count⟩ := finished
  refine ⟨voices, table, starts, ?_⟩
  change (if decide (m.cue.periodCount + 1 = 32) then 0 else m.cue.periodCount + 1) ≤ 31
  split
  · exact Nat.zero_le _
  · next more =>
    have : ¬m.cue.periodCount + 1 = 32 := fun eq => more (decide_eq_true eq)
    omega

/-- One voice at the voice engine's period mark. -/
theorem playSound_latchOne (v : Fin 8) : (latchOne s v).PlaySound := by
  have latched : (s.withVoice { s.voice with
      voices := s.voice.voices.set v ((s.voice.voices.get v).latch (s.voice.pendings.get v)).1.stepEnvelope.1
      pendings := s.voice.pendings.set v .empty }).PlaySound := by
    refine ⟨fun w => ?_, h.2⟩
    change ((s.voice.voices.set v _).get w).SoundWith ((s.voice.pendings.set v _).get w)
    rw [Tab.get_set, Tab.get_set]
    split
    · exact VoiceRecord.SoundWith.latch (h.1 v)
    · exact h.1 w
  unfold latchOne
  dsimp only
  split
  · refine playInvariant.of_keeps (keeps_joinVoiceEnd _ v) ?_
    split
    · exact latched
    · exact latched
  · split
    · exact latched
    · exact latched

theorem playSound_latchVoices : s.latchVoices.PlaySound :=
  foldl_keeps (P := State.PlaySound) (fun _ v h => playSound_latchOne h v) _ h

theorem playSound_advanceOne (v : Fin 8) : (advanceOne s v).PlaySound := by
  unfold advanceOne
  dsimp only
  split
  · next table =>
    have moved : (s.withVoice { s.voice with voices := s.voice.voices.set v (s.voice.voices.get v).advance.1 }).PlaySound := by
      refine ⟨fun w => ?_, h.2⟩
      change ((s.voice.voices.set v _).get w).SoundWith (s.voice.pendings.get w)
      rw [Tab.get_set]
      split
      · next same => exact same ▸ VoiceRecord.SoundWith.advance (h.1 v) table
      · exact h.1 w
    split
    · exact playInvariant.of_keeps (keeps_joinVoiceEnd _ v) moved
    · exact moved
  · exact h

theorem playSound_outputSample : s.outputSample.PlaySound := by
  have counted (s : State) (b : Mixer) (p : Prop) [Decidable p] :
      s.Keeps (if p then s.withMixer b else (s.withMixer b).countClip) [.mixer] :=
    (keeps_withMixer s b).ite ((keeps_withMixer s b).trans (keeps_countClip _))
  unfold State.outputSample
  refine playInvariant.of_keeps (keeps_withStream _ _) ?_
  exact foldl_keeps (P := State.PlaySound) (fun _ v h => playSound_advanceOne h v) _ (playInvariant.of_keeps (counted s _ _) h)

/-! ## The requests -/

theorem playSound_takeVoiceSet (voice : Nat) (f : VoiceSetFields) : (takeVoiceSet voice f s).state.PlaySound := by
  unfold takeVoiceSet
  split
  · exact h
  · split
    · next ok =>
      simp only [Bool.and_eq_true] at ok
      refine playSound_writePending h _ fun hr hp sound => sound.voiceSet ok.1.2 ?_
      rw [hr, hp]
      exact ok.2
    · exact h

theorem playSound_takeKeyRequest (key : Key) (voice : Nat) : (takeKeyRequest key voice s).state.PlaySound := by
  unfold takeKeyRequest
  split
  · exact h
  · exact playSound_writePending h _ fun _ _ hp => hp.otherPending _ _ _

theorem playSound_takeStreamOpen (voice start depth limit : Nat) : (takeStreamOpen voice start depth limit s).state.PlaySound := by
  unfold takeStreamOpen
  split
  · exact h
  · split
    · exact playSound_writePending (s := s.withStream _) h _ fun _ _ hp => hp.otherPending _ _ _
    · exact h

theorem playSound_takeStreamClose (voice : Nat) : (takeStreamClose voice s).state.PlaySound := by
  unfold takeStreamClose
  split
  · exact h
  · split
    · exact h
    · exact playSound_writePending (s := s.withStream _) h _ fun _ _ hp => hp.otherPending _ _ _

theorem playSound_takeCueDefine (f : CueFields) : (takeCueDefine f s).state.PlaySound := by
  unfold takeCueDefine
  split
  · next c d stored =>
    refine ⟨h.1, fun k e he => ?_, h.2.2⟩
    have entry : (s.cue.table.set c (some d)).get k = some e := he
    rw [Tab.get_set] at entry
    split at entry
    · cases entry
      exact CueFields.sound_of_stored stored
    · exact h.2.1 k e entry
  · exact h

theorem playSound_takeCueStart (tag : Byte) (cue : Nat) (quantize : Coded Bool) : (takeCueStart tag cue quantize s).state.PlaySound := by
  unfold takeCueStart
  dsimp only
  split
  · split
    · exact h
    · split
      · split
        · next place => exact playSound_joinStarts h place
        · exact h
      · exact playSound_actParts h _
  · exact h

theorem playSound_takeCueCancel (cue : Nat) : (takeCueCancel cue s).state.PlaySound := by
  unfold takeCueCancel
  split
  · exact h
  · split
    · exact h
    · next c _ _ p _ =>
      have left : (s.withCue { s.cue with starts := s.cue.starts.eraseP fun p => decide (p.cue = c) }).PlaySound :=
        ⟨h.1, h.2.1, (List.length_eraseP_le).trans h.2.2.1, h.2.2.2⟩
      unfold cancelled
      split
      · exact left
      · exact playInvariant.of_keeps (keeps_pendCue _ _) left

end

/-! ## The commands -/

theorem playSound_reset {s : State} (voice : s.voice = .reset) (cue : s.cue = .reset) : s.PlaySound := by
  unfold State.PlaySound State.VoicesSound State.CuesSound
  simp only [voiceSound_iff, voice, cue]
  refine ⟨fun v => ?_, fun c d defined => ?_, Nat.zero_le _, Nat.zero_le _⟩
  · change ((Tab.replicate 8 VoiceRecord.reset).get v).SoundWith ((Tab.replicate 8 PendingVoice.empty).get v)
    rw [Tab.get_replicate, Tab.get_replicate]
    exact VoiceRecord.soundWith_reset
  · have undefined : (Tab.replicate 8 (none : Option CueDefinition)).get c = some d := defined
    rw [Tab.get_replicate] at undefined
    cases undefined

/-- Every command keeps voices and cues in their ranges. -/
theorem playSound_kept (c : Instr) : KeptBy State.PlaySound c := by
  have inv := playInvariant
  have sound {s : State} := inv.sound s
  have start (s : State) (cue entry : Nat) (quantize : Bool) (h : s.PlaySound) : (s.eventStart cue entry quantize).PlaySound :=
    playSound_eventStart h cue entry quantize
  cases c
  case powerUp => exact kept_of_next (fun _ => rfl) fun _ _ => playSound_reset rfl rfl
  case cartridgeSupplyLoss => exact inv.of_core _ (fun _ => rfl) fun _ _ _ => playSound_reset rfl rfl
  case restart tag => exact inv.of_restart fun _ _ => playSound_reset rfl rfl
  case voiceSet tag voice f => exact inv.of_serve fun s hs _ => playSound_takeVoiceSet (sound hs) voice f
  case keyOn tag voice => exact inv.of_serve fun s hs _ => playSound_takeKeyRequest (sound hs) .on voice
  case keyOff tag voice => exact inv.of_serve fun s hs _ => playSound_takeKeyRequest (sound hs) .off voice
  case streamOpen tag voice first depth limit =>
    exact inv.of_serve fun s hs _ => playSound_takeStreamOpen (sound hs) voice first depth limit
  case streamClose tag voice => exact inv.of_serve fun s hs _ => playSound_takeStreamClose (sound hs) voice
  case voiceLatch =>
    exact inv.of_core State.latchVoices (fun _ => rfl) fun s hs _ => playSound_latchVoices (sound hs)
  case outputSample => exact inv.of_core _ (fun _ => rfl) fun s hs _ => playSound_outputSample (sound hs)
  case cueDefine tag f => exact inv.of_serve fun s hs _ => playSound_takeCueDefine (sound hs) f
  case cueStart tag cue quantize => exact inv.of_serve fun s hs _ => playSound_takeCueStart (sound hs) tag cue quantize
  case cueCancel tag cue => exact inv.of_serve fun s hs _ => playSound_takeCueCancel (sound hs) cue
  case cuePeriodMark => exact inv.of_core _ (fun _ => rfl) fun s hs _ => playSound_cueMark (sound hs)
  case keyOffCountdown voice =>
    refine inv.of_core _ (fun _ => rfl) fun s hs _ => ?_
    split
    · exact playSound_finishCountdown (sound hs) _
    · exact sound hs
  case measureMark =>
    refine inv.of_core State.measure (fun _ => rfl) fun s hs _ => ?_
    unfold State.measure
    split
    · exact playSound_finishMark (sound hs)
    · exact sound hs
  case secondTick => exact kept_of_next (fun _ => rfl) fun s hs => inv.secondTick rfl start (sound hs)
  case calendarSet tag f => exact inv.of_serve fun s hs _ => inv.takeCalendarSet rfl start (sound hs) f
  case gameDayStart tag first rollover cap =>
    exact inv.of_serve fun s hs _ => inv.takeGameDayStart rfl start (sound hs) first rollover cap
  case eventSet tag entry trigger cue quantize =>
    exact inv.of_serve fun s hs _ => inv.takeEventSet rfl start (sound hs) entry trigger cue quantize
  all_goals exact inv.untouched

/-- Settles O55: the records through the latch and the output sample, the cues through Cue Define, and the starts between them. -/
theorem voicesAndCuesStaySound : Obligations.VoicesAndCuesStaySound := by
  unfold Obligations.VoicesAndCuesStaySound
  intro s t hs h
  exact playInvariant.step playSound_kept hs h

end Sys2Proof.Machine
end

