-- ==== Sys2Proof/Proofs/EventInvariant.lean ====
section
/-! SUPPORT. What every step keeps of the event table: an entry is FIRED exactly while it is in the EVENTS set (R136). -/

namespace Sys2Proof.Machine

set_option Elab.async false

/-! ## Sets in rising order -/

theorem mem_numbers {n : Nat} (i : Fin n) : i ∈ numbers n := List.mem_ofFn.2 ⟨i, rfl⟩

theorem mem_insertMember {n : Nat} {v w : Fin n} {l : List (Fin n)} : w ∈ insertMember v l ↔ w = v ∨ w ∈ l := by
  induction l with
  | nil => simp [insertMember]
  | cons x l ih =>
    unfold insertMember
    split
    · simp
    · split
      · next same => simp [same]
      · simp only [List.mem_cons, ih]
        tauto

/-! ## What the operations make of an entry's state -/

theorem EventEntry.rescheduled_state (x : EventEntry) (after : Instant) : (x.rescheduled after).state = x.state := by
  unfold EventEntry.rescheduled
  split <;> rfl

theorem EventEntry.fired_state (x : EventEntry) (now : Instant) (late : Bool) : (x.fired now late).state = x.state :=
  EventEntry.rescheduled_state _ _

theorem EventEntry.released_ne_fired (x : EventEntry) (now : Instant) : (x.released now).state ≠ .fired := by
  unfold EventEntry.released
  dsimp only
  split
  · split
    · split
      · rw [EventEntry.rescheduled_state]
        nofun
      · nofun
    · nofun
  · nofun

theorem EventEntry.armedWith_state (x : EventEntry) (trigger : Trigger) (cue : Option Nat) (quantize : Bool) (now : Instant) :
    (x.armedWith trigger cue quantize now).state = .armed := EventEntry.rescheduled_state _ _

theorem EventEntry.afterBackwardSet_state (x : EventEntry) (now : Instant) : (x.afterBackwardSet now).state = x.state := by
  unfold EventEntry.afterBackwardSet
  split
  · rfl
  · exact EventEntry.rescheduled_state _ _

theorem State.entry_setEvent (s : State) (e f : Fin 16) (x : EventEntry) :
    (s.setEvent e x).entry f = if e = f then x else s.entry f := Tab.get_set _ _ _ _

/-- Only an ARMED entry is due. -/
theorem EventEntry.not_fired_of_due {x : EventEntry} {record : GameDayRecord} {now : Instant} (due : x.isDue record now = true) :
    x.state ≠ .fired := by
  obtain ⟨armed, _⟩ := Bool.and_eq_true_iff.1 due
  rw [of_decide_eq_true armed]
  nofun

/-! ## Agreement between the table and the set -/

/-- The core runs with its start-up work at this point, and the table agrees with the EVENTS set: an entry is FIRED exactly while it
is a member, EVENTS is enabled while it has members, and the frame in transmission releases only members (R136). -/
structure State.EventsAgree (s : State) (done : Bool) : Prop where
  powered : s.corePowered = true
  started : s.link.catchUpDone = done
  agree : ∀ e, (s.entry e).state = .fired ↔ e ∈ s.link.notices.events
  enabled : s.link.notices.events ≠ [] → maskEnables s.link.mask .events = true
  acting : ∀ e : Fin 16, e.val ∈ actingEntries s.link.tx → e ∈ s.link.notices.events

theorem announced_eq {s t : State} (h : s.Same t .announced) : t.link.catchUpDone = s.link.catchUpDone ∧
    t.link.mask = s.link.mask ∧ t.link.notices.events = s.link.notices.events ∧ actingEntries t.link.tx = actingEntries s.link.tx := by
  have h : t.link.announced = s.link.announced := h
  simpa only [Link.announced, Prod.mk.injEq] using h

theorem eventsInvariant : Invariant State.EventsSound [.power, .events, .announced] where
  sound _ hs := hs.events
  keeps {s t} same h := by
    have power : t.corePowered = s.corePowered := same .power (by decide)
    have events : t.backup.events = s.backup.events := same .events (by decide)
    obtain ⟨done, mask, members, acting⟩ := announced_eq (same .announced (by decide))
    unfold State.EventsSound State.entry
    rw [power, done, mask, members, acting, events]
    exact h

section
variable {s : State} {done : Bool}

/-- From the end of the start-up work on, the invariant is the agreement. -/
theorem State.EventsAgree.sound (h : s.EventsAgree true) : s.EventsSound :=
  ⟨fun unpowered => absurd (h.powered.symm.trans unpowered) nofun, fun early => absurd (h.started.symm.trans early) nofun,
    fun _ => h.agree, h.enabled, h.acting⟩

theorem State.EventsSound.agrees (h : s.EventsSound) (started : s.link.catchUpDone = true) : s.EventsAgree true := by
  obtain ⟨unpowered, _, agree, enabled, acting⟩ := h
  refine ⟨?_, started, agree started, enabled, acting⟩
  by_contra off
  exact absurd (started.symm.trans (unpowered (Bool.eq_false_iff.2 off))) nofun

theorem State.EventsAgree.of_keeps (h : s.EventsAgree done) {t : State} {touched : List Part} (keeps : s.Keeps t touched)
    (clear : clearOf [.power, .events, .announced] touched = true := by rfl) : t.EventsAgree done := by
  have same (p : Part) (hp : p ∈ [.power, .events, .announced]) : s.Same t p := keeps p (not_mem_of_clearOf clear hp)
  have events : t.backup.events = s.backup.events := same .events (by decide)
  obtain ⟨started, mask, members, acting⟩ := announced_eq (same .announced (by decide))
  refine ⟨(same .power (by decide) : t.corePowered = s.corePowered).trans h.powered, started.trans h.started, ?_, ?_, ?_⟩
  · unfold State.entry
    rw [events, members]
    exact h.agree
  · rw [mask, members]
    exact h.enabled
  · rw [acting, members]
    exact h.acting

variable (h : s.EventsAgree done)
include h

/-- An entry may be written over by one that is FIRED exactly when it is. -/
theorem State.EventsAgree.setEvent {e : Fin 16} {x : EventEntry} (same : x.state = .fired ↔ (s.entry e).state = .fired) :
    (s.setEvent e x).EventsAgree done := by
  refine ⟨h.powered, h.started, fun f => ?_, h.enabled, h.acting⟩
  rw [State.entry_setEvent]
  split
  · next eq => exact eq ▸ same.trans (h.agree e)
  · exact h.agree f

/-- An entry that is not FIRED reports its firing: it becomes FIRED and a member, or is released where EVENTS is disabled. -/
theorem State.EventsAgree.reportFiring {e : Fin 16} (notFired : (s.entry e).state ≠ .fired) : (s.reportFiring e).EventsAgree done := by
  unfold State.reportFiring
  split
  · next on =>
    have joined : ((s.setEvent e { s.entry e with state := .fired }).joinEvents e).link = { s.link with
        notices := { s.link.notices with events := insertMember e s.link.notices.events }, tx := markRewritten .events s.link.tx } :=
      Link.pend_enabled (l := s.link) on fun n => { n with events := insertMember e n.events }
    refine ⟨h.powered, ?_, fun f => ?_, fun _ => ?_, fun f hf => ?_⟩
    · rw [joined]
      exact h.started
    · rw [joined]
      change ((s.setEvent e { s.entry e with state := .fired }).entry f).state = .fired ↔ f ∈ insertMember e s.link.notices.events
      rw [State.entry_setEvent, mem_insertMember]
      split
      · next same => simp [same]
      · next other =>
        rw [h.agree f]
        exact ⟨.inr, fun hf => hf.resolve_left fun eq => other eq.symm⟩
    · rw [joined]
      exact on
    · rw [joined] at hf ⊢
      rw [actingEntries_markRewritten] at hf
      exact mem_insertMember.2 (.inr (h.acting f hf))
  · exact h.setEvent ⟨fun fired => absurd fired (EventEntry.released_ne_fired _ _), fun fired => absurd fired notFired⟩

theorem State.EventsAgree.fireLate {e : Fin 16} (notFired : (s.entry e).state ≠ .fired) (i : Instant) :
    (s.fireLate i e).EventsAgree done := by
  have same := EventEntry.fired_state (s.entry e) i true
  refine State.EventsAgree.reportFiring (h.setEvent (by rw [same])) ?_
  rw [State.entry_setEvent, if_pos rfl, same]
  exact notFired

theorem State.EventsAgree.fireOnTime {e : Fin 16} (notFired : (s.entry e).state ≠ .fired) (i : Instant) :
    (s.fireOnTime i e).EventsAgree done := by
  have same := EventEntry.fired_state (s.entry e) i false
  have written := h.setEvent (e := e) (x := (s.entry e).fired i false) (by rw [same])
  have entry : ((s.setEvent e ((s.entry e).fired i false)).entry e).state ≠ .fired := by
    rw [State.entry_setEvent, if_pos rfl, same]
    exact notFired
  unfold State.fireOnTime
  dsimp only
  split
  · next cue _ =>
    have started := keeps_eventStart (s.setEvent e ((s.entry e).fired i false)) cue e.val (s.entry e).quantize
    refine State.EventsAgree.reportFiring (written.of_keeps started) ?_
    have events : State.entry _ e = State.entry _ e := congrArg (fun t => t.get e) (started .events (by decide))
    rw [events]
    exact entry
  · exact State.EventsAgree.reportFiring written entry

theorem State.EventsAgree.judgeOnTime (i : Instant) (e : Fin 16) : (judgeOnTime i s e).EventsAgree done := by
  unfold Machine.judgeOnTime
  split
  · next due => exact h.fireOnTime (EventEntry.not_fired_of_due due) i
  · exact h

theorem State.EventsAgree.judgeLate (i : Instant) (e : Fin 16) : (judgeLate i s e).EventsAgree done := by
  unfold Machine.judgeLate
  split
  · next due => exact h.fireLate (EventEntry.not_fired_of_due due) i
  · exact h

theorem State.EventsAgree.sweepOnTime (i : Instant) : (s.sweepOnTime i).EventsAgree done :=
  foldl_keeps (P := fun s => s.EventsAgree done) (f := Machine.judgeOnTime i) (fun _ e h => h.judgeOnTime i e) _ h

theorem State.EventsAgree.sweepLate (i : Instant) : (s.sweepLate i).EventsAgree done :=
  foldl_keeps (P := fun s => s.EventsAgree done) (f := Machine.judgeLate i) (fun _ e h => h.judgeLate i e) _ h

theorem State.EventsAgree.catchUp (i : Instant) : (s.catchUp i).EventsAgree done := by
  unfold State.catchUp
  refine State.EventsAgree.sweepLate ?_ i
  split
  · exact h.of_keeps (keeps_creditDays s _)
  · exact h

theorem State.EventsAgree.secondEvent (i : Instant) : (s.secondEvent i).EventsAgree done := by
  unfold State.secondEvent
  dsimp only
  split
  · exact h.catchUp i
  · refine State.EventsAgree.sweepOnTime ?_ i
    split
    · exact h.of_keeps (keeps_cross s _)
    · exact h

theorem State.EventsAgree.clockSet (old : Instant) : (s.clockSet old).EventsAgree done := by
  unfold State.clockSet
  dsimp only
  refine State.EventsAgree.catchUp ?_ _
  split
  · refine ⟨h.powered, h.started, fun e => ?_, h.enabled, h.acting⟩
    unfold State.entry
    change ((s.backup.events.map fun x : EventEntry => x.afterBackwardSet s.now).get e).state = EntryState.fired ↔ _
    rw [Tab.get_map, EventEntry.afterBackwardSet_state]
    exact h.agree e
  · exact h

theorem State.EventsAgree.setClock (d : DateTime) : (s.setClock d).EventsAgree done :=
  State.EventsAgree.clockSet (h.of_keeps (keeps_withCalendar s _)) _

theorem State.EventsAgree.afterSecond (i : Option Instant) : (s.afterSecond i).EventsAgree done := by
  cases i with
  | none => exact h
  | some i => exact h.secondEvent i

theorem State.EventsAgree.setClockTicked (d : DateTime) : (s.setClockTicked d).EventsAgree done := by
  unfold State.setClockTicked
  split
  · exact State.EventsAgree.afterSecond (State.EventsAgree.setClock (h.of_keeps (keeps_countSecond s)) d) _
  · exact h.setClock d

theorem State.EventsAgree.secondTick : s.secondTick.EventsAgree done := by
  unfold State.secondTick
  split
  · exact State.EventsAgree.afterSecond (h.of_keeps (keeps_countSecond s)) _
  · exact h

/-! ## The requests -/

theorem State.EventsAgree.takeCalendarSet (f : CalendarSetFields) : (takeCalendarSet f s).state.EventsAgree done := by
  have unset : (if f.ticked then s.secondTick else s).EventsAgree done := by
    split
    · exact h.secondTick
    · exact h
  unfold Machine.takeCalendarSet
  dsimp only
  split
  · exact unset
  · split
    · exact unset
    · rw [accept_state]
      split
      · exact h.setClockTicked _
      · exact h.setClock _

theorem State.EventsAgree.takeGameDayStart (start rollover cap : Nat) :
    (takeGameDayStart start rollover cap s).state.EventsAgree done := by
  unfold Machine.takeGameDayStart
  dsimp only
  split
  · exact h
  split
  · exact h
  split
  · exact h
  · rw [accept_state]
    refine State.EventsAgree.sweepOnTime (State.EventsAgree.of_keeps ?_ (keeps_pendGameDayOf _ _ _ _)) _
    exact h.of_keeps (keeps_writeRecord s _)

theorem State.EventsAgree.takeEventSet (entry : Nat) (trigger : TriggerFields) (cue : Option Nat) (quantize : Coded Bool) :
    (takeEventSet entry trigger cue quantize s).state.EventsAgree done := by
  unfold Machine.takeEventSet
  dsimp only
  split
  · split
    · split
      · exact h
      next notFired =>
      split
      · exact h
      split
      · exact h
      · rw [accept_state]
        refine State.EventsAgree.judgeOnTime (h.setEvent ?_) _ _
        rw [EventEntry.armedWith_state]
        exact ⟨nofun, fun fired => absurd fired notFired⟩
    · exact h
  · exact h

theorem State.EventsAgree.clearEntry (e : Fin 16) : (s.clearEntry e).EventsAgree done := by
  have left (f : Fin 16) : f ∈ s.link.notices.events.filter (· != e) ↔ f ∈ s.link.notices.events ∧ f ≠ e := by
    rw [List.mem_filter, bne_iff_ne]
  refine ⟨h.powered, h.started, fun f => ?_, fun members => h.enabled ?_, fun f hf => ?_⟩
  · change ((s.setEvent e .freed).entry f).state = .fired ↔ f ∈ s.link.notices.events.filter (· != e)
    rw [left, State.entry_setEvent]
    split
    · next same => exact ⟨nofun, fun hf => absurd same.symm hf.2⟩
    · next other => exact (h.agree f).trans ⟨fun hf => ⟨hf, fun eq => other eq.symm⟩, And.left⟩
  · intro none
    refine members ?_
    change s.link.notices.events.filter (· != e) = []
    rw [none]
    rfl
  · obtain ⟨carried, other⟩ := mem_actingEntries_withoutActing.1 hf
    exact (left f).2 ⟨h.acting f carried, fun eq => other (congrArg Fin.val eq)⟩

theorem State.EventsAgree.takeEventClear (entry : Nat) : (takeEventClear entry s).state.EventsAgree done := by
  unfold Machine.takeEventClear
  split
  · exact h
  split
  · exact h
  split
  · exact h
  · exact h.clearEntry _

end

/-! ## Entries released one after the other -/

/-- Work that frees some entries and changes no other state frees all that it comes to. -/
theorem fired_foldl {f : State → Fin 16 → State} {freed : Fin 16 → Prop}
    (h : ∀ s x e, ((f s x).entry e).state = .fired ↔ (s.entry e).state = .fired ∧ ¬(x = e ∧ freed e)) :
    ∀ (l : List (Fin 16)) (s : State) (e : Fin 16),
      ((l.foldl f s).entry e).state = .fired ↔ (s.entry e).state = .fired ∧ ¬(e ∈ l ∧ freed e)
  | [], s, e => by simp
  | x :: l, s, e => by
    rw [List.foldl_cons, fired_foldl h l, h s x e]
    simp only [List.mem_cons, eq_comm (a := x)]
    tauto

theorem fired_releaseEntry (s : State) (x e : Fin 16) :
    ((s.releaseEntry x).entry e).state = .fired ↔ (s.entry e).state = .fired ∧ ¬(x = e ∧ True) := by
  unfold State.releaseEntry
  rw [State.entry_setEvent]
  split
  · next same => simp [same, EventEntry.released_ne_fired]
  · next other => simp [other]

theorem fired_releaseDelivered (acting : List Nat) (s : State) (x e : Fin 16) :
    ((releaseDelivered acting s x).entry e).state = .fired ↔ (s.entry e).state = .fired ∧ ¬(x = e ∧ e.val ∈ acting) := by
  unfold releaseDelivered
  split
  · next freed =>
    rw [fired_releaseEntry]
    have carried : x.val ∈ acting := by simpa using freed.1
    constructor
    · exact fun ⟨fired, other⟩ => ⟨fired, fun both => other ⟨both.1, trivial⟩⟩
    · exact fun ⟨fired, other⟩ => ⟨fired, fun both => other ⟨both.1, both.1 ▸ carried⟩⟩
  · next kept =>
    refine ⟨fun fired => ⟨fired, ?_⟩, And.left⟩
    rintro ⟨rfl, carried⟩
    exact kept ⟨by simpa using carried, fired⟩

/-! ## The mask -/

theorem remove_events (n : NoticeSet) (k : NoticeKind) : (n.remove k).events = if k = .events then [] else n.events := by
  cases k <;> rfl

/-- A mask leaves the EVENTS set when it enables EVENTS, and empties it when it does not. -/
theorem masked_events (n : NoticeSet) (mask : Word16) :
    (n.masked mask).events = if maskEnables mask .events then n.events else [] := by
  have fold : ∀ (l : List NoticeKind) (n : NoticeSet),
      (l.foldl (fun n k => if maskEnables mask k then n else n.remove k) n).events =
        if .events ∈ l ∧ maskEnables mask .events = false then [] else n.events := by
    intro l
    induction l with
    | nil => intro n; simp
    | cons k l ih =>
      intro n
      rw [List.foldl_cons, ih]
      by_cases same : k = .events
      · subst same
        cases on : maskEnables mask .events <;> simp [remove_events]
      · have head : (if maskEnables mask k then n else n.remove k).events = n.events := by
          split
          · rfl
          · rw [remove_events, if_neg same]
        rw [head]
        simp only [List.mem_cons, Ne.symm same, false_or]
  have all : NoticeKind.events ∈ NoticeKind.all := by decide
  rw [NoticeSet.masked, fold]
  cases maskEnables mask .events <;> simp [all]

theorem actingEntries_markDisabled (mask : Word16) (tx : Option TxFrame) :
    actingEntries (markDisabled mask tx) = if maskEnables mask .events then actingEntries tx else [] := by
  match tx with
  | none => split <;> rfl
  | some ⟨.reply _, _⟩ => split <;> rfl
  | some ⟨.notice ⟨seq, content, acting, live, rewritten⟩, sending⟩ =>
    unfold markDisabled
    dsimp only
    cases content
    case events reports =>
      change actingEntries (some ⟨.notice (if maskEnables mask .events then _ else _), sending⟩) = _
      split
      · rfl
      · rfl
    all_goals cases live <;> (split <;> split <;> rfl)

/-- Notice Mask: with EVENTS disabled the set is empty and its entries are released (R136, R174). -/
theorem State.EventsAgree.setMask {s : State} {done : Bool} (h : s.EventsAgree done) (mask : Word16) :
    (s.setMask mask).EventsAgree done := by
  have masked := masked_events s.link.notices mask
  have carried := actingEntries_markDisabled mask s.link.tx
  unfold State.setMask
  cases on : maskEnables mask .events with
  | true =>
    rw [on, if_pos rfl] at masked carried
    refine ⟨h.powered, h.started, fun e => ?_, fun _ => on, fun e he => ?_⟩
    · change (s.entry e).state = .fired ↔ e ∈ (s.link.notices.masked mask).events
      rw [masked]
      exact h.agree e
    · change e ∈ (s.link.notices.masked mask).events
      rw [masked]
      exact h.acting e (carried ▸ he)
  | false =>
    rw [on, if_neg Bool.false_ne_true] at masked carried
    have keeps := State.Keeps.foldl (fun s e => keeps_releaseEntry s e) s.link.notices.events
      (s.withLink { s.link with mask := mask, notices := s.link.notices.masked mask, tx := markDisabled mask s.link.tx })
    obtain ⟨done', mask', members', acting'⟩ := announced_eq (keeps .announced (by decide))
    have members : (s.withLink { s.link with
        mask := mask, notices := s.link.notices.masked mask, tx := markDisabled mask s.link.tx }).link.notices.events = [] := masked
    simp only [Bool.false_eq_true, if_false]
    refine ⟨(keeps .power (by decide)).trans h.powered, done'.trans h.started, fun e => ?_, fun some => ?_, fun e he => ?_⟩
    · rw [members', members, fired_foldl (freed := fun _ => True) fired_releaseEntry]
      have agree := h.agree e
      simp only [List.not_mem_nil, iff_false, and_true, not_and, not_not]
      exact agree.1
    · exact absurd (members'.trans members) some
    · rw [acting'] at he
      exact absurd (carried ▸ he) List.not_mem_nil

/-! ## Frames -/

/-- A frame that starts carries no entry beside the members of the set. -/
theorem actingEntries_firstNotice {s : State} {c : NoticeContent} (h : s.firstNotice = some c) (seq : Byte) {e : Nat}
    (he : e ∈ actingEntries (some ⟨.notice ⟨seq, c, c.members, true, false⟩, true⟩)) :
    ∃ f ∈ s.link.notices.events, f.val = e := by
  obtain ⟨k, _, content⟩ := List.exists_of_findSome?_eq_some h
  cases c
  case events reports =>
    have carried : reports = s.link.notices.events.map s.eventReport := by
      cases k
      all_goals simp only [State.noticeContent, Option.map_eq_some_iff, reduceCtorEq, and_false, exists_false] at content
      all_goals split at content
      all_goals cases content
      rfl
    subst carried
    have members : e ∈ (s.link.notices.events.map s.eventReport).map fun r => r.entry.val := he
    simpa [State.eventReport] using members
  all_goals cases he

theorem State.EventsSound.startFrame {s : State} (h : s.EventsSound) : s.startFrame.EventsSound := by
  obtain ⟨unpowered, early, agree, enabled, acting⟩ := h
  have sends (l : Link) (done : l.catchUpDone = s.link.catchUpDone) (mask : l.mask = s.link.mask)
      (members : l.notices.events = s.link.notices.events)
      (carried : ∀ e : Fin 16, e.val ∈ actingEntries l.tx → e ∈ s.link.notices.events) : (s.withLink l).EventsSound := by
    refine ⟨?_, ?_, ?_, ?_, ?_⟩
    · exact fun off => done.trans (unpowered off)
    · intro off
      rw [State.withLink_link, mask, members]
      exact early (done ▸ off)
    · intro on e
      rw [State.withLink_link, members]
      exact agree (done ▸ on) e
    · rw [State.withLink_link, mask, members]
      exact enabled
    · intro e he
      rw [State.withLink_link, members]
      exact carried e he
  unfold State.startFrame
  split
  · next t ht =>
    split
    · exact ⟨unpowered, early, agree, enabled, acting⟩
    · refine sends _ rfl rfl rfl fun e he => acting e ?_
      rw [ht]
      have same : actingEntries (some ⟨t.content, true⟩) = actingEntries (some t) := by
        obtain ⟨content, sending⟩ := t
        cases content <;> rfl
      rw [← same]
      exact he
  · split
    · exact sends _ rfl rfl rfl fun e he => absurd he List.not_mem_nil
    · split
      · next c first =>
        refine sends _ rfl rfl rfl fun e he => ?_
        obtain ⟨f, hf, same⟩ := actingEntries_firstNotice first _ he
        exact Fin.ext same ▸ hf
      · next idle => exact sends _ rfl rfl rfl acting

theorem mem_withoutMembers {n : Nat} {acting : List Nat} {members : List (Fin n)} {e : Fin n} :
    e ∈ withoutMembers acting members ↔ e ∈ members ∧ e.val ∉ acting := by
  simp [withoutMembers]

/-- The set after a frame: without the members that the frame carried (R174). -/
theorem delivered_events (n : NoticeSet) (f : NoticeFrame) :
    (n.delivered f).events = withoutMembers (actingEntries (some ⟨.notice f, true⟩)) n.events := by
  have none : withoutMembers [] n.events = n.events := by simp [withoutMembers]
  obtain ⟨seq, content, acting, live, rewritten⟩ := f
  cases live with
  | false => exact none.symm
  | true =>
    unfold NoticeSet.delivered
    simp only [Bool.true_eq_false, if_false]
    cases content
    case events reports => rfl
    case stream voices => exact none.symm
    case voiceEnd voices => exact none.symm
    all_goals cases rewritten <;> exact none.symm

/-- A frame's completion: what it carried leaves the set and is released (R136). -/
theorem State.EventsSound.completeNotice {s : State} (h : s.EventsSound) {f : NoticeFrame} {sending : Bool}
    (tx : s.link.tx = some ⟨.notice f, sending⟩) : (s.completeNotice f).EventsSound := by
  obtain ⟨unpowered, early, agree, enabled, acting⟩ := h
  have carried : actingEntries (some ⟨.notice f, true⟩) = actingEntries s.link.tx := by rw [tx]; rfl
  have members := delivered_events s.link.notices f
  have keeps : (s.withLink { s.link with notices := s.link.notices.delivered f, tx := none, out := [] }).Keeps
      (s.completeNotice f) [.events] := by
    unfold State.completeNotice
    dsimp only
    split
    · exact State.Keeps.foldl (f := releaseDelivered f.acting) (fun s e => (keeps_releaseEntry s e).ite (.refl s _)) _ _
    · exact .refl _ _
  have released (e : Fin 16) : ((s.completeNotice f).entry e).state = .fired ↔
      (s.entry e).state = .fired ∧ e.val ∉ actingEntries (some ⟨.notice f, true⟩) := by
    obtain ⟨seq, content, acting, live, rewritten⟩ := f
    cases live with
    | false => exact ⟨fun fired => ⟨fired, List.not_mem_nil⟩, And.left⟩
    | true =>
      cases content
      case events reports =>
        have fold := fired_foldl (freed := fun e => e.val ∈ acting) (fired_releaseDelivered acting) (numbers 16)
          (s.withLink { s.link with notices := s.link.notices.delivered ⟨seq, .events reports, acting, true, rewritten⟩
                                    tx := none, out := [] }) e
        refine fold.trans ?_
        simp only [mem_numbers, true_and]
        exact Iff.rfl
      all_goals exact ⟨fun fired => ⟨fired, List.not_mem_nil⟩, And.left⟩
  obtain ⟨done', mask', members', acting'⟩ := announced_eq (keeps .announced (by decide))
  have set : (s.completeNotice f).link.notices.events =
      withoutMembers (actingEntries (some ⟨.notice f, true⟩)) s.link.notices.events := members'.trans members
  refine ⟨fun off => ?_, fun off => ?_, fun on e => ?_, fun some => ?_, fun e he => ?_⟩
  · have power : (s.completeNotice f).corePowered = s.corePowered := keeps .power (by decide)
    exact done'.trans (unpowered (power ▸ off))
  · obtain ⟨on, none⟩ := early (done' ▸ off)
    rw [set, none, mask']
    exact ⟨on, rfl⟩
  · rw [released, set, mem_withoutMembers, agree (done' ▸ on) e]
  · rw [mask']
    refine enabled fun none => some ?_
    rw [set, none]
    rfl
  · rw [acting'] at he
    exact absurd he List.not_mem_nil

theorem State.EventsSound.completeFrame {s : State} (h : s.EventsSound) : s.completeFrame.EventsSound := by
  unfold State.completeFrame
  split
  · next r _ =>
    obtain ⟨unpowered, early, agree, enabled, _⟩ := h
    have link : ∃ inbound replies waiting, s.link.completeReply =
        { s.link with inbound := inbound, replies := replies, waiting := waiting, tx := none, out := [] } := by
      unfold Link.completeReply
      dsimp only
      split
      · exact ⟨_, _, _, rfl⟩
      · exact ⟨_, _, _, rfl⟩
    obtain ⟨_, _, _, link⟩ := link
    rw [link]
    exact ⟨unpowered, early, agree, enabled, fun e he => absurd he List.not_mem_nil⟩
  · next f tx => exact h.completeNotice tx
  · exact h

/-! ## Start-up -/

/-- Entries found FIRED join the set again (R136). -/
theorem rejoin_foldl (l : List (Fin 16)) : ∀ s : State, maskEnables s.link.mask .events = true →
    (l.foldl rejoin s).link.mask = s.link.mask ∧ (l.foldl rejoin s).link.catchUpDone = s.link.catchUpDone ∧
    actingEntries (l.foldl rejoin s).link.tx = actingEntries s.link.tx ∧
    ∀ e, e ∈ (l.foldl rejoin s).link.notices.events ↔ e ∈ s.link.notices.events ∨ e ∈ l ∧ (s.entry e).state = .fired := by
  induction l with
  | nil => exact fun s _ => ⟨rfl, rfl, rfl, fun e => by simp⟩
  | cons x l ih =>
    intro s on
    rw [List.foldl_cons]
    by_cases fired : (s.entry x).state = .fired
    · have joined : rejoin s x = s.withLink { s.link with
          notices := { s.link.notices with events := insertMember x s.link.notices.events }
          tx := markRewritten .events s.link.tx } := by
        rw [rejoin, if_pos fired]
        exact congrArg s.withLink (Link.pend_enabled (l := s.link) on fun n => { n with events := insertMember x n.events })
      rw [joined]
      obtain ⟨mask, done, acting, members⟩ := ih (s.withLink { s.link with
          notices := { s.link.notices with events := insertMember x s.link.notices.events }
          tx := markRewritten .events s.link.tx }) on
      refine ⟨mask, done, acting.trans (actingEntries_markRewritten _ _), fun e => (members e).trans ?_⟩
      change e ∈ insertMember x s.link.notices.events ∨ e ∈ l ∧ (s.entry e).state = .fired ↔ _
      rw [mem_insertMember, List.mem_cons]
      by_cases same : e = x
      · subst same
        simp [fired]
      · simp [same]
    · have kept : rejoin s x = s := if_neg fired
      rw [kept]
      obtain ⟨mask, done, acting, members⟩ := ih s on
      refine ⟨mask, done, acting, fun e => (members e).trans ?_⟩
      rw [List.mem_cons]
      by_cases same : e = x
      · subst same
        simp [fired]
      · simp [same]

/-- With the set empty before, the rejoining makes the table and the set agree. -/
theorem rejoin_agrees {s : State} (powered : s.corePowered = true) (due : s.link.catchUpDone = false)
    (on : maskEnables s.link.mask .events = true) (none : s.link.notices.events = [])
    (acting : ∀ e : Fin 16, e.val ∉ actingEntries s.link.tx) : ((numbers 16).foldl rejoin s).EventsAgree false := by
  obtain ⟨mask, done, carried, members⟩ := rejoin_foldl (numbers 16) s on
  have rejoined : s.Keeps ((numbers 16).foldl rejoin s) [.announced] :=
    State.Keeps.foldl (fun s e => (keeps_joinEvents s e).ite (.refl s _)) _ _
  have power : ((numbers 16).foldl rejoin s).corePowered = s.corePowered := rejoined .power (by decide)
  have events : ((numbers 16).foldl rejoin s).backup.events = s.backup.events := rejoined .events (by decide)
  refine ⟨power.trans powered, done.trans due, fun e => ?_, fun _ => mask.symm ▸ on, fun e he => ?_⟩
  · unfold State.entry
    rw [events, members e, none]
    simp [mem_numbers, State.entry]
  · rw [carried] at he
    exact absurd he (acting e)

theorem State.EventsSound.startUp {s : State} (h : s.EventsSound) (powered : s.corePowered = true)
    (due : s.link.catchUpDone = false) : s.startUp.EventsSound := by
  obtain ⟨_, early, _, _, acting⟩ := h
  obtain ⟨on, none⟩ := early due
  have checked := keeps_checkRecord s
  have power : s.checkRecord.corePowered = s.corePowered := checked .power (by decide)
  obtain ⟨done, mask, members, carried⟩ := announced_eq (checked .announced (by decide))
  have joined : ((numbers 16).foldl rejoin s.checkRecord).EventsAgree false := by
    refine rejoin_agrees (power.trans powered) (done.trans due) (mask.symm ▸ on) (members.trans none) fun e he => ?_
    have member := acting e (carried ▸ he)
    rw [none] at member
    exact absurd member List.not_mem_nil
  have ended (s' : State) (h : s'.EventsAgree false) : (s'.withLink { s'.link with catchUpDone := true }).EventsAgree true :=
    ⟨h.powered, rfl, h.agree, h.enabled, h.acting⟩
  unfold State.startUp
  generalize (numbers 16).foldl rejoin s.checkRecord = s1 at joined
  refine (ended _ (State.EventsAgree.sweepLate ?_ _)).sound
  split
  · exact joined.of_keeps (keeps_creditDays _ _)
  · exact joined

/-! ## The commands -/

theorem eventsSound_early {s : State} (done : s.link.catchUpDone = false) (mask : s.link.mask = 0x00FF)
    (members : s.link.notices.events = []) (tx : s.link.tx = none) : s.EventsSound := by
  refine ⟨fun _ => done, fun _ => ⟨by rw [mask]; decide, members⟩, fun on => absurd (done.symm.trans on) nofun,
    fun some => absurd members some, fun e he => ?_⟩
  rw [tx] at he
  exact absurd he List.not_mem_nil

/-- READY comes only after the start-up catch-up (R175). -/
theorem State.Serves.catchUpDone {s : State} {c : Instr} (h : s.Serves c) : s.link.catchUpDone = true := by
  have ready := h.2.1
  unfold Link.readiness at ready
  split at ready
  · next flags =>
    simp only [Bool.and_eq_true] at flags
    exact flags.2
  · cases ready

/-- Without a second event a tick touches the calendar alone. -/
theorem State.EventsSound.secondTick {s : State} (h : s.EventsSound) : s.secondTick.EventsSound := by
  cases started : s.link.catchUpDone with
  | true => exact (h.agrees started).secondTick.sound
  | false =>
    unfold State.secondTick
    split
    · have none : s.countSecond.2 = none := by simp [State.countSecond, started]
      rw [none]
      exact eventsInvariant.of_keeps (keeps_countSecond s) h
    · exact h

/-- Every command keeps the event table and the EVENTS set in agreement. -/
theorem eventsSound_kept (c : Instr) : KeptBy State.EventsSound c := by
  have inv := eventsInvariant
  have agrees {s : State} {c : Instr} (hs : s.Sound) (serves : s.Serves c) : s.EventsAgree true :=
    hs.events.agrees serves.catchUpDone
  cases c
  case powerUp => exact kept_of_next (fun _ => rfl) fun _ _ => eventsSound_early rfl rfl rfl rfl
  case cartridgeSupplyLoss => exact inv.of_core _ (fun _ => rfl) fun _ _ _ => eventsSound_early rfl rfl rfl rfl
  case restart tag => exact inv.of_restart fun _ _ => eventsSound_early rfl rfl rfl rfl
  case backupDomainPowerLoss =>
    refine kept_of_next (fun _ => rfl) fun s hs => ?_
    split
    · exact hs.events
    · next off =>
      obtain ⟨unpowered, early, _, enabled, acting⟩ := hs.events
      have late := unpowered (Bool.eq_false_iff.2 off)
      exact ⟨unpowered, early, fun on => absurd (late.symm.trans on) nofun, enabled, acting⟩
  case startUpCatchUp =>
    refine inv.of_core _ (fun _ => rfl) fun s hs powered => ?_
    split
    · exact hs.events
    · next due => exact hs.events.startUp powered (Bool.eq_false_iff.2 due)
  case frameStart =>
    refine inv.of_core _ (fun _ => rfl) fun s hs _ => ?_
    split
    · exact hs.events.startFrame
    · exact hs.events
  case frameTransmitComplete =>
    refine inv.of_core _ (fun _ => rfl) fun s hs _ => ?_
    split
    · exact hs.events.completeFrame
    · exact hs.events
  case noticeMask tag mask =>
    refine inv.of_serve (owner := takeNoticeMask mask) fun s hs serves => ?_
    unfold takeNoticeMask
    split
    · exact ((agrees hs serves).setMask mask).sound
    · exact hs.events
  case secondTick => exact kept_of_next (fun _ => rfl) fun s hs => hs.events.secondTick
  case calendarSet tag f => exact inv.of_serve fun s hs serves => ((agrees hs serves).takeCalendarSet f).sound
  case gameDayStart tag first rollover cap =>
    exact inv.of_serve fun s hs serves => ((agrees hs serves).takeGameDayStart first rollover cap).sound
  case eventSet tag entry trigger cue quantize =>
    exact inv.of_serve fun s hs serves => ((agrees hs serves).takeEventSet entry trigger cue quantize).sound
  case eventClear tag entry => exact inv.of_serve fun s hs serves => ((agrees hs serves).takeEventClear entry).sound
  all_goals exact inv.untouched

/-- Settles O58: the table and the set agree through every firing, release, frame and mask, and through the start-up work. -/
theorem eventsStaySound : Obligations.EventsStaySound := by
  unfold Obligations.EventsStaySound
  intro s t hs h
  exact eventsInvariant.step eventsSound_kept hs h

end Sys2Proof.Machine
end

