-- ==== Sys2Proof/Proofs/GrantInvariant.lean ====
section
/-! SUPPORT. What every step keeps of the two blocks that the grant joins: the governor's record is the one its inputs give, and the
mixer's override, settings and output lie in their ranges (R18 to R24, R75, R84). -/

namespace Sys2Proof.Machine

set_option Elab.async false

/-! ## The governor -/

/-- The governor as `State.GovernorSound` wants it, for a supply state and a busy flag. -/
def Governor.SoundFor (g : Governor) (supply : SupplyState) (busy : Bool) : Prop :=
  g.record = g.form ∧ g.supply = supply ∧ g.busy = busy ∧ g.volume ≤ 255 ∧ (60 ≤ g.budget ∧ g.budget ≤ 400) ∧
  (20 ≤ g.imax ∧ g.imax ≤ 400)

section
variable {g : Governor} {supply : SupplyState} {busy : Bool} (h : g.SoundFor supply busy)
include h

theorem Governor.SoundFor.takeSupply (supply' : SupplyState) : (g.takeSupply supply').SoundFor supply' busy := by
  obtain ⟨_, _, hbusy, volume, budget, imax⟩ := h
  exact ⟨rfl, rfl, hbusy, volume, budget, imax⟩

theorem Governor.SoundFor.takeVolume {volume : Nat} (le : volume ≤ 255) : (g.takeVolume volume).SoundFor supply busy := by
  obtain ⟨_, hsupply, hbusy, _, budget, imax⟩ := h
  exact ⟨rfl, hsupply, hbusy, le, budget, imax⟩

theorem Governor.SoundFor.takeBusy (busy' : Bool) : (g.takeBusy busy').SoundFor supply busy' := by
  obtain ⟨_, hsupply, _, volume, budget, imax⟩ := h
  exact ⟨rfl, hsupply, rfl, volume, budget, imax⟩

/-- Budget Set clamps both settings (R28). -/
theorem Governor.SoundFor.takeBudget (budget imax : Nat) :
    (g.takeBudget (clampBudget budget) (clampImax imax)).SoundFor supply busy := by
  obtain ⟨_, hsupply, hbusy, volume, _, _⟩ := h
  refine ⟨rfl, hsupply, hbusy, volume, ?_, ?_⟩
  · change 60 ≤ clampBudget budget ∧ clampBudget budget ≤ 400
    unfold clampBudget
    omega
  · change 20 ≤ clampImax imax ∧ clampImax imax ≤ 400
    unfold clampImax
    omega

/-- The master-volume ceiling in the record is one of the table's three. -/
theorem Governor.SoundFor.mceil : g.record.mceil = 0 ∨ g.record.mceil = 160 ∨ g.record.mceil = 255 := by
  obtain ⟨formed, _⟩ := h
  rw [formed]
  change masterCeiling g.supply = 0 ∨ masterCeiling g.supply = 160 ∨ masterCeiling g.supply = 255
  cases g.supply with
  | normal => exact .inr (.inr rfl)
  | low => exact .inr (.inl rfl)
  | critical => exact .inl rfl

end

/-! ## The mixer -/

/-- The mixer as `State.MixerSound` wants it, for a supply state. -/
def Mixer.SoundFor (m : Mixer) (supply : SupplyState) : Prop :=
  (m.override = .held ↔ supply = .critical) ∧ m.code ≤ 1023 ∧
  (m.latchedMceil = 0 ∨ m.latchedMceil = 160 ∨ m.latchedMceil = 255) ∧
  m.inForce.master ≤ 255 ∧ m.inForce.amplitude ≤ 511 ∧
  m.pending.master.all (fun m => decide (m ≤ 255)) = true ∧
  m.pending.amplitude.all (fun a => decide (a ≤ 511)) = true ∧ ∀ v, (m.channels.get v).Sound

theorem Option.getD_le_of_all {a : Option Nat} {n d : Nat} (ha : a.all (fun x => decide (x ≤ n)) = true) (hd : d ≤ n) :
    a.getD d ≤ n := by
  cases a with
  | none => exact hd
  | some x => exact of_decide_eq_true ha

theorem Option.or_all {a b : Option Nat} {p : Nat → Bool} (ha : a.all p = true) (hb : b.all p = true) :
    (a.or b).all p = true := by
  cases a with
  | none => exact hb
  | some x => exact ha

theorem saturate_inRange (y : Int) : -512 ≤ saturate y ∧ saturate y ≤ 511 := by
  unfold saturate
  omega

/-- A contribution of a sounding voice lies in its range (R80). -/
theorem liveContribution_inRange {s : Int} {volume level : Nat} (hs : -128 ≤ s ∧ s ≤ 127) (hv : volume ≤ 127)
    (hl : level ≤ 255) : -16193 ≤ liveContribution s volume level ∧ liveContribution s volume level ≤ 16065 := by
  have product : volume * level ≤ 127 * 255 := Nat.mul_le_mul hv hl
  have low : -128 * (127 * 255 : Int) ≤ s * (volume * level : Nat) := by
    calc -128 * (127 * 255 : Int) ≤ -128 * ((volume * level : Nat) : Int) := by omega
      _ ≤ s * ((volume * level : Nat) : Int) := Int.mul_le_mul_of_nonneg_right hs.1 (by omega)
  have high : s * (volume * level : Nat) ≤ 127 * (127 * 255 : Int) := by
    calc s * ((volume * level : Nat) : Int) ≤ 127 * ((volume * level : Nat) : Int) :=
          Int.mul_le_mul_of_nonneg_right hs.2 (by omega)
      _ ≤ 127 * (127 * 255 : Int) := by omega
  unfold liveContribution
  rw [Int.mul_assoc, ← Int.natCast_mul]
  omega

theorem signed_inRange (b : Byte) : -128 ≤ signed b ∧ signed b ≤ 127 := by
  unfold signed
  have := b.toInt_lt
  have := b.le_toInt
  omega

/-- What a sound voice gives the mixer lies in the range of a contribution. -/
theorem State.VoicesSound.source_inRange {s : State} (h : s.VoicesSound) {v : Fin 8} {x : Int} {volume level : Nat}
    (hx : s.voiceSource v = some (x, volume, level)) :
    -16193 ≤ liveContribution x volume level ∧ liveContribution x volume level ≤ 16065 := by
  obtain ⟨_, _, ⟨hv, _, _, _, hl, _⟩, _⟩ := h v
  unfold State.voiceSource at hx
  dsimp only at hx
  split at hx
  · cases hx
  · injection hx with hx
    injection hx with x' rest
    injection rest with volume' level'
    subst x' volume' level'
    exact liveContribution_inRange (signed_inRange _) hv hl
  · injection hx with hx
    injection hx with x' rest
    injection rest with volume' level'
    subst x' volume' level'
    exact liveContribution_inRange (signed_inRange _) hv (Nat.le_refl _)

/-- One channel's sample keeps what it holds in the range. -/
theorem MixChannel.Sound.sample {c : MixChannel} (h : c.Sound) (sub : Substitution) {source : Option (Int × Nat × Nat)}
    (hs : ∀ x volume level, source = some (x, volume, level) →
      -16193 ≤ liveContribution x volume level ∧ liveContribution x volume level ≤ 16065) : (c.sample sub source).1.Sound := by
  obtain ⟨last, held⟩ := h
  have holds : -16193 ≤ (if sub = .hold ∧ c.lastSub ≠ .hold then c.last else c.held) ∧
      (if sub = .hold ∧ c.lastSub ≠ .hold then c.last else c.held) ≤ 16065 := by
    split
    · exact last
    · exact held
  refine ⟨?_, holds⟩
  change -16193 ≤ (c.sample sub source).2 ∧ (c.sample sub source).2 ≤ 16065
  unfold MixChannel.sample
  dsimp only
  split
  · omega
  · exact hs _ _ _ rfl
  · omega
  · exact holds

theorem mixVoices_sound {s : State} (voices : s.VoicesSound) (channels : ∀ v, (s.mixer.channels.get v).Sound) (v : Fin 8) :
    (s.mixVoices.1.get v).Sound := by
  unfold State.mixVoices
  refine List.foldlRecOn (motive := fun acc : Tab 8 MixChannel × Int => ∀ v, (acc.1.get v).Sound) (numbers 8) _ channels
    (fun acc h w _ v => ?_) v
  dsimp only
  rw [Tab.get_set]
  split
  · exact (h w).sample _ fun _ _ _ hx => voices.source_inRange hx
  · exact h v

theorem Mixer.SoundFor.stepTone {m : Mixer} {supply : SupplyState} (h : m.SoundFor supply) : m.stepTone.SoundFor supply := by
  unfold Mixer.stepTone
  split
  · split
    · exact h
    · exact h
  · exact h

section
variable {m : Mixer} {supply : SupplyState} (h : m.SoundFor supply)
include h

theorem Mixer.SoundFor.outputCode (mix : Int) (range : -512 ≤ mix ∧ mix ≤ 511) : (m.outputValue mix + 512).toNat ≤ 1023 := by
  obtain ⟨_, _, _, _, amplitude, _⟩ := h
  have tone : m.toneValue ≤ 511 := by
    unfold Mixer.toneValue
    split <;> omega
  have value : m.outputValue mix ≤ 511 := by
    unfold Mixer.outputValue
    split
    · omega
    · split
      · exact tone
      · exact range.2
  omega

theorem Mixer.SoundFor.channels : ∀ v, (m.channels.get v).Sound := by
  obtain ⟨_, _, _, _, _, _, _, channels⟩ := h
  exact channels

theorem Mixer.SoundFor.sampled {channels : Tab 8 MixChannel} (sound : ∀ v, (channels.get v).Sound) {mix : Int}
    (range : -512 ≤ mix ∧ mix ≤ 511) :
    ({ m with channels := channels, code := (m.outputValue mix + 512).toNat } : Mixer).SoundFor supply := by
  have code := h.outputCode mix range
  obtain ⟨override, _, mceil, master, amplitude, pendingMaster, pendingAmplitude, _⟩ := h
  exact ⟨override, code, mceil, master, amplitude, pendingMaster, pendingAmplitude, sound⟩

theorem Mixer.SoundFor.latch {mceil : Nat} (ceiling : mceil = 0 ∨ mceil = 160 ∨ mceil = 255) :
    (m.latch mceil).SoundFor supply := by
  obtain ⟨held, code, _, master, amplitude, pendingMaster, pendingAmplitude, channels⟩ := h
  have override : (if m.override = .releasing then .clear else m.override) = Override.held ↔ supply = .critical := by
    rw [← held]
    split
    · next releasing => simp [releasing]
    · rfl
  exact ⟨override, code, ceiling, Option.getD_le_of_all pendingMaster master, Option.getD_le_of_all pendingAmplitude amplitude,
    rfl, rfl, channels⟩

theorem Mixer.SoundFor.takeSupply (supply' : SupplyState) : (m.takeSupply supply').SoundFor supply' := by
  obtain ⟨_, rest⟩ := h
  have released : ¬(if m.override = .held then .releasing else m.override) = Override.held := by
    split
    · nofun
    · next notHeld => exact notHeld
  cases supply' with
  | critical => exact ⟨iff_of_true rfl rfl, rest⟩
  | normal => exact ⟨iff_of_false released nofun, rest⟩
  | low => exact ⟨iff_of_false released nofun, rest⟩

theorem Mixer.SoundFor.mixSet {f : MixSetFields} (hf : f.ok = true) :
    ({ m with pending := m.pending.merge f.written } : Mixer).SoundFor supply := by
  obtain ⟨held, code, mceil, master, amplitude, pendingMaster, pendingAmplitude, channels⟩ := h
  unfold MixSetFields.ok at hf
  simp only [Bool.and_eq_true] at hf
  obtain ⟨⟨⟨⟨⟨_, newMaster⟩, _⟩, _⟩, newAmplitude⟩, _⟩ := hf
  exact ⟨held, code, mceil, master, amplitude, Option.or_all newMaster pendingMaster, Option.or_all newAmplitude pendingAmplitude,
    channels⟩

end

/-! ## One output sample -/

/-- The state when the mixer has made the sample of these channels and this sum, before the clip count (R80 to R85). -/
def State.sampled (s : State) (channels : Tab 8 MixChannel) (sum : Int) : State :=
  s.withMixer { s.mixer with
    channels := channels, code := (s.mixer.outputValue (saturate (scaledSum sum s.mixer.effective)) + 512).toNat }.stepTone

/-- The clip count, and then the voices and the sample position move on. -/
def State.resampled (s : State) (channels : Tab 8 MixChannel) (sum : Int) : State :=
  let y := scaledSum sum s.mixer.effective
  let after := (if saturate y = y then s.sampled channels sum else (s.sampled channels sum).countClip).advanceVoices
  after.withStream { after.stream with sampleIndex := min (after.stream.sampleIndex + 1) 64 }

theorem State.outputSample_of_mix {s : State} {channels : Tab 8 MixChannel} {sum : Int} (h : s.mixVoices = (channels, sum)) :
    s.outputSample = s.resampled channels sum := by
  unfold State.outputSample State.resampled State.sampled
  rw [h]

/-! ## The two together -/

/-- The two blocks as their invariants want them, while a change of the supply state may have reached one before the other. -/
def State.GrantSoundAt (x y : SupplyState) (s : State) : Prop :=
  s.governor.SoundFor x (decide (s.save.state ≠ .idle)) ∧ s.mixer.SoundFor y

def State.GrantSound (s : State) : Prop := s.GovernorSound ∧ s.MixerSound

theorem grantSound_iff (s : State) : s.GrantSound ↔ s.GrantSoundAt s.supply.supply s.supply.supply := Iff.rfl

theorem grantInvariant : Invariant State.GrantSound [.supplyState, .governor, .mixer, .save] where
  sound s h := ⟨h.governor, h.mixer⟩
  keeps {s t} same h := by
    have supply : t.supply.supply = s.supply.supply := same .supplyState (by decide)
    have governor : t.governor = s.governor := same .governor (by decide)
    have mixer : t.mixer = s.mixer := same .mixer (by decide)
    have save : t.save = s.save := same .save (by decide)
    rw [grantSound_iff] at h ⊢
    unfold State.GrantSoundAt at h ⊢
    rwa [supply, governor, mixer, save]

section
variable {s : State} {x y : SupplyState} (h : s.GrantSoundAt x y)
include h

/-- What changes neither of the two blocks, nor whether the save controller is IDLE. -/
theorem State.GrantSoundAt.of_keeps {t : State} {touched : List Part} (keeps : s.Keeps t touched)
    (state : t.save.state = s.save.state) (clear : clearOf [.governor, .mixer] touched = true := by rfl) : t.GrantSoundAt x y := by
  have governor : t.governor = s.governor := keeps .governor (not_mem_of_clearOf clear (by decide))
  have mixer : t.mixer = s.mixer := keeps .mixer (not_mem_of_clearOf clear (by decide))
  unfold State.GrantSoundAt at h ⊢
  rwa [governor, mixer, state]

theorem State.GrantSoundAt.leaveIdle {c : SaveController} (busy : c.state ≠ .idle) : (s.leaveIdle c).GrantSoundAt x y := by
  have report : decide (c.state ≠ .idle) = true := decide_eq_true busy
  refine ⟨?_, h.2⟩
  change (s.governor.takeBusy true).SoundFor x (decide (c.state ≠ .idle))
  rw [report]
  exact h.1.takeBusy true

theorem State.GrantSoundAt.returnIdle : s.returnIdle.GrantSoundAt x y := ⟨h.1.takeBusy false, h.2⟩

theorem State.GrantSoundAt.copyUpTo (upTo : Nat) : (s.copyUpTo upTo).GrantSoundAt x y := by
  obtain ⟨moved, save⟩ := s.copyUpTo_save upTo
  exact h.of_keeps (keeps_copyUpTo s upTo) (by rw [save])

theorem State.GrantSoundAt.copySoFar : s.copySoFar.GrantSoundAt x y := by
  obtain ⟨moved, save⟩ := s.copySoFar_save
  exact h.of_keeps (keeps_copySoFar s) (by rw [save])

theorem State.GrantSoundAt.answer (kind tag : Byte) (status : Status) (body : ReplyBody) :
    (s.answer kind tag status body).GrantSoundAt x y := by
  have save : (s.answer kind tag status body).save = s.save := keeps_answer s kind tag status body .save (by decide)
  exact h.of_keeps (keeps_answer s kind tag status body) (by rw [save])

theorem State.GrantSoundAt.abandonForCritical : s.abandonForCritical.GrantSoundAt x y := by
  have stopped : s.stopForAbandon.GrantSoundAt x y := h.copySoFar.returnIdle
  unfold State.abandonForCritical
  dsimp only
  split
  · exact h
  · exact h
  all_goals exact stopped.answer _ _ _ _

/-- WAIT_RESERVE becomes COPYING: the controller stays busy. -/
theorem State.GrantSoundAt.acknowledgeReserve (reserve : Bool) : (s.acknowledgeReserve reserve).GrantSoundAt x y := by
  unfold State.acknowledgeReserve
  split
  · next waiting =>
    have busy : s.governor.SoundFor x (decide (s.save.state ≠ .idle)) := h.1
    rw [waiting] at busy
    exact ⟨busy, h.2⟩
  · exact h

theorem State.GrantSoundAt.rumbleMark : s.rumbleMark.GrantSoundAt x y := by
  rw [State.rumbleMark_eq]
  exact State.GrantSoundAt.acknowledgeReserve (s := s.rumbleMarked) h _

/-- The mixer's mark takes the ceiling, and reports the volume that it takes. -/
theorem State.GrantSoundAt.mixerMark : s.mixerMark.GrantSoundAt x y := by
  obtain ⟨governor, mixer⟩ := h
  have latched : (s.mixer.latch s.governor.record.mceil).SoundFor y := mixer.latch governor.mceil
  obtain ⟨_, _, _, _, _, pendingMaster, _⟩ := mixer
  cases pending : s.mixer.pending.master with
  | none =>
    rw [State.mixerMark_of_none pending]
    exact ⟨governor, latched⟩
  | some volume =>
    rw [State.mixerMark_of_some pending]
    rw [pending] at pendingMaster
    exact ⟨governor.takeVolume (of_decide_eq_true pendingMaster), latched⟩

end

/-- The two blocks hold for the supply state that the operation has left as it was. -/
theorem grantSound_of_at {s t : State} {touched : List Part} (keeps : s.Keeps t touched)
    (h : t.GrantSoundAt s.supply.supply s.supply.supply) (clear : clearOf [.supplyState] touched = true := by rfl) :
    t.GrantSound := by
  have same : t.supply.supply = s.supply.supply := keeps .supplyState (not_mem_of_clearOf clear (List.mem_singleton_self _))
  rwa [grantSound_iff, same]

/-! ## The supply-state change event -/

/-- The blocks that take the event have all taken it when the turns are done. -/
theorem mem_allTurns {own : SupplyTurn} (h : own ∈ [SupplyTurn.governor, .mixer, .rumble, .save]) (turns : List SupplyTurn) :
    own ∈ allTurns turns := by
  unfold allTurns
  by_cases named : own ∈ turns
  · exact List.mem_append_left _ named
  · exact List.mem_append_right _ (List.mem_filter.2 ⟨h, by simpa using named⟩)

/-- A block that holds for the old supply state, whichever turn comes, and for the new one from its own turn on. -/
theorem foldl_takeTurn {Q : SupplyState → State → Prop} {own : SupplyTurn} {supply : SupplyState}
    (takes : ∀ x s, Q x s → Q supply (takeTurn supply s own))
    (others : ∀ x s turn, turn ≠ own → Q x s → Q x (takeTurn supply s turn)) :
    ∀ (turns : List SupplyTurn) (x : SupplyState) (s : State), own ∈ turns → Q x s → Q supply (turns.foldl (takeTurn supply) s) := by
  have after (turns : List SupplyTurn) (s : State) (h : Q supply s) : Q supply (turns.foldl (takeTurn supply) s) := by
    refine foldl_keeps (P := Q supply) (f := takeTurn supply) (fun s turn h => ?_) turns h
    by_cases its : turn = own
    · exact its ▸ takes supply s h
    · exact others supply s turn its h
  intro turns
  induction turns with
  | nil => exact fun _ _ mem => absurd mem List.not_mem_nil
  | cons turn turns ih =>
    intro x s mem h
    by_cases its : turn = own
    · exact after turns _ (its ▸ takes x s h)
    · exact ih x _ ((List.mem_cons.1 mem).resolve_left (Ne.symm its)) (others x s turn its h)

section
variable {s : State} {x y supply : SupplyState}

/-- A turn that is not the governor's or the mixer's leaves both supply states as they are. -/
theorem State.GrantSoundAt.takeTurn (h : s.GrantSoundAt x y) {turn : SupplyTurn} (governor : turn ≠ .governor)
    (mixer : turn ≠ .mixer) : (takeTurn supply s turn).GrantSoundAt x y := by
  cases turn
  case governor => exact absurd rfl governor
  case mixer => exact absurd rfl mixer
  case rumble => exact h
  case save =>
    change State.GrantSoundAt x y (if supply = .critical then s.abandonForCritical else s)
    split
    · exact h.abandonForCritical
    · exact h
  case mixerMark => exact h.mixerMark
  case rumbleMark => exact h.rumbleMark

theorem State.GrantSoundAt.takeTurn_governor (h : s.GrantSoundAt x y) :
    (Machine.takeTurn supply s .governor).GrantSoundAt supply y := ⟨h.1.takeSupply supply, h.2⟩

theorem State.GrantSoundAt.takeTurn_mixer (h : s.GrantSoundAt x y) :
    (Machine.takeTurn supply s .mixer).GrantSoundAt x supply := ⟨h.1, h.2.takeSupply supply⟩

theorem State.GrantSoundAt.turns (h : s.GrantSoundAt x y) (turns : List SupplyTurn) :
    ((allTurns turns).foldl (Machine.takeTurn supply) s).GrantSoundAt supply supply := by
  obtain ⟨_, governor, _⟩ := foldl_takeTurn (Q := fun x s => ∃ y, s.GrantSoundAt x y) (own := .governor) (supply := supply)
    (fun _ _ ⟨y, h⟩ => ⟨y, h.takeTurn_governor⟩)
    (fun x s turn other ⟨y, h⟩ => by
      by_cases its : turn = .mixer
      · exact ⟨supply, its ▸ h.takeTurn_mixer⟩
      · exact ⟨y, h.takeTurn other its⟩)
    (allTurns turns) x s (mem_allTurns (by decide) turns) ⟨y, h⟩
  obtain ⟨_, _, mixer⟩ := foldl_takeTurn (Q := fun y s => ∃ x, s.GrantSoundAt x y) (own := .mixer) (supply := supply)
    (fun _ _ ⟨x, h⟩ => ⟨x, h.takeTurn_mixer⟩)
    (fun y s turn other ⟨x, h⟩ => by
      by_cases its : turn = .governor
      · exact ⟨supply, its ▸ h.takeTurn_governor⟩
      · exact ⟨x, h.takeTurn its other⟩)
    (allTurns turns) y s (mem_allTurns (by decide) turns) ⟨x, h⟩
  exact ⟨governor, mixer⟩

theorem supplyChanged_supply (s : State) (supply : SupplyState) (turns : List SupplyTurn) :
    (s.supplyChanged supply turns).supply.supply = s.supply.supply :=
  keeps_supplyChanged s supply turns .supplyState (by decide)

theorem grantSound_takeVcart {s : State} (h : s.GrantSound) (v : Nat) (turns : List SupplyTurn) :
    (s.takeVcart v turns).GrantSound := by
  unfold State.takeVcart
  dsimp only
  generalize (s.supply.takeVcart v).roundOn = m
  split
  · next same =>
    rw [grantSound_iff] at h ⊢
    rw [← same] at h
    exact h
  · have changed : (((allTurns turns).foldl (Machine.takeTurn m.supply) (s.withSupply m)).GrantSoundAt m.supply m.supply) :=
      State.GrantSoundAt.turns (s := s.withSupply m) h turns
    rw [grantSound_iff, supplyChanged_supply]
    exact changed.of_keeps (keeps_pendSupply _) rfl

end

/-! ## The save controller's completions -/

section
variable {s : State} {x y : SupplyState} (h : s.GrantSoundAt x y)
include h

theorem State.GrantSoundAt.completeLoad : s.completeLoad.GrantSoundAt x y := by
  unfold State.completeLoad
  split
  · exact (h.copyUpTo _).returnIdle.answer _ _ _ _
  · exact h

theorem State.GrantSoundAt.completeCopy : s.completeCopy.GrantSoundAt x y := by
  unfold State.completeCopy
  split
  · next copying =>
    have busy : s.governor.SoundFor x (decide (s.save.state ≠ .idle)) := h.1
    rw [copying] at busy
    obtain ⟨governor, mixer⟩ := h.copyUpTo s.save.length
    have same : (s.copyUpTo s.save.length).governor = s.governor := keeps_copyUpTo s _ .governor (by decide)
    refine ⟨?_, mixer⟩
    change (s.copyUpTo s.save.length).governor.SoundFor x _
    rw [same]
    exact busy
  · exact h

theorem State.GrantSoundAt.completeSeal : s.completeSeal.GrantSoundAt x y := by
  unfold State.completeSeal
  split
  · refine State.GrantSoundAt.answer (State.GrantSoundAt.returnIdle ?_) _ _ _ _
    exact ⟨h.1, h.2⟩
  · exact h

theorem State.GrantSoundAt.completeVerify : s.completeVerify.GrantSoundAt x y := by
  unfold State.completeVerify
  split
  · refine State.GrantSoundAt.answer (State.GrantSoundAt.returnIdle ?_) _ _ _ _
    exact ⟨h.1, h.2⟩
  · exact h

theorem State.GrantSoundAt.scan : s.scan.GrantSoundAt x y := by
  have entries : ((numbers 4).foldl (fun c slot => c.setEntry slot (scanSlot s.store slot)) s.save).state = s.save.state :=
    List.foldlRecOn (motive := fun c : SaveController => c.state = s.save.state) (numbers 4) _ rfl fun _ same _ _ => same
  exact h.of_keeps (keeps_scan s) entries

theorem State.GrantSoundAt.countClip : s.countClip.GrantSoundAt x y := by
  unfold State.countClip
  split
  · exact h
  · refine State.GrantSoundAt.of_keeps (s := s.withMixer _) ?_ (keeps_pendClip _ _) rfl
    exact ⟨h.1, h.2⟩

theorem State.GrantSoundAt.withStream (b : StreamBuffers) : (s.withStream b).GrantSoundAt x y := h

theorem State.GrantSoundAt.advanceVoices : s.advanceVoices.GrantSoundAt x y :=
  foldl_keeps (P := State.GrantSoundAt x y) (f := advanceOne) (fun s v h => by
    have save : (advanceOne s v).save = s.save := keeps_advanceOne s v .save (by decide)
    exact h.of_keeps (keeps_advanceOne s v) (by rw [save])) _ h

theorem State.GrantSoundAt.resampled {channels : Tab 8 MixChannel} (sound : ∀ v, (channels.get v).Sound) (sum : Int) :
    (s.resampled channels sum).GrantSoundAt x y := by
  have sampled : (s.sampled channels sum).GrantSoundAt x y :=
    ⟨h.1, (h.2.sampled sound (saturate_inRange (scaledSum sum s.mixer.effective))).stepTone⟩
  unfold State.resampled
  refine State.GrantSoundAt.withStream (State.GrantSoundAt.advanceVoices ?_) _
  split
  · exact sampled
  · exact sampled.countClip

theorem State.GrantSoundAt.outputSample (voices : s.VoicesSound) : s.outputSample.GrantSoundAt x y := by
  rw [State.outputSample_of_mix Prod.mk.eta.symm]
  exact h.resampled (mixVoices_sound voices h.2.channels) _

/-! ## The requests -/

theorem State.GrantSoundAt.takeMixSet (f : MixSetFields) : (takeMixSet f s).state.GrantSoundAt x y := by
  unfold Machine.takeMixSet
  split
  · next ok => exact ⟨h.1, h.2.mixSet ok⟩
  · exact h

theorem State.GrantSoundAt.takeMixStatus (clear : Bool) : (takeMixStatus clear s).state.GrantSoundAt x y := by
  rw [takeMixStatus_eq]
  exact h

theorem State.GrantSoundAt.takeStageRead (offset count : Nat) : (takeStageRead offset count s).state.GrantSoundAt x y := by
  unfold Machine.takeStageRead
  split
  · dsimp only [accept_state]
    split
    · exact h.copySoFar
    · exact h
  · exact h

theorem State.GrantSoundAt.takeStageLoad (tag : Byte) (slot : Nat) : (takeStageLoad tag slot s).state.GrantSoundAt x y := by
  unfold Machine.takeStageLoad
  split
  · exact h
  · split
    · exact h
    · exact h.leaveIdle nofun

theorem State.GrantSoundAt.takeCommit (tag : Byte) (slot length : Nat) : (takeCommit tag slot length s).state.GrantSoundAt x y := by
  unfold Machine.takeCommit
  split
  · exact h
  · iterate 5
      split
      · exact h
    exact h.leaveIdle nofun

theorem State.GrantSoundAt.takeCommitAbort : (takeCommitAbort s).state.GrantSoundAt x y := by
  unfold Machine.takeCommitAbort
  split
  · exact h.copySoFar.returnIdle
  · exact h.copySoFar.returnIdle
  · exact h
  · exact h

theorem State.GrantSoundAt.takeSlotVerify (tag : Byte) (slot : Nat) : (takeSlotVerify tag slot s).state.GrantSoundAt x y := by
  unfold Machine.takeSlotVerify
  split
  · exact h
  · split
    · exact h
    · exact h.leaveIdle nofun

theorem State.GrantSoundAt.takeSlotErase (slot : Nat) : (takeSlotErase slot s).state.GrantSoundAt x y := by
  unfold Machine.takeSlotErase
  split
  · exact h
  · split
    · exact h
    · split
      · exact h
      · exact ⟨h.1, h.2⟩

end

/-! ## The commands -/

theorem MixChannel.sound_reset : (⟨0, 0, .none⟩ : MixChannel).Sound := ⟨⟨by decide, by decide⟩, by decide, by decide⟩

theorem grantSound_reset {s : State} (supply : s.supply = .reset) (governor : s.governor = .reset) (mixer : s.mixer = .reset)
    (save : s.save.state = .idle) : s.GrantSound := by
  rw [grantSound_iff]
  unfold State.GrantSoundAt
  rw [supply, governor, mixer, save]
  refine ⟨⟨by decide +kernel, rfl, rfl, by decide, by decide, by decide⟩, ⟨nofun, nofun⟩, by decide, .inl rfl, by decide, by decide, rfl, rfl,
    fun v => ?_⟩
  change ((Tab.replicate 8 (⟨0, 0, .none⟩ : MixChannel)).get v).Sound
  rw [Tab.get_replicate]
  exact MixChannel.sound_reset

/-- Every command keeps the grant record formed and the mixer in its ranges. -/
theorem grantSound_kept (c : Instr) : KeptBy State.GrantSound c := by
  have inv := grantInvariant
  have start {s : State} (hs : s.Sound) : s.GrantSoundAt s.supply.supply s.supply.supply := inv.sound s hs
  cases c
  case powerUp => exact kept_of_next (fun _ => rfl) fun _ _ => grantSound_reset rfl rfl rfl rfl
  case cartridgeSupplyLoss => exact inv.of_core _ (fun _ => rfl) fun _ _ _ => grantSound_reset rfl rfl rfl rfl
  case restart tag => exact inv.of_restart fun _ _ => grantSound_reset rfl rfl rfl rfl
  case budgetSet tag budget imax =>
    exact inv.of_serve (owner := takeBudgetSet budget imax) fun s hs _ => ⟨(start hs).1.takeBudget budget imax, (start hs).2⟩
  case mixSet tag f => exact inv.of_serve fun s hs _ => grantSound_of_at (keeps_takeMixSet s f) ((start hs).takeMixSet f)
  case mixStatus tag clear => exact inv.of_serve fun s hs _ => grantSound_of_at (keeps_takeMixStatus s clear) ((start hs).takeMixStatus clear)
  case mixerLatch => exact inv.of_core _ (fun _ => rfl) fun s hs _ => grantSound_of_at (keeps_mixerMark s) (start hs).mixerMark
  case outputSample =>
    exact inv.of_core _ (fun _ => rfl) fun s hs _ => grantSound_of_at (keeps_outputSample s) ((start hs).outputSample hs.voices)
  case rumblePeriodMark => exact inv.of_core _ (fun _ => rfl) fun s hs _ => grantSound_of_at (keeps_rumbleMark s) (start hs).rumbleMark
  case vcartResult f =>
    refine inv.of_core _ (fun _ => rfl) fun s hs _ => ?_
    split
    · exact grantSound_takeVcart (start hs) _ _
    · exact start hs
  case slotScan =>
    refine inv.of_core _ (fun _ => rfl) fun s hs _ => ?_
    split
    · exact start hs
    · exact grantSound_of_at (keeps_scan s) (start hs).scan
  case stageRead tag offset count =>
    exact inv.of_serve fun s hs _ => grantSound_of_at (keeps_takeStageRead s offset count) ((start hs).takeStageRead offset count)
  case stageLoad tag slot =>
    exact inv.of_serve fun s hs _ => grantSound_of_at (keeps_takeStageLoad s tag slot) ((start hs).takeStageLoad tag slot)
  case commit tag slot length =>
    exact inv.of_serve fun s hs _ => grantSound_of_at (keeps_takeCommit s tag slot length) ((start hs).takeCommit tag slot length)
  case commitAbort tag => exact inv.of_serve fun s hs _ => grantSound_of_at (keeps_takeCommitAbort s) (start hs).takeCommitAbort
  case slotVerify tag slot =>
    exact inv.of_serve fun s hs _ => grantSound_of_at (keeps_takeSlotVerify s tag slot) ((start hs).takeSlotVerify tag slot)
  case slotErase tag slot =>
    exact inv.of_serve fun s hs _ => grantSound_of_at (keeps_takeSlotErase s slot) ((start hs).takeSlotErase slot)
  case loadComplete => exact inv.of_core _ (fun _ => rfl) fun s hs _ => grantSound_of_at (keeps_completeLoad s) (start hs).completeLoad
  case copyComplete => exact inv.of_core _ (fun _ => rfl) fun s hs _ => grantSound_of_at (keeps_completeCopy s) (start hs).completeCopy
  case sealComplete => exact inv.of_core _ (fun _ => rfl) fun s hs _ => grantSound_of_at (keeps_completeSeal s) (start hs).completeSeal
  case verifyComplete =>
    exact inv.of_core _ (fun _ => rfl) fun s hs _ => grantSound_of_at (keeps_completeVerify s) (start hs).completeVerify
  all_goals exact inv.untouched

end Sys2Proof.Machine
end

