-- ==== Sys2Proof/Proofs/RumbleInvariant.lean ====
section
/-! SUPPORT. What every step keeps of the rumble driver: the motor is driven only while nothing holds it off, and the effect queue has
a priority while it holds steps (R89, R91, R97, R104, R106, R107). -/

namespace Sys2Proof.Machine

set_option Elab.async false

/-! ## The driver -/

/-- The driver as `State.RumbleSound` wants it, for a supply state and whether a calibration runs. -/
structure Rumble.SoundFor (r : Rumble) (supply : SupplyState) (calibrates : Bool) : Prop where
  resting : r.state ≠ .running → r.queue = [] ∧ r.requested = 0 ∧ r.applied = 0
  idle : r.calibrating = true → r.state = .idle
  calibration : r.calibrating = calibrates
  hold : r.supplyHold = true ↔ supply = .critical
  heldOff : r.supplyHold = true → r.applied = 0
  ceiling : r.applied ≤ r.latchedCeiling
  places : r.queue.length ≤ 16
  priority : r.priority = none ↔ r.queue = []

theorem rumbleSound_iff (s : State) : s.RumbleSound ↔ s.rumble.SoundFor s.supply.supply s.supply.calibration.isSome :=
  ⟨fun ⟨resting, idle, calibration, hold, heldOff, ceiling, places, priority⟩ =>
    ⟨resting, idle, calibration, hold, heldOff, ceiling, places, priority⟩,
   fun ⟨resting, idle, calibration, hold, heldOff, ceiling, places, priority⟩ =>
    ⟨resting, idle, calibration, hold, heldOff, ceiling, places, priority⟩⟩

/-- A period takes at most the head from the queue. -/
theorem length_advanceQueue_le (level : Nat) (queue : List EffectStep) : (advanceQueue level queue).length ≤ queue.length := by
  have starts (queue : List EffectStep) : (startHead level queue).length = queue.length := by
    cases queue <;> rfl
  cases queue with
  | nil => exact Nat.le_refl _
  | cons e es =>
    rw [advanceQueue]
    split
    · exact (starts (e :: es)).le
    · split
      · exact Nat.le_refl _
      · exact (starts es).trans_le (Nat.le_succ _)

section
variable {r : Rumble} {supply : SupplyState} {calibrates : Bool} (h : r.SoundFor supply calibrates)
include h

/-- A driver with steps runs. -/
theorem Rumble.SoundFor.running (steps : r.queue ≠ []) : r.state = .running :=
  Decidable.byContradiction fun still => steps (h.resting still).1

/-- A driver that drives runs, and does not calibrate. -/
theorem Rumble.SoundFor.driving (drives : 0 < r.applied) : r.state = .running ∧ r.calibrating = false := by
  have running : r.state = .running := Decidable.byContradiction fun still => by
    rw [(h.resting still).2.2] at drives
    omega
  refine ⟨running, Bool.eq_false_iff.2 fun calibrating => ?_⟩
  have idle := h.idle calibrating
  rw [running] at idle
  cases idle

/-- The queue is emptied; what the driver applies stays until the next mark. -/
theorem Rumble.SoundFor.flush : r.flush.SoundFor supply calibrates where
  resting still := ⟨rfl, (h.resting still).2⟩
  idle := h.idle
  calibration := h.calibration
  hold := h.hold
  heldOff := h.heldOff
  ceiling := h.ceiling
  places := Nat.zero_le _
  priority := iff_of_true rfl rfl

theorem Rumble.SoundFor.load {priority : Nat} {steps : List PlayStep} (notFault : r.state ≠ .fault)
    (free : r.calibrating = false) (some : 1 ≤ steps.length) (few : steps.length ≤ 16) :
    (r.load priority steps).SoundFor supply calibrates := by
  have runs : (r.load priority steps).state = .running := by
    change (if r.state = .idle then .running else r.state) = DriverState.running
    split
    · rfl
    · next notIdle =>
      cases state : r.state with
      | running => rfl
      | idle => exact absurd state notIdle
      | fault => exact absurd state notFault
  have mapped : (steps.map PlayStep.queued).length = steps.length := List.length_map _
  exact {
    resting := fun still => absurd runs still
    idle := fun calibrating => absurd (free.symm.trans calibrating) nofun
    calibration := h.calibration
    hold := h.hold
    heldOff := h.heldOff
    ceiling := h.ceiling
    places := mapped.trans_le few
    priority := iff_of_false nofun (List.ne_nil_of_length_pos (mapped ▸ some)) }

theorem Rumble.SoundFor.append {steps : List PlayStep} (holds : r.queue ≠ [])
    (fits : r.queue.length + steps.length ≤ 16) : (r.append steps).SoundFor supply calibrates where
  resting still := absurd (h.running holds) still
  idle := h.idle
  calibration := h.calibration
  hold := h.hold
  heldOff := h.heldOff
  ceiling := h.ceiling
  places := by
    change (r.queue ++ steps.map PlayStep.queued).length ≤ 16
    rwa [List.length_append, List.length_map]
  priority := iff_of_false (fun none => holds (h.priority.1 none)) (List.append_ne_nil_of_left_ne_nil holds _)

/-- What the driver takes of offered steps (R94). -/
theorem Rumble.SoundFor.submit {mode : PlayMode} {priority : Nat} {steps : List PlayStep} (some : 1 ≤ steps.length)
    (few : steps.length ≤ 16) {driver : Rumble} {applied : PlayMode} (taken : r.submit mode priority steps = .taken driver applied) :
    driver.SoundFor supply calibrates := by
  unfold Rumble.submit at taken
  split at taken
  · cases taken
  · next notFault =>
    split at taken
    · cases taken
    · next calibrating =>
      have free : r.calibrating = false := Bool.eq_false_iff.2 calibrating
      have replaced : (r.flush.load priority steps).SoundFor supply calibrates := h.flush.load notFault free some few
      split at taken
      · cases taken
        exact h.load notFault free some few
      · next holds =>
        have holds : r.queue ≠ [] := fun empty => holds (List.isEmpty_iff.2 empty)
        dsimp only at taken
        split at taken
        · cases taken
        · split at taken
          · cases taken
            exact replaced
          · split at taken
            · cases taken
              exact replaced
            · split at taken
              · next fits =>
                cases taken
                exact h.append holds fits
              · cases taken

/-- The period mark (R97). -/
theorem Rumble.SoundFor.marked (grant : GrantRecord) : (r.marked grant).SoundFor supply calibrates := by
  have from_steps (steps : (r.marked grant).queue ≠ []) : r.queue ≠ [] := fun empty => steps (by
    rw [Rumble.marked_queue, empty]
    rfl)
  have ceiling : (r.marked grant).applied ≤ grant.dceil := by
    by_cases heldOff : r.supplyHold = true ∨ r.calibrating = true
    · rw [Rumble.marked_applied_heldOff heldOff]
      exact Nat.zero_le _
    · obtain ⟨supply, calibration⟩ := not_or.1 heldOff
      rw [Rumble.marked_applied_free (Bool.eq_false_iff.2 supply) (Bool.eq_false_iff.2 calibration)]
      split
      · exact Nat.le_refl _
      · exact Nat.min_le_right _ _
  have silent (none : (r.marked grant).requested = 0) : (r.marked grant).applied = 0 := by
    by_cases heldOff : r.supplyHold = true ∨ r.calibrating = true
    · exact Rumble.marked_applied_heldOff heldOff
    · obtain ⟨supply, calibration⟩ := not_or.1 heldOff
      rw [Rumble.marked_applied_free (Bool.eq_false_iff.2 supply) (Bool.eq_false_iff.2 calibration), none]
      simp
  exact {
    resting := fun still => by
      by_cases empty : (r.marked grant).queue = []
      · obtain ⟨requested, _⟩ := Rumble.marked_of_nil empty
        exact ⟨empty, requested, silent requested⟩
      · rw [Rumble.marked_state, if_neg fun drains => empty drains.1] at still
        exact absurd (h.running (from_steps empty)) still
    idle := fun calibrating => by
      rw [Rumble.marked_state, h.idle calibrating]
      split <;> rfl
    calibration := h.calibration
    hold := h.hold
    heldOff := fun held => Rumble.marked_applied_heldOff (.inl held)
    ceiling := ceiling
    places := by
      rw [Rumble.marked_queue]
      exact (length_advanceQueue_le _ _).trans h.places
    priority := by
      by_cases empty : (r.marked grant).queue = []
      · exact iff_of_true (Rumble.marked_of_nil empty).2 empty
      · rw [Rumble.marked_priority empty]
        exact iff_of_false (fun none => from_steps empty (h.priority.1 none)) empty }

theorem Rumble.SoundFor.takeSupply (supply' : SupplyState) : (r.takeSupply supply').SoundFor supply' calibrates := by
  obtain ⟨resting, idle, calibration, hold, heldOff, ceiling, places, priority⟩ := h
  cases supply' with
  | critical =>
    exact ⟨fun still => ⟨(resting still).1, (resting still).2.1, rfl⟩, idle, calibration, iff_of_true rfl rfl, fun _ => rfl,
      Nat.zero_le _, places, priority⟩
  | normal => exact ⟨resting, idle, calibration, iff_of_false nofun nofun, nofun, ceiling, places, priority⟩
  | low => exact ⟨resting, idle, calibration, iff_of_false nofun nofun, nofun, ceiling, places, priority⟩

theorem Rumble.SoundFor.beginCalibration (still : r.state = .idle) : r.beginCalibration.SoundFor supply true := by
  obtain ⟨resting, _, _, hold, _, _, places, priority⟩ := h
  exact ⟨fun still => ⟨(resting still).1, (resting still).2.1, rfl⟩, fun _ => still, rfl, hold, fun _ => rfl, Nat.zero_le _,
    places, priority⟩

theorem Rumble.SoundFor.endCalibration : r.endCalibration.SoundFor supply false := by
  obtain ⟨resting, _, _, hold, heldOff, ceiling, places, priority⟩ := h
  exact ⟨resting, nofun, rfl, hold, heldOff, ceiling, places, priority⟩

/-- A driver that drives enters FAULT (R104). -/
theorem Rumble.SoundFor.faulted (drives : 0 < r.applied) (cause : FaultCause) :
    ({ r.flush with state := .fault, applied := 0, requested := 0, cause := cause } : Rumble).SoundFor supply calibrates := by
  obtain ⟨_, free⟩ := h.driving drives
  exact ⟨fun _ => ⟨rfl, rfl, rfl⟩, fun calibrating => absurd (free.symm.trans calibrating) nofun, h.calibration, h.hold,
    fun _ => rfl, Nat.zero_le _, Nat.zero_le _, iff_of_true rfl rfl⟩

/-- What Rumble Set, the coast window, and the count of a stall change does not matter. -/
theorem Rumble.SoundFor.withSettings (settings : RumbleSettings) (carrier : Option Nat) (run : Nat) (coastOpen : Bool) :
    ({ r with settings := settings, pendingCarrier := carrier, bemfRun := run, coastOpen := coastOpen } : Rumble).SoundFor supply
      calibrates :=
  ⟨h.resting, h.idle, h.calibration, h.hold, h.heldOff, h.ceiling, h.places, h.priority⟩

theorem Rumble.SoundFor.cleared (fault : r.state = .fault) :
    ({ r with state := .idle, bemfRun := 0 } : Rumble).SoundFor supply calibrates := by
  have resting := h.resting (by rw [fault]; nofun)
  exact ⟨fun _ => resting, fun _ => rfl, h.calibration, h.hold, h.heldOff, h.ceiling, h.places, h.priority⟩

end

/-! ## The state -/

/-- The driver, with what a start of a cue rests on (R95, R141). -/
def State.MotorSound (s : State) : Prop := s.RumbleSound ∧ s.PlaySound

theorem motorInvariant : Invariant State.MotorSound [.supplyState, .calibration, .rumble, .voices, .pendings, .cue] where
  sound s h := ⟨h.rumble, h.voices, h.cues⟩
  keeps {s t} same h := by
    obtain ⟨motor, play⟩ := h
    have supply : t.supply.supply = s.supply.supply := same .supplyState (by decide)
    have calibration : t.supply.calibration = s.supply.calibration := same .calibration (by decide)
    have rumble : t.rumble = s.rumble := same .rumble (by decide)
    rw [rumbleSound_iff] at motor
    refine ⟨?_, playInvariant.keeps (fun p hp => same p ?_) play⟩
    · rwa [rumbleSound_iff, supply, calibration, rumble]
    · revert p
      decide

section
variable {s : State} (h : s.RumbleSound)
include h

theorem rumbleSound_for : s.rumble.SoundFor s.supply.supply s.supply.calibration.isSome := (rumbleSound_iff s).1 h

omit h in
/-- A change of the driver alone. -/
theorem rumbleSound_withRumble {r : Rumble} (hr : r.SoundFor s.supply.supply s.supply.calibration.isSome) :
    (s.withRumble r).RumbleSound := (rumbleSound_iff _).2 hr

theorem rumbleSound_of_keeps {t : State} {touched : List Part} (keeps : s.Keeps t touched)
    (clear : clearOf [.supplyState, .calibration, .rumble] touched = true := by rfl) : t.RumbleSound := by
  have supply : t.supply.supply = s.supply.supply := keeps .supplyState (not_mem_of_clearOf clear (by decide))
  have calibration : t.supply.calibration = s.supply.calibration := keeps .calibration (not_mem_of_clearOf clear (by decide))
  have rumble : t.rumble = s.rumble := keeps .rumble (not_mem_of_clearOf clear (by decide))
  rw [rumbleSound_iff, supply, calibration, rumble]
  exact rumbleSound_for h

theorem rumbleSound_rumbleMark : s.rumbleMark.RumbleSound := by
  have supply : s.rumbleMark.supply = s.supply := by
    obtain ⟨_, _, _, _, frame⟩ := s.rumbleMark_frame
    rw [frame]
  rw [rumbleSound_iff, State.rumbleMark_rumble, supply]
  exact (rumbleSound_for h).marked _

theorem rumbleSound_rumbleFault (drives : 0 < s.rumble.applied) (cause : FaultCause) : (s.rumbleFault cause).RumbleSound :=
  rumbleSound_of_keeps (rumbleSound_withRumble ((rumbleSound_for h).faulted drives cause)) (keeps_pendRumble _ _)

/-- A corrected BEMF result can end a drive, and only one of 64 or more (R102). -/
theorem rumbleSound_takeBemf (corrected : Nat) : (s.takeBemf corrected).RumbleSound := by
  unfold State.takeBemf
  dsimp only
  generalize counted : (if 64 ≤ s.rumble.applied ∧ corrected < s.rumble.settings.stall then s.rumble.bemfRun + 1 else 0) = run
  have noted : (s.withRumble { s.rumble with bemfRun := run }).RumbleSound :=
    rumbleSound_withRumble ((rumbleSound_for h).withSettings _ _ run _)
  split
  · next three =>
    have driven : 64 ≤ s.rumble.applied := by
      by_contra slow
      rw [if_neg fun both => slow both.1] at counted
      omega
    exact rumbleSound_rumbleFault noted (by change 0 < s.rumble.applied; omega) .stall
  · exact noted

theorem rumbleSound_takeImot (count : Nat) : (s.takeImot count).RumbleSound := by
  unfold State.takeImot
  split
  · next trips => exact rumbleSound_rumbleFault h trips.2 .trip
  · exact h

/-- A start's rumble part: a REPLACE of 1 to 4 steps (R147). -/
theorem rumbleSound_actRumble {part : Option RumblePart} (steps : ∀ p ∈ part, 1 ≤ p.steps.length ∧ p.steps.length ≤ 4) :
    (s.actRumble part).1.RumbleSound := by
  cases part with
  | none => exact h
  | some p =>
    obtain ⟨some, few⟩ := steps p rfl
    unfold State.actRumble
    dsimp only
    split
    · next taken => exact rumbleSound_withRumble ((rumbleSound_for h).submit some (few.trans (by decide)) taken)
    · exact h

end

/-! ## Starts -/

section
variable {s : State} (h : s.MotorSound)
include h

theorem motorSound_actParts (c : Fin 8) : (s.actParts c).1.MotorSound := by
  refine ⟨?_, playSound_actParts h.2 c⟩
  obtain ⟨motor, _, defined, _⟩ := h
  unfold State.actParts
  split
  · exact motor
  · next d entry =>
    obtain ⟨_, _, steps⟩ := defined c d entry
    exact rumbleSound_actRumble (rumbleSound_of_keeps motor (keeps_actSound s _ _ _)) fun p hp => (steps p hp).2

theorem motorSound_actPending (p : PendingStart) : (actPending s p).MotorSound := by
  have acted := motorSound_actParts h p.cue
  unfold actPending
  dsimp only
  split
  · exact motorInvariant.of_keeps (keeps_answer _ _ _ _ _) acted
  · exact motorInvariant.of_keeps (keeps_pendCue _ _) acted

theorem motorSound_actStarts : s.actStarts.MotorSound := by
  unfold State.actStarts
  refine foldl_keeps (P := State.MotorSound) (fun _ p h => motorSound_actPending h p) _ ?_
  obtain ⟨motor, voices, table, _, count⟩ := h
  exact ⟨rumbleSound_of_keeps motor (keeps_withCue s _), voices, table, Nat.zero_le _, count⟩

theorem motorSound_eventStart (cue entry : Nat) (quantize : Bool) : (s.eventStart cue entry quantize).MotorSound := by
  refine ⟨?_, playSound_eventStart h.2 cue entry quantize⟩
  unfold State.eventStart
  split
  · exact rumbleSound_of_keeps h.1 (keeps_pendCue _ _)
  · split
    · exact rumbleSound_of_keeps h.1 (keeps_pendCue _ _)
    · split
      · split
        · exact rumbleSound_of_keeps h.1 (keeps_withCue _ _)
        · exact rumbleSound_of_keeps h.1 (keeps_pendCue _ _)
      · exact (motorSound_actPending h _).1

theorem motorSound_finishMark : s.finishMark.MotorSound := by
  have keyOffs : ((numbers 8).foldl State.finishCountdown s).MotorSound :=
    foldl_keeps (P := State.MotorSound) (f := State.finishCountdown) (fun s v h =>
      ⟨rumbleSound_of_keeps h.1 (keeps_finishCountdown s v), playSound_finishCountdown h.2 v⟩) (numbers 8) h
  unfold State.finishMark
  dsimp only
  split
  · exact motorSound_actStarts keyOffs
  · exact keyOffs

theorem motorSound_cueMark : s.cueMark.MotorSound :=
  ⟨rumbleSound_of_keeps (motorSound_finishMark h).1 (keeps_withCue _ _), playSound_cueMark h.2⟩

theorem motorSound_takeCueStart (tag : Byte) (cue : Nat) (quantize : Coded Bool) :
    (takeCueStart tag cue quantize s).state.MotorSound := by
  refine ⟨?_, playSound_takeCueStart h.2 tag cue quantize⟩
  unfold takeCueStart
  split
  · split
    · exact h.1
    · split
      · split
        · exact rumbleSound_of_keeps h.1 (keeps_withCue _ _)
        · exact h.1
      · exact (motorSound_actParts h _).1
  · exact h.1

end

/-! ## The supply-state change event -/

section
variable {s : State}

/-- A turn that is not the driver's leaves its supply state as it is. -/
theorem Rumble.SoundFor.takeTurn {x supply : SupplyState} {calibrates : Bool} (h : s.rumble.SoundFor x calibrates)
    {turn : SupplyTurn} (other : turn ≠ .rumble) : (Machine.takeTurn supply s turn).rumble.SoundFor x calibrates := by
  cases turn
  case rumble => exact absurd rfl other
  case governor => exact h
  case mixer => exact h
  case save =>
    have kept : s.abandonForCritical.rumble = s.rumble := keeps_abandonForCritical s .rumble (by decide)
    change (if supply = .critical then s.abandonForCritical else s).rumble.SoundFor x calibrates
    split
    · rwa [kept]
    · exact h
  case mixerMark =>
    have kept : s.mixerMark.rumble = s.rumble := keeps_mixerMark s .rumble (by decide)
    change s.mixerMark.rumble.SoundFor x calibrates
    rwa [kept]
  case rumbleMark =>
    change s.rumbleMark.rumble.SoundFor x calibrates
    rw [State.rumbleMark_rumble]
    exact h.marked _

theorem rumbleSound_takeVcart (h : s.RumbleSound) (v : Nat) (turns : List SupplyTurn) : (s.takeVcart v turns).RumbleSound := by
  have calibration : (s.supply.takeVcart v).roundOn.calibration = s.supply.calibration := s.supply.takeVcart_calibration v
  unfold State.takeVcart
  dsimp only
  generalize (s.supply.takeVcart v).roundOn = m at calibration
  split
  · next same =>
    rw [rumbleSound_iff] at h ⊢
    rw [← calibration, ← same] at h
    exact h
  · have changed : ((allTurns turns).foldl (Machine.takeTurn m.supply) (s.withSupply m)).rumble.SoundFor m.supply m.calibration.isSome :=
      foldl_takeTurn (Q := fun x s => s.rumble.SoundFor x m.calibration.isSome) (own := .rumble)
        (fun _ _ h => h.takeSupply m.supply) (fun _ _ _ other h => h.takeTurn other) (allTurns turns) s.supply.supply
        (s.withSupply m) (mem_allTurns (by decide) turns) (by
          rw [calibration]
          exact rumbleSound_for h)
    have supply : ((s.withSupply m).supplyChanged m.supply turns).supply.supply = m.supply := supplyChanged_supply _ _ _
    have same : ((s.withSupply m).supplyChanged m.supply turns).supply.calibration = m.calibration :=
      keeps_supplyChanged (s.withSupply m) m.supply turns .calibration (by decide)
    rw [rumbleSound_iff, supply, same]
    exact changed

end

/-! ## The requests and the calibration -/

section
variable {s : State} (h : s.RumbleSound)
include h

theorem rumbleSound_takeRumblePlay (mode : Coded PlayMode) (priority : Nat) (steps : List StepFields) :
    (takeRumblePlay mode priority steps s).state.RumbleSound := by
  unfold takeRumblePlay
  split
  · next taken =>
    split
    · next inRange =>
      obtain ⟨_, some, few⟩ := inRange
      have length := length_takenSteps taken
      split
      · next offered =>
        exact rumbleSound_withRumble ((rumbleSound_for h).submit (by omega) (by omega) offered)
      · exact h
    · exact h
  · exact h

theorem rumbleSound_takeRumbleSet (f : RumbleSetFields) : (takeRumbleSet f s).state.RumbleSound := by
  unfold takeRumbleSet
  split
  · exact rumbleSound_withRumble ((rumbleSound_for h).withSettings _ _ _ _)
  · exact h

theorem rumbleSound_takeRumbleClear : (takeRumbleClear s).state.RumbleSound := by
  unfold takeRumbleClear
  split
  · next fault => exact rumbleSound_withRumble ((rumbleSound_for h).cleared fault)
  · exact h

theorem rumbleSound_takeCalibrate (tag : Byte) : (takeCalibrate tag s).state.RumbleSound := by
  unfold takeCalibrate
  split
  · exact h
  · split
    · exact h
    · next still => exact (rumbleSound_iff _).2 ((rumbleSound_for h).beginCalibration (Decidable.of_not_not still))

theorem rumbleSound_takeCalibration (raw : Nat) : (s.takeCalibration raw).RumbleSound := by
  unfold State.takeCalibration
  split
  · exact h
  · next c calibrating =>
    have counted : (s.withSupply { s.supply with
        bemfRaw := raw, calibration := some ⟨c.origin, c.taken + 1, c.sum + raw⟩ }).RumbleSound := by
      have driver := rumbleSound_for h
      rw [calibrating] at driver
      exact (rumbleSound_iff _).2 driver
    split
    · exact counted
    · unfold State.endCalibration
      dsimp only
      have ended := (rumbleSound_for counted).endCalibration
      split
      · exact (rumbleSound_iff _).2 ended
      · refine rumbleSound_of_keeps ?_ (keeps_answer _ _ _ _ _)
        exact (rumbleSound_iff _).2 ended

theorem rumbleSound_coastWindow :
    ((s.withRumble { s.rumble with coastOpen := true }).withSupply s.supply.requestBemf).RumbleSound := by
  refine (rumbleSound_iff _).2 ?_
  have driver := (rumbleSound_for h).withSettings s.rumble.settings s.rumble.pendingCarrier s.rumble.bemfRun true
  rw [← s.supply.requestBemf_supply, ← s.supply.requestBemf_calibration] at driver
  exact driver

end

/-! ## The commands -/

theorem rumbleSound_reset {s : State} (supply : s.supply = .reset) (rumble : s.rumble = .reset) : s.RumbleSound := by
  rw [rumbleSound_iff, supply, rumble]
  exact ⟨fun _ => ⟨rfl, rfl, rfl⟩, fun _ => rfl, rfl, iff_of_false nofun nofun, nofun, Nat.zero_le _, Nat.zero_le _,
    iff_of_true rfl rfl⟩

theorem motorSound_reset {s : State} (supply : s.supply = .reset) (rumble : s.rumble = .reset) (voice : s.voice = .reset)
    (cue : s.cue = .reset) : s.MotorSound := ⟨rumbleSound_reset supply rumble, playSound_reset voice cue⟩

/-- A command that does not touch the driver. -/
theorem motorSound_beside {c : Instr} (clear : clearOf [.supplyState, .calibration, .rumble] (footprint c) = true := by rfl) :
    KeptBy State.MotorSound c :=
  fun s t hs h => ⟨rumbleSound_of_keeps hs.rumble (exec_footprint h) clear, playSound_kept c s t hs h⟩

/-- Every command keeps the motor safe. -/
theorem motorSound_kept (c : Instr) : KeptBy State.MotorSound c := by
  have inv := motorInvariant
  have sound {s : State} := inv.sound s
  have start (s : State) (cue entry : Nat) (quantize : Bool) (h : s.MotorSound) : (s.eventStart cue entry quantize).MotorSound :=
    motorSound_eventStart h cue entry quantize
  have motor {s t : State} {touched : List Part} (hs : s.Sound) (keeps : s.Keeps t touched) (ht : t.RumbleSound)
      (clear : clearOf [.voices, .pendings, .cue] touched = true := by rfl) : t.MotorSound :=
    ⟨ht, playInvariant.of_keeps keeps ⟨hs.voices, hs.cues⟩ clear⟩
  cases c
  case powerUp => exact kept_of_next (fun _ => rfl) fun _ _ => motorSound_reset rfl rfl rfl rfl
  case cartridgeSupplyLoss => exact inv.of_core _ (fun _ => rfl) fun _ _ _ => motorSound_reset rfl rfl rfl rfl
  case restart tag => exact inv.of_restart fun _ _ => motorSound_reset rfl rfl rfl rfl
  case vcartResult f =>
    refine inv.of_core _ (fun _ => rfl) fun s hs _ => ?_
    split
    · exact motor hs (keeps_takeVcart s _ _) (rumbleSound_takeVcart hs.rumble _ _)
    · exact sound hs
  case imotResult count =>
    refine inv.of_core _ (fun _ => rfl) fun s hs _ => ?_
    split
    · refine motor hs (State.Keeps.andThen (c := [.rumble]) (keeps_withReadings s) (keeps_takeImot _ _)) ?_
      exact rumbleSound_takeImot (rumbleSound_of_keeps hs.rumble (keeps_withReadings s)) _
    · exact sound hs
  case bemfResult raw =>
    refine inv.of_core _ (fun _ => rfl) fun s hs _ => ?_
    split
    · refine motor hs (State.Keeps.andThen (c := [.rumble]) (keeps_withReadings s) (keeps_takeBemf _ _)) ?_
      exact rumbleSound_takeBemf (rumbleSound_of_keeps hs.rumble (keeps_withReadings s)) _
    · exact sound hs
  case coastWindow =>
    refine inv.of_core _ (fun _ => rfl) fun s hs _ => ?_
    split
    · exact ⟨rumbleSound_coastWindow hs.rumble, hs.voices, hs.cues⟩
    · exact sound hs
  case calibrationConversion raw =>
    refine inv.of_core _ (fun _ => rfl) fun s hs _ => ?_
    split
    · exact motor hs (keeps_takeCalibration s _) (rumbleSound_takeCalibration hs.rumble _)
    · exact sound hs
  case calibrateMotorSense tag =>
    exact inv.of_serve fun s hs _ => motor hs (keeps_takeCalibrate s tag) (rumbleSound_takeCalibrate hs.rumble tag)
  case rumblePlay tag mode priority steps =>
    exact inv.of_serve fun s hs _ =>
      motor hs (keeps_takeRumblePlay s mode priority steps) (rumbleSound_takeRumblePlay hs.rumble mode priority steps)
  case rumbleStop tag =>
    exact inv.of_serve fun s hs _ =>
      motor hs (keeps_takeRumbleStop s) (rumbleSound_withRumble (rumbleSound_for hs.rumble).flush)
  case rumbleSet tag f =>
    exact inv.of_serve fun s hs _ => motor hs (keeps_takeRumbleSet s f) (rumbleSound_takeRumbleSet hs.rumble f)
  case rumbleClear tag =>
    exact inv.of_serve fun s hs _ => motor hs (keeps_takeRumbleClear s) (rumbleSound_takeRumbleClear hs.rumble)
  case rumblePeriodMark =>
    exact inv.of_core _ (fun _ => rfl) fun s hs _ => motor hs (keeps_rumbleMark s) (rumbleSound_rumbleMark hs.rumble)
  case cueStart tag cue quantize => exact inv.of_serve fun s hs _ => motorSound_takeCueStart (sound hs) tag cue quantize
  case cuePeriodMark => exact inv.of_core _ (fun _ => rfl) fun s hs _ => motorSound_cueMark (sound hs)
  case measureMark =>
    refine inv.of_core State.measure (fun _ => rfl) fun s hs _ => ?_
    unfold State.measure
    split
    · exact motorSound_finishMark (sound hs)
    · exact sound hs
  case secondTick => exact kept_of_next (fun _ => rfl) fun s hs => inv.secondTick rfl start (sound hs)
  case calendarSet tag f => exact inv.of_serve fun s hs _ => inv.takeCalendarSet rfl start (sound hs) f
  case gameDayStart tag first rollover cap =>
    exact inv.of_serve fun s hs _ => inv.takeGameDayStart rfl start (sound hs) first rollover cap
  case eventSet tag entry trigger cue quantize =>
    exact inv.of_serve fun s hs _ => inv.takeEventSet rfl start (sound hs) entry trigger cue quantize
  all_goals exact motorSound_beside

/-- Settles O54: the grant's two blocks and the driver each by the commands that touch them; a supply-state change by the turns of the
blocks, in whatever order they come. -/
theorem supplyBlocksStaySound : Obligations.SupplyBlocksStaySound := by
  unfold Obligations.SupplyBlocksStaySound
  intro s t hs h
  obtain ⟨governor, mixer⟩ := grantInvariant.step grantSound_kept hs h
  obtain ⟨rumble, _⟩ := motorInvariant.step motorSound_kept hs h
  exact ⟨governor, mixer, rumble⟩

end Sys2Proof.Machine
end

