-- ==== Sys2Proof/Proofs/MemoryInvariant.lean ====
section
/-! SUPPORT. What every step keeps of the memories: wave memory, the staging area and the banks are canonical and hold no byte
outside their sizes (section 3.7, R150). -/

namespace Sys2Proof.Machine

set_option Elab.async false

theorem Memory.within_empty (size : Nat) : Memory.Within [] size := ⟨rfl, nofun⟩

/-- Wave Write and Stage Write stay inside the memory (R48, R156). -/
theorem Memory.Within.write {m : Memory} {size address : Nat} (h : m.Within size) {bytes : List Byte}
    (inside : rangeOk size address bytes.length = true) : (m.writeBytes address bytes).Within size :=
  Memory.within_writeBytes bytes h ((rangeOk_iff _ _ _).1 inside).2.2

/-- Bytes copied up to a place inside the memory, or up to none (R157, R160). -/
theorem Memory.Within.copied {m : Memory} {size moved upTo : Nat} (h : m.Within size) (inside : upTo ≤ size ∨ upTo ≤ moved)
    (source : Memory) : (m.writeBytes moved (source.readBytes moved (upTo - moved))).Within size := by
  by_cases none : upTo ≤ moved
  · rw [Nat.sub_eq_zero_of_le none]
    exact h
  · refine Memory.within_writeBytes _ h ?_
    rw [Memory.length_readBytes]
    omega

theorem BankPair.get_set {α : Type} (p : BankPair α) (target bank : Bank) (x : α) :
    (p.set target x).get bank = if bank = target then x else p.get bank := by
  cases target <;> cases bank <;> rfl

/-! ## Backup memory -/

/-- Staging and banks inside their sizes, and no header that speaks of more. -/
def SaveStore.Canonical (st : SaveStore) : Prop :=
  st.staging.Within 3584 ∧ (∀ slot bank, (st.bank slot bank).Within 3584) ∧ ∀ slot bank, (st.header slot bank).length ≤ 3584

theorem memoriesSound_iff (s : State) : s.MemoriesSound ↔ s.voice.wave.Within 8192 ∧ s.store.Canonical := Iff.rfl

section
variable {st : SaveStore} (h : st.Canonical)
include h

theorem SaveStore.Canonical.writeBank (slot : Fin 4) (target : Bank) {offset : Nat} {bytes : List Byte}
    (written : ((st.bank slot target).writeBytes offset bytes).Within 3584) : (st.writeBank slot target offset bytes).Canonical := by
  obtain ⟨staging, banks, headers⟩ := h
  refine ⟨staging, fun k bank => ?_, headers⟩
  unfold SaveStore.writeBank SaveStore.bank
  by_cases same : slot = k
  · subst same
    rw [Tab.get_modify_self, BankPair.get_set]
    split
    · exact written
    · exact banks slot bank
  · rw [Tab.get_modify_ne _ same]
    exact banks k bank

theorem SaveStore.Canonical.writeHeader (slot : Fin 4) (target : Bank) {header : Header} (short : header.length ≤ 3584) :
    (st.writeHeader slot target header).Canonical := by
  obtain ⟨staging, banks, headers⟩ := h
  refine ⟨staging, banks, fun k bank => ?_⟩
  unfold SaveStore.writeHeader SaveStore.header
  by_cases same : slot = k
  · subst same
    rw [Tab.get_modify_self, BankPair.get_set]
    split
    · exact short
    · exact headers slot bank
  · rw [Tab.get_modify_ne _ same]
    exact headers k bank

theorem SaveStore.Canonical.erased (slot : Fin 4) :
    ({ st with headers := st.headers.set slot ⟨.invalid, .invalid⟩ } : SaveStore).Canonical := by
  obtain ⟨staging, banks, headers⟩ := h
  refine ⟨staging, banks, fun k bank => ?_⟩
  unfold SaveStore.header
  rw [Tab.get_set]
  split
  · cases bank <;> exact Nat.zero_le _
  · exact headers k bank

end

theorem SaveStore.canonical_invalid {st : SaveStore} (banks : ∀ slot bank, (st.bank slot bank).Within 3584)
    (staging : st.staging = []) (headers : st.headers = .replicate 4 ⟨.invalid, .invalid⟩) : st.Canonical := by
  refine ⟨staging ▸ Memory.within_empty _, banks, fun slot bank => ?_⟩
  unfold SaveStore.header
  rw [headers, Tab.get_replicate]
  cases bank <;> exact Nat.zero_le _

theorem SaveStore.canonical_lost : Backup.lost.store.Canonical := by
  refine SaveStore.canonical_invalid (fun slot bank => ?_) rfl rfl
  change (((Tab.replicate 4 (⟨[], []⟩ : BankPair Memory)).get slot).get bank).Within 3584
  rw [Tab.get_replicate]
  cases bank <;> exact Memory.within_empty _

theorem SaveStore.Canonical.checkMarker {b : Backup} (h : b.store.Canonical) : b.checkMarker.store.Canonical := by
  unfold Backup.checkMarker
  split
  · exact h
  · exact SaveStore.canonical_invalid h.2.1 rfl rfl

/-! ## The save controller -/

/-- Backup memory with the length of the payload in hand (R158). -/
def State.StoreSound (s : State) : Prop := s.store.Canonical ∧ s.save.length ≤ 3584

theorem copyAdvance_inside {moved length : Nat} (short : length ≤ 3584) (draw : Nat) :
    copyAdvance moved length draw ≤ 3584 ∨ copyAdvance moved length draw ≤ moved := by
  unfold copyAdvance
  split
  · next more =>
    have := Nat.mod_lt draw (Nat.sub_pos_of_lt more)
    omega
  · exact .inr (Nat.le_refl _)

section
variable {s : State} (h : s.StoreSound)
include h

theorem storeSound_copyUpTo {upTo : Nat} (inside : upTo ≤ 3584 ∨ upTo ≤ s.save.moved) : (s.copyUpTo upTo).StoreSound := by
  obtain ⟨⟨staging, banks, headers⟩, length⟩ := h
  unfold State.copyUpTo
  dsimp only
  split
  · split
    · exact ⟨⟨staging.copied inside _, banks, headers⟩, length⟩
    · exact ⟨⟨staging, banks, headers⟩, length⟩
  · exact ⟨SaveStore.Canonical.writeBank ⟨staging, banks, headers⟩ _ _ ((banks _ _).copied inside _), length⟩
  · exact ⟨⟨staging, banks, headers⟩, length⟩

theorem storeSound_copySoFar : s.copySoFar.StoreSound := by
  unfold State.copySoFar
  split
  · exact storeSound_copyUpTo h (copyAdvance_inside h.2 _)
  · exact storeSound_copyUpTo h (copyAdvance_inside h.2 _)
  · exact h

theorem storeSound_writeSeal : s.writeSeal.StoreSound := ⟨h.1.writeHeader _ _ h.2, h.2⟩

theorem storeSound_stopOperation : s.stopOperation.StoreSound := by
  unfold State.stopOperation
  split
  · exact storeSound_writeSeal h
  · exact storeSound_copySoFar h

theorem storeSound_stopForAbandon : s.stopForAbandon.StoreSound := storeSound_copySoFar h

theorem storeSound_abandonForCritical : s.abandonForCritical.StoreSound := by
  have stopped := storeSound_stopForAbandon h
  unfold State.abandonForCritical
  dsimp only
  split
  · exact h
  · exact h
  all_goals exact stopped

theorem storeSound_acknowledgeReserve (reserve : Bool) : (s.acknowledgeReserve reserve).StoreSound := by
  unfold State.acknowledgeReserve
  split
  · exact ⟨h.1.writeHeader _ _ (Nat.zero_le _), h.2⟩
  · exact h

theorem storeSound_rumbleMark : s.rumbleMark.StoreSound := by
  rw [State.rumbleMark_eq]
  exact storeSound_acknowledgeReserve (s := s.rumbleMarked) h _

theorem storeSound_takeTurn (supply : SupplyState) (turn : SupplyTurn) : (takeTurn supply s turn).StoreSound := by
  cases turn
  case save =>
    change State.StoreSound (if supply = .critical then s.abandonForCritical else s)
    split
    · exact storeSound_abandonForCritical h
    · exact h
  case mixerMark =>
    have save : s.mixerMark.save = s.save := keeps_mixerMark s .save (by decide)
    have store : s.mixerMark.store = s.store := keeps_mixerMark s .store (by decide)
    change s.mixerMark.StoreSound
    unfold State.StoreSound at h ⊢
    rwa [save, store]
  case rumbleMark => exact storeSound_rumbleMark h
  all_goals exact h

theorem storeSound_takeVcart (v : Nat) (turns : List SupplyTurn) : (s.takeVcart v turns).StoreSound := by
  unfold State.takeVcart
  dsimp only
  generalize (s.supply.takeVcart v).roundOn = m
  split
  · exact h
  · have turned : ((allTurns turns).foldl (takeTurn m.supply) (s.withSupply m)).StoreSound :=
      foldl_keeps (P := State.StoreSound) (f := takeTurn m.supply) (fun _ turn h => storeSound_takeTurn h _ turn) _ h
    exact turned

theorem storeSound_completeLoad : s.completeLoad.StoreSound := by
  unfold State.completeLoad
  split
  · exact storeSound_copyUpTo h (.inl h.2)
  · exact h

theorem storeSound_completeCopy : s.completeCopy.StoreSound := by
  have copied := storeSound_copyUpTo h (.inl h.2)
  unfold State.completeCopy
  split
  · exact copied
  · exact h

theorem storeSound_completeSeal : s.completeSeal.StoreSound := by
  have sealed := storeSound_writeSeal h
  unfold State.completeSeal
  split
  · exact sealed
  · exact h

theorem storeSound_takeStageWrite (offset : Nat) (bytes : List Byte) : (takeStageWrite offset bytes s).state.StoreSound := by
  unfold takeStageWrite
  split
  · exact h
  · next inside =>
    split
    · exact h
    · split
      · exact h
      · obtain ⟨⟨staging, banks, headers⟩, length⟩ := h
        exact ⟨⟨staging.write (by simpa using inside), banks, headers⟩, length⟩

theorem storeSound_takeStageRead (offset count : Nat) : (takeStageRead offset count s).state.StoreSound := by
  have copied := storeSound_copySoFar h
  unfold takeStageRead
  split
  · dsimp only [accept_state]
    split
    · exact copied
    · exact h
  · exact h

theorem storeSound_takeCommitAbort : (takeCommitAbort s).state.StoreSound := by
  have stopped := storeSound_stopForAbandon h
  unfold takeCommitAbort
  split
  · exact stopped
  · exact stopped
  · exact h
  · exact h

theorem storeSound_takeSlotErase (slot : Nat) : (takeSlotErase slot s).state.StoreSound := by
  unfold takeSlotErase
  split
  · exact h
  · split
    · exact h
    · split
      · exact h
      · exact ⟨h.1.erased _, h.2⟩

end

/-! ## The commands -/

theorem memoriesInvariant : Invariant State.MemoriesSound [.wave, .store] where
  sound _ hs := hs.memories
  keeps {s t} same h := by
    have wave : t.voice.wave = s.voice.wave := same .wave (by decide)
    have store : t.backup.store = s.backup.store := same .store (by decide)
    unfold State.MemoriesSound State.store at h ⊢
    rwa [wave, store]

theorem State.Sound.store {s : State} (h : s.Sound) : s.StoreSound := by
  obtain ⟨_, _, _, length, _⟩ := h.save
  exact ⟨h.memories.2, length⟩

/-- Wave memory as it was, and backup memory as the operation leaves it. -/
theorem memoriesSound_of_store {s t : State} (hs : s.Sound) {touched : List Part} (keeps : s.Keeps t touched) (store : t.StoreSound)
    (clear : clearOf [.wave] touched = true := by rfl) : t.MemoriesSound := by
  have wave : t.voice.wave = s.voice.wave := keeps .wave (not_mem_of_clearOf clear (List.mem_singleton_self _))
  refine ⟨?_, store.1⟩
  rw [wave]
  exact hs.memories.1

/-- The core comes up with an empty wave memory (R51). -/
theorem memoriesSound_started {s : State} (wave : s.voice.wave = []) (store : s.store.Canonical) : s.MemoriesSound :=
  ⟨wave ▸ Memory.within_empty _, store⟩

theorem canonical_stopCore {s : State} (h : s.StoreSound) : s.stopCore.store.Canonical := (storeSound_stopOperation h).1

theorem Backup.powerReturn_store (b : Backup) : b.powerReturn.store = b.store := by
  unfold Backup.powerReturn
  split <;> rfl

theorem canonical_powerUp {s : State} (h : s.StoreSound) : s.powerUp.store.Canonical := by
  have stopped : (if s.corePowered then s.stopCore else s).backup.store.Canonical := by
    split
    · exact canonical_stopCore h
    · exact h.1
  rw [← Backup.powerReturn_store] at stopped
  exact stopped.checkMarker

/-- Every command keeps the memories canonical and inside their sizes. -/
theorem memoriesSound_kept (c : Instr) : KeptBy State.MemoriesSound c := by
  have inv := memoriesInvariant
  cases c
  case powerUp => exact kept_of_next (fun _ => rfl) fun s hs => memoriesSound_started rfl (canonical_powerUp hs.store)
  case cartridgeSupplyLoss =>
    exact inv.of_core _ (fun _ => rfl) fun s hs _ => memoriesSound_started rfl (canonical_stopCore hs.store)
  case restart tag =>
    refine inv.of_restart fun s hs => memoriesSound_started rfl ?_
    exact SaveStore.Canonical.checkMarker (canonical_stopCore hs.store)
  case backupDomainPowerLoss =>
    refine kept_of_next (fun _ => rfl) fun s hs => ?_
    split
    · exact hs.memories
    · exact ⟨hs.memories.1, SaveStore.canonical_lost⟩
  case waveWrite tag address bytes =>
    refine inv.of_serve fun s hs _ => ?_
    unfold takeWaveWrite
    split
    · next inside => exact ⟨hs.memories.1.write inside, hs.memories.2⟩
    · exact hs.memories
  case stageWrite tag offset bytes =>
    exact inv.of_serve fun s hs _ =>
      memoriesSound_of_store hs (keeps_takeStageWrite s offset bytes) (storeSound_takeStageWrite hs.store offset bytes)
  case stageRead tag offset count =>
    exact inv.of_serve fun s hs _ =>
      memoriesSound_of_store hs (keeps_takeStageRead s offset count) (storeSound_takeStageRead hs.store offset count)
  case commitAbort tag =>
    exact inv.of_serve fun s hs _ => memoriesSound_of_store hs (keeps_takeCommitAbort s) (storeSound_takeCommitAbort hs.store)
  case slotErase tag slot =>
    exact inv.of_serve fun s hs _ => memoriesSound_of_store hs (keeps_takeSlotErase s slot) (storeSound_takeSlotErase hs.store slot)
  case loadComplete =>
    exact inv.of_core _ (fun _ => rfl) fun s hs _ => memoriesSound_of_store hs (keeps_completeLoad s) (storeSound_completeLoad hs.store)
  case copyComplete =>
    exact inv.of_core _ (fun _ => rfl) fun s hs _ => memoriesSound_of_store hs (keeps_completeCopy s) (storeSound_completeCopy hs.store)
  case sealComplete =>
    exact inv.of_core _ (fun _ => rfl) fun s hs _ => memoriesSound_of_store hs (keeps_completeSeal s) (storeSound_completeSeal hs.store)
  case rumblePeriodMark =>
    exact inv.of_core _ (fun _ => rfl) fun s hs _ => memoriesSound_of_store hs (keeps_rumbleMark s) (storeSound_rumbleMark hs.store)
  case vcartResult f =>
    refine inv.of_core _ (fun _ => rfl) fun s hs _ => ?_
    split
    · exact memoriesSound_of_store hs (keeps_takeVcart s _ _) (storeSound_takeVcart hs.store _ _)
    · exact hs.memories
  all_goals exact inv.untouched

end Sys2Proof.Machine
end

