-- ==== Sys2Proof/Proofs/QueueInvariant.lean ====
section
/-! SUPPORT. What every step keeps of the link's queues: their lengths, and the requests taken up and not answered, which are those
that a reply is owed, one for one (R171, R172). -/

namespace Sys2Proof.Machine

set_option Elab.async false

/-! ## Lists -/

/-- Removing the first element that one test finds, seen through the elements of another test and a value of theirs. -/
theorem map_filter_eraseP {α β : Type} [BEq β] [LawfulBEq β] {p q : α → Bool} {f : α → β} {b : β}
    (hq : ∀ a, q a = true ↔ p a = true ∧ f a = b) (l : List α) :
    ((l.eraseP q).filter p).map f = ((l.filter p).map f).erase b := by
  induction l with
  | nil => rfl
  | cons a l ih =>
    by_cases found : q a = true
    · obtain ⟨taken, same⟩ := (hq a).1 found
      rw [List.eraseP_cons_of_pos found, List.filter_cons_of_pos taken, List.map_cons, same, List.erase_cons_head]
    · rw [List.eraseP_cons_of_neg found]
      by_cases taken : p a = true
      · have other : f a ≠ b := fun same => found ((hq a).2 ⟨taken, same⟩)
        rw [List.filter_cons_of_pos taken, List.filter_cons_of_pos taken, List.map_cons, List.map_cons, ih,
          List.erase_cons_tail (by simpa using other)]
      · rw [List.filter_cons_of_neg taken, List.filter_cons_of_neg taken, ih]

theorem filter_eraseP_of_disjoint {α : Type} {p q : α → Bool} (apart : ∀ a, q a = true → ¬p a = true) (l : List α) :
    (l.eraseP q).filter p = l.filter p := by
  induction l with
  | nil => rfl
  | cons a l ih =>
    by_cases found : q a = true
    · rw [List.eraseP_cons_of_pos found, List.filter_cons_of_neg (apart a found)]
    · rw [List.eraseP_cons_of_neg found, List.filter_cons, List.filter_cons, ih]

/-! ## The inbound request queue -/

/-- A request by its kind and tag. -/
def InboundRequest.key (e : InboundRequest) : Byte × Byte := (e.kind, e.tag)

/-- The request that a reply answers, by its kind and tag (R172). -/
def Reply.request (r : Reply) : Byte × Byte := (r.kind - 0x80, r.tag)

/-- The requests taken up and not answered. -/
def takenUp (inbound : List InboundRequest) : List (Byte × Byte) := (inbound.filter (InboundRequest.at .deferred)).map InboundRequest.key

/-- The requests handed on and not taken up. -/
def handedOn (inbound : List InboundRequest) : List InboundRequest := inbound.filter (InboundRequest.at .handed)

theorem Reply.answers_iff (r : Reply) (stage : Stage) (e : InboundRequest) :
    r.answers stage e = true ↔ InboundRequest.at stage e = true ∧ e.key = r.request := by
  have kinds : e.kind + 0x80 = r.kind ↔ e.kind = r.kind - 0x80 := by
    constructor <;> intro h <;> bv_omega
  simp only [Reply.answers, InboundRequest.at, InboundRequest.key, Reply.request, Bool.and_eq_true, decide_eq_true_eq,
    beq_iff_eq, Prod.mk.injEq, and_assoc, kinds]

theorem InboundRequest.at_ne {a b : Stage} (apart : a ≠ b) (e : InboundRequest) (h : InboundRequest.at a e = true) :
    ¬InboundRequest.at b e = true := by
  simp only [InboundRequest.at, decide_eq_true_eq] at h ⊢
  exact fun same => apart (h.symm.trans same)

/-- The answer of a request that was not taken up leaves those that were. -/
theorem takenUp_erase_of_ne (r : Reply) {stage : Stage} (other : stage ≠ .deferred) (inbound : List InboundRequest) :
    takenUp (inbound.eraseP (r.answers stage)) = takenUp inbound := by
  unfold takenUp
  rw [filter_eraseP_of_disjoint fun e answered => InboundRequest.at_ne other e ((r.answers_iff stage e).1 answered).1]

theorem takenUp_erase (r : Reply) (inbound : List InboundRequest) :
    takenUp (inbound.eraseP (r.answers .deferred)) = (takenUp inbound).erase r.request :=
  map_filter_eraseP (r.answers_iff .deferred) inbound

theorem length_handedOn_erase (r : Reply) (stage : Stage) (inbound : List InboundRequest) :
    (handedOn (inbound.eraseP (r.answers stage))).length ≤ (handedOn inbound).length :=
  (List.Sublist.filter _ List.eraseP_sublist).length_le

theorem handedOn_cons (e : InboundRequest) (es : List InboundRequest) :
    handedOn (e :: es) = if e.stage = .handed then e :: handedOn es else handedOn es := by
  simp [handedOn, InboundRequest.at, List.filter_cons]

theorem takenUp_cons (e : InboundRequest) (es : List InboundRequest) :
    takenUp (e :: es) = if e.stage = .deferred then e.key :: takenUp es else takenUp es := by
  unfold takenUp
  by_cases taken : e.stage = .deferred <;> simp [InboundRequest.at, taken]

theorem markDeferred_cons (kind tag : Byte) (e : InboundRequest) (es : List InboundRequest) :
    markDeferred kind tag (e :: es) =
      if e.stage = .handed ∧ e.kind = kind ∧ e.tag = tag then { e with stage := .deferred } :: es
      else e :: markDeferred kind tag es := rfl

theorem markHanded_cons (e : InboundRequest) (es : List InboundRequest) :
    markHanded (e :: es) = if e.stage = .waiting then { e with stage := .handed } :: es else e :: markHanded es := rfl

@[simp] theorem length_markDeferred (kind tag : Byte) (inbound : List InboundRequest) :
    (markDeferred kind tag inbound).length = inbound.length := by
  induction inbound with
  | nil => rfl
  | cons e es ih =>
    rw [markDeferred_cons]
    split
    · rfl
    · rw [List.length_cons, List.length_cons, ih]

/-- A request handed on is taken up: one handed on is one fewer, and one taken up is one more. -/
theorem markDeferred_moves {kind tag : Byte} {inbound : List InboundRequest}
    (found : ∃ e ∈ inbound, e.stage = .handed ∧ e.kind = kind ∧ e.tag = tag) :
    (handedOn (markDeferred kind tag inbound)).length + 1 = (handedOn inbound).length ∧
    (takenUp (markDeferred kind tag inbound)).Perm ((kind, tag) :: takenUp inbound) := by
  induction inbound with
  | nil => exact absurd found (by simp)
  | cons e es ih =>
    rw [markDeferred_cons, handedOn_cons e, takenUp_cons e]
    split
    · next its =>
      obtain ⟨handed, rfl, rfl⟩ := its
      rw [handedOn_cons, takenUp_cons, if_neg nofun, if_pos rfl, if_pos handed, if_neg (by rw [handed]; nofun)]
      exact ⟨rfl, .refl _⟩
    · next other =>
      obtain ⟨x, hx, hkey⟩ := found
      have there : x ∈ es := (List.mem_cons.1 hx).resolve_left fun same => other (same ▸ hkey)
      obtain ⟨handed, taken⟩ := ih ⟨x, there, hkey⟩
      rw [handedOn_cons, takenUp_cons]
      constructor
      · split
        · rw [List.length_cons, List.length_cons, handed]
        · exact handed
      · split
        · exact (taken.cons _).trans (.swap _ _ _)
        · exact taken

@[simp] theorem length_markHanded (inbound : List InboundRequest) : (markHanded inbound).length = inbound.length := by
  induction inbound with
  | nil => rfl
  | cons e es ih =>
    rw [markHanded_cons]
    split
    · rfl
    · rw [List.length_cons, List.length_cons, ih]

theorem takenUp_markHanded (inbound : List InboundRequest) : takenUp (markHanded inbound) = takenUp inbound := by
  induction inbound with
  | nil => rfl
  | cons e es ih =>
    rw [markHanded_cons, takenUp_cons e]
    split
    · next waiting => rw [takenUp_cons, if_neg nofun, if_neg (by rw [waiting]; nofun)]
    · rw [takenUp_cons, ih]

theorem length_handedOn_markHanded (inbound : List InboundRequest) :
    (handedOn (markHanded inbound)).length ≤ (handedOn inbound).length + 1 := by
  induction inbound with
  | nil => exact Nat.zero_le _
  | cons e es ih =>
    rw [markHanded_cons, handedOn_cons e]
    split
    · next waiting =>
      rw [handedOn_cons, if_pos rfl, if_neg (by rw [waiting]; nofun)]
      exact Nat.le_refl _
    · rw [handedOn_cons]
      split
      · exact Nat.succ_le_succ ih
      · exact ih

/-! ## The queues, and what operations owe -/

/-- The queues as `State.QueuesSound` wants them, when the operations in flight owe these replies. -/
structure Link.QueuesFor (l : Link) (debts : List (Byte × Byte)) : Prop where
  inbound : l.inbound.length ≤ 4
  replies : l.replies.length ≤ 4
  waiting : l.waiting ≠ [] → l.replies.length = 4
  handed : (handedOn l.inbound).length ≤ 1
  taken : (takenUp l.inbound).Perm (debts ++ l.waiting.map Reply.request)

section
variable {l : Link} {debts : List (Byte × Byte)} (h : l.QueuesFor debts)
include h

theorem Link.QueuesFor.of_queues {l' : Link} (same : l'.queues = l.queues) : l'.QueuesFor debts := by
  simp only [Link.queues, Prod.mk.injEq] at same
  obtain ⟨inbound, replies, waiting⟩ := same
  exact ⟨inbound ▸ h.inbound, replies ▸ h.replies, by rw [waiting, replies]; exact h.waiting, inbound ▸ h.handed,
    by rw [inbound, waiting]; exact h.taken⟩

theorem Link.QueuesFor.of_perm {debts' : List (Byte × Byte)} (perm : debts.Perm debts') : l.QueuesFor debts' :=
  ⟨h.inbound, h.replies, h.waiting, h.handed, h.taken.trans (perm.append_right _)⟩

theorem Link.QueuesFor.none_waits (place : l.replies.length < 4) : l.waiting = [] :=
  Decidable.byContradiction fun waits => Nat.ne_of_lt place (h.waiting waits)

/-- A reply to a request that was not taken up joins the queue, for which there is a place. -/
theorem Link.QueuesFor.join (place : l.replies.length < 4) {stage : Stage} (other : stage ≠ .deferred) (r : Reply) :
    (l.join stage r).QueuesFor debts where
  inbound := (List.length_eraseP_le).trans h.inbound
  replies := by
    change (l.replies ++ [r]).length ≤ 4
    rw [List.length_append]
    exact place
  waiting waits := absurd (h.none_waits place) waits
  handed := (length_handedOn_erase r stage _).trans h.handed
  taken := by
    change (takenUp (l.inbound.eraseP (r.answers stage))).Perm (debts ++ l.waiting.map Reply.request)
    rw [takenUp_erase_of_ne r other]
    exact h.taken

/-- A request handed on is taken up with its reply deferred: a reply is owed to it from now on. -/
theorem Link.QueuesFor.deferring {kind tag : Byte} (found : ∃ e ∈ l.inbound, e.stage = .handed ∧ e.kind = kind ∧ e.tag = tag) :
    Link.QueuesFor { l with inbound := markDeferred kind tag l.inbound } ((kind, tag) :: debts) := by
  obtain ⟨handed, taken⟩ := markDeferred_moves found
  exact {
    inbound := (length_markDeferred kind tag _).trans_le h.inbound
    replies := h.replies
    waiting := h.waiting
    handed := by
      have := h.handed
      change (handedOn (markDeferred kind tag l.inbound)).length ≤ 1
      omega
    taken := taken.trans (h.taken.cons _) }

end

theorem Link.QueuesFor.deliver {l : Link} {r : Reply} {debts : List (Byte × Byte)} (h : l.QueuesFor (r.request :: debts)) :
    (l.deliver r).QueuesFor debts := by
  unfold Link.deliver
  split
  · next place =>
    have none := h.none_waits place
    exact {
      inbound := (List.length_eraseP_le).trans h.inbound
      replies := by
        change (l.replies ++ [r]).length ≤ 4
        rw [List.length_append]
        exact place
      waiting := fun waits => absurd none waits
      handed := (length_handedOn_erase r .deferred _).trans h.handed
      taken := by
        change (takenUp (l.inbound.eraseP (r.answers .deferred))).Perm (debts ++ l.waiting.map Reply.request)
        rw [takenUp_erase]
        have answered := h.taken.erase r.request
        rwa [List.cons_append, List.erase_cons_head] at answered }
  · next full =>
    exact {
      inbound := h.inbound
      replies := h.replies
      waiting := fun _ => by
        have := h.replies
        change l.replies.length = 4
        omega
      handed := h.handed
      taken := by
        change (takenUp l.inbound).Perm (debts ++ (l.waiting ++ [r]).map Reply.request)
        refine h.taken.trans ?_
        rw [List.map_append, ← List.append_assoc, List.cons_append]
        exact (List.perm_append_singleton _ _).symm }

/-- A reply has been sent: its place goes to the reply that has waited longest. -/
theorem Link.QueuesFor.completeReply {l : Link} {debts : List (Byte × Byte)} (h : l.QueuesFor debts) :
    l.completeReply.QueuesFor debts := by
  have shorter : l.replies.tail.length = l.replies.length - 1 := List.length_tail
  have few := h.replies
  unfold Link.completeReply
  dsimp only
  split
  · next none =>
    exact {
      inbound := h.inbound
      replies := by
        change l.replies.tail.length ≤ 4
        omega
      waiting := fun waits => absurd none waits
      handed := h.handed
      taken := h.taken }
  · next r rs waiting =>
    have waiting : l.waiting = r :: rs := waiting
    have full : l.replies.length = 4 := h.waiting (by rw [waiting]; nofun)
    have joined : (l.replies.tail ++ [r]).length = 4 := by
      rw [List.length_append, shorter, full]
      rfl
    exact {
      inbound := (List.length_eraseP_le).trans h.inbound
      replies := joined.le
      waiting := fun _ => joined
      handed := (length_handedOn_erase r .deferred _).trans h.handed
      taken := by
        change (takenUp (l.inbound.eraseP (r.answers .deferred))).Perm (debts ++ rs.map Reply.request)
        have answered := h.taken.erase r.request
        rw [waiting, List.map_cons] at answered
        rw [takenUp_erase]
        refine answered.trans ?_
        have first : (debts ++ r.request :: rs.map Reply.request).Perm (r.request :: (debts ++ rs.map Reply.request)) :=
          List.perm_middle
        have rest := first.erase r.request
        rwa [List.erase_cons_head] at rest }

theorem Link.QueuesFor.enqueue {l : Link} {debts : List (Byte × Byte)} (h : l.QueuesFor debts) (kind tag : Byte) (body : List Byte) :
    (l.enqueue kind tag body).QueuesFor debts := by
  unfold Link.enqueue
  split
  · next place =>
    have handed : handedOn (l.inbound ++ [⟨kind, tag, body, .waiting⟩]) = handedOn l.inbound := by
      simp [handedOn, InboundRequest.at]
    have taken : takenUp (l.inbound ++ [⟨kind, tag, body, .waiting⟩]) = takenUp l.inbound := by
      simp [takenUp, InboundRequest.at]
    exact {
      inbound := by
        change (l.inbound ++ [(⟨kind, tag, body, .waiting⟩ : InboundRequest)]).length ≤ 4
        rw [List.length_append]
        exact place
      replies := h.replies
      waiting := h.waiting
      handed := by
        change (handedOn (l.inbound ++ [⟨kind, tag, body, .waiting⟩])).length ≤ 1
        rw [handed]
        exact h.handed
      taken := by
        change (takenUp (l.inbound ++ [⟨kind, tag, body, .waiting⟩])).Perm _
        rw [taken]
        exact h.taken }
  · exact h.of_queues (l.count_queues _)

/-- A request is handed on while none is. -/
theorem Link.QueuesFor.markHanded {l : Link} {debts : List (Byte × Byte)} (h : l.QueuesFor debts)
    (none : l.inbound.any (InboundRequest.at .handed) = false) :
    Link.QueuesFor { l with inbound := markHanded l.inbound } debts where
  inbound := (length_markHanded _).trans_le h.inbound
  replies := h.replies
  waiting := h.waiting
  handed := by
    have empty : handedOn l.inbound = [] := List.filter_eq_nil_iff.2 fun e he handed =>
      absurd (none.symm.trans (List.any_eq_true.2 ⟨e, he, handed⟩)) nofun
    have := length_handedOn_markHanded l.inbound
    rwa [empty] at this
  taken := by
    change (takenUp (Machine.markHanded l.inbound)).Perm _
    rw [takenUp_markHanded]
    exact h.taken

/-- The link after a reset, with the replies that Restart leaves (R177). -/
theorem Link.queuesFor_empty {l : Link} (inbound : l.inbound = []) (replies : l.replies.length ≤ 4) (waiting : l.waiting = []) :
    l.QueuesFor [] := by
  refine ⟨?_, replies, fun waits => absurd waiting waits, ?_, ?_⟩
  · rw [inbound]
    exact Nat.zero_le _
  · rw [inbound]
    exact Nat.zero_le _
  · rw [inbound, waiting]
    exact .refl _

end Sys2Proof.Machine
end

