-- ==== Sys2Proof/Proofs/QueueSteps.lean ====
section
/-! SUPPORT. The queues at every command: what a request's row does to them, and how an operation in flight, a calibration and a
waiting start come to owe a reply and to give it (R7, R143, R155, R172). -/

namespace Sys2Proof.Machine

set_option Elab.async false

/-! ## What is owed -/

/-- What a calibration and the waiting starts owe. -/
def State.owingBeside (s : State) : List (Byte × Byte) := s.supply.owed ++ s.cue.starts.filterMap PendingStart.owed

/-- What the operations of all owners owe. -/
def State.owing (s : State) : List (Byte × Byte) := s.save.owed ++ s.owingBeside

theorem queuesSound_iff (s : State) : s.QueuesSound ↔ s.link.QueuesFor s.owing := by
  have owed : s.owed = s.owing ++ s.link.waiting.map Reply.request := by
    unfold State.owed State.owing State.owingBeside
    rw [← List.append_assoc]
    rfl
  unfold State.QueuesSound
  rw [owed]
  exact ⟨fun ⟨inbound, replies, waiting, handed, taken⟩ => ⟨inbound, replies, waiting, handed, taken⟩,
    fun ⟨inbound, replies, waiting, handed, taken⟩ => ⟨inbound, replies, waiting, handed, taken⟩⟩

/-- The controller owes by its state and the tag it keeps. -/
theorem SaveController.owed_eq {c d : SaveController} (state : d.state = c.state) (tag : d.deferredTag = c.deferredTag) :
    d.owed = c.owed := by
  unfold SaveController.owed
  rw [state, tag]

theorem SupplyMonitor.owed_eq {m n : SupplyMonitor} (calibration : n.calibration = m.calibration) : n.owed = m.owed := by
  unfold SupplyMonitor.owed
  rw [calibration]

theorem owingBeside_of_keeps {s t : State} {touched : List Part} (keeps : s.Keeps t touched)
    (starts : t.cue.starts.filterMap PendingStart.owed = s.cue.starts.filterMap PendingStart.owed)
    (clear : clearOf [.calibration] touched = true := by rfl) : t.owingBeside = s.owingBeside := by
  have calibration : t.supply.calibration = s.supply.calibration :=
    keeps .calibration (not_mem_of_clearOf clear (List.mem_singleton_self _))
  unfold State.owingBeside
  rw [starts, SupplyMonitor.owed_eq calibration]

theorem queuesInvariant : Invariant State.QueuesSound [.queues, .save, .calibration, .cue] where
  sound _ hs := hs.queues
  keeps {s t} same h := by
    have queues : t.link.queues = s.link.queues := same .queues (by decide)
    have save : t.save = s.save := same .save (by decide)
    have calibration : t.supply.calibration = s.supply.calibration := same .calibration (by decide)
    have cue : t.cue = s.cue := same .cue (by decide)
    rw [queuesSound_iff] at h ⊢
    have owing : t.owing = s.owing := by
      unfold State.owing State.owingBeside
      rw [save, cue, SupplyMonitor.owed_eq calibration]
    rw [owing]
    exact h.of_queues queues

section
variable {s t : State} {touched : List Part} (h : s.QueuesSound)
include h

/-- A step of the save controller that owes what it owed. -/
theorem queuesSound_of_save (keeps : s.Keeps t touched) (owed : t.save.owed = s.save.owed)
    (clear : clearOf [.queues, .calibration, .cue] touched = true := by rfl) : t.QueuesSound := by
  have queues : t.link.queues = s.link.queues := keeps .queues (not_mem_of_clearOf clear (by decide))
  have calibration : t.supply.calibration = s.supply.calibration := keeps .calibration (not_mem_of_clearOf clear (by decide))
  have cue : t.cue = s.cue := keeps .cue (not_mem_of_clearOf clear (by decide))
  rw [queuesSound_iff] at h ⊢
  unfold State.owing State.owingBeside at h ⊢
  rw [owed, cue, SupplyMonitor.owed_eq calibration]
  exact h.of_queues queues

/-- A step of the cue unit that leaves the starts that answer requests. -/
theorem queuesSound_of_cue (keeps : s.Keeps t touched)
    (starts : (s.cue.starts.filterMap PendingStart.owed).Perm (t.cue.starts.filterMap PendingStart.owed))
    (clear : clearOf [.queues, .calibration, .save] touched = true := by rfl) : t.QueuesSound := by
  have queues : t.link.queues = s.link.queues := keeps .queues (not_mem_of_clearOf clear (by decide))
  have calibration : t.supply.calibration = s.supply.calibration := keeps .calibration (not_mem_of_clearOf clear (by decide))
  have save : t.save = s.save := keeps .save (not_mem_of_clearOf clear (by decide))
  rw [queuesSound_iff] at h ⊢
  unfold State.owing State.owingBeside at h ⊢
  rw [save, SupplyMonitor.owed_eq calibration]
  exact (h.of_queues queues).of_perm ((starts.append_left _).append_left _)

omit h in
theorem Reply.request_answer (kind tag : Byte) (status : Status) (body : ReplyBody) :
    Reply.request ⟨kind + 0x80, tag, status, body⟩ = (kind, tag) := by
  have same : kind + 0x80 - 0x80 = kind := by bv_omega
  unfold Reply.request
  rw [same]

/-- An owner owes one reply less than before, and gives it. -/
theorem queuesSound_deliver {r : Reply} (queues : t.link.queues = s.link.queues) (owing : s.owing.Perm (r.request :: t.owing)) :
    (t.withLink (t.link.deliver r)).QueuesSound := by
  rw [queuesSound_iff] at h ⊢
  exact ((h.of_queues queues).of_perm owing).deliver

theorem queuesSound_answer {kind tag : Byte} (status : Status) (body : ReplyBody) (queues : t.link.queues = s.link.queues)
    (owing : s.owing.Perm ((kind, tag) :: t.owing)) : (t.answer kind tag status body).QueuesSound :=
  queuesSound_deliver h queues (by rwa [Reply.request_answer])

/-- The controller's operation ends with its reply. -/
theorem queuesSound_ended {kind tag : Byte} (status : Status) (body : ReplyBody) (keeps : s.Keeps t touched)
    (owed : s.save.owed = [(kind, tag)]) (idle : t.save.state = .idle)
    (clear : clearOf [.queues, .calibration, .cue] touched = true := by rfl) : (t.answer kind tag status body).QueuesSound := by
  have queues : t.link.queues = s.link.queues := keeps .queues (not_mem_of_clearOf clear (by decide))
  have calibration : t.supply.calibration = s.supply.calibration := keeps .calibration (not_mem_of_clearOf clear (by decide))
  have cue : t.cue = s.cue := keeps .cue (not_mem_of_clearOf clear (by decide))
  refine queuesSound_answer h status body queues ?_
  unfold State.owing State.owingBeside
  rw [owed, cue, SupplyMonitor.owed_eq calibration, SaveController.owed, idle]
  exact .refl _

/-! ## Requests -/

theorem queuesSound_reply (place : s.link.replies.length < 4) (kind tag : Byte) (status : Status) (body : ReplyBody) :
    (s.reply kind tag status body).QueuesSound := by
  rw [queuesSound_iff] at h ⊢
  exact h.join place (stage := .handed) nofun _

theorem queuesSound_defer {kind tag : Byte} (found : ∃ e ∈ s.link.inbound, e.stage = .handed ∧ e.kind = kind ∧ e.tag = tag)
    (queues : t.link.queues = s.link.queues) (owing : t.owing.Perm ((kind, tag) :: s.owing)) :
    ((defer t).finish kind tag).QueuesSound := by
  rw [queuesSound_iff] at h
  have deferred := (h.of_queues queues).deferring (kind := kind) (tag := tag) (by
    simp only [Link.queues, Prod.mk.injEq] at queues
    rwa [queues.1])
  rw [finish_defer, queuesSound_iff]
  exact deferred.of_perm owing.symm

omit h in
theorem length_replies_of_queues {l l' : Link} (queues : l'.queues = l.queues) : l'.replies.length = l.replies.length := by
  simp only [Link.queues, Prod.mk.injEq] at queues
  rw [queues.2.1]

/-- The request's own reply joins first, then that of the operation that it ended (R172; log entry 25). -/
theorem queuesSound_finish_ended (place : s.link.replies.length < 4) (queues : t.link.queues = s.link.queues) {r : Reply}
    (owing : s.owing.Perm (r.request :: t.owing)) (kind tag : Byte) (status : Status) (body : ReplyBody) :
    (Taken.finish ⟨t, some (status, body), [r]⟩ kind tag).QueuesSound := by
  rw [queuesSound_iff] at h ⊢
  rw [← length_replies_of_queues queues] at place
  exact (((h.of_queues queues).join place (stage := .handed) nofun ⟨kind + 0x80, tag, status, body⟩).of_perm owing).deliver

/-- The controller leaves IDLE and owes the request a reply. -/
theorem queuesSound_leaveIdle {kind tag : Byte} (found : ∃ e ∈ s.link.inbound, e.stage = .handed ∧ e.kind = kind ∧ e.tag = tag)
    (idle : s.save.state = .idle) {c : SaveController} (owed : c.owed = [(kind, tag)]) :
    ((defer (s.leaveIdle c)).finish kind tag).QueuesSound := by
  refine queuesSound_defer h found rfl ?_
  have none : s.save.owed = [] := by rw [SaveController.owed, idle]
  change (c.owed ++ s.owingBeside).Perm ((kind, tag) :: (s.save.owed ++ s.owingBeside))
  rw [owed, none]
  exact .refl _

end

theorem Link.handed_of_admits {l : Link} {c : Instr} {kind tag : Byte} (hc : requestOf c = some (kind, tag))
    (h : l.admits c = true) : ∃ e ∈ l.inbound, e.stage = .handed ∧ e.kind = kind ∧ e.tag = tag := by
  simp only [Link.admits, Bool.and_eq_true, List.any_eq_true, InboundRequest.offers, decide_eq_true_eq, hc, Option.some.injEq,
    Prod.mk.injEq] at h
  obtain ⟨_, e, he, ⟨⟨handed, kind, tag⟩, _⟩⟩ := h
  exact ⟨e, he, handed, kind.symm, tag.symm⟩

theorem State.Serves.place {s : State} {c : Instr} (h : s.Serves c) : s.link.replies.length < 4 := Link.place_of_admits h.2.2

/-- A request that needs READY, by what its owner gives for it. -/
theorem queuesSound_of_serve {c : Instr} {kind tag : Byte} {owner : State → Taken}
    (ho : ∀ s : State, s.Sound → s.Serves c → ((owner s).finish kind tag).QueuesSound)
    (hc : requestOf c = some (kind, tag) := by rfl) (he : ∀ s, exec c s = serve c owner s := by exact fun _ => rfl) :
    KeptBy State.QueuesSound c := by
  intro s t hs h
  rcases serve_cases hc ((he s).symm.trans h) with rfl | ⟨_, admits, _, rfl⟩ | ⟨serves, rfl⟩
  · exact hs.queues
  · exact queuesSound_reply hs.queues (Link.place_of_admits admits) _ _ _ _
  · exact ho s hs serves

/-- A request whose row acts before READY too. -/
theorem queuesSound_of_request {c : Instr} {kind tag : Byte} (effect : Byte → Byte → State → State)
    (he : ∀ s, exec c s = onRequest c effect s)
    (ho : ∀ s : State, s.Sound → s.link.replies.length < 4 → (effect kind tag s).QueuesSound)
    (hc : requestOf c = some (kind, tag) := by rfl) : KeptBy State.QueuesSound c := by
  refine queuesInvariant.of_core _ he fun s hs _ => ?_
  rw [hc]
  dsimp only
  split
  · next admits => exact ho s hs (Link.place_of_admits admits)
  · exact hs.queues

/-- A request that is answered at once, and ends no operation. -/
def Taken.Answered (t : Taken) : Prop := t.reply.isSome = true ∧ t.ended = []

theorem answered_refuse (s : State) (status : Status) : (refuse s status).Answered := ⟨rfl, rfl⟩
theorem answered_accept (s : State) (body : ReplyBody) : (accept s body).Answered := ⟨rfl, rfl⟩

theorem Taken.Answered.finish {t : Taken} (h : t.Answered) (kind tag : Byte) :
    ∃ status body, t.finish kind tag = t.state.reply kind tag status body := by
  obtain ⟨u, reply, ended⟩ := t
  obtain ⟨some, none⟩ := h
  cases reply with
  | none => cases some
  | some answer =>
    change ended = [] at none
    subst none
    exact ⟨answer.1, answer.2, rfl⟩

theorem queuesSound_of_answered {c : Instr} {kind tag : Byte} {owner : State → Taken}
    (answered : ∀ s : State, (owner s).Answered)
    (queues : ∀ s : State, (owner s).state.link.queues = s.link.queues)
    (ho : ∀ s : State, s.Sound → s.Serves c → (owner s).state.QueuesSound)
    (hc : requestOf c = some (kind, tag) := by rfl) (he : ∀ s, exec c s = serve c owner s := by exact fun _ => rfl) :
    KeptBy State.QueuesSound c := by
  refine queuesSound_of_serve (owner := owner) (fun s hs serves => ?_) hc he
  obtain ⟨status, body, finish⟩ := (answered s).finish kind tag
  rw [finish]
  refine queuesSound_reply (ho s hs serves) ?_ _ _ _ _
  rw [length_replies_of_queues (queues s)]
  exact serves.place

/-- A request that is answered at once, whose owner touches nothing that the queues rest on. -/
theorem queuesSound_of_beside {c : Instr} {kind tag : Byte} {owner : State → Taken} {touched : List Part}
    (answered : ∀ s : State, (owner s).Answered) (keeps : ∀ s : State, s.Keeps (owner s).state touched)
    (clear : clearOf [.queues, .save, .calibration, .cue] touched = true := by rfl)
    (hc : requestOf c = some (kind, tag) := by rfl) (he : ∀ s, exec c s = serve c owner s := by exact fun _ => rfl) :
    KeptBy State.QueuesSound c :=
  queuesSound_of_answered answered (fun s => keeps s .queues (not_mem_of_clearOf clear (by decide)))
    (fun s hs _ => queuesInvariant.of_keeps (keeps s) hs.queues clear) hc he

/-! ### The owners that answer at once -/

section
variable (s : State)

theorem answered_takeNoticeMask (mask : Word16) : (takeNoticeMask mask s).Answered := by
  unfold takeNoticeMask
  split <;> exact ⟨rfl, rfl⟩

theorem answered_takeSupplySet (low critical hysteresis battery : Nat) :
    (takeSupplySet low critical hysteresis battery s).Answered := by
  unfold takeSupplySet
  split <;> exact ⟨rfl, rfl⟩

theorem answered_takeVoiceSet (voice : Nat) (f : VoiceSetFields) : (takeVoiceSet voice f s).Answered := by
  unfold takeVoiceSet
  (repeat' split) <;> exact ⟨rfl, rfl⟩

theorem answered_takeKeyRequest (key : Key) (voice : Nat) : (takeKeyRequest key voice s).Answered := by
  unfold takeKeyRequest
  (repeat' split) <;> exact ⟨rfl, rfl⟩

theorem answered_takeVoiceRead (voice : Nat) : (takeVoiceRead voice s).Answered := by
  unfold takeVoiceRead
  (repeat' split) <;> exact ⟨rfl, rfl⟩

theorem answered_takeWaveWrite (address : Nat) (bytes : List Byte) : (takeWaveWrite address bytes s).Answered := by
  unfold takeWaveWrite
  split <;> exact ⟨rfl, rfl⟩

theorem answered_takeWaveRead (address count : Nat) : (takeWaveRead address count s).Answered := by
  unfold takeWaveRead
  split <;> exact ⟨rfl, rfl⟩

theorem answered_takeStreamOpen (voice start depth limit : Nat) : (takeStreamOpen voice start depth limit s).Answered := by
  unfold takeStreamOpen
  (repeat' split) <;> exact ⟨rfl, rfl⟩

theorem answered_takeStreamClose (voice : Nat) : (takeStreamClose voice s).Answered := by
  unfold takeStreamClose
  (repeat' split) <;> exact ⟨rfl, rfl⟩

theorem answered_takeStreamStatus (voice : Nat) (clear : Bool) : (takeStreamStatus voice clear s).Answered := by
  unfold takeStreamStatus
  (repeat' split) <;> exact ⟨rfl, rfl⟩

theorem answered_takeMixSet (f : MixSetFields) : (takeMixSet f s).Answered := by
  unfold takeMixSet
  split <;> exact ⟨rfl, rfl⟩

theorem answered_takeRumblePlay (mode : Coded PlayMode) (priority : Nat) (steps : List StepFields) :
    (takeRumblePlay mode priority steps s).Answered := by
  unfold takeRumblePlay
  (repeat' split) <;> exact ⟨rfl, rfl⟩

theorem answered_takeRumbleSet (f : RumbleSetFields) : (takeRumbleSet f s).Answered := by
  unfold takeRumbleSet
  split <;> exact ⟨rfl, rfl⟩

theorem answered_takeRumbleClear : (takeRumbleClear s).Answered := by
  unfold takeRumbleClear
  split <;> exact ⟨rfl, rfl⟩

theorem answered_takeCalendarSet (f : CalendarSetFields) : (takeCalendarSet f s).Answered := by
  unfold takeCalendarSet
  dsimp only
  (repeat' split) <;> exact ⟨rfl, rfl⟩

theorem answered_takeGameDayStart (start rollover cap : Nat) : (takeGameDayStart start rollover cap s).Answered := by
  unfold takeGameDayStart
  (repeat' split) <;> exact ⟨rfl, rfl⟩

theorem answered_takeGameDayClearRewind : (takeGameDayClearRewind s).Answered := by
  unfold takeGameDayClearRewind
  (repeat' split) <;> exact ⟨rfl, rfl⟩

theorem answered_takeEventSet (entry : Nat) (trigger : TriggerFields) (cue : Option Nat) (quantize : Coded Bool) :
    (takeEventSet entry trigger cue quantize s).Answered := by
  unfold takeEventSet
  (repeat' split) <;> exact ⟨rfl, rfl⟩

theorem answered_takeEventClear (entry : Nat) : (takeEventClear entry s).Answered := by
  unfold takeEventClear
  (repeat' split) <;> exact ⟨rfl, rfl⟩

theorem answered_takeCueDefine (f : CueFields) : (takeCueDefine f s).Answered := by
  unfold takeCueDefine
  split <;> exact ⟨rfl, rfl⟩

theorem answered_takeStageWrite (offset : Nat) (bytes : List Byte) : (takeStageWrite offset bytes s).Answered := by
  unfold takeStageWrite
  (repeat' split) <;> exact ⟨rfl, rfl⟩

theorem answered_takeStageRead (offset count : Nat) : (takeStageRead offset count s).Answered := by
  unfold takeStageRead
  split <;> exact ⟨rfl, rfl⟩

theorem answered_takeSlotRead (slot offset count : Nat) : (takeSlotRead slot offset count s).Answered := by
  unfold takeSlotRead
  dsimp only
  (repeat' split) <;> exact ⟨rfl, rfl⟩

theorem answered_takeSlotInfo (slot : Nat) : (takeSlotInfo slot s).Answered := by
  unfold takeSlotInfo
  split <;> exact ⟨rfl, rfl⟩

theorem answered_takeSlotErase (slot : Nat) : (takeSlotErase slot s).Answered := by
  unfold takeSlotErase
  (repeat' split) <;> exact ⟨rfl, rfl⟩

end

/-! ## The save controller -/

section
variable {s : State} (h : s.QueuesSound)
include h

theorem queuesSound_copyUpTo (upTo : Nat) : (s.copyUpTo upTo).QueuesSound := by
  obtain ⟨moved, save⟩ := s.copyUpTo_save upTo
  exact queuesSound_of_save h (keeps_copyUpTo s upTo) (by rw [save]; exact SaveController.owed_eq rfl rfl)

theorem queuesSound_copySoFar : s.copySoFar.QueuesSound := by
  obtain ⟨moved, save⟩ := s.copySoFar_save
  exact queuesSound_of_save h (keeps_copySoFar s) (by rw [save]; exact SaveController.owed_eq rfl rfl)

theorem queuesSound_abandonForCritical : s.abandonForCritical.QueuesSound := by
  unfold State.abandonForCritical
  dsimp only
  split
  · exact h
  · exact h
  all_goals
    next state =>
      refine queuesSound_ended h _ _ (keeps_stopForAbandon s) ?_ rfl
      rw [SaveController.owed, state]
      rfl

theorem queuesSound_acknowledgeReserve (reserve : Bool) : (s.acknowledgeReserve reserve).QueuesSound := by
  unfold State.acknowledgeReserve
  split
  · next waiting =>
    refine queuesSound_of_save (touched := [.save, .store]) h ((keeps_withSave s _).andThen (keeps_withStore _ _)) ?_
    unfold SaveController.owed
    rw [waiting]
    rfl
  · exact h

theorem queuesSound_rumbleMark : s.rumbleMark.QueuesSound := by
  unfold State.rumbleMark
  refine queuesSound_acknowledgeReserve (queuesInvariant.of_keeps (touched := [.rumble]) ?_ h) _
  exact (keeps_withRumble s _).andThen (keeps_drainRumble _)

theorem queuesSound_takeTurn (supply : SupplyState) (turn : SupplyTurn) : (takeTurn supply s turn).QueuesSound := by
  cases turn
  case governor => exact queuesInvariant.of_keeps (keeps_withGovernor s _) h
  case mixer => exact queuesInvariant.of_keeps (keeps_withMixer s _) h
  case rumble => exact queuesInvariant.of_keeps (keeps_withRumble s _) h
  case save =>
    change State.QueuesSound (if supply = .critical then s.abandonForCritical else s)
    split
    · exact queuesSound_abandonForCritical h
    · exact h
  case mixerMark => exact queuesInvariant.of_keeps (keeps_mixerMark s) h
  case rumbleMark => exact queuesSound_rumbleMark h

theorem queuesSound_takeVcart (v : Nat) (turns : List SupplyTurn) : (s.takeVcart v turns).QueuesSound := by
  have calibration : (s.supply.takeVcart v).roundOn.calibration = s.supply.calibration := s.supply.takeVcart_calibration v
  unfold State.takeVcart
  dsimp only
  generalize (s.supply.takeVcart v).roundOn = m at calibration
  have taken : (s.withSupply m).QueuesSound := queuesInvariant.of_keeps (keeps_withSupplyState s calibration) h
  split
  · exact taken
  · refine queuesInvariant.of_keeps (keeps_pendSupply _) ?_
    exact foldl_keeps (P := State.QueuesSound) (f := takeTurn m.supply) (fun _ turn h => queuesSound_takeTurn h _ turn) _ taken

theorem queuesSound_completeLoad : s.completeLoad.QueuesSound := by
  unfold State.completeLoad
  split
  · next loading _ =>
    refine queuesSound_ended h _ _ ((keeps_copyUpTo s _).andThen (keeps_returnIdle _) (c := [.save, .store, .governor])) ?_ rfl
    rw [SaveController.owed, loading]
    rfl
  · exact h

theorem queuesSound_completeCopy : s.completeCopy.QueuesSound := by
  obtain ⟨moved, save⟩ := s.copyUpTo_save s.save.length
  unfold State.completeCopy
  split
  · next copying =>
    refine queuesSound_of_save (touched := [.save, .store]) h ((keeps_copyUpTo s _).andThen (keeps_withSave _ _)) ?_
    unfold SaveController.owed
    rw [copying]
    dsimp only [State.withSave]
    rw [save]
  · exact h

theorem queuesSound_completeSeal : s.completeSeal.QueuesSound := by
  unfold State.completeSeal
  split
  · next sealing =>
    have written (c : SaveController) : s.Keeps (s.writeSeal.withSave c) [.save, .store] :=
      (keeps_writeSeal s).andThen (keeps_withSave _ c)
    refine queuesSound_ended (touched := [.save, .store, .governor]) h _ _ ((written _).andThen (keeps_returnIdle _)) ?_ rfl
    rw [SaveController.owed, sealing]
    rfl
  · exact h

theorem queuesSound_completeVerify : s.completeVerify.QueuesSound := by
  unfold State.completeVerify
  split
  · next verifying =>
    refine queuesSound_ended (touched := [.save, .governor]) h _ _ ((keeps_withSave s _).andThen (keeps_returnIdle _)) ?_ rfl
    rw [SaveController.owed, verifying]
    rfl
  · exact h

end

/-! ## Starts of cues -/

section
variable {s : State}

theorem actParts_starts (s : State) (c : Fin 8) : (s.actParts c).1.cue.starts = s.cue.starts := by
  have sounded (d : CueDefinition) : (s.actSound c d.steal d.sound).1.cue.starts = s.cue.starts := by
    cases d.sound with
    | none => rfl
    | some p =>
      unfold State.actSound
      dsimp only
      split <;> rfl
  have rumbled (s : State) (part : Option RumblePart) : (s.actRumble part).1.cue = s.cue :=
    keeps_actRumble s part .cue (by decide)
  unfold State.actParts
  split
  · rfl
  · next d _ =>
    change ((s.actSound c d.steal d.sound).1.actRumble d.rumble).1.cue.starts = s.cue.starts
    rw [rumbled, sounded]

theorem actPending_starts (s : State) (p : PendingStart) : (actPending s p).cue.starts = s.cue.starts := by
  have acted := actParts_starts s p.cue
  unfold actPending
  dsimp only
  split
  · next tag _ =>
    have same (t : State) (body : ReplyBody) : (t.answer Kind.cueStart tag .ok body).cue = t.cue :=
      keeps_answer t _ _ _ _ .cue (by decide)
    rw [same]
    exact acted
  · exact acted

theorem finishCountdown_starts (s : State) (v : Fin 8) : (s.finishCountdown v).cue.starts = s.cue.starts := by
  unfold State.finishCountdown
  split
  · split <;> rfl
  · rfl

/-- A start that has left the list gives the reply it owes. -/
theorem queuesFor_actPending {p : PendingStart} {debts : List (Byte × Byte)} (h : s.link.QueuesFor (p.owed.toList ++ debts)) :
    (actPending s p).link.QueuesFor debts := by
  have queues : (s.actParts p.cue).1.link.queues = s.link.queues := keeps_actParts s p.cue .queues (by decide)
  unfold actPending
  dsimp only
  unfold PendingStart.owed at h
  split
  · next tag source =>
    rw [source] at h
    refine Link.QueuesFor.deliver (r := ⟨Kind.cueStart + 0x80, tag, _, _⟩) ?_
    rw [Reply.request_answer]
    exact h.of_queues queues
  · next entry source =>
    rw [source] at h
    exact h.of_queues ((Link.pend_queues _ _ _).trans queues)

theorem queuesFor_actPendings (debts : List (Byte × Byte)) : ∀ (starts : List PendingStart) {s : State},
    s.link.QueuesFor (starts.filterMap PendingStart.owed ++ debts) → (starts.foldl actPending s).link.QueuesFor debts
  | [], _, h => h
  | p :: starts, s, h => by
    refine queuesFor_actPendings debts starts (queuesFor_actPending (p := p) ?_)
    rw [List.filterMap_cons] at h
    cases owed : p.owed with
    | none => rwa [owed] at h
    | some debt => rwa [owed] at h

theorem queuesSound_actStarts (h : s.QueuesSound) : s.actStarts.QueuesSound := by
  have emptied : s.actStarts.cue.starts = [] := by
    unfold State.actStarts
    exact foldl_keeps (P := fun s => s.cue.starts = []) (f := actPending) (fun s p h => (actPending_starts s p).trans h) _ rfl
  have save : s.actStarts.save = s.save := keeps_actStarts s .save (by decide)
  have calibration : s.actStarts.supply.calibration = s.supply.calibration := keeps_actStarts s .calibration (by decide)
  rw [queuesSound_iff] at h ⊢
  unfold State.owing State.owingBeside
  rw [emptied, save, SupplyMonitor.owed_eq calibration]
  refine queuesFor_actPendings _ s.cue.starts ?_
  refine Link.QueuesFor.of_perm (l := s.link) h ?_
  unfold State.owing State.owingBeside
  rw [← List.append_assoc, List.filterMap_nil, List.append_nil]
  exact List.perm_append_comm

theorem queuesSound_finishMark (h : s.QueuesSound) : s.finishMark.QueuesSound := by
  have keyOffs : ((numbers 8).foldl State.finishCountdown s).QueuesSound :=
    foldl_keeps (P := State.QueuesSound) (f := State.finishCountdown) (fun s v h =>
      queuesSound_of_cue h (keeps_finishCountdown s v) (by rw [finishCountdown_starts])) (numbers 8) h
  unfold State.finishMark
  dsimp only
  split
  · exact queuesSound_actStarts keyOffs
  · exact keyOffs

theorem queuesSound_cueMark (h : s.QueuesSound) : s.cueMark.QueuesSound := by
  have finished := queuesSound_finishMark h
  unfold State.cueMark
  generalize s.finishMark = m at finished
  exact queuesSound_of_cue finished (keeps_withCue m _) (.refl _)

/-- A firing's start owes no reply. -/
theorem filterMap_owed_event (starts : List PendingStart) (c : Fin 8) (entry : Nat) :
    (starts ++ [(⟨c, .event entry⟩ : PendingStart)]).filterMap PendingStart.owed = starts.filterMap PendingStart.owed := by
  rw [List.filterMap_append]
  exact List.append_nil _

theorem queuesSound_eventStart (h : s.QueuesSound) (cue entry : Nat) (quantize : Bool) :
    (s.eventStart cue entry quantize).QueuesSound := by
  unfold State.eventStart
  split
  · exact queuesInvariant.of_keeps (keeps_pendCue _ _) h
  · split
    · exact queuesInvariant.of_keeps (keeps_pendCue _ _) h
    · split
      · split
        · exact queuesSound_of_cue h (keeps_withCue _ _) (.of_eq (filterMap_owed_event _ _ _).symm)
        · exact queuesInvariant.of_keeps (keeps_pendCue _ _) h
      · exact queuesSound_of_cue h (keeps_actPending_event s _ entry) (by rw [actPending_starts])

end

/-! ## The link -/

section
variable {s : State} (h : s.QueuesSound)
include h

omit h in
theorem queuesSound_withLink {l : Link} (hl : l.QueuesFor s.owing) : (s.withLink l).QueuesSound := (queuesSound_iff _).2 hl

theorem queuesFor_owing : s.link.QueuesFor s.owing := (queuesSound_iff s).1 h

theorem queuesSound_classify (kind tag : Byte) (body : List Byte) : (s.classify kind tag body).QueuesSound := by
  unfold State.classify
  split
  · exact queuesInvariant.of_keeps (keeps_takeBlock s _ _) h
  · split
    · exact queuesSound_withLink ((queuesFor_owing h).enqueue _ _ _)
    · exact queuesInvariant.of_keeps (keeps_count s _) h

theorem queuesSound_receiveGood (kind tag : Byte) (body : List Byte) : (s.receiveGood kind tag body).QueuesSound := by
  unfold State.receiveGood
  split
  · unfold State.receive
    split
    · split
      · exact h
      · refine queuesSound_classify ?_ kind tag body
        exact h
    · exact h
  · exact queuesInvariant.of_keeps (keeps_discardFrame s _) h

theorem queuesSound_handOn : s.handOn.QueuesSound := by
  unfold State.handOn
  split
  · exact h
  · split
    · next free =>
      obtain ⟨place, none⟩ := free
      split
      · exact queuesSound_withLink ((queuesFor_owing h).join place (stage := .waiting) nofun _)
      · exact queuesSound_withLink ((queuesFor_owing h).markHanded none)
    · exact h

theorem queuesSound_completeFrame : s.completeFrame.QueuesSound := by
  unfold State.completeFrame
  split
  · exact queuesSound_withLink (queuesFor_owing h).completeReply
  · exact queuesInvariant.of_keeps (keeps_completeNotice s _) h
  · exact h

/-! ## The calibration -/

theorem queuesSound_takeCalibration (raw : Nat) : (s.takeCalibration raw).QueuesSound := by
  unfold State.takeCalibration
  split
  · exact h
  · next c calibrating =>
    have owed : s.supply.owed = match c.origin with
      | .requested tag => [(Kind.calibrateMotorSense, tag)]
      | .startUp => [] := by
      unfold SupplyMonitor.owed
      rw [calibrating]
      obtain ⟨origin, taken, sum⟩ := c
      cases origin <;> rfl
    split
    · rw [queuesSound_iff] at h ⊢
      unfold State.owing State.owingBeside at h ⊢
      rw [owed] at h
      obtain ⟨origin, taken, sum⟩ := c
      cases origin <;> exact h
    · unfold State.endCalibration
      dsimp only
      split
      · next startUp =>
        rw [queuesSound_iff] at h ⊢
        unfold State.owing State.owingBeside at h ⊢
        rw [owed, startUp] at h
        exact h.of_queues rfl
      · next tag requested =>
        refine queuesSound_answer h _ _ rfl ?_
        unfold State.owing State.owingBeside
        rw [owed, requested]
        exact List.perm_middle

end

/-! ## The requests that are deferred, and those that end an operation -/

/-- What lets Stage Load and Slot Verify through (R157, R164). -/
theorem liveSlotRefusal_eq_none {s : State} {slot : Fin 4} : liveSlotRefusal s slot = none ↔
    s.save.state = .idle ∧ s.supply.supply ≠ .critical ∧ (s.save.entry slot).condition ≠ .empty ∧
    (s.save.entry slot).condition ≠ .damaged := by
  unfold liveSlotRefusal
  by_cases idle : s.save.state = .idle
  · by_cases critical : s.supply.supply = .critical
    · simp [idle, critical]
    · cases (s.save.entry slot).condition <;> simp [idle, critical]
  · simp [idle]

theorem State.Serves.found {s : State} {c : Instr} {kind tag : Byte} (h : s.Serves c) (hc : requestOf c = some (kind, tag)) :
    ∃ e ∈ s.link.inbound, e.stage = .handed ∧ e.kind = kind ∧ e.tag = tag := Link.handed_of_admits hc h.2.2

theorem State.Serves.refused {s : State} {c : Instr} (serves : s.Serves c) (h : s.QueuesSound) (kind tag : Byte) (status : Status) :
    ((refuse s status).finish kind tag).QueuesSound := queuesSound_reply h serves.place kind tag status .none

theorem queuesSound_stageLoad (tag : Byte) (slot : Nat) : KeptBy State.QueuesSound (.stageLoad tag slot) := by
  refine queuesSound_of_serve fun s hs serves => ?_
  unfold takeStageLoad
  split
  · exact serves.refused hs.queues _ _ _
  · split
    · exact serves.refused hs.queues _ _ _
    · next accepted =>
      obtain ⟨idle, _⟩ := liveSlotRefusal_eq_none.1 accepted
      exact queuesSound_leaveIdle hs.queues (serves.found rfl) idle rfl

theorem queuesSound_slotVerify (tag : Byte) (slot : Nat) : KeptBy State.QueuesSound (.slotVerify tag slot) := by
  refine queuesSound_of_serve fun s hs serves => ?_
  unfold takeSlotVerify
  split
  · exact serves.refused hs.queues _ _ _
  · split
    · exact serves.refused hs.queues _ _ _
    · next accepted =>
      obtain ⟨idle, _⟩ := liveSlotRefusal_eq_none.1 accepted
      exact queuesSound_leaveIdle hs.queues (serves.found rfl) idle rfl

theorem queuesSound_commit (tag : Byte) (slot length : Nat) : KeptBy State.QueuesSound (.commit tag slot length) := by
  refine queuesSound_of_serve fun s hs serves => ?_
  unfold takeCommit
  split
  · exact serves.refused hs.queues _ _ _
  · split
    · exact serves.refused hs.queues _ _ _
    · split
      · exact serves.refused hs.queues _ _ _
      · next idle =>
        iterate 3
          split
          · exact serves.refused hs.queues _ _ _
        exact queuesSound_leaveIdle hs.queues (serves.found rfl) (Decidable.of_not_not idle) rfl

/-- The abort's own reply joins first, and the Commit's follows (R162). -/
theorem queuesSound_commitAbort (tag : Byte) : KeptBy State.QueuesSound (.commitAbort tag) := by
  refine queuesSound_of_serve fun s hs serves => ?_
  have ends (owed : s.save.owed = [(Kind.commit, s.save.deferredTag)]) :
      (Taken.finish ⟨s.stopForAbandon, some (.ok, .none), [s.abandonedReply]⟩ Kind.commitAbort tag).QueuesSound := by
    have queues : s.stopForAbandon.link.queues = s.link.queues := keeps_stopForAbandon s .queues (by decide)
    refine queuesSound_finish_ended hs.queues serves.place queues ?_ _ _ _ _
    have answered : s.abandonedReply.request = (Kind.commit, s.save.deferredTag) := Reply.request_answer _ _ _ _
    have beside : s.stopForAbandon.owingBeside = s.owingBeside :=
      owingBeside_of_keeps (keeps_stopForAbandon s) (by rw [show s.stopForAbandon.cue = s.cue from keeps_stopForAbandon s .cue (by decide)])
    have idle : s.stopForAbandon.save.owed = [] := by
      obtain ⟨moved, save⟩ := s.stopForAbandon_save
      rw [save]
      rfl
    unfold State.owing
    rw [answered, owed, idle, beside]
    exact .refl _
  unfold takeCommitAbort
  split
  · next waiting => exact ends (by rw [SaveController.owed, waiting]; rfl)
  · next copying => exact ends (by rw [SaveController.owed, copying]; rfl)
  · exact serves.refused hs.queues _ _ _
  · exact serves.refused hs.queues _ _ _

theorem queuesSound_calibrateMotorSense (tag : Byte) : KeptBy State.QueuesSound (.calibrateMotorSense tag) := by
  refine queuesSound_of_serve fun s hs serves => ?_
  unfold takeCalibrate
  split
  · exact serves.refused hs.queues _ _ _
  · next free =>
    split
    · exact serves.refused hs.queues _ _ _
    · refine queuesSound_defer hs.queues (serves.found rfl) rfl ?_
      have none : s.supply.owed = [] := by
        unfold SupplyMonitor.owed
        rw [Option.not_isSome_iff_eq_none.1 free]
      unfold State.owing State.owingBeside
      rw [none]
      exact List.perm_middle

theorem queuesSound_cueStart (tag : Byte) (cue : Nat) (quantize : Coded Bool) : KeptBy State.QueuesSound (.cueStart tag cue quantize) := by
  refine queuesSound_of_serve fun s hs serves => ?_
  unfold takeCueStart
  split
  · next c _ _ _ =>
    split
    · exact serves.refused hs.queues _ _ _
    · split
      · split
        · refine queuesSound_defer hs.queues (serves.found rfl) rfl ?_
          have joined : (s.cue.starts ++ [(⟨c, .request tag⟩ : PendingStart)]).filterMap PendingStart.owed =
              s.cue.starts.filterMap PendingStart.owed ++ [(Kind.cueStart, tag)] := List.filterMap_append
          unfold State.owing State.owingBeside
          dsimp only [State.withCue]
          rw [joined, ← List.append_assoc, ← List.append_assoc, ← List.append_assoc]
          exact List.perm_append_singleton _ _
        · exact serves.refused hs.queues _ _ _
      · have acted : (s.actParts c).1.QueuesSound :=
          queuesSound_of_cue hs.queues (keeps_actParts s c) (by rw [actParts_starts])
        have queues : (s.actParts c).1.link.queues = s.link.queues := keeps_actParts s c .queues (by decide)
        have place := (length_replies_of_queues queues).trans_lt serves.place
        generalize s.actParts c = parts at acted place
        obtain ⟨t, sound, rumble⟩ := parts
        exact queuesSound_reply acted place _ _ _ _
  · exact serves.refused hs.queues _ _ _

/-- The oldest element that a test finds is what its removal takes. -/
theorem perm_of_find? {α : Type} {q : α → Bool} {a : α} : ∀ {l : List α}, l.find? q = some a → l.Perm (a :: l.eraseP q)
  | [], h => by cases h
  | x :: l, h => by
    by_cases found : q x = true
    · rw [List.find?_cons_of_pos found] at h
      cases h
      rw [List.eraseP_cons_of_pos found]
    · rw [List.find?_cons_of_neg found] at h
      rw [List.eraseP_cons_of_neg found]
      exact ((perm_of_find? h).cons x).trans (.swap _ _ _)

theorem queuesSound_cueCancel (tag : Byte) (cue : Nat) : KeptBy State.QueuesSound (.cueCancel tag cue) := by
  refine queuesSound_of_serve fun s hs serves => ?_
  unfold takeCueCancel
  split
  · exact serves.refused hs.queues _ _ _
  · split
    · exact serves.refused hs.queues _ _ _
    · next p found =>
      have left := (perm_of_find? found).filterMap PendingStart.owed
      unfold cancelled
      split
      · next requested source =>
        refine queuesSound_finish_ended hs.queues serves.place ?_ ?_ _ _ _ _
        · rfl
        have owed : p.owed = some (Kind.cueStart, requested) := by
          unfold PendingStart.owed
          rw [source]
          rfl
        rw [List.filterMap_cons_some owed] at left
        rw [Reply.request_answer]
        unfold State.owing State.owingBeside
        exact ((left.append_left _).append_left _).trans (by
          rw [← List.append_assoc, ← List.append_assoc]
          exact List.perm_middle)
      · next entry source =>
        have owed : p.owed = none := by
          unfold PendingStart.owed
          rw [source]
        rw [List.filterMap_cons_none owed] at left
        refine queuesSound_reply (queuesInvariant.of_keeps (keeps_pendCue _ _) ?_) ?_ _ _ _ _
        · exact queuesSound_of_cue hs.queues (keeps_withCue s _) left
        · exact (length_replies_of_queues (Link.pend_queues _ _ _)).trans_lt serves.place

/-- The scan fills the slot table alone. -/
theorem scan_owed (s : State) : s.scan.save.owed = s.save.owed := by
  have entries : ((numbers 4).foldl (fun c slot => c.setEntry slot (scanSlot s.store slot)) s.save).owed = s.save.owed :=
    List.foldlRecOn (motive := fun c : SaveController => c.owed = s.save.owed) (numbers 4) _ rfl fun _ same _ _ =>
      (SaveController.owed_eq rfl rfl).trans same
  exact entries

/-! ## The commands -/

theorem queuesSound_reset {s : State} (save : s.save.state = .idle) (supply : s.supply = .reset) (cue : s.cue = .reset)
    (inbound : s.link.inbound = []) (replies : s.link.replies.length ≤ 4) (waiting : s.link.waiting = []) : s.QueuesSound := by
  rw [queuesSound_iff]
  unfold State.owing State.owingBeside SaveController.owed
  rw [save, supply, cue]
  exact Link.queuesFor_empty inbound replies waiting

/-- Every row that answers no request keeps the queues in bounds, and what they owe. -/
theorem queuesSound_row {c : Instr} (row : requestOf c = none) : KeptBy State.QueuesSound c := by
  have inv := queuesInvariant
  have start (s : State) (cue entry : Nat) (quantize : Bool) (h : s.QueuesSound) : (s.eventStart cue entry quantize).QueuesSound :=
    queuesSound_eventStart h cue entry quantize
  cases c
  case powerUp => exact kept_of_next (fun _ => rfl) fun _ _ => queuesSound_reset rfl rfl rfl rfl (Nat.zero_le _) rfl
  case cartridgeSupplyLoss =>
    exact inv.of_core _ (fun _ => rfl) fun _ _ _ => queuesSound_reset rfl rfl rfl rfl (Nat.zero_le _) rfl
  case requestFrame kind tag body => exact inv.of_core _ (fun _ => rfl) fun s hs _ => queuesSound_receiveGood hs.queues kind tag body
  case streamBlock q body => exact inv.of_core _ (fun _ => rfl) fun s hs _ => queuesSound_receiveGood hs.queues 0x3F q body
  case requestHandOn => exact inv.of_core _ (fun _ => rfl) fun s hs _ => queuesSound_handOn hs.queues
  case frameTransmitComplete =>
    refine inv.of_core _ (fun _ => rfl) fun s hs _ => ?_
    split
    · exact queuesSound_completeFrame hs.queues
    · exact hs.queues
  case calibrationConversion raw =>
    refine inv.of_core _ (fun _ => rfl) fun s hs _ => ?_
    split
    · exact queuesSound_takeCalibration hs.queues _
    · exact hs.queues
  case vcartResult f =>
    refine inv.of_core _ (fun _ => rfl) fun s hs _ => ?_
    split
    · exact queuesSound_takeVcart hs.queues _ _
    · exact hs.queues
  case rumblePeriodMark => exact inv.of_core _ (fun _ => rfl) fun s hs _ => queuesSound_rumbleMark hs.queues
  case cuePeriodMark =>
    exact inv.of_core _ (fun _ => rfl) fun s hs _ => queuesSound_cueMark hs.queues
  case keyOffCountdown voice =>
    refine inv.of_core _ (fun _ => rfl) fun s hs _ => ?_
    split
    · exact queuesSound_of_cue hs.queues (keeps_finishCountdown s _) (by rw [finishCountdown_starts])
    · exact hs.queues
  case measureMark =>
    refine inv.of_core State.measure (fun _ => rfl) fun s hs _ => ?_
    unfold State.measure
    split
    · exact queuesSound_finishMark hs.queues
    · exact hs.queues
  case secondTick => exact kept_of_next (fun _ => rfl) fun s hs => inv.secondTick rfl start hs.queues
  case slotScan =>
    refine inv.of_core _ (fun _ => rfl) fun s hs _ => ?_
    split
    · exact hs.queues
    · exact queuesSound_of_save hs.queues (keeps_scan s) (scan_owed s)
  case loadComplete => exact inv.of_core _ (fun _ => rfl) fun s hs _ => queuesSound_completeLoad hs.queues
  case copyComplete => exact inv.of_core _ (fun _ => rfl) fun s hs _ => queuesSound_completeCopy hs.queues
  case sealComplete => exact inv.of_core _ (fun _ => rfl) fun s hs _ => queuesSound_completeSeal hs.queues
  case verifyComplete => exact inv.of_core _ (fun _ => rfl) fun s hs _ => queuesSound_completeVerify hs.queues
  all_goals first | exact inv.untouched | exact absurd row nofun

/-- Every request keeps the queues in bounds, and what they owe. -/
theorem queuesSound_request {c : Instr} {request : Byte × Byte} (hc : requestOf c = some request) : KeptBy State.QueuesSound c := by
  have inv := queuesInvariant
  have start (s : State) (cue entry : Nat) (quantize : Bool) (h : s.QueuesSound) : (s.eventStart cue entry quantize).QueuesSound :=
    queuesSound_eventStart h cue entry quantize
  cases c
  case partStatus tag =>
    exact queuesSound_of_request (fun kind tag s => (takePartStatus s).finish kind tag) (fun _ => rfl) fun s hs place =>
      queuesSound_reply hs.queues place _ _ _ _
  case linkStatus tag clear =>
    refine queuesSound_of_request (fun kind tag s => (takeLinkStatus clear s).finish kind tag) (fun _ => rfl) fun s hs place => ?_
    cases clear
    · exact queuesSound_reply hs.queues place _ _ _ _
    · refine queuesSound_reply (s := s.withLink { s.link with counters := .zero }) ?_ place _ _ _ _
      exact hs.queues
  case restart tag =>
    refine queuesSound_of_request (fun kind tag s => match s.link.readiness with
      | .notReady => s.reply kind tag .notReady .none
      | .ready => s.restarted tag) (fun _ => rfl) fun s hs place => ?_
    split
    · exact queuesSound_reply hs.queues place _ _ _ _
    · exact queuesSound_reset rfl rfl rfl rfl (Nat.le_add_left 1 3) rfl
  case noticeMask tag mask =>
    exact queuesSound_of_beside (fun s => answered_takeNoticeMask s mask) fun s => keeps_takeNoticeMask s mask
  case supplyRead tag clear =>
    exact queuesSound_of_beside (owner := takeSupplyRead clear) (fun s => ⟨rfl, rfl⟩) fun s => keeps_takeSupplyRead s clear
  case supplySet tag low critical hysteresis battery =>
    exact queuesSound_of_beside (fun s => answered_takeSupplySet s low critical hysteresis battery) fun s =>
      keeps_takeSupplySet s low critical hysteresis battery
  case calibrateMotorSense tag => exact queuesSound_calibrateMotorSense tag
  case budgetSet tag budget imax =>
    exact queuesSound_of_beside (owner := takeBudgetSet budget imax) (fun s => ⟨rfl, rfl⟩) fun s => keeps_withGovernor s _
  case budgetRead tag => exact queuesSound_of_beside (owner := takeBudgetRead) (fun s => ⟨rfl, rfl⟩) fun s => .refl s []
  case voiceSet tag voice f =>
    exact queuesSound_of_beside (fun s => answered_takeVoiceSet s voice f) fun s => keeps_takeVoiceSet s voice f
  case keyOn tag voice =>
    exact queuesSound_of_beside (fun s => answered_takeKeyRequest s .on voice) fun s => keeps_takeKeyRequest s .on voice
  case keyOff tag voice =>
    exact queuesSound_of_beside (fun s => answered_takeKeyRequest s .off voice) fun s => keeps_takeKeyRequest s .off voice
  case voiceRead tag voice =>
    exact queuesSound_of_beside (fun s => answered_takeVoiceRead s voice) fun s => keeps_takeVoiceRead s voice
  case waveWrite tag address bytes =>
    exact queuesSound_of_beside (fun s => answered_takeWaveWrite s address bytes) fun s => keeps_takeWaveWrite s address bytes
  case waveRead tag address count =>
    exact queuesSound_of_beside (fun s => answered_takeWaveRead s address count) fun s => keeps_takeWaveRead s address count
  case streamOpen tag voice first depth limit =>
    exact queuesSound_of_beside (fun s => answered_takeStreamOpen s voice first depth limit) fun s =>
      keeps_takeStreamOpen s voice first depth limit
  case streamClose tag voice =>
    exact queuesSound_of_beside (fun s => answered_takeStreamClose s voice) fun s => keeps_takeStreamClose s voice
  case streamStatus tag voice clear =>
    exact queuesSound_of_beside (fun s => answered_takeStreamStatus s voice clear) fun s => keeps_takeStreamStatus s voice clear
  case mixSet tag f => exact queuesSound_of_beside (fun s => answered_takeMixSet s f) fun s => keeps_takeMixSet s f
  case mixStatus tag clear =>
    exact queuesSound_of_beside (owner := takeMixStatus clear) (fun s => ⟨rfl, rfl⟩) fun s => keeps_takeMixStatus s clear
  case rumblePlay tag mode priority steps =>
    exact queuesSound_of_beside (fun s => answered_takeRumblePlay s mode priority steps) fun s =>
      keeps_takeRumblePlay s mode priority steps
  case rumbleStop tag => exact queuesSound_of_beside (owner := takeRumbleStop) (fun s => ⟨rfl, rfl⟩) keeps_takeRumbleStop
  case rumbleSet tag f => exact queuesSound_of_beside (fun s => answered_takeRumbleSet s f) fun s => keeps_takeRumbleSet s f
  case rumbleClear tag => exact queuesSound_of_beside answered_takeRumbleClear keeps_takeRumbleClear
  case rumbleStatus tag => exact queuesSound_of_beside (owner := takeRumbleStatus) (fun s => ⟨rfl, rfl⟩) fun s => .refl s []
  case calendarGet tag => exact queuesSound_of_beside (owner := takeCalendarGet) (fun s => ⟨rfl, rfl⟩) fun s => .refl s []
  case calendarSet tag f =>
    exact queuesSound_of_answered (fun s => answered_takeCalendarSet s f) (fun s => keeps_takeCalendarSet s f .queues (by decide))
      fun s hs _ => inv.takeCalendarSet rfl start hs.queues f
  case gameDayStart tag first rollover cap =>
    exact queuesSound_of_answered (fun s => answered_takeGameDayStart s first rollover cap)
      (fun s => keeps_takeGameDayStart s first rollover cap .queues (by decide))
      fun s hs _ => inv.takeGameDayStart rfl start hs.queues first rollover cap
  case gameDayGet tag => exact queuesSound_of_beside (owner := takeGameDayGet) (fun s => ⟨rfl, rfl⟩) fun s => .refl s []
  case gameDayClearRewind tag => exact queuesSound_of_beside answered_takeGameDayClearRewind keeps_takeGameDayClearRewind
  case eventSet tag entry trigger cue quantize =>
    exact queuesSound_of_answered (fun s => answered_takeEventSet s entry trigger cue quantize)
      (fun s => keeps_takeEventSet s entry trigger cue quantize .queues (by decide))
      fun s hs _ => inv.takeEventSet rfl start hs.queues entry trigger cue quantize
  case eventClear tag entry =>
    exact queuesSound_of_beside (fun s => answered_takeEventClear s entry) fun s => keeps_takeEventClear s entry
  case eventList tag => exact queuesSound_of_beside (owner := takeEventList) (fun s => ⟨rfl, rfl⟩) fun s => .refl s []
  case cueDefine tag f =>
    refine queuesSound_of_answered (fun s => answered_takeCueDefine s f)
      (fun s => keeps_takeCueDefine s f .queues (by decide)) fun s hs _ => ?_
    unfold takeCueDefine
    split
    · exact queuesSound_of_cue hs.queues (keeps_withCue s _) (.refl _)
    · exact hs.queues
  case cueStart tag cue quantize => exact queuesSound_cueStart tag cue quantize
  case cueCancel tag cue => exact queuesSound_cueCancel tag cue
  case cueStatus tag => exact queuesSound_of_beside (owner := takeCueStatus) (fun s => ⟨rfl, rfl⟩) fun s => .refl s []
  case stageWrite tag offset bytes =>
    exact queuesSound_of_beside (fun s => answered_takeStageWrite s offset bytes) fun s => keeps_takeStageWrite s offset bytes
  case stageRead tag offset count =>
    refine queuesSound_of_answered (fun s => answered_takeStageRead s offset count)
      (fun s => keeps_takeStageRead s offset count .queues (by decide)) fun s hs _ => ?_
    unfold takeStageRead
    split
    · dsimp only [accept_state]
      split
      · exact queuesSound_copySoFar hs.queues
      · exact hs.queues
    · exact hs.queues
  case stageLoad tag slot => exact queuesSound_stageLoad tag slot
  case commit tag slot length => exact queuesSound_commit tag slot length
  case commitAbort tag => exact queuesSound_commitAbort tag
  case slotRead tag slot offset count =>
    exact queuesSound_of_beside (fun s => answered_takeSlotRead s slot offset count) fun s => keeps_takeSlotRead s slot offset count
  case slotInfo tag slot =>
    exact queuesSound_of_beside (fun s => answered_takeSlotInfo s slot) fun s => keeps_takeSlotInfo s slot
  case slotVerify tag slot => exact queuesSound_slotVerify tag slot
  case slotErase tag slot =>
    refine queuesSound_of_answered (fun s => answered_takeSlotErase s slot)
      (fun s => keeps_takeSlotErase s slot .queues (by decide)) fun s hs _ => ?_
    refine queuesSound_of_save hs.queues (keeps_takeSlotErase s slot) ?_
    unfold takeSlotErase
    (repeat' split) <;> exact SaveController.owed_eq rfl rfl
  all_goals exact absurd hc nofun

/-- Every command keeps the queues in bounds, and what they owe. -/
theorem queuesSound_kept (c : Instr) : KeptBy State.QueuesSound c := by
  cases hc : requestOf c with
  | none => exact queuesSound_row hc
  | some request => exact queuesSound_request hc

/-- Settles O60: the memories by the bytes that each command writes, the queues by the replies that come to be owed and are given. -/
theorem memoriesAndQueuesStaySound : Obligations.MemoriesAndQueuesStaySound := by
  unfold Obligations.MemoriesAndQueuesStaySound
  intro s t hs h
  exact ⟨memoriesInvariant.step memoriesSound_kept hs h, queuesInvariant.step queuesSound_kept hs h⟩

end Sys2Proof.Machine
end

