-- ==== Sys2Proof/Proofs/CommandRows.lean ====
section
/-! SUPPORT. What is common to the rows: which of them need the cartridge supply, and what a request's row does before READY, without
a request handed on, and without a place for its reply (section 0.3, R171, R172). -/

namespace Sys2Proof.Machine

set_option Elab.async false

/-! ## The queue of commands and the cartridge supply -/

/-- Settles O1, by the two cases of the queue. -/
theorem stepRunsTheFrontCommand : Obligations.StepRunsTheFrontCommand := by
  unfold Obligations.StepRunsTheFrontCommand
  refine ⟨fun c rest s => rfl, fun s empty => ?_⟩
  unfold step
  rw [empty]

/-- A row of the core domain acts through the check of the cartridge supply. -/
theorem exec_core {c : Instr} (core : ofCoreDomain c = true) : ∃ effect : State → State, ∀ s, exec c s = onCore s effect := by
  cases c
  case powerUp => cases core
  case lselFall => cases core
  case lselRise => cases core
  case secondTick => cases core
  case backupDomainPowerLoss => cases core
  case backupDomainPowerReturn => cases core
  all_goals exact ⟨_, fun _ => rfl⟩

theorem exec_next (c : Instr) (s : State) : ∃ t, exec c s = .next t := by
  cases core : ofCoreDomain c with
  | true =>
    obtain ⟨effect, h⟩ := exec_core core
    obtain ⟨t, ht⟩ := onCore_next s effect
    exact ⟨t, (h s).trans ht⟩
  | false =>
    cases c
    case powerUp => exact ⟨_, rfl⟩
    case lselFall => exact ⟨_, rfl⟩
    case lselRise => exact ⟨_, rfl⟩
    case secondTick => exact ⟨_, rfl⟩
    case backupDomainPowerLoss => exact ⟨_, rfl⟩
    case backupDomainPowerReturn => exact ⟨_, rfl⟩
    all_goals cases core

theorem clear_footprint_commands (c : Instr) : clearOf [.commands] (footprint c) = true := by
  cases c <;> rfl

/-- Settles O2: a row of the core domain checks the supply, and no row's footprint holds the queue. -/
theorem everyCommandRunsAndTheCoreNeedsItsSupply : Obligations.EveryCommandRunsAndTheCoreNeedsItsSupply := by
  unfold Obligations.EveryCommandRunsAndTheCoreNeedsItsSupply
  refine ⟨fun c s => ?_, fun c s core unpowered => ?_⟩
  · obtain ⟨t, h⟩ := exec_next c s
    exact ⟨t, h, exec_footprint h .commands (not_mem_of_clearOf (clear_footprint_commands c) (List.mem_singleton_self _))⟩
  · obtain ⟨effect, h⟩ := exec_core core
    exact (h s).trans (onCore_unpowered unpowered effect)

/-! ## A request's row -/

/-- A request's row takes up a request that has been handed on; beside those that the link answers itself, it answers NOT_READY
before READY. -/
def RequestRow (c : Instr) (kind tag : Byte) : Prop :=
  ∃ effect : Byte → Byte → State → State, (∀ s, exec c s = onRequest c effect s) ∧
    (kind ≠ 0x01 → kind ≠ 0x03 → ∀ s, s.link.readiness = .notReady → effect kind tag s = s.replied kind tag .notReady .none)

theorem requestRow_of_serve {c : Instr} {owner : State → Taken} (he : ∀ s, exec c s = serve c owner s) (kind tag : Byte) :
    RequestRow c kind tag := ⟨takeRequest owner, he, fun _ _ _ notReady => takeRequest_notReady notReady kind tag owner⟩

theorem requestRow {c : Instr} {kind tag : Byte} (hc : requestOf c = some (kind, tag)) : RequestRow c kind tag := by
  cases c
  case partStatus request =>
    injection hc with hc
    injection hc with part _
    exact ⟨fun kind tag s => (takePartStatus s).finish kind tag, fun _ => rfl, fun other => absurd part.symm other⟩
  case linkStatus request clear =>
    injection hc with hc
    injection hc with link _
    exact ⟨fun kind tag s => (takeLinkStatus clear s).finish kind tag, fun _ => rfl, fun _ other => absurd link.symm other⟩
  case restart request =>
    refine ⟨fun kind tag s => match s.link.readiness with
      | .notReady => s.reply kind tag .notReady .none
      | .ready => s.restarted tag, fun _ => rfl, fun _ _ s notReady => ?_⟩
    dsimp only
    rw [notReady]
    rfl
  all_goals first
    | (cases hc; done)
    | exact requestRow_of_serve (by exact fun _ => rfl) kind tag

/-- Settles O15: the check of readiness in the row. -/
theorem requestsBeforeReadyAreNotReady : Obligations.RequestsBeforeReadyAreNotReady := by
  unfold Obligations.RequestsBeforeReadyAreNotReady
  intro c kind tag s hc notPart notLink powered notReady admits
  obtain ⟨effect, row, early⟩ := requestRow hc
  rw [row, onRequest_admitted hc powered admits, early notPart notLink s notReady]

theorem Link.not_admits_of_none_handed {l : Link} (h : ∀ e ∈ l.inbound, e.stage ≠ .handed) (c : Instr) : l.admits c = false := by
  have none : (l.inbound.any fun e => e.offers c) = false := by
    refine List.any_eq_false.2 fun e he offers => h e he ?_
    simp only [InboundRequest.offers, Bool.and_eq_true, decide_eq_true_eq] at offers
    exact offers.1.1
  unfold Link.admits
  rw [none, Bool.and_false]

/-! ## Replies that wait -/

/-- An operation's reply, while the reply queue holds 4. -/
theorem State.answer_link_of_full {s : State} (full : 4 ≤ s.link.replies.length) (kind tag : Byte) (status : Status)
    (body : ReplyBody) : (s.answer kind tag status body).link =
      { s.link with waiting := s.link.waiting ++ [⟨kind + 0x80, tag, status, body⟩] } := Link.deliver_of_full full _

/-- The state before its owner gives the reply of the operation that ends. -/
theorem exec_ends {c : Instr} {s t : State} {kind tag : Byte} (full : 4 ≤ s.link.replies.length) (link : t.link = s.link)
    (status : Status) (body : ReplyBody) (ended : exec c s = .next (t.answer kind tag status body)) :
    ∃ u r, exec c s = .next u ∧ r.kind = kind + 0x80 ∧ r.tag = tag ∧
      u.link = { s.link with waiting := s.link.waiting ++ [r] } := by
  refine ⟨_, ⟨kind + 0x80, tag, status, body⟩, ended, rfl, rfl, ?_⟩
  rw [State.answer_link_of_full (by rwa [link]), link]

theorem State.copyUpTo_link (s : State) (upTo : Nat) : (s.copyUpTo upTo).link = s.link := by
  obtain ⟨_, _, h⟩ := s.copyUpTo_frame upTo
  rw [h]

theorem State.completeLoad_of_loading {s : State} (loading : s.save.state = .loading) {h : Header}
    (header : (s.save.entry s.save.opSlot).liveHeader = some h) : s.completeLoad =
      (s.copyUpTo s.save.length).returnIdle.answer Kind.stageLoad s.save.deferredTag .ok (.stageLoad s.save.length h.generation) := by
  unfold State.completeLoad
  rw [loading, header]

theorem State.completeSeal_of_sealing {s : State} (sealing : s.save.state = .sealing) : s.completeSeal =
    (s.writeSeal.withSave (s.save.setEntry s.save.opSlot
      ((s.save.entry s.save.opSlot).sealed s.save.target s.sealedHeader))).returnIdle.answer Kind.commit s.save.deferredTag .ok
      (.commit s.save.opSlot.val s.save.target s.sealedHeader.generation) := by
  unfold State.completeSeal
  rw [sealing]
  rfl

/-- The state in which a verify has found the result of its slot. -/
def State.verified (s : State) (e : SlotEntry) : State := (s.withSave (s.save.setEntry s.save.opSlot e)).returnIdle

theorem State.completeVerify_of_verifying {s : State} (verifying : s.save.state = .verifying) {result : VerifyResult}
    {e : SlotEntry} (outcome : verifyOutcome s.store s.save.opSlot (s.save.entry s.save.opSlot) = (result, e)) :
    s.completeVerify = (s.verified e).answer Kind.slotVerify s.save.deferredTag .ok
      (.slotVerify result e.condition (e.liveHeader.map Header.generation)) := by
  unfold State.completeVerify
  rw [verifying, outcome]
  rfl

/-- The eighth conversion of a calibration that a request asked for (R6, R7). -/
theorem State.takeCalibration_of_last {s : State} {tag : Byte} {sum : Nat}
    (calibrating : s.supply.calibration = some ⟨.requested tag, 7, sum⟩) (raw : Nat) :
    ∃ t : State, ∃ body : ReplyBody, t.link = s.link ∧ s.takeCalibration raw = t.answer Kind.calibrateMotorSense tag .ok body := by
  unfold State.takeCalibration
  rw [calibrating]
  dsimp only
  rw [if_neg (by decide)]
  refine ⟨_, _, ?_, rfl⟩
  rfl

/-- Settles O16: without a place or a handed request the row finds nothing to take up; a full queue makes the ended operation's
reply wait. -/
theorem fullReplyQueueMakesRepliesWait : Obligations.FullReplyQueueMakesRepliesWait := by
  unfold Obligations.FullReplyQueueMakesRepliesWait
  refine ⟨fun c kind tag s hc blocked => ?row, fun s powered full => ⟨fun loading header => ?load, fun sealing => ?commit,
    fun verifying => ?verify, fun raw tag sum free calibrating => ?calibration⟩⟩
  case row =>
    obtain ⟨effect, row, _⟩ := requestRow hc
    have not_admitted : s.link.admits c = false := by
      rcases blocked with full | none
      · exact Link.admits_of_full full c
      · exact Link.not_admits_of_none_handed none c
    rw [row, onRequest_not_admitted not_admitted]
  case load =>
    obtain ⟨h, header⟩ := Option.ne_none_iff_exists'.1 header
    refine exec_ends full ?_ _ _ ((onCore_powered powered _).trans (congrArg _ (State.completeLoad_of_loading loading header)))
    exact s.copyUpTo_link _
  case commit =>
    refine exec_ends full ?_ _ _ ((onCore_powered powered _).trans (congrArg _ (State.completeSeal_of_sealing sealing)))
    rfl
  case verify =>
    cases outcome : verifyOutcome s.store s.save.opSlot (s.save.entry s.save.opSlot) with
    | mk result e =>
      refine exec_ends full ?_ _ _ ((onCore_powered powered _).trans
        (congrArg _ (State.completeVerify_of_verifying verifying outcome)))
      rfl
  case calibration =>
    obtain ⟨t, body, link, ended⟩ := State.takeCalibration_of_last calibrating raw.val
    have due : s.supply.converting = .calibration := by
      unfold SupplyMonitor.converting
      rw [if_neg free, calibrating]
      rfl
    refine exec_ends full link .ok body ?_
    refine (onCore_powered powered _).trans ?_
    rw [if_pos due, ended]
    rfl

end Sys2Proof.Machine
end

