-- ==== Sys2Proof/Proofs/PowerAndScan.lean ====
section
/-! SUPPORT. Power-up and loss of the two supplies, the state right after reset, and the scan of the slots at start-up (R15, R111,
R150, R153, R154, R166). -/

namespace Sys2Proof.Machine

set_option Elab.async false

/-! ## Power-up -/

theorem Backup.powerReturn_of_powered {b : Backup} (h : b.powered = true) : b.powerReturn = b := if_pos h

theorem Backup.powerReturn_of_absent {b : Backup} (h : b.powered = false) :
    b.powerReturn = { b with powered := true, calendar := .restarted } := if_neg (by rw [h]; nofun)

theorem State.powerUp_of_absent {s : State} (h : s.corePowered = false) :
    s.powerUp = (s.withBackup s.backup.powerReturn).startCore := by
  unfold State.powerUp
  rw [h]
  rfl

theorem State.powerUp_of_present {s : State} (h : s.corePowered = true) : s.powerUp = s.stopCore.powerUp := by
  unfold State.powerUp
  rw [h]
  rfl

/-- Settles O3: the blocks take the values of their reset definitions; backup power that was absent comes back first, and a part
that is powered stops first. -/
theorem powerUpTakesTheResetValues : Obligations.PowerUpTakesTheResetValues := by
  unfold Obligations.PowerUpTakesTheResetValues
  refine ⟨fun s absent powered => ?_, fun s absent unpowered => ?_, fun s present => ?_⟩
  · change Host.Outcome.next s.powerUp = _
    rw [State.powerUp_of_absent absent, Backup.powerReturn_of_powered powered]
    rfl
  · have returned : (s.withBackup { s.backup with powered := true, calendar := .restarted }).powerUp = s.powerUp := by
      rw [State.powerUp_of_absent absent,
        State.powerUp_of_absent (s := s.withBackup { s.backup with powered := true, calendar := .restarted }) absent,
        Backup.powerReturn_of_absent unpowered]
      rfl
    exact congrArg Host.Outcome.next returned.symm
  · exact ⟨s.stopCore, onCore_powered present _, congrArg Host.Outcome.next (State.powerUp_of_present present)⟩

/-! ## Loss and return -/

/-- Settles O4: what the operation in flight leaves in backup memory when the core stops, and the two rows of backup power. -/
theorem powerLossesKeepWhatStillHasPower : Obligations.PowerLossesKeepWhatStillHasPower := by
  unfold Obligations.PowerLossesKeepWhatStillHasPower
  refine ⟨fun s present => ⟨s.stopCore, onCore_powered present _, ?_⟩, fun s present => ?_, fun s absent => ?_, fun s absent => ?_⟩
  · obtain ⟨store, frame, marker⟩ := s.stopOperation_frame
    have kept : s.stopCore.backup = s.stopOperation.backup := rfl
    simp only [State.store, State.record, kept]
    exact ⟨rfl, s.stopOperation_powered, by rw [frame], by rw [frame], by rw [frame], s.stopOperation_marker,
      fun resting => by rw [State.stopOperation_of_writesNothing resting], State.stopOperation_headers,
      fun sealing => by rw [State.stopOperation_of_sealing sealing]; rfl, State.stopOperation_staging,
      fun slot bank other => State.stopOperation_bank other⟩
  · change Host.Outcome.next (if s.corePowered then s else s.withBackup .lost) = _
    rw [if_pos present]
  · refine ⟨s.withBackup .lost, ?_, rfl, rfl, rfl⟩
    change Host.Outcome.next (if s.corePowered then s else s.withBackup .lost) = _
    rw [absent]
    rfl
  · change Host.Outcome.next (s.withBackup s.backup.powerReturn) = _
    rw [Backup.powerReturn_of_absent absent]
    rfl

/-! ## The state right after reset -/

theorem eventsSound_reset : State.reset.EventsSound := by
  refine ⟨nofun, fun _ => ⟨by decide, rfl⟩, nofun, fun some => absurd rfl some, fun e acting => ?_⟩
  cases acting

theorem saveSound_reset : State.reset.SaveSound := by
  exact ⟨nofun, fun _ => rfl, nofun, Nat.zero_le _, nofun, nofun, nofun, nofun⟩

/-- Settles O53: reset is the power-up of a part whose marker is wrong; every invariant holds of the reset values. -/
theorem resetIsTheFirstPowerUpAndIsSound : Obligations.ResetIsTheFirstPowerUpAndIsSound := by
  unfold Obligations.ResetIsTheFirstPowerUpAndIsSound
  obtain ⟨governor, mixer⟩ := grantSound_reset (s := State.reset) rfl rfl rfl rfl
  obtain ⟨rumble, voices, cues⟩ := motorSound_reset (s := State.reset) rfl rfl rfl rfl
  obtain ⟨calendar, gameDays⟩ := daysSound_lost (b := State.reset.backup) rfl rfl
  exact ⟨rfl, {
    governor := governor, mixer := mixer, rumble := rumble, voices := voices, cues := cues
    streams := StreamBuffers.sound_reset
    calendar := calendar, gameDays := gameDays
    events := eventsSound_reset
    save := saveSound_reset
    memories := memoriesSound_started rfl SaveStore.canonical_lost
    queues := queuesSound_reset rfl rfl rfl rfl (Nat.zero_le _) rfl }⟩

/-! ## The scan -/

theorem numbers_four : numbers 4 = [0, 1, 2, 3] := rfl

theorem exec_slotScan_due {s : State} (powered : s.corePowered = true) (due : s.link.scanDone = false) :
    exec .slotScan s = .next s.scan := by
  have begins : (if s.link.scanDone then s else s.scan) = s.scan := if_neg (by rw [due]; nofun)
  rw [← begins]
  exact onCore_powered powered fun s => if s.link.scanDone then s else s.scan

/-- The table after the scan has the scanned entry in every slot. -/
theorem scan_entry (s : State) (slot : Fin 4) : s.scan.save.entry slot = scanSlot s.store slot := by
  change ((numbers 4).foldl (fun c slot => c.setEntry slot (scanSlot s.store slot)) s.save).entry slot = _
  rw [numbers_four]
  simp only [List.foldl_cons, List.foldl_nil, SaveController.entry, SaveController.setEntry, Tab.get_set]
  fin_cases slot <;> rfl

theorem scan_state (s : State) : s.scan.save.state = s.save.state := by
  have entries : ((numbers 4).foldl (fun c slot => c.setEntry slot (scanSlot s.store slot)) s.save).state = s.save.state :=
    List.foldlRecOn (motive := fun c : SaveController => c.state = s.save.state) (numbers 4) _ rfl fun _ same _ _ => same
  exact entries

/-- With the controller and the link put back, the scan has changed nothing. -/
theorem scan_restored (s : State) : { s.scan with save := s.save, link := s.link } = s := by
  unfold State.scan
  generalize (numbers 4).foldl (fun c slot => c.setEntry slot (scanSlot s.store slot)) s.save = scanned
  rfl

theorem scan_notice {s : State} (enabled : maskEnables s.link.mask .saveScan = true) : s.scan.link.notices.saveScan =
    some ⟨s.scan.save.slotTable.map SlotEntry.condition, s.scan.save.slotTable.map SlotEntry.liveBank, s.save.backupLoss⟩ := by
  have loss : ((numbers 4).foldl (fun c slot => c.setEntry slot (scanSlot s.store slot)) s.save).backupLoss = s.save.backupLoss :=
    List.foldlRecOn (motive := fun c : SaveController => c.backupLoss = s.save.backupLoss) (numbers 4) _ rfl fun _ same _ _ => same
  unfold State.scan State.pendSaveScan State.pend
  generalize (numbers 4).foldl (fun c slot => c.setEntry slot (scanSlot s.store slot)) s.save = scanned at loss
  rw [← loss]
  dsimp only [State.withLink, State.withSave]
  rw [Link.pend_enabled enabled]

section
variable (st : SaveStore) (slot : Fin 4)

/-- Bank A is live when it is valid and bank B is not a valid one of a greater generation (R152). -/
theorem scanLive_a {st : SaveStore} {slot : Fin 4} (a : st.valid slot .a = true)
    (notNewer : st.valid slot .b = true → (st.header slot .b).generation ≤ (st.header slot .a).generation) :
    scanLive st slot = some .a := by
  unfold scanLive
  rw [if_pos a]
  refine if_neg fun newer => ?_
  obtain ⟨b, greater⟩ := Bool.and_eq_true_iff.1 newer
  exact absurd (of_decide_eq_true greater) (Nat.not_lt.2 (notNewer b))

theorem scanLive_b {st : SaveStore} {slot : Fin 4} (b : st.valid slot .b = true)
    (newer : st.valid slot .a = true → (st.header slot .a).generation < (st.header slot .b).generation) :
    scanLive st slot = some .b := by
  unfold scanLive
  split
  · next a => exact if_pos (Bool.and_eq_true_iff.2 ⟨b, decide_eq_true (newer a)⟩)
  · rfl

theorem scanLive_none {st : SaveStore} {slot : Fin 4} (a : st.valid slot .a = false) (b : st.valid slot .b = false) :
    scanLive st slot = none := by
  unfold scanLive
  rw [a, b]
  rfl

/-- With a live bank the slot has fallen back when the other bank was written later and is not valid (R154). -/
theorem scanCondition_some (bank : Bank) : scanCondition st slot (some bank) =
    if (st.header slot bank.other).good = true ∧ (st.header slot bank).generation < (st.header slot bank.other).generation ∧
      st.valid slot bank.other = false then .validFallback else .valid := by
  unfold scanCondition
  simp only [Bool.and_eq_true, decide_eq_true_eq, Bool.not_eq_true', and_assoc]

end

/-- Settles O5: the entry of each slot is the one that the scan forms, case by case of which banks are valid. -/
theorem slotScanBuildsTheSlotTable : Obligations.SlotScanBuildsTheSlotTable := by
  unfold Obligations.SlotScanBuildsTheSlotTable
  intro s powered due
  refine ⟨s.scan, exec_slotScan_due powered due, rfl, scan_restored s, scan_state s, fun slot => ?_, scan_notice⟩
  · rw [scan_entry]
    generalize s.store = st
    dsimp only [scanSlot]
    refine ⟨rfl, fun a notNewer => ?_, fun b newer => ?_, fun a b => ?_, fun a b => ?_, fun b a => ?_, fun a b => ?_, fun bank => ?_⟩
    · rw [scanLive_a a notNewer]
      exact ⟨rfl, rfl⟩
    · rw [scanLive_b b newer]
      exact ⟨rfl, rfl⟩
    · rcases Nat.lt_or_ge (st.header slot .a).generation (st.header slot .b).generation with newer | notNewer
      · rw [scanLive_b b fun _ => newer, scanCondition_some, if_neg (by rw [show Bank.b.other = .a from rfl, a]; simp)]
      · rw [scanLive_a a fun _ => notNewer, scanCondition_some, if_neg (by rw [show Bank.a.other = .b from rfl, b]; simp)]
    · rw [scanLive_a a fun valid => absurd (b.symm.trans valid) nofun, scanCondition_some]
      simp only [show Bank.a.other = .b from rfl, b, and_true]
    · rw [scanLive_b b fun valid => absurd (a.symm.trans valid) nofun, scanCondition_some]
      simp only [show Bank.b.other = .a from rfl, a, and_true]
    · rw [scanLive_none a b]
      refine ⟨rfl, rfl, ?_⟩
      simp only [scanCondition, Bool.or_eq_true]
    · cases bank <;> rfl

end Sys2Proof.Machine
end

