-- ==== Sys2Proof/Proofs/LinkReception.lean ====
section
/-! SUPPORT. The link's receiving side: the selection, frames that end well or badly, and the hand-on of requests (R167, R170 to
R172, R176). -/

namespace Sys2Proof.Machine

set_option Elab.async false

/-! ## A counter rises -/

theorem Link.count_enabled {l : Link} (h : maskEnables l.mask .link = true) (rise : LinkCounters → LinkCounters) :
    l.count rise = { l with counters := rise l.counters, notices := { l.notices with link := some (rise l.counters) }
                            tx := markRewritten .link l.tx } :=
  Link.pend_enabled (l := { l with counters := rise l.counters }) h _

theorem Link.count_disabled {l : Link} (h : maskEnables l.mask .link = false) (rise : LinkCounters → LinkCounters) :
    l.count rise = { l with counters := rise l.counters } :=
  Link.pend_disabled (l := { l with counters := rise l.counters }) h _

/-- A counter that rises changes the counters, the pending set and the mark on the frame in transmission. -/
theorem Link.count_frame (l : Link) (rise : LinkCounters → LinkCounters) :
    ∃ notices tx, l.count rise = { l with counters := rise l.counters, notices := notices, tx := tx } ∧
      (maskEnables l.mask .link = true → notices = { l.notices with link := some (rise l.counters) } ∧
        tx = markRewritten .link l.tx) ∧
      (maskEnables l.mask .link = false → notices = l.notices ∧ tx = l.tx) := by
  cases h : maskEnables l.mask .link
  · exact ⟨l.notices, l.tx, Link.count_disabled h rise, nofun, fun _ => ⟨rfl, rfl⟩⟩
  · exact ⟨_, _, Link.count_enabled h rise, fun _ => ⟨rfl, rfl⟩, nofun⟩

/-! ## The selection -/

theorem Link.select_of_high {l : Link} (h : l.lselLow = false) :
    l.select = { l with lselLow := true, bitCount := 0, shiftIn := 0, ldo := true, delimiterSent := false } :=
  if_neg (ne_true_of_eq_false h)

theorem Link.select_of_low {l : Link} (h : l.lselLow = true) : l.select = l := if_pos h

/-- The link with the pin high, what it was to send dropped, and a frame being sent kept to be sent again. -/
def Link.released (l : Link) : Link :=
  { l with lselLow := false, shiftIn := 0, out := [], tx := l.tx.map TxFrame.cutShort }

theorem Link.deselect_of_high {l : Link} (h : l.lselLow = false) (begun : Bool) : l.deselect begun = l :=
  if_neg (ne_true_of_eq_false h)

theorem Link.deselect_of_idle {l : Link} (low : l.lselLow = true) {begun : Bool} (idle : l.deframer.receiving begun = false) :
    l.deselect begun = l.released := by
  unfold Link.deselect
  rw [if_pos low, idle]
  rfl

theorem Link.deselect_of_receiving {l : Link} (low : l.lselLow = true) {begun : Bool}
    (receiving : l.deframer.receiving begun = true) :
    l.deselect begun = { l.released with deframer := .hunt }.count fun c => { c with aborted := sat16 c.aborted } := by
  unfold Link.deselect
  rw [if_pos low, receiving]
  rfl

theorem receiving_false {d : Deframer} {begun : Bool} (h : d = .hunt ∨ (d = .between ∧ begun = false)) :
    d.receiving begun = false := by
  rcases h with rfl | ⟨rfl, rfl⟩
  · rfl
  · rfl

theorem receiving_true {d : Deframer} {begun : Bool}
    (h : (∃ bytes escaped, d = .inFrame bytes escaped) ∨ (d = .between ∧ begun = true)) : d.receiving begun = true := by
  rcases h with ⟨_, _, rfl⟩ | ⟨rfl, rfl⟩
  · rfl
  · rfl

theorem exec_lselFall (s : State) :
    exec .lselFall s = .next (s.withLink (if s.corePowered then s.link.select else s.link.movePin true)) := rfl

theorem exec_lselRise (begun : Bool) (s : State) :
    exec (.lselRise begun) s =
      .next (s.withLink (if s.corePowered then s.link.deselect begun else s.link.movePin false)) := rfl

theorem exec_lselRise_powered {s : State} (powered : s.corePowered = true) (begun : Bool) :
    exec (.lselRise begun) s = .next (s.withLink (s.link.deselect begun)) := by
  rw [exec_lselRise, if_pos powered]

/-! ## Frames that end badly -/

theorem State.receive_of_high {s : State} (h : s.link.lselLow = false) (after : Deframer) (event : State → State) :
    s.receive after event = s :=
  if_neg (ne_true_of_eq_false h)

theorem State.receive_of_hunt {s : State} (low : s.link.lselLow = true) (hunt : s.link.deframer = .hunt) (after : Deframer)
    (event : State → State) : s.receive after event = s.withLink { s.link with deframer := after } := by
  unfold State.receive
  rw [if_pos low, if_pos hunt]

theorem State.receive_of_open {s : State} (low : s.link.lselLow = true) (h : s.link.deframer ≠ .hunt) (after : Deframer)
    (event : State → State) : s.receive after event = event (s.withLink { s.link with deframer := after }) := by
  unfold State.receive
  rw [if_pos low, if_neg h]

theorem afterDiscard_eq (cause : DiscardCause) :
    afterDiscard cause = if cause = .long ∨ cause = .badEscape then .hunt else .between := by
  cases cause <;> rfl

theorem State.discardFrame_of_open {s : State} (low : s.link.lselLow = true) (h : s.link.deframer ≠ .hunt)
    (cause : DiscardCause) : s.discardFrame cause =
      s.withLink ({ s.link with deframer := afterDiscard cause }.count fun c => c.discard cause) :=
  State.receive_of_open low h _ _

theorem exec_frameDiscarded {s : State} (powered : s.corePowered = true) (cause : DiscardCause) :
    exec (.frameDiscarded cause) s = .next (s.discardFrame cause) :=
  onCore_powered powered fun s => s.discardFrame cause

theorem exec_huntDelimiter {s : State} (powered : s.corePowered = true) :
    exec .huntDelimiter s =
      .next (if s.link.lselLow ∧ s.link.deframer = .hunt then s.withLink { s.link with deframer := .between } else s) :=
  onCore_powered powered fun s =>
    if s.link.lselLow ∧ s.link.deframer = .hunt then s.withLink { s.link with deframer := .between } else s

/-- Settles O8: each edge and each end of a frame by the case of the pin and of the deframer it meets. -/
theorem receptionEndsWithTheFrameOrTheSelection : Obligations.ReceptionEndsWithTheFrameOrTheSelection := by
  unfold Obligations.ReceptionEndsWithTheFrameOrTheSelection
  refine ⟨fun s powered high => ?_, fun s powered low => ?_, fun s begun powered high => ?_, fun s begun absent => ?_,
    fun s begun ⟨powered, low⟩ idle => ?_, fun s begun ⟨powered, low⟩ receiving => ?_, fun s ⟨powered, low⟩ hunt => ?_,
    fun s powered unheard => ?_, fun s cause powered high => ?_, fun s cause ⟨powered, low⟩ hunt => ?_,
    fun s cause ⟨powered, low⟩ heard => ?_⟩
  · rw [exec_lselFall, if_pos powered, Link.select_of_high high]
    rfl
  · rw [exec_lselFall, if_pos powered, Link.select_of_low low, State.withLink_self]
  · rw [exec_lselRise_powered powered, Link.deselect_of_high high, State.withLink_self]
  · rw [exec_lselFall, exec_lselRise, if_neg (ne_true_of_eq_false absent), if_neg (ne_true_of_eq_false absent)]
    exact ⟨rfl, rfl⟩
  · rw [exec_lselRise_powered powered, Link.deselect_of_idle low (receiving_false idle)]
    rfl
  · rw [exec_lselRise_powered powered, Link.deselect_of_receiving low (receiving_true receiving)]
    obtain ⟨notices, tx, eq, enabled, disabled⟩ := Link.count_frame { s.link.released with deframer := .hunt }
      fun c => { c with aborted := sat16 c.aborted }
    rw [eq]
    refine ⟨_, rfl, rfl, rfl, rfl, rfl, rfl, rfl, rfl, rfl, ?_⟩
    cases on : maskEnables s.link.mask .link
    · obtain ⟨rfl, rfl⟩ := disabled on
      refine ⟨fun none => ?_, fun r sending reply => ?_, fun f sending notice => ?_, nofun, fun _ => rfl⟩
      · simp [Link.released, none]
      · simp [Link.released, reply, TxFrame.cutShort]
      · simp [Link.released, notice, TxFrame.cutShort]
    · obtain ⟨rfl, rfl⟩ := enabled on
      refine ⟨fun none => ?_, fun r sending reply => ?_, fun f sending notice => ?_, fun _ => rfl, nofun⟩
      · simp [Link.released, none, markRewritten]
      · simp [Link.released, reply, TxFrame.cutShort, markRewritten]
      · simp [Link.released, notice, TxFrame.cutShort, markRewritten]
  · rw [exec_huntDelimiter powered, if_pos ⟨low, hunt⟩]
    rfl
  · rw [exec_huntDelimiter powered, if_neg]
    rintro ⟨low, hunt⟩
    rcases unheard with high | open'
    · exact absurd (low.symm.trans high) Bool.true_eq_false.mp
    · exact open' hunt
  · rw [exec_frameDiscarded powered, State.discardFrame, State.receive_of_high high]
  · rw [exec_frameDiscarded powered, State.discardFrame, State.receive_of_hunt low hunt, afterDiscard_eq]
    rfl
  · obtain ⟨notices, tx, eq, enabled, disabled⟩ := Link.count_frame { s.link with deframer := afterDiscard cause }
      fun c => c.discard cause
    rw [exec_frameDiscarded powered, State.discardFrame_of_open low heard, eq]
    refine ⟨_, rfl, rfl, ⟨?_, ?_, ?_, ?_, ?_, ?_⟩, rfl, fun on => (enabled on).1, fun off => (disabled off).1⟩
    all_goals
      rintro rfl
      exact ⟨rfl, rfl⟩

/-! ## Request frames -/

theorem exec_requestFrame_open {s : State} (selected : s.Selected) (heard : s.link.deframer ≠ .hunt) {kind tag : Byte}
    {body : List Byte} (low : 1 ≤ kind.toNat) (high : kind.toNat ≤ 0x3E) (length : body.length ≤ 72) :
    exec (.requestFrame kind tag body) s =
      .next (s.withLink ({ s.link with deframer := .between }.enqueue kind tag body)) := by
  obtain ⟨powered, selectLow⟩ := selected
  have notBlock : kind ≠ 0x3F := by
    rintro rfl
    exact absurd high (by decide)
  have row : exec (.requestFrame kind tag body) s = .next (s.receiveGood kind tag body) :=
    onCore_powered powered fun s => s.receiveGood kind tag body
  rw [row, State.receiveGood, if_pos length, State.receive_of_open selectLow heard, State.classify, if_neg notBlock,
    if_pos ⟨low, high⟩]
  rfl

theorem Link.enqueue_of_place {l : Link} (h : l.inbound.length < 4) (kind tag : Byte) (body : List Byte) :
    l.enqueue kind tag body = { l with inbound := l.inbound ++ [⟨kind, tag, body, .waiting⟩] } := if_pos h

theorem Link.enqueue_of_full {l : Link} (h : 4 ≤ l.inbound.length) (kind tag : Byte) (body : List Byte) :
    l.enqueue kind tag body = l.count fun c => { c with overrun := sat16 c.overrun } := if_neg (Nat.not_lt.2 h)

/-- Settles O9: a request frame finds a place in the inbound request queue, or none. -/
theorem requestFramesQueueOrOverrun : Obligations.RequestFramesQueueOrOverrun := by
  unfold Obligations.RequestFramesQueueOrOverrun
  refine ⟨fun s kind tag body selected heard low high length place => ?_,
    fun s kind tag body selected heard low high length full => ?_⟩
  · rw [exec_requestFrame_open selected heard low high length, Link.enqueue_of_place (l := { s.link with deframer := .between }) place]
    rfl
  · rw [exec_requestFrame_open selected heard low high length, Link.enqueue_of_full (l := { s.link with deframer := .between }) full]
    refine ⟨_, rfl, rfl, Link.count_inbound _ _, Link.count_replies _ _, Link.count_counters _ _, fun on => ?_⟩
    rw [State.withLink_link, Link.count_enabled (l := { s.link with deframer := .between }) on]

/-! ## The hand-on -/

/-- The entry that the hand-on takes is the first waiting one. -/
theorem find?_waiting {front back : List InboundRequest} {e : InboundRequest} (deferred : ∀ x ∈ front, x.stage = .deferred)
    (waiting : e.stage = .waiting) : (front ++ e :: back).find? (InboundRequest.at .waiting) = some e := by
  refine List.find?_eq_some_iff_append.2 ⟨decide_eq_true waiting, front, back, rfl, fun x hx => ?_⟩
  simp [InboundRequest.at, deferred x hx]

theorem any_handed_eq_false {queue : List InboundRequest} (h : ∀ x ∈ queue, x.stage ≠ .handed) :
    queue.any (InboundRequest.at .handed) = false :=
  List.any_eq_false.2 fun x hx => by simpa [InboundRequest.at] using h x hx

theorem markHanded_append {front back : List InboundRequest} {e : InboundRequest} (deferred : ∀ x ∈ front, x.stage = .deferred)
    (waiting : e.stage = .waiting) : markHanded (front ++ e :: back) = front ++ { e with stage := .handed } :: back := by
  induction front with
  | nil => exact if_pos waiting
  | cons x front ih =>
    have notWaiting : ¬x.stage = .waiting := by simp [deferred x List.mem_cons_self]
    show (if x.stage = .waiting then _ else x :: markHanded (front ++ e :: back)) = _
    rw [if_neg notWaiting, ih fun y hy => deferred y (List.mem_cons_of_mem x hy)]
    rfl

theorem eraseP_waiting {front back : List InboundRequest} {e : InboundRequest} (deferred : ∀ x ∈ front, x.stage = .deferred)
    (waiting : e.stage = .waiting) (status : Status) (body : ReplyBody) :
    (front ++ e :: back).eraseP (Reply.answers ⟨e.kind + 0x80, e.tag, status, body⟩ .waiting) = front ++ back := by
  rw [List.eraseP_append_right _ fun x hx => by simp [Reply.answers, deferred x hx], List.eraseP_cons_of_pos]
  simp [Reply.answers, waiting]

theorem exec_requestHandOn {s : State} (powered : s.corePowered = true) : exec .requestHandOn s = .next s.handOn :=
  onCore_powered powered State.handOn

theorem State.handOn_of_refused {s : State} {e : InboundRequest} {status : Status}
    (found : s.link.inbound.find? (InboundRequest.at .waiting) = some e)
    (free : s.link.replies.length < 4 ∧ s.link.inbound.any (InboundRequest.at .handed) = false)
    (refused : s.link.refusal e = some status) :
    s.handOn = s.withLink (s.link.join .waiting ⟨e.kind + 0x80, e.tag, status, .none⟩) := by
  unfold State.handOn
  rw [found]
  show (if _ then _ else _) = _
  rw [if_pos free, refused]

theorem State.handOn_of_handed {s : State} {e : InboundRequest}
    (found : s.link.inbound.find? (InboundRequest.at .waiting) = some e)
    (free : s.link.replies.length < 4 ∧ s.link.inbound.any (InboundRequest.at .handed) = false)
    (passes : s.link.refusal e = none) : s.handOn = s.withLink { s.link with inbound := markHanded s.link.inbound } := by
  unfold State.handOn
  rw [found]
  show (if _ then _ else _) = _
  rw [if_pos free, passes]

/-- Without a place, with a request already handed on, or with none waiting, the hand-on does nothing. -/
theorem State.handOn_of_none {s : State} (h : 4 ≤ s.link.replies.length ∨ (∃ x ∈ s.link.inbound, x.stage = .handed) ∨
    (∀ x ∈ s.link.inbound, x.stage ≠ .waiting)) : s.handOn = s := by
  unfold State.handOn
  split
  · rfl
  next e found =>
    have waits : e.stage = .waiting := of_decide_eq_true (List.find?_some (p := InboundRequest.at .waiting) found)
    refine if_neg ?_
    rintro ⟨place, noneHanded⟩
    rcases h with full | ⟨x, member, handed⟩ | noneWaits
    · exact absurd place (Nat.not_lt.2 full)
    · exact List.any_eq_false.1 noneHanded x member (decide_eq_true handed)
    · exact noneWaits e (List.mem_of_find?_eq_some found) waits

theorem answeredBeforeReady_iff (kind : Byte) : answeredBeforeReady kind = true ↔ kind = 0x01 ∨ kind = 0x03 := by
  rw [answeredBeforeReady, Bool.or_eq_true, beq_iff_eq, beq_iff_eq]
  rfl

theorem Link.refusal_of_unknown {l : Link} {e : InboundRequest} (h : lengthFits e.kind e.body = none) :
    l.refusal e = some .badKind := by
  rw [Link.refusal, h]

theorem Link.refusal_of_length {l : Link} {e : InboundRequest} (h : lengthFits e.kind e.body = some false) :
    l.refusal e = some .badLength := by
  rw [Link.refusal, h]

theorem Link.refusal_of_notReady {l : Link} {e : InboundRequest} (h : lengthFits e.kind e.body = some true)
    (notReady : l.readiness = .notReady) (kind : ¬(e.kind = 0x01 ∨ e.kind = 0x03)) : l.refusal e = some .notReady := by
  rw [Link.refusal, h]
  exact if_pos ⟨notReady, Bool.eq_false_iff.2 fun before => kind ((answeredBeforeReady_iff _).1 before)⟩

theorem Link.refusal_of_ready {l : Link} {e : InboundRequest} (h : lengthFits e.kind e.body = some true)
    (ready : l.readiness = .ready ∨ e.kind = 0x01 ∨ e.kind = 0x03) : l.refusal e = none := by
  rw [Link.refusal, h]
  refine if_neg ?_
  rintro ⟨notReady, after⟩
  rcases ready with isReady | kind
  · exact absurd (isReady.symm.trans notReady) (by decide)
  · exact Bool.eq_false_iff.1 after ((answeredBeforeReady_iff _).2 kind)

/-- Settles O10: the oldest waiting request by the outcome of the link's three checks. -/
theorem handOnChecksTheOldestRequest : Obligations.HandOnChecksTheOldestRequest := by
  unfold Obligations.HandOnChecksTheOldestRequest
  refine ⟨fun s front back e powered place inbound deferred waiting noneHanded => ?_, fun s powered none => ?_⟩
  · have found : s.link.inbound.find? (InboundRequest.at .waiting) = some e := inbound ▸ find?_waiting deferred waiting
    have free : s.link.replies.length < 4 ∧ s.link.inbound.any (InboundRequest.at .handed) = false := by
      refine ⟨place, any_handed_eq_false fun x hx => ?_⟩
      rw [inbound, List.mem_append, List.mem_cons] at hx
      rcases hx with old | rfl | new
      · simp [deferred x old]
      · simp [waiting]
      · exact noneHanded x new
    have answered {status : Status} (refused : s.link.refusal e = some status) :
        exec .requestHandOn s = .next { s with link := { s.link with
          replies := s.link.replies ++ [⟨e.kind + 0x80, e.tag, status, .none⟩], inbound := front ++ back } } := by
      rw [exec_requestHandOn powered, State.handOn_of_refused found free refused, Link.join, inbound,
        eraseP_waiting deferred waiting]
      rfl
    refine ⟨fun unknown => answered (Link.refusal_of_unknown unknown), fun wrong => answered (Link.refusal_of_length wrong),
      fun fits notReady notPart notLink => answered (Link.refusal_of_notReady fits notReady (not_or.2 ⟨notPart, notLink⟩)),
      fun fits ready => ?_⟩
    rw [exec_requestHandOn powered, State.handOn_of_handed found free (Link.refusal_of_ready fits ready), inbound,
      markHanded_append deferred waiting]
    rfl
  · rw [exec_requestHandOn powered, State.handOn_of_none none]

/-! ## The two status requests -/

/-- Settles O13: the two requests are answered whatever the readiness. -/
theorem statusRequestsReportTheLink : Obligations.StatusRequestsReportTheLink := by
  unfold Obligations.StatusRequestsReportTheLink
  refine ⟨fun s tag powered admitted => ?_, fun s tag powered admitted => ?_, fun s tag powered admitted => ?_⟩
  · exact onRequest_admitted rfl powered admitted (effect := fun kind tag s => (takePartStatus s).finish kind tag)
  · exact onRequest_admitted rfl powered admitted (effect := fun kind tag s => (takeLinkStatus false s).finish kind tag)
  · exact onRequest_admitted rfl powered admitted (effect := fun kind tag s => (takeLinkStatus true s).finish kind tag)

end Sys2Proof.Machine
end

