-- ==== Sys2Proof/Proofs/LinkTransmission.lean ====
section
/-! SUPPORT. The link's sending side: which frame starts at a byte boundary, what its completion takes away, and the notice mask
(R173, R174, R176, R136). -/

namespace Sys2Proof.Machine

set_option Elab.async false

/-! ## Byte boundaries -/

theorem exec_frameStart {s : State} (h : s.AtByteBoundary) : exec .frameStart s = .next s.startFrame := by
  obtain ⟨⟨powered, low⟩, boundary⟩ := h
  have row : exec .frameStart s = .next (if s.link.lselLow ∧ s.link.bitCount = 0 then s.startFrame else s) :=
    onCore_powered powered fun s => if s.link.lselLow ∧ s.link.bitCount = 0 then s.startFrame else s
  rw [row, if_pos ⟨low, boundary⟩]

theorem exec_frameTransmitComplete {s : State} (h : s.AtByteBoundary) :
    exec .frameTransmitComplete s = .next s.completeFrame := by
  obtain ⟨⟨powered, low⟩, boundary⟩ := h
  have row : exec .frameTransmitComplete s =
      .next (if s.link.lselLow ∧ s.link.bitCount = 0 then s.completeFrame else s) :=
    onCore_powered powered fun s => if s.link.lselLow ∧ s.link.bitCount = 0 then s.completeFrame else s
  rw [row, if_pos ⟨low, boundary⟩]

/-! ## The first pending notice -/

/-- A kind is pending exactly when it has content. -/
theorem noticeContent_eq_none (s : State) (k : NoticeKind) :
    s.noticeContent k = none ↔ s.link.notices.has k = false := by
  cases k
  case events => simp [State.noticeContent, NoticeSet.has]
  case stream => simp [State.noticeContent, NoticeSet.has]
  case voiceEnd => simp [State.noticeContent, NoticeSet.has]
  all_goals exact (Option.map_eq_none_iff.trans Option.not_isSome_iff_eq_none.symm).trans (Iff.of_eq (Bool.not_eq_true _))

theorem noticeContent_kind {s : State} {k : NoticeKind} {content : NoticeContent} (h : s.noticeContent k = some content) :
    content.kind = k := by
  cases k
  case events => obtain ⟨_, eq⟩ := Option.ite_none_left_eq_some.1 h; injection eq with eq; subst eq; rfl
  case stream => obtain ⟨_, eq⟩ := Option.ite_none_left_eq_some.1 h; injection eq with eq; subst eq; rfl
  case voiceEnd => obtain ⟨_, eq⟩ := Option.ite_none_left_eq_some.1 h; injection eq with eq; subst eq; rfl
  all_goals
    obtain ⟨_, _, eq⟩ := Option.map_eq_some_iff.1 h
    subst eq
    rfl

/-- In the order of R173 the kinds of lower bits stand before a kind. -/
theorem NoticeKind.split_all (k : NoticeKind) :
    ∃ before after, NoticeKind.all = before ++ k :: after ∧ ∀ k' ∈ before, k'.bit < k.bit :=
  ⟨NoticeKind.all.take k.bit, NoticeKind.all.drop (k.bit + 1), by cases k <;> rfl, by cases k <;> decide⟩

theorem NoticeKind.mem_all (k : NoticeKind) : k ∈ NoticeKind.all := by cases k <;> decide

theorem State.firstNotice_of_first {s : State} {k : NoticeKind} {content : NoticeContent}
    (pending : s.noticeContent k = some content) (first : ∀ k', k'.bit < k.bit → s.link.notices.has k' = false) :
    s.firstNotice = some content := by
  obtain ⟨before, after, all, lower⟩ := k.split_all
  exact List.findSome?_eq_some_iff.2
    ⟨before, k, after, all, pending, fun x hx => (noticeContent_eq_none s x).2 (first x (lower x hx))⟩

theorem State.firstNotice_of_none {s : State} (none : ∀ k, s.link.notices.has k = false) : s.firstNotice = Option.none :=
  List.findSome?_eq_none_iff.2 fun k _ => (noticeContent_eq_none s k).2 (none k)

/-! ## What starts -/

theorem State.startFrame_of_cutShort {s : State} {c : TxContent} (tx : s.link.tx = some ⟨c, false⟩) :
    s.startFrame = s.withLink (s.link.send c) := by
  unfold State.startFrame
  rw [tx]
  rfl

theorem State.startFrame_of_reply {s : State} {r : Reply} {rs : List Reply} (tx : s.link.tx = none)
    (replies : s.link.replies = r :: rs) : s.startFrame = s.withLink (s.link.send (.reply r)) := by
  unfold State.startFrame
  rw [tx, replies]

/-- The link with a notice frame started, its sequence number used up. -/
def Link.sendNotice (l : Link) (c : NoticeContent) : Link :=
  { l.send (.notice ⟨l.noticeSeq, c, c.members, true, false⟩) with noticeSeq := l.noticeSeq + 1 }

theorem State.startFrame_of_notice {s : State} {c : NoticeContent} (tx : s.link.tx = none) (replies : s.link.replies = [])
    (first : s.firstNotice = some c) : s.startFrame = s.withLink (s.link.sendNotice c) := by
  unfold State.startFrame
  rw [tx, replies, first]
  rfl

theorem State.startFrame_of_none {s : State} (tx : s.link.tx = none) (replies : s.link.replies = [])
    (first : s.firstNotice = none) : s.startFrame = s.withLink { s.link with delimiterSent := true } := by
  unfold State.startFrame
  rw [tx, replies, first]

theorem ReplyBody.length_bytes (body : ReplyBody) : body.bytes.length ≤ 511 := by
  unfold ReplyBody.bytes
  split
  · exact Nat.zero_le _
  · exact List.length_take_le _ _

theorem Link.attention_iff (l : Link) : l.attention = true ↔ l.replies ≠ [] ∨ ∃ k, l.notices.has k = true := by
  have kinds : l.notices.kinds = [] ↔ ∀ k, ¬l.notices.has k = true :=
    List.filter_eq_nil_iff.trans ⟨fun h k => h k k.mem_all, fun h k _ => h k⟩
  rw [Link.attention, Bool.or_eq_true, Bool.not_eq_true', Bool.not_eq_true', List.isEmpty_eq_false_iff,
    List.isEmpty_eq_false_iff, ne_eq l.notices.kinds, kinds, not_forall]
  simp only [Classical.not_not]

/-- Settles O11: each of the four choices by what the transmitter finds, and the wire form of what it sends. -/
theorem frameStartFollowsItsOrder : Obligations.FrameStartFollowsItsOrder := by
  unfold Obligations.FrameStartFollowsItsOrder
  refine ⟨fun s c boundary tx => ?_, fun s r rs boundary tx replies => ?_,
    fun s k boundary tx replies pending first => ?_, fun s boundary tx replies none => ?_, fun r => ?_, fun f => ?_,
    Link.attention_iff⟩
  · rw [exec_frameStart boundary, State.startFrame_of_cutShort tx]
    rfl
  · rw [exec_frameStart boundary, State.startFrame_of_reply tx replies]
    rfl
  · obtain ⟨content, some⟩ := Option.ne_none_iff_exists'.1 fun none =>
      Bool.true_eq_false.mp (pending.symm.trans ((noticeContent_eq_none s k).1 none))
    refine ⟨content, noticeContent_kind some, some, ?_⟩
    rw [exec_frameStart boundary, State.startFrame_of_notice tx replies (State.firstNotice_of_first some first)]
    rfl
  · rw [exec_frameStart boundary, State.startFrame_of_none tx replies (State.firstNotice_of_none none)]
    rfl
  · exact ⟨r.body.bytes, r.body.length_bytes, fun none => by rw [none]; rfl, rfl⟩
  · exact ⟨(Config.noticeFields f.content).take 512, List.length_take_le _ _, rfl⟩

/-! ## Sweeps over the event table -/

theorem nodup_numbers (n : Nat) : (numbers n).Nodup := List.nodup_ofFn_ofInjective Function.injective_id

/-- The state with another event table. -/
def State.withEvents (s : State) (events : Tab 16 EventEntry) : State := s.withBackup { s.backup with events := events }

/-- Work that rewrites one entry at a time rewrites each entry it comes to, and the event table alone. -/
theorem foldl_withEvents {f : State → Fin 16 → State} {g : Fin 16 → Instant → EventEntry → EventEntry}
    (h : ∀ s x, f s x = s.setEvent x (g x s.now (s.entry x))) :
    ∀ (l : List (Fin 16)) (s : State), ∃ events, l.foldl f s = s.withEvents events ∧
      (∀ e, e ∉ l → events.get e = s.entry e) ∧ (l.Nodup → ∀ e ∈ l, events.get e = g e s.now (s.entry e))
  | [], s => ⟨s.backup.events, rfl, fun _ _ => rfl, fun _ _ he => absurd he List.not_mem_nil⟩
  | x :: l, s => by
    obtain ⟨events, eq, outside, inside⟩ := foldl_withEvents h l (f s x)
    rw [h s x] at eq outside inside
    have set (e : Fin 16) : (s.setEvent x (g x s.now (s.entry x))).entry e = if x = e then g x s.now (s.entry x) else s.entry e :=
      State.entry_setEvent s x e _
    refine ⟨events, ?_, fun e he => ?_, fun nodup e he => ?_⟩
    · rw [List.foldl_cons, h s x, eq]
      rfl
    · obtain ⟨other, tail⟩ := not_or.1 (List.mem_cons.not.1 he)
      rw [outside e tail, set, if_neg (Ne.symm other)]
    · obtain ⟨notTail, rest⟩ := List.nodup_cons.1 nodup
      rcases List.mem_cons.1 he with rfl | tail
      · rw [outside e notTail, set, if_pos rfl]
      · have other : x ≠ e := fun same => notTail (same ▸ tail)
        rw [inside rest e tail, set, if_neg other]
        rfl

theorem Instant.atOrAfter_iff (now i : Instant) : now.atOrAfter i = true ↔ i.Reached now := by
  simp [Instant.atOrAfter]

theorem EventEntry.released_daily {x : EventEntry} {time : Nat} (daily : x.trigger = .daily time) (now : Instant) :
    x.released now = { x with state := .armed, late := false
                              due := match x.due with
                                | .at i => if now.atOrAfter i then nextOccurrence time now else .at i
                                | d => d } := by
  obtain ⟨state, trigger, due, cue, quantize, late, firedAt⟩ := x
  cases daily
  unfold EventEntry.released
  match due with
  | .at i =>
    dsimp only
    split
    · rfl
    · rfl
  | .absent => rfl
  | .beyondRange => rfl

theorem EventEntry.released_oneShot {x : EventEntry} (h : ∀ time, x.trigger ≠ .daily time) (now : Instant) :
    x.released now = .freed := by
  unfold EventEntry.released
  split
  · next time daily => exact absurd daily (h time)
  · rfl

/-! ## Completion of a frame -/

theorem State.completeFrame_of_reply {s : State} {r : Reply} (tx : s.link.tx = some ⟨.reply r, true⟩) :
    s.completeFrame = s.withLink s.link.completeReply := by
  unfold State.completeFrame
  rw [tx]

theorem Link.completeReply_of_nil {l : Link} (h : l.waiting = []) :
    l.completeReply = { l with replies := l.replies.tail, tx := none, out := [] } := by
  unfold Link.completeReply
  dsimp only
  rw [h]

theorem Link.completeReply_of_cons {l : Link} {w : Reply} {ws : List Reply} (h : l.waiting = w :: ws) :
    l.completeReply = { l with replies := l.replies.tail ++ [w], inbound := l.inbound.eraseP (w.answers .deferred)
                               waiting := ws, tx := none, out := [] } := by
  unfold Link.completeReply
  dsimp only
  rw [h]
  rfl

/-- The link when a notice frame has been sent to its end. -/
def Link.completeNotice (l : Link) (f : NoticeFrame) : Link :=
  { l with notices := l.notices.delivered f, tx := none, out := [] }

theorem State.completeFrame_of_notice {s : State} {f : NoticeFrame} (tx : s.link.tx = some ⟨.notice f, true⟩) :
    s.completeFrame = s.completeNotice f := by
  unfold State.completeFrame
  rw [tx]

/-- Only a live EVENTS frame releases entries. -/
theorem State.completeNotice_of_other {s : State} {f : NoticeFrame} (h : f.live = false ∨ f.content.kind ≠ .events) :
    s.completeNotice f = s.withLink (s.link.completeNotice f) := by
  obtain ⟨seq, content, acting, live, rewritten⟩ := f
  cases live with
  | false => rfl
  | true =>
    cases content
    case events => exact absurd rfl (h.resolve_left Bool.true_eq_false.mp)
    all_goals rfl

theorem State.completeNotice_of_events {s : State} {f : NoticeFrame} (live : f.live = true) {es : List EventReport}
    (content : f.content = .events es) :
    s.completeNotice f = (numbers 16).foldl (releaseDelivered f.acting) (s.withLink (s.link.completeNotice f)) := by
  obtain ⟨seq, _, acting, _, rewritten⟩ := f
  cases live
  cases content
  rfl

theorem NoticeSet.delivered_dead (n : NoticeSet) {f : NoticeFrame} (h : f.live = false) : n.delivered f = n := if_pos h

theorem NoticeSet.delivered_single (n : NoticeSet) {f : NoticeFrame} (live : f.live = true) (events : f.content.kind ≠ .events)
    (stream : f.content.kind ≠ .stream) (voiceEnd : f.content.kind ≠ .voiceEnd) :
    n.delivered f = if f.rewritten = true then n else n.remove f.content.kind := by
  obtain ⟨seq, content, acting, _, rewritten⟩ := f
  cases live
  cases content
  case events => exact absurd rfl events
  case stream => exact absurd rfl stream
  case voiceEnd => exact absurd rfl voiceEnd
  all_goals rfl

/-- What the completion of an EVENTS frame makes of one entry. -/
def EventEntry.delivered (acting : List Nat) (e : Fin 16) (now : Instant) (x : EventEntry) : EventEntry :=
  if acting.contains e.val ∧ x.state = .fired then x.released now else x

theorem releaseDelivered_eq (acting : List Nat) (s : State) (e : Fin 16) :
    releaseDelivered acting s e = s.setEvent e ((s.entry e).delivered acting e s.now) := by
  unfold releaseDelivered EventEntry.delivered
  split
  · rfl
  · rw [State.setEvent, State.entry, Tab.set_get_self, State.withBackup_self]

theorem EventEntry.delivered_of_acting {acting : List Nat} {e : Fin 16} {x : EventEntry} (carried : e.val ∈ acting)
    (fired : x.state = .fired) (now : Instant) : x.delivered acting e now = x.released now :=
  if_pos ⟨List.contains_iff_mem.2 carried, fired⟩

theorem EventEntry.delivered_of_not {acting : List Nat} {e : Fin 16} {x : EventEntry} (h : e.val ∉ acting ∨ x.state ≠ .fired)
    (now : Instant) : x.delivered acting e now = x := by
  refine if_neg ?_
  rintro ⟨carried, fired⟩
  rcases h with notCarried | notFired
  · exact notCarried (List.contains_iff_mem.1 carried)
  · exact notFired fired

/-- The completion of a live EVENTS frame, entry by entry. -/
theorem State.completeNotice_events {s : State} {f : NoticeFrame} (live : f.live = true) {es : List EventReport}
    (content : f.content = .events es) : ∃ events, s.completeNotice f = (s.withLink (s.link.completeNotice f)).withEvents events ∧
      ∀ e, events.get e = (s.entry e).delivered f.acting e s.now := by
  obtain ⟨events, eq, -, all⟩ := foldl_withEvents (g := fun e now x => x.delivered f.acting e now)
    (releaseDelivered_eq f.acting) (numbers 16) (s.withLink (s.link.completeNotice f))
  rw [State.completeNotice_of_events live content, eq]
  exact ⟨events, rfl, fun e => all (nodup_numbers 16) e (mem_numbers e)⟩

theorem Link.pend_tx_of_enabled {l : Link} {k : NoticeKind} (h : maskEnables l.mask k = true) (put : NoticeSet → NoticeSet) :
    (l.pend k put).tx = markRewritten k l.tx := by
  rw [Link.pend_enabled h]

theorem markRewritten_of_other {tx : Option TxFrame} (h : ∀ f sending, tx ≠ some ⟨.notice f, sending⟩) (k : NoticeKind) :
    markRewritten k tx = tx := by
  match tx, h with
  | none, _ => rfl
  | some ⟨.reply _, _⟩, _ => rfl
  | some ⟨.notice f, sending⟩, h => exact absurd rfl (h f sending)

/-- Settles O12: the completion of each kind of frame, and a notice made pending again. -/
theorem completedFramesLeaveTheirQueues : Obligations.CompletedFramesLeaveTheirQueues := by
  unfold Obligations.CompletedFramesLeaveTheirQueues
  refine ⟨fun s r boundary tx waiting => ?_, fun s r w ws boundary tx waiting => ?_, fun s f boundary tx dead => ?_,
    fun s f k boundary tx live kind events stream voiceEnd => ?_, fun s f vs boundary tx live => ⟨fun content => ?_,
    fun content => ?_⟩, fun s f es boundary tx live content => ?_, fun s k put on => ?_, fun s k put off => ?_⟩
  · rw [exec_frameTransmitComplete boundary, State.completeFrame_of_reply tx, Link.completeReply_of_nil waiting]
    rfl
  · rw [exec_frameTransmitComplete boundary, State.completeFrame_of_reply tx, Link.completeReply_of_cons waiting]
    rfl
  · rw [exec_frameTransmitComplete boundary, State.completeFrame_of_notice tx, State.completeNotice_of_other (.inl dead),
      Link.completeNotice, NoticeSet.delivered_dead _ dead]
    rfl
  · subst kind
    rw [exec_frameTransmitComplete boundary, State.completeFrame_of_notice tx, State.completeNotice_of_other (.inr events),
      Link.completeNotice, NoticeSet.delivered_single _ live events stream voiceEnd]
    rfl
  · have other : f.content.kind ≠ .events := by rw [content]; exact NoticeKind.noConfusion
    rw [exec_frameTransmitComplete boundary, State.completeFrame_of_notice tx, State.completeNotice_of_other (.inr other),
      Link.completeNotice, NoticeSet.delivered, content, live]
    rfl
  · have other : f.content.kind ≠ .events := by rw [content]; exact NoticeKind.noConfusion
    rw [exec_frameTransmitComplete boundary, State.completeFrame_of_notice tx, State.completeNotice_of_other (.inr other),
      Link.completeNotice, NoticeSet.delivered, content, live]
    rfl
  · obtain ⟨events, eq, entries⟩ := State.completeNotice_events (s := s) live content
    have link : s.link.completeNotice f = { s.link with tx := none, out := [], notices := { s.link.notices with
        events := s.link.notices.events.filter fun e => !f.acting.contains e.val } } := by
      rw [Link.completeNotice, NoticeSet.delivered, content, live]
      rfl
    rw [exec_frameTransmitComplete boundary, State.completeFrame_of_notice tx, eq, link]
    refine ⟨_, rfl, rfl, rfl, rfl, rfl, rfl, fun e h => ?_, fun e v carried fired trigger => ?_,
      fun e i carried fired trigger => ?_, fun e time i carried fired daily due => ?_, fun e time carried fired daily due => ?_⟩
    all_goals refine (entries e).trans ?_
    · exact EventEntry.delivered_of_not h s.now
    · rw [EventEntry.delivered_of_acting carried fired]
      exact EventEntry.released_oneShot (by rw [trigger]; nofun) s.now
    · rw [EventEntry.delivered_of_acting carried fired]
      exact EventEntry.released_oneShot (by rw [trigger]; nofun) s.now
    · rw [EventEntry.delivered_of_acting carried fired, EventEntry.released_daily daily, due, Instant.earlier]
      dsimp only
      cases s.now.atOrAfter i <;> rfl
    · rw [EventEntry.delivered_of_acting carried fired, EventEntry.released_daily daily]
      split
      · next i at' => exact absurd at' (due i)
      · rfl
  · refine ⟨_, rfl, rfl, ?_⟩
    rw [State.pend_eq, Link.pend_enabled on]
    refine ⟨rfl, rfl, fun f sending tx => ?_, fun other => markRewritten_of_other other k⟩
    show markRewritten k s.link.tx = _
    rw [tx]
    rfl
  · rw [State.pend_eq, Link.pend_disabled off, State.withLink_self]

/-! ## The notice mask -/

theorem markDisabled_of_other {tx : Option TxFrame} (h : ∀ f sending, tx ≠ some ⟨.notice f, sending⟩) (mask : Word16) :
    markDisabled mask tx = tx := by
  match tx, h with
  | none, _ => rfl
  | some ⟨.reply _, _⟩, _ => rfl
  | some ⟨.notice f, sending⟩, h => exact absurd rfl (h f sending)

/-- The mask leaves out of the pending set exactly the kinds that it disables. -/
theorem NoticeSet.masked_eq (n : NoticeSet) (mask : Word16) : n.masked mask =
    { supply := if maskEnables mask .supply then n.supply else none, rumble := if maskEnables mask .rumble then n.rumble else none
      saveScan := if maskEnables mask .saveScan then n.saveScan else none
      gameDay := if maskEnables mask .gameDay then n.gameDay else none
      events := if maskEnables mask .events then n.events else [], cue := if maskEnables mask .cue then n.cue else none
      stream := if maskEnables mask .stream then n.stream else []
      voiceEnd := if maskEnables mask .voiceEnd then n.voiceEnd else []
      clip := if maskEnables mask .clip then n.clip else none, link := if maskEnables mask .link then n.link else none } := by
  have one (n : NoticeSet) (k : NoticeKind) : (if maskEnables mask k then n else n.remove k) =
      { supply := if maskEnables mask k = false ∧ k = .supply then none else n.supply
        rumble := if maskEnables mask k = false ∧ k = .rumble then none else n.rumble
        saveScan := if maskEnables mask k = false ∧ k = .saveScan then none else n.saveScan
        gameDay := if maskEnables mask k = false ∧ k = .gameDay then none else n.gameDay
        events := if maskEnables mask k = false ∧ k = .events then [] else n.events
        cue := if maskEnables mask k = false ∧ k = .cue then none else n.cue
        stream := if maskEnables mask k = false ∧ k = .stream then [] else n.stream
        voiceEnd := if maskEnables mask k = false ∧ k = .voiceEnd then [] else n.voiceEnd
        clip := if maskEnables mask k = false ∧ k = .clip then none else n.clip
        link := if maskEnables mask k = false ∧ k = .link then none else n.link } := by
    cases maskEnables mask k
    · cases k <;> rfl
    · simp
  unfold NoticeSet.masked NoticeKind.all
  simp only [List.foldl_cons, List.foldl_nil, one, reduceCtorEq, and_true, and_false, if_false]
  simp only [← Bool.not_eq_true, ite_not]

theorem exec_noticeMask (tag : Byte) (mask : Word16) (s : State) :
    exec (.noticeMask tag mask) s = serve (.noticeMask tag mask) (takeNoticeMask mask) s := rfl

/-- The link with its mask replaced, before the entries of a disabled EVENTS are released. -/
def Link.masked (l : Link) (mask : Word16) : Link :=
  { l with mask := mask, notices := l.notices.masked mask, tx := markDisabled mask l.tx }

/-- The new mask, and the entries it releases: each once where the set names none twice. -/
theorem State.setMask_spec (s : State) (mask : Word16) :
    let members := if maskEnables mask .events then [] else s.link.notices.events
    ∃ events, s.setMask mask = (s.withLink (s.link.masked mask)).withEvents events ∧
      (∀ e, e ∉ members → events.get e = s.entry e) ∧
      (members.Nodup → ∀ e ∈ members, events.get e = (s.entry e).released s.now) ∧
      (maskEnables mask .events = true → events = s.backup.events) := by
  intro members
  obtain ⟨events, eq, outside, inside⟩ := foldl_withEvents (g := fun _ now x => x.released now) (fun _ _ => rfl) members
    (s.withLink (s.link.masked mask))
  refine ⟨events, eq, outside, inside, fun on => Tab.ext_get fun e => outside e ?_⟩
  rw [show members = [] from if_pos on]
  exact List.not_mem_nil

/-- Settles O14: the mask by its range, and what it disables. -/
theorem noticeMaskDisablesKinds : Obligations.NoticeMaskDisablesKinds := by
  unfold Obligations.NoticeMaskDisablesKinds
  refine ⟨fun s tag mask serves high => ?_, fun s tag mask serves low => ?_⟩
  · rw [exec_noticeMask]
    exact serve_refused rfl serves (if_neg (Nat.not_lt.2 high))
  · obtain ⟨events, eq, outside, inside, enabled⟩ := s.setMask_spec mask
    have row : exec (.noticeMask tag mask) s = .next ((s.setMask mask).replied Kind.noticeMask tag .ok (.noticeMask mask)) := by
      rw [exec_noticeMask]
      exact serve_accepted rfl serves (if_pos low)
    rw [row, eq]
    refine ⟨_, rfl, rfl, rfl, rfl, NoticeSet.masked_eq _ _, fun f sending tx => ?_, fun other => markDisabled_of_other other mask,
      fun on => ?_, rfl, rfl, rfl, fun e he => ?_, fun off e he nodup oneShot => ?_, fun off e he nodup time daily => ?_⟩
    · show markDisabled mask s.link.tx = _
      rw [tx]
      rfl
    · rw [enabled on]
      rfl
    · refine outside e fun member => ?_
      split at member
      · exact absurd member List.not_mem_nil
      · exact he member
    · rw [off] at inside
      exact (inside nodup e he).trans (EventEntry.released_oneShot oneShot s.now)
    · rw [off] at inside
      refine (inside nodup e he).trans ((EventEntry.released_daily daily s.now).trans ?_)
      simp only [Instant.atOrAfter_iff] <;> rfl

end Sys2Proof.Machine
end

