-- ==== Sys2Proof/Proofs/SupplyResults.lean ====
section
/-! SUPPORT. The results of the supply monitor: the supply and battery states by their tables, rounds, the back-voltage requests, and
the zero-offset calibration (R2 to R12). -/

namespace Sys2Proof.Machine

set_option Elab.async false

/-! ## The supply state -/

theorem SupplyMonitor.takeVcart_of_first {m : SupplyMonitor} (h : m.firstVcart = false) (v : Nat) : m.takeVcart v =
    { m with vcart := v, supply := judgeFirst v m.low m.critical, supplyRecovery := 0, firstVcart := true } :=
  if_neg (ne_true_of_eq_false h)

theorem SupplyMonitor.takeVcart_of_later {m : SupplyMonitor} (h : m.firstVcart = true) (v : Nat) : m.takeVcart v =
    { m with vcart := v, supply := (judgeSupply m.supply m.supplyRecovery v m.low m.critical m.hysteresis).1
             supplyRecovery := (judgeSupply m.supply m.supplyRecovery v m.low m.critical m.hysteresis).2 } :=
  if_pos h

theorem SupplyMonitor.takeVcart_kept (m : SupplyMonitor) (v : Nat) :
    (m.takeVcart v).vcart = v ∧ (m.takeVcart v).firstVcart = true ∧ (m.takeVcart v).round = m.round := by
  cases h : m.firstVcart
  · rw [SupplyMonitor.takeVcart_of_first h]
    exact ⟨rfl, rfl, rfl⟩
  · rw [SupplyMonitor.takeVcart_of_later h]
    exact ⟨rfl, h, rfl⟩

/-- The monitor after a VCART result, whatever the change of state does to the other blocks. -/
theorem State.takeVcart_supply (s : State) (v : Nat) (turns : List SupplyTurn) :
    (s.takeVcart v turns).supply = (s.supply.takeVcart v).roundOn := by
  unfold State.takeVcart
  dsimp only
  split
  · rfl
  · obtain ⟨-, supply, -⟩ := (s.withSupply (s.supply.takeVcart v).roundOn).supplyChanged_frame
      (s.supply.takeVcart v).roundOn.supply turns
    exact supply

theorem State.takeVcart_of_same {s : State} {v : Nat} (h : (s.supply.takeVcart v).roundOn.supply = s.supply.supply)
    (turns : List SupplyTurn) : s.takeVcart v turns = s.withSupply (s.supply.takeVcart v).roundOn := if_pos h

theorem exec_vcartResult {s : State} (powered : s.corePowered = true) (converting : s.supply.converting = .channel .vcart)
    (count : Count12) (turns : List SupplyTurn) :
    exec (.vcartResult ⟨count, turns⟩) s = .next (s.takeVcart count.val turns) :=
  (onCore_powered powered _).trans (congrArg Host.Outcome.next (if_pos converting))

theorem judgeFirst_spec (v l c : Nat) :
    (v < c → judgeFirst v l c = .critical) ∧ (c ≤ v → v < l → judgeFirst v l c = .low) ∧
    (c ≤ v → l ≤ v → judgeFirst v l c = .normal) := by
  unfold judgeFirst
  refine ⟨fun below => if_pos below, fun above low => ?_, fun above normal => ?_⟩
  · rw [if_neg (Nat.not_lt.2 above), if_pos low]
  · rw [if_neg (Nat.not_lt.2 above), if_neg (Nat.not_lt.2 normal)]

theorem judgeSupply_normal (n v l c h : Nat) : judgeSupply .normal n v l c h = (judgeFirst v l c, 0) := by
  unfold judgeSupply judgeFirst
  dsimp only
  split
  · rfl
  · split
    · rfl
    · rfl

theorem judgeSupply_low (n v l c h : Nat) :
    (v < c → judgeSupply .low n v l c h = (.critical, 0)) ∧
    (c ≤ v → v < l + h → judgeSupply .low n v l c h = (.low, 0)) ∧
    (c ≤ v → l + h ≤ v → n ≤ 2 → judgeSupply .low n v l c h = (.low, n + 1)) ∧
    (c ≤ v → l + h ≤ v → n = 3 → judgeSupply .low n v l c h = (.normal, 0)) := by
  unfold judgeSupply
  dsimp only
  refine ⟨fun below => if_pos below, fun above low => ?_, fun above high short => ?_, fun above high three => ?_⟩
  · rw [if_neg (Nat.not_lt.2 above), if_pos low]
  · rw [if_neg (Nat.not_lt.2 above), if_neg (Nat.not_lt.2 high), if_pos short]
  · rw [if_neg (Nat.not_lt.2 above), if_neg (Nat.not_lt.2 high), if_neg (by omega)]

theorem judgeSupply_critical (n v l c h : Nat) :
    (v < c + h → judgeSupply .critical n v l c h = (.critical, 0)) ∧
    (c + h ≤ v → n ≤ 2 → judgeSupply .critical n v l c h = (.critical, n + 1)) ∧
    (c + h ≤ v → n = 3 → judgeSupply .critical n v l c h = (.low, 0)) := by
  unfold judgeSupply
  dsimp only
  refine ⟨fun below => if_pos below, fun high short => ?_, fun high three => ?_⟩
  · rw [if_neg (Nat.not_lt.2 high), if_pos short]
  · rw [if_neg (Nat.not_lt.2 high), if_neg (by omega)]

/-- Settles O17: the first result, and a later one by the state it finds. -/
theorem vcartResultsFollowTheirTables : Obligations.VcartResultsFollowTheirTables := by
  unfold Obligations.VcartResultsFollowTheirTables
  intro s count turns powered converting
  obtain ⟨vcart, first, round⟩ := s.supply.takeVcart_kept count.val
  have monitor := s.takeVcart_supply count.val turns
  have later (h : s.supply.firstVcart = true) : ∀ r, judgeSupply s.supply.supply s.supply.supplyRecovery count.val s.supply.low
      s.supply.critical s.supply.hysteresis = r → (s.supply.takeVcart count.val).roundOn.supply = r.1 ∧
        (s.supply.takeVcart count.val).roundOn.supplyRecovery = r.2 := by
    rintro r rfl
    rw [SupplyMonitor.takeVcart_of_later h]
    exact ⟨rfl, rfl⟩
  refine ⟨_, exec_vcartResult powered converting count turns, ?_⟩
  rw [monitor]
  refine ⟨vcart, first, congrArg List.tail round, fun isFirst => ?_, fun isLater normal => ?_, fun isLater low => ?_,
    fun isLater critical => ?_, fun same => ?_⟩
  · rw [SupplyMonitor.takeVcart_of_first isFirst]
    obtain ⟨toCritical, toLow, toNormal⟩ := judgeFirst_spec count.val s.supply.low s.supply.critical
    exact ⟨toCritical, toLow, toNormal, rfl⟩
  · obtain ⟨state, recovery⟩ := later isLater _ (normal ▸ judgeSupply_normal _ _ _ _ _)
    rw [state]
    obtain ⟨toCritical, toLow, toNormal⟩ := judgeFirst_spec count.val s.supply.low s.supply.critical
    exact ⟨toCritical, toLow, toNormal, recovery⟩
  · obtain ⟨toCritical, stays, counts, rises⟩ := judgeSupply_low s.supply.supplyRecovery count.val s.supply.low
      s.supply.critical s.supply.hysteresis
    have later := low ▸ later isLater
    exact ⟨fun below => later _ (toCritical below), fun above high => later _ (stays above high),
      fun above high short => later _ (counts above high short), fun above high three => later _ (rises above high three)⟩
  · obtain ⟨stays, counts, rises⟩ := judgeSupply_critical s.supply.supplyRecovery count.val s.supply.low
      s.supply.critical s.supply.hysteresis
    have later := critical ▸ later isLater
    exact ⟨fun below => later _ (stays below), fun high short => later _ (counts high short),
      fun high three => later _ (rises high three)⟩
  · rw [State.takeVcart_of_same same]
    rfl

/-! ## The battery state -/

theorem judgeBattery_of_not_weak {state : BatteryState} (h : state ≠ .weak) (n v threshold : Nat) :
    judgeBattery state n v threshold = (if v < threshold then .weak else .good, 0) := by
  cases state
  case weak => exact absurd rfl h
  all_goals exact (apply_ite (fun x => (x, 0)) _ _ _).symm

theorem judgeBattery_weak (n v threshold : Nat) :
    (v < threshold + 50 → judgeBattery .weak n v threshold = (.weak, 0)) ∧
    (threshold + 50 ≤ v → n ≤ 2 → judgeBattery .weak n v threshold = (.weak, n + 1)) ∧
    (threshold + 50 ≤ v → n = 3 → judgeBattery .weak n v threshold = (.good, 0)) := by
  unfold judgeBattery
  dsimp only
  refine ⟨fun below => if_pos below, fun high short => ?_, fun high three => ?_⟩
  · rw [if_neg (Nat.not_lt.2 high), if_pos short]
  · rw [if_neg (Nat.not_lt.2 high), if_neg (by omega)]

/-- The monitor after a VBAT result judged as `r`. -/
def SupplyMonitor.batteryJudged (m : SupplyMonitor) (v : Nat) (r : BatteryState × Nat) : SupplyMonitor :=
  { m with vbat := v, battery := r.1, batteryRecovery := r.2, round := m.round.tail }

theorem State.takeVbat_eq (s : State) (v : Nat) :
    s.takeVbat v =
      let r := judgeBattery s.supply.battery s.supply.batteryRecovery v s.supply.battThreshold
      if r.1 = s.supply.battery then s.withSupply (s.supply.batteryJudged v r)
      else (s.withSupply (s.supply.batteryJudged v r)).pendSupply := rfl

theorem exec_vbatResult {s : State} (powered : s.corePowered = true) (converting : s.supply.converting = .channel .vbat)
    (count : Count12) : exec (.vbatResult count) s = .next (s.takeVbat count.val) :=
  (onCore_powered powered _).trans (congrArg Host.Outcome.next (if_pos converting))

theorem Link.pend_supply_rewrites {l : Link} {f : NoticeFrame} {sending : Bool} (enabled : maskEnables l.mask .supply = true)
    (tx : l.tx = some ⟨.notice f, sending⟩) (kind : f.content.kind = .supply) (put : NoticeSet → NoticeSet) :
    (l.pend .supply put).tx = some ⟨.notice { f with rewritten := true }, sending⟩ := by
  rw [Link.pend_tx_of_enabled enabled, tx]
  simp [markRewritten, kind]

/-- Settles O19: the battery state by its table, and the SUPPLY notice of a change. -/
theorem vbatResultsFollowTheirTable : Obligations.VbatResultsFollowTheirTable := by
  unfold Obligations.VbatResultsFollowTheirTable
  intro s count powered converting
  refine ⟨_, exec_vbatResult powered converting count, ?_⟩
  have notWeak := judgeBattery_of_not_weak (state := s.supply.battery) (n := s.supply.batteryRecovery) (v := count.val)
    (threshold := s.supply.battThreshold)
  obtain ⟨stays, counts, rises⟩ := judgeBattery_weak s.supply.batteryRecovery count.val s.supply.battThreshold
  rw [State.takeVbat_eq]
  dsimp only
  generalize judged : judgeBattery s.supply.battery s.supply.batteryRecovery count.val s.supply.battThreshold = r at *
  have monitor : (if r.1 = s.supply.battery then s.withSupply (s.supply.batteryJudged count.val r)
      else (s.withSupply (s.supply.batteryJudged count.val r)).pendSupply).supply = s.supply.batteryJudged count.val r := by
    split
    · rfl
    · rfl
  rw [monitor]
  refine ⟨rfl, rfl, fun unlessWeak => ?_, fun weak => ?_, fun same => ?_, fun changed => ?_⟩
  · rw [notWeak unlessWeak]
    exact ⟨fun below => if_pos below, fun above => if_neg (Nat.not_lt.2 above), rfl⟩
  · rw [weak] at judged
    exact ⟨fun below => Prod.ext_iff.1 (judged.symm.trans (stays below)),
      fun high short => Prod.ext_iff.1 (judged.symm.trans (counts high short)),
      fun high three => Prod.ext_iff.1 (judged.symm.trans (rises high three))⟩
  · rw [if_pos (show r.1 = s.supply.battery from same)]
    rfl
  · rw [if_neg (show r.1 ≠ s.supply.battery from changed)]
    refine ⟨rfl, fun enabled => ⟨?_, fun f sending tx kind => Link.pend_supply_rewrites enabled tx kind _⟩⟩
    show ((s.link.pend .supply _).notices).supply = _
    rw [Link.pend_enabled enabled]
    rfl

/-! ## Rounds and back-voltage requests -/

theorem exec_roundStart {s : State} (powered : s.corePowered = true) :
    exec .roundStart s = .next (s.withSupply s.supply.periodMark) :=
  onCore_powered powered fun s => s.withSupply s.supply.periodMark

theorem SupplyMonitor.periodMark_of_nil {m : SupplyMonitor} (h : m.round = []) :
    m.periodMark = { m with round := [.vcart, .vbat, .imot] } := if_pos (List.isEmpty_iff.2 h)

theorem SupplyMonitor.periodMark_of_round {m : SupplyMonitor} (h : m.round ≠ []) :
    m.periodMark = { m with skipped := sat16 m.skipped } := if_neg (List.isEmpty_iff.not.2 h)

theorem exec_coastWindow {s : State} (powered : s.corePowered = true) : exec .coastWindow s =
    .next (if 0 < s.rumble.applied then (s.withRumble { s.rumble with coastOpen := true }).withSupply s.supply.requestBemf
      else s) :=
  onCore_powered powered fun s =>
    if 0 < s.rumble.applied then (s.withRumble { s.rumble with coastOpen := true }).withSupply s.supply.requestBemf else s

theorem SupplyMonitor.requestBemf_of_outstanding {m : SupplyMonitor} (h : m.injected ≠ .idle) : m.requestBemf = m := if_pos h

theorem SupplyMonitor.requestBemf_of_idle {m : SupplyMonitor} (h : m.injected = .idle) :
    m.requestBemf = { m with injected := if m.calibration.isSome then .held else .converting } := if_neg (not_not_intro h)

/-- Settles O20: a round is begun or skipped; a back-voltage request is merged, converted or held. -/
theorem roundsAndBackVoltageRequests : Obligations.RoundsAndBackVoltageRequests := by
  unfold Obligations.RoundsAndBackVoltageRequests
  refine ⟨fun s powered none => ?_, fun s powered round => ?_, fun s powered coasting => ?_,
    fun s powered driven => ⟨fun outstanding => ?_, fun idle free => ?_, fun idle calibrating => ?_⟩⟩
  · rw [exec_roundStart powered, SupplyMonitor.periodMark_of_nil none]
    rfl
  · rw [exec_roundStart powered, SupplyMonitor.periodMark_of_round round]
    rfl
  · rw [exec_coastWindow powered, if_neg (by omega)]
  · rw [exec_coastWindow powered, if_pos driven, SupplyMonitor.requestBemf_of_outstanding outstanding]
    rfl
  · rw [exec_coastWindow powered, if_pos driven, SupplyMonitor.requestBemf_of_idle idle,
      if_neg (by rw [free]; exact Bool.false_ne_true)]
    rfl
  · rw [exec_coastWindow powered, if_pos driven, SupplyMonitor.requestBemf_of_idle idle,
      if_pos (Option.isSome_iff_ne_none.2 calibrating)]
    rfl

/-! ## The zero-offset calibration -/

theorem exec_calibrateMotorSense (tag : Byte) (s : State) :
    exec (.calibrateMotorSense tag) s = serve (.calibrateMotorSense tag) (takeCalibrate tag) s := rfl

theorem takeCalibrate_of_busy {s : State} (h : s.supply.calibration ≠ none ∨ s.rumble.state ≠ .idle) (tag : Byte) :
    takeCalibrate tag s = refuse s .busy := by
  unfold takeCalibrate
  split
  · rfl
  next free =>
    refine if_pos (h.resolve_left fun some => free (Option.isSome_iff_ne_none.2 some))

theorem takeCalibrate_of_free {s : State} (free : s.supply.calibration = none) (idle : s.rumble.state = .idle) (tag : Byte) :
    takeCalibrate tag s = defer (s.beginCalibration (.requested tag)) := by
  unfold takeCalibrate
  rw [free, if_neg (by simp), if_neg (not_not_intro idle)]

theorem SupplyMonitor.converting_calibration {m : SupplyMonitor} {c : Calibration} (free : m.injected ≠ .converting)
    (calibrating : m.calibration = some c) : m.converting = .calibration := by
  unfold SupplyMonitor.converting
  rw [if_neg free, calibrating]
  rfl

theorem exec_calibrationConversion {s : State} {c : Calibration} (powered : s.corePowered = true)
    (free : s.supply.injected ≠ .converting) (calibrating : s.supply.calibration = some c) (raw : Count12) :
    exec (.calibrationConversion raw) s = .next (s.takeCalibration raw.val) :=
  (onCore_powered powered _).trans
    (congrArg Host.Outcome.next (if_pos (SupplyMonitor.converting_calibration free calibrating)))

/-- The state with one more conversion of a calibration counted. -/
def State.calibrationTaken (s : State) (c : Calibration) (raw : Nat) : State :=
  s.withSupply { s.supply with bemfRaw := raw, calibration := some ⟨c.origin, c.taken + 1, c.sum + raw⟩ }

theorem State.takeCalibration_of_some {s : State} {c : Calibration} (calibrating : s.supply.calibration = some c) (raw : Nat) :
    s.takeCalibration raw = if c.taken + 1 < 8 then s.calibrationTaken c raw
      else (s.calibrationTaken c raw).endCalibration c.origin (c.sum + raw) := by
  unfold State.takeCalibration
  rw [calibrating]
  rfl

/-- Settles O22: the request by what it finds, each conversion by its number, and the end by what began the calibration. -/
theorem calibrationSetsTheZeroOffset : Obligations.CalibrationSetsTheZeroOffset := by
  unfold Obligations.CalibrationSetsTheZeroOffset
  refine ⟨fun s tag serves busy => ?_, fun s tag serves free idle => ?_,
    fun s raw c powered free calibrating => ⟨fun more => ?_, fun last => ⟨fun startUp => ?_, fun tag requested => ?_⟩⟩⟩
  · rw [exec_calibrateMotorSense]
    exact serve_refused rfl serves (takeCalibrate_of_busy busy tag)
  · rw [exec_calibrateMotorSense]
    exact serve_deferred rfl serves (takeCalibrate_of_free free idle tag)
  · rw [exec_calibrationConversion powered free calibrating, State.takeCalibration_of_some calibrating, if_pos (by omega)]
    rfl
  · rw [exec_calibrationConversion powered free calibrating, State.takeCalibration_of_some calibrating, if_neg (by omega),
      startUp]
    rfl
  · rw [exec_calibrationConversion powered free calibrating, State.takeCalibration_of_some calibrating, if_neg (by omega),
      requested]
    rfl

end Sys2Proof.Machine
end

