-- ==== Sys2Proof/Proofs/SupplyChange.lean ====
section
/-! SUPPORT. The supply-state change event at the four blocks that take it, with a mark taken among them (R11, R21, R76, R84, R97,
R106, R162; log entry 33). -/

namespace Sys2Proof.Machine

set_option Elab.async false

/-! ## What one turn does to each block -/

section
variable (supply : SupplyState) (s : State)

/-- Beside its own turn the governor takes the master-volume report of a mixer mark and the idle report of an abandoned
operation. -/
theorem takeTurn_governor_cases {turn : SupplyTurn} (other : turn ≠ .governor) :
    (takeTurn supply s turn).governor = s.governor ∨
    (∃ volume, (takeTurn supply s turn).governor = s.governor.takeVolume volume) ∨
    ∃ busy, (takeTurn supply s turn).governor = s.governor.takeBusy busy := by
  cases turn
  case governor => exact absurd rfl other
  case mixer => exact .inl rfl
  case rumble => exact .inl rfl
  case save =>
    change (if supply = .critical then s.abandonForCritical else s).governor = _ ∨
      (∃ volume, (if supply = .critical then s.abandonForCritical else s).governor = _) ∨
      ∃ busy, (if supply = .critical then s.abandonForCritical else s).governor = _
    split
    · unfold State.abandonForCritical
      dsimp only
      split
      · exact .inl rfl
      · exact .inl rfl
      all_goals exact .inr (.inr ⟨false, s.stopForAbandon_governor⟩)
    · exact .inl rfl
  case mixerMark =>
    cases h : s.mixer.pending.master with
    | some volume => exact .inr (.inl ⟨volume, by rw [takeTurn, State.mixerMark_of_some h]; rfl⟩)
    | none => exact .inl (by rw [takeTurn, State.mixerMark_of_none h]; rfl)
  case rumbleMark =>
    obtain ⟨_, _, _, _, h⟩ := s.rumbleMark_frame
    exact .inl (by rw [takeTurn, h])

/-- Beside its own turn the mixer is changed by its own mark alone. -/
theorem takeTurn_mixer_cases {turn : SupplyTurn} (other : turn ≠ .mixer) :
    (takeTurn supply s turn).mixer = s.mixer ∨ (takeTurn supply s turn).mixer = s.mixer.latch s.governor.record.mceil := by
  cases turn
  case governor => exact .inl rfl
  case mixer => exact absurd rfl other
  case rumble => exact .inl rfl
  case save =>
    change (if supply = .critical then s.abandonForCritical else s).mixer = _ ∨ _
    split
    · obtain ⟨_, _, _, _, _, h⟩ := s.abandonForCritical_frame
      exact .inl (by rw [h])
    · exact .inl rfl
  case mixerMark => exact .inr s.mixerMark_mixer
  case rumbleMark =>
    obtain ⟨_, _, _, _, h⟩ := s.rumbleMark_frame
    exact .inl (by rw [takeTurn, h])

/-- Beside its own turn the driver is changed by its own mark alone. -/
theorem takeTurn_rumble_cases {turn : SupplyTurn} (other : turn ≠ .rumble) :
    (takeTurn supply s turn).rumble = s.rumble ∨ (takeTurn supply s turn).rumble = s.rumble.marked s.governor.record := by
  cases turn
  case governor => exact .inl rfl
  case mixer => exact .inl rfl
  case rumble => exact absurd rfl other
  case save =>
    change (if supply = .critical then s.abandonForCritical else s).rumble = _ ∨ _
    split
    · obtain ⟨_, _, _, _, _, h⟩ := s.abandonForCritical_frame
      exact .inl (by rw [h])
    · exact .inl rfl
  case mixerMark =>
    obtain ⟨_, _, h⟩ := s.mixerMark_frame
    exact .inl (by rw [takeTurn, h])
  case rumbleMark => exact .inr s.rumbleMark_rumble

/-- Beside its own turn the save controller is changed by the driver's mark alone, which may acknowledge the reserve. -/
theorem takeTurn_save_cases {turn : SupplyTurn} (other : turn ≠ .save) :
    ((takeTurn supply s turn).save = s.save ∧ (takeTurn supply s turn).backup = s.backup) ∨
    (s.save.state = .waitReserve ∧ (takeTurn supply s turn).save.state = .copying) := by
  cases turn
  case governor => exact .inl ⟨rfl, rfl⟩
  case mixer => exact .inl ⟨rfl, rfl⟩
  case rumble => exact .inl ⟨rfl, rfl⟩
  case save => exact absurd rfl other
  case mixerMark =>
    obtain ⟨_, _, h⟩ := s.mixerMark_frame
    exact .inl (by rw [takeTurn, h]; exact ⟨rfl, rfl⟩)
  case rumbleMark =>
    by_cases waiting : s.save.state = .waitReserve
    · cases reserve : s.governor.record.reserve with
      | true =>
        refine .inr ⟨waiting, ?_⟩
        rw [takeTurn, State.rumbleMark_of_acknowledged waiting reserve]
        rfl
      | false => exact .inl (State.rumbleMark_of_not_acknowledged (.inr reserve))
    · exact .inl (State.rumbleMark_of_not_acknowledged (.inl waiting))

end

/-! ## What all turns do -/

/-- What holds from a block's own turn on holds when the turns are done. -/
theorem foldl_establishes {R P : State → Prop} {own : SupplyTurn} {supply : SupplyState}
    (takes : ∀ s, R s → P (takeTurn supply s own)) (before : ∀ s turn, R s → R (takeTurn supply s turn))
    (after : ∀ s turn, P s → P (takeTurn supply s turn)) :
    ∀ {turns : List SupplyTurn} {s : State}, own ∈ turns → R s → P (turns.foldl (takeTurn supply) s)
  | [], _, mem, _ => absurd mem List.not_mem_nil
  | turn :: turns, s, mem, h => by
    by_cases its : turn = own
    · exact foldl_keeps (P := P) after turns (its ▸ takes s h)
    · exact foldl_establishes (turns := turns) takes before after ((List.mem_cons.1 mem).resolve_left (Ne.symm its)) (before s turn h)

/-- The state when the four blocks have taken the event, before the notice. -/
def State.eventTaken (s : State) (supply : SupplyState) (turns : List SupplyTurn) : State :=
  (allTurns turns).foldl (takeTurn supply) s

theorem State.supplyChanged_eq (s : State) (supply : SupplyState) (turns : List SupplyTurn) :
    s.supplyChanged supply turns = (s.eventTaken supply turns).pendSupply := rfl

section
variable (s : State) (supply : SupplyState) (turns : List SupplyTurn)

theorem eventTaken_governor : (s.eventTaken supply turns).governor.supply = supply ∧
    (s.eventTaken supply turns).governor.record = (s.eventTaken supply turns).governor.form := by
  refine foldl_establishes (R := fun _ => True) (P := fun t => t.governor.supply = supply ∧ t.governor.record = t.governor.form)
    (own := .governor) (fun _ _ => ⟨rfl, rfl⟩) (fun _ _ _ => trivial) (fun t turn h => ?_) (mem_allTurns (by decide) turns) trivial
  by_cases own : turn = .governor
  · rw [own]
    exact ⟨rfl, rfl⟩
  · rcases takeTurn_governor_cases supply t own with same | ⟨volume, mark⟩ | ⟨busy, idle⟩
    · rw [same]; exact h
    · rw [mark]; exact ⟨h.1, rfl⟩
    · rw [idle]; exact ⟨h.1, rfl⟩

theorem Mixer.latch_held_iff (m : Mixer) (mceil : Nat) : (m.latch mceil).override = .held ↔ m.override = .held := by
  show (if m.override = .releasing then Override.clear else m.override) = .held ↔ _
  split
  · next releasing => simp [releasing]
  · exact Iff.rfl

theorem Mixer.takeSupply_critical (m : Mixer) : (m.takeSupply .critical).override = .held := rfl

theorem Mixer.takeSupply_of_not_critical (m : Mixer) {supply : SupplyState} (h : supply ≠ .critical) :
    m.takeSupply supply = { m with override := if m.override = .held then .releasing else m.override } := by
  cases supply
  case critical => exact absurd rfl h
  all_goals rfl

theorem Mixer.takeSupply_held_iff (m : Mixer) (supply : SupplyState) :
    (m.takeSupply supply).override = .held ↔ supply = .critical := by
  by_cases critical : supply = .critical
  · rw [critical]
    exact iff_of_true rfl rfl
  · rw [Mixer.takeSupply_of_not_critical m critical]
    refine iff_of_false ?_ critical
    dsimp only
    split
    · nofun
    · next notHeld => exact notHeld

theorem eventTaken_mixer : (s.eventTaken supply turns).mixer.override = .held ↔ supply = .critical := by
  refine foldl_establishes (R := fun _ => True) (P := fun t => t.mixer.override = .held ↔ supply = .critical)
    (own := .mixer) (fun t _ => t.mixer.takeSupply_held_iff supply) (fun _ _ _ => trivial) (fun t turn h => ?_)
    (mem_allTurns (by decide) turns) trivial
  by_cases own : turn = .mixer
  · rw [own]
    exact t.mixer.takeSupply_held_iff supply
  · rcases takeTurn_mixer_cases supply t own with same | mark
    · rw [same]; exact h
    · rw [mark, Mixer.latch_held_iff]; exact h

theorem Rumble.takeSupply_of_not_critical (r : Rumble) {supply : SupplyState} (h : supply ≠ .critical) :
    r.takeSupply supply = { r with supplyHold := false } := by
  cases supply
  case critical => exact absurd rfl h
  all_goals rfl

theorem Rumble.takeSupply_hold (r : Rumble) (supply : SupplyState) :
    (r.takeSupply supply).supplyHold = decide (supply = .critical) ∧
    ((r.takeSupply supply).supplyHold = true → (r.takeSupply supply).applied = 0) := by
  by_cases critical : supply = .critical
  · rw [critical]
    exact ⟨rfl, fun _ => rfl⟩
  · rw [Rumble.takeSupply_of_not_critical r critical, decide_eq_false critical]
    exact ⟨rfl, nofun⟩

theorem Rumble.marked_supplyHold (r : Rumble) (grant : GrantRecord) : (r.marked grant).supplyHold = r.supplyHold := rfl

theorem eventTaken_rumble : (s.eventTaken supply turns).rumble.supplyHold = decide (supply = .critical) ∧
    ((s.eventTaken supply turns).rumble.supplyHold = true → (s.eventTaken supply turns).rumble.applied = 0) := by
  refine foldl_establishes (R := fun _ => True)
    (P := fun t => t.rumble.supplyHold = decide (supply = .critical) ∧ (t.rumble.supplyHold = true → t.rumble.applied = 0))
    (own := .rumble) (fun t _ => t.rumble.takeSupply_hold supply) (fun _ _ _ => trivial) (fun t turn h => ?_)
    (mem_allTurns (by decide) turns) trivial
  by_cases own : turn = .rumble
  · rw [own]
    exact t.rumble.takeSupply_hold supply
  · rcases takeTurn_rumble_cases supply t own with same | mark
    · rw [same]; exact h
    · rw [mark, Rumble.marked_supplyHold]
      exact ⟨h.1, fun held => Rumble.marked_applied_heldOff (.inl held)⟩

/-- With nothing in flight, or a seal begun, an abandonment does nothing. -/
theorem State.abandonForCritical_of_kept {s : State} (h : s.save.state = .sealing ∨ s.save.state = .idle) :
    s.abandonForCritical = s := by
  unfold State.abandonForCritical
  rcases h with sealing | idle
  · rw [sealing]
  · rw [idle]

/-- The kind of the request that an operation in flight answers. -/
def SaveState.requestKind : SaveState → Byte
  | .loading => 0x36
  | .verifying => 0x3B
  | _ => 0x37

theorem State.abandonForCritical_of_running {s : State} (sealing : s.save.state ≠ .sealing) (idle : s.save.state ≠ .idle) :
    s.abandonForCritical = s.stopForAbandon.answer s.save.state.requestKind s.save.deferredTag .abandoned .none := by
  unfold State.abandonForCritical
  cases h : s.save.state
  case sealing => exact absurd h sealing
  case idle => exact absurd h idle
  all_goals rfl

theorem State.abandonForCritical_idle {s : State} (h : s.save.state ≠ .sealing) : s.abandonForCritical.save.state = .idle := by
  by_cases idle : s.save.state = .idle
  · rw [State.abandonForCritical_of_kept (.inr idle), idle]
  · obtain ⟨m, save⟩ := s.stopForAbandon_save
    rw [State.abandonForCritical_of_running h idle]
    exact congrArg SaveController.state save

theorem eventTaken_save_kept {s : State} (h : s.save.state = .sealing ∨ s.save.state = .idle) :
    (s.eventTaken supply turns).save = s.save ∧ (s.eventTaken supply turns).backup = s.backup := by
  refine foldl_keeps (P := fun t => t.save = s.save ∧ t.backup = s.backup) (f := takeTurn supply) (fun t turn ht => ?_) _ ⟨rfl, rfl⟩
  by_cases own : turn = .save
  · have kept : takeTurn supply t .save = t := by
      refine ite_eq_right_iff.2 fun _ => State.abandonForCritical_of_kept ?_
      rwa [ht.1]
    rw [own, kept]
    exact ht
  · rcases takeTurn_save_cases supply t own with ⟨save, backup⟩ | ⟨waiting, _⟩
    · exact ⟨save.trans ht.1, backup.trans ht.2⟩
    · rw [ht.1] at waiting
      rcases h with sealing | idle
      · exact absurd (sealing.symm.trans waiting) nofun
      · exact absurd (idle.symm.trans waiting) nofun

theorem eventTaken_save_idle {s : State} (h : s.save.state ≠ .sealing) :
    (s.eventTaken .critical turns).save.state = .idle := by
  have saveTurn (t : State) : takeTurn .critical t .save = t.abandonForCritical := rfl
  refine foldl_establishes (R := fun t => t.save.state ≠ .sealing) (P := fun t => t.save.state = .idle) (own := .save)
    (fun t ht => (congrArg (·.save.state) (saveTurn t)).trans (State.abandonForCritical_idle ht)) (fun t turn ht => ?_) (fun t turn ht => ?_) (mem_allTurns (by decide) turns) h
  · by_cases own : turn = .save
    · rw [own, saveTurn, State.abandonForCritical_idle ht]
      exact SaveState.noConfusion
    · rcases takeTurn_save_cases .critical t own with ⟨save, _⟩ | ⟨_, copying⟩
      · rwa [save]
      · rw [copying]
        exact SaveState.noConfusion
  · by_cases own : turn = .save
    · rw [own, saveTurn, State.abandonForCritical_of_kept (.inr ht), ht]
    · rcases takeTurn_save_cases .critical t own with ⟨save, _⟩ | ⟨waiting, _⟩
      · rwa [save]
      · exact absurd (ht.symm.trans waiting) nofun

theorem eventTaken_mask : (s.eventTaken supply turns).link.mask = s.link.mask := by
  have keeps : s.Keeps (s.eventTaken supply turns) supplyParts :=
    State.Keeps.foldl (f := takeTurn supply) (fun t turn => keeps_takeTurn t supply turn) _ _
  obtain ⟨_, mask, _⟩ := announced_eq (keeps .announced (by decide))
  exact mask

theorem eventTaken_supply : (s.eventTaken supply turns).supply = s.supply := by
  obtain ⟨-, monitor, -⟩ := s.supplyChanged_frame supply turns
  exact monitor

end

/-- In CRITICAL the governor grants nothing (R24 to R26). -/
theorem Governor.form_of_critical {g : Governor} (h : g.supply = .critical) : g.form.mceil = 0 ∧ g.form.dceil = 0 := by
  rw [Governor.form_eq, h]
  exact ⟨rfl, Nat.min_zero _⟩

/-! ## The blocks one after the other -/

/-- The state with the governor, the mixer and the driver replaced. -/
def State.withTaken (s : State) (governor : Governor) (mixer : Mixer) (rumble : Rumble) : State :=
  { s with governor := governor, mixer := mixer, rumble := rumble }

theorem State.copyUpTo_withTaken (s : State) (g : Governor) (m : Mixer) (r : Rumble) (upTo : Nat) :
    (s.withTaken g m r).copyUpTo upTo = (s.copyUpTo upTo).withTaken g m r := by
  unfold State.copyUpTo
  have entry : (s.withTaken g m r).save = s.save := rfl
  dsimp only
  rw [entry]
  split
  · split
    · rfl
    · rfl
  · rfl
  · rfl

theorem State.copySoFar_withTaken (s : State) (g : Governor) (m : Mixer) (r : Rumble) :
    (s.withTaken g m r).copySoFar = s.copySoFar.withTaken g m r := by
  unfold State.copySoFar
  have save : (s.withTaken g m r).save = s.save := rfl
  have count : (s.withTaken g m r).freeCount = s.freeCount := rfl
  rw [save, count]
  split
  · rw [State.copyUpTo_withTaken]; rfl
  · rw [State.copyUpTo_withTaken]; rfl
  · rfl

theorem State.stopForAbandon_withTaken (s : State) (g : Governor) (m : Mixer) (r : Rumble) :
    (s.withTaken g m r).stopForAbandon = s.stopForAbandon.withTaken (g.takeBusy false) m r := by
  rw [State.stopForAbandon, State.copySoFar_withTaken]
  rfl

theorem State.abandonForCritical_withTaken {s : State} (sealing : s.save.state ≠ .sealing) (idle : s.save.state ≠ .idle)
    (g : Governor) (m : Mixer) (r : Rumble) :
    (s.withTaken g m r).abandonForCritical = s.abandonForCritical.withTaken (g.takeBusy false) m r := by
  rw [State.abandonForCritical_of_running (s := s.withTaken g m r) sealing idle, State.stopForAbandon_withTaken,
    State.abandonForCritical_of_running sealing idle]
  rfl

/-- Turns of two blocks may change places. -/
def TurnsSwap (supply : SupplyState) (a b : SupplyTurn) : Prop :=
  ∀ s, takeTurn supply (takeTurn supply s a) b = takeTurn supply (takeTurn supply s b) a

/-- The save controller's turn may change places with a turn that is a change of the three other blocks, one that the idle report
to the governor does not disturb. -/
theorem turnsSwap_save {supply : SupplyState} {turn : SupplyTurn} {g : Governor → Governor} {m : Mixer → Mixer}
    {r : Rumble → Rumble} (eq : ∀ s, takeTurn supply s turn = s.withTaken (g s.governor) (m s.mixer) (r s.rumble))
    (busy : ∀ x : Governor, g (x.takeBusy false) = (g x).takeBusy false) : TurnsSwap supply turn .save := by
  intro s
  rw [eq, eq]
  by_cases critical : supply = .critical
  · have saveTurn (t : State) : takeTurn supply t .save = t.abandonForCritical := if_pos critical
    rw [saveTurn, saveTurn]
    by_cases kept : s.save.state = .sealing ∨ s.save.state = .idle
    · rw [State.abandonForCritical_of_kept kept, State.abandonForCritical_of_kept 
        (s := s.withTaken (g s.governor) (m s.mixer) (r s.rumble)) kept]
    · obtain ⟨sealing, idle⟩ := not_or.1 kept
      have governor : s.abandonForCritical.governor = s.governor.takeBusy false := by
        rw [State.abandonForCritical_of_running sealing idle]
        exact s.stopForAbandon_governor
      obtain ⟨_, _, _, _, _, frame⟩ := s.abandonForCritical_frame
      have mixer : s.abandonForCritical.mixer = s.mixer := by rw [frame]
      have rumble : s.abandonForCritical.rumble = s.rumble := by rw [frame]
      rw [State.abandonForCritical_withTaken sealing idle, governor, mixer, rumble, busy]
  · have saveTurn (t : State) : takeTurn supply t .save = t := if_neg critical
    rw [saveTurn, saveTurn]

theorem TurnsSwap.symm {supply : SupplyState} {a b : SupplyTurn} (h : TurnsSwap supply a b) : TurnsSwap supply b a :=
  fun s => (h s).symm

/-- The order in which the four blocks take the event makes no difference. -/
theorem turnsSwap (supply : SupplyState) {a b : SupplyTurn} (ha : a ≠ .mixerMark ∧ a ≠ .rumbleMark)
    (hb : b ≠ .mixerMark ∧ b ≠ .rumbleMark) : TurnsSwap supply a b := by
  have governor : TurnsSwap supply .governor .save :=
    turnsSwap_save (g := fun g => g.takeSupply supply) (m := id) (r := id) (fun _ => rfl) fun _ => rfl
  have mixer : TurnsSwap supply .mixer .save :=
    turnsSwap_save (g := id) (m := fun m => m.takeSupply supply) (r := id) (fun _ => rfl) fun _ => rfl
  have rumble : TurnsSwap supply .rumble .save :=
    turnsSwap_save (g := id) (m := id) (r := fun r => r.takeSupply supply) (fun _ => rfl) fun _ => rfl
  cases a
  case mixerMark => exact absurd rfl ha.1
  case rumbleMark => exact absurd rfl ha.2
  case governor =>
    cases b
    case mixerMark => exact absurd rfl hb.1
    case rumbleMark => exact absurd rfl hb.2
    case save => exact governor
    all_goals exact fun _ => rfl
  case mixer =>
    cases b
    case mixerMark => exact absurd rfl hb.1
    case rumbleMark => exact absurd rfl hb.2
    case save => exact mixer
    all_goals exact fun _ => rfl
  case rumble =>
    cases b
    case mixerMark => exact absurd rfl hb.1
    case rumbleMark => exact absurd rfl hb.2
    case save => exact rumble
    all_goals exact fun _ => rfl
  case save =>
    cases b
    case mixerMark => exact absurd rfl hb.1
    case rumbleMark => exact absurd rfl hb.2
    case governor => exact governor.symm
    case mixer => exact mixer.symm
    case rumble => exact rumble.symm
    case save => exact fun _ => rfl

/-- The turns in full name the four blocks, each once, when no mark is taken and no block named twice. -/
theorem allTurns_perm {turns : List SupplyTurn} (nodup : turns.Nodup) (mixerMark : .mixerMark ∉ turns)
    (rumbleMark : .rumbleMark ∉ turns) : (allTurns turns).Perm [.governor, .mixer, .rumble, .save] := by
  refine (List.perm_ext_iff_of_nodup ?_ (by decide)).2 fun turn => ⟨fun mem => ?_, fun mem => mem_allTurns mem turns⟩
  · refine List.nodup_append.2 ⟨nodup, List.Nodup.filter _ (by decide), ?_⟩
    rintro a named b rest rfl
    have absent := (List.mem_filter.1 rest).2
    simp [named] at absent
  · rcases List.mem_append.1 mem with named | rest
    · cases turn
      case mixerMark => exact absurd named mixerMark
      case rumbleMark => exact absurd named rumbleMark
      all_goals decide
    · exact (List.mem_filter.1 rest).1

theorem eventTaken_of_perm (s : State) (supply : SupplyState) {turns : List SupplyTurn} (nodup : turns.Nodup)
    (mixerMark : .mixerMark ∉ turns) (rumbleMark : .rumbleMark ∉ turns) :
    s.eventTaken supply turns = s.eventTaken supply [] := by
  have blocks (a : SupplyTurn) (h : a ∈ [SupplyTurn.governor, .mixer, .rumble, .save]) : a ≠ .mixerMark ∧ a ≠ .rumbleMark := by
    cases a
    case mixerMark => exact absurd h (by decide)
    case rumbleMark => exact absurd h (by decide)
    all_goals decide
  refine ((allTurns_perm nodup mixerMark rumbleMark).foldl_eq' (fun a ha b hb t => ?_) s)
  have perm := allTurns_perm nodup mixerMark rumbleMark
  exact turnsSwap supply (blocks a (perm.subset ha)) (blocks b (perm.subset hb)) t

theorem State.takeVcart_of_changed {s : State} {v : Nat} (h : (s.supply.takeVcart v).roundOn.supply ≠ s.supply.supply)
    (turns : List SupplyTurn) : s.takeVcart v turns =
      ((s.withSupply (s.supply.takeVcart v).roundOn).eventTaken (s.supply.takeVcart v).roundOn.supply turns).pendSupply :=
  if_neg h

theorem exec_vcartResult_swap (s : State) (count : Count12) {turns : List SupplyTurn} (nodup : turns.Nodup)
    (mixerMark : .mixerMark ∉ turns) (rumbleMark : .rumbleMark ∉ turns) :
    exec (.vcartResult ⟨count, turns⟩) s = exec (.vcartResult ⟨count, []⟩) s := by
  have taken (s : State) : s.takeVcart count.val turns = s.takeVcart count.val [] := by
    by_cases same : (s.supply.takeVcart count.val).roundOn.supply = s.supply.supply
    · rw [State.takeVcart_of_same same, State.takeVcart_of_same same]
    · rw [State.takeVcart_of_changed same, State.takeVcart_of_changed same,
        eventTaken_of_perm _ _ nodup mixerMark rumbleMark]
  have row (turns : List SupplyTurn) : exec (.vcartResult ⟨count, turns⟩) s = onCore s fun s =>
      if s.supply.converting = .channel .vcart then s.takeVcart count.val turns else s := rfl
  rw [row, row]
  simp only [taken]

/-! ## The event without a mark -/

theorem eventTaken_nil (s : State) (supply : SupplyState) : s.eventTaken supply [] = takeTurn supply
    (s.withTaken (s.governor.takeSupply supply) (s.mixer.takeSupply supply) (s.rumble.takeSupply supply)) .save := rfl

theorem eventTaken_nil_of_critical (s : State) : s.eventTaken .critical [] =
    (s.withTaken (s.governor.takeSupply .critical) (s.mixer.takeSupply .critical)
      (s.rumble.takeSupply .critical)).abandonForCritical := rfl

theorem eventTaken_nil_of_not_critical (s : State) {supply : SupplyState} (h : supply ≠ .critical) : s.eventTaken supply [] =
    s.withTaken (s.governor.takeSupply supply) (s.mixer.takeSupply supply) (s.rumble.takeSupply supply) := if_neg h

theorem Link.pend_restored (l : Link) (k : NoticeKind) (put : NoticeSet → NoticeSet) :
    { l.pend k put with notices := l.notices, tx := l.tx } = l := by
  obtain ⟨_, _, h⟩ := l.pend_frame k put
  rw [h]

theorem Link.pend_notices (l : Link) (k : NoticeKind) (put : NoticeSet → NoticeSet) :
    (l.pend k put).notices = if maskEnables l.mask k = true then put l.notices else l.notices := by
  cases on : maskEnables l.mask k
  · rw [Link.pend_disabled on]
    rfl
  · rw [Link.pend_enabled on]
    rfl

theorem Link.deliver_notices (l : Link) (r : Reply) : (l.deliver r).notices = l.notices ∧ (l.deliver r).tx = l.tx := by
  unfold Link.deliver
  split
  · exact ⟨rfl, rfl⟩
  · exact ⟨rfl, rfl⟩

/-- An abandoned operation's reply is answered by the link; nothing else of the link changes. -/
theorem State.abandonForCritical_link (s : State) :
    ((s.save.state = .sealing ∨ s.save.state = .idle) → s.abandonForCritical.link = s.link) ∧
    (s.save.state ≠ .sealing → s.save.state ≠ .idle → s.abandonForCritical.link =
      (s.concluded s.save.state.requestKind s.save.deferredTag .abandoned .none).link) := by
  refine ⟨fun kept => by rw [State.abandonForCritical_of_kept kept], fun sealing idle => ?_⟩
  have link : s.stopForAbandon.link = s.link := by
    obtain ⟨_, _, _, h⟩ := s.copySoFar_frame
    rw [State.stopForAbandon, h]
    rfl
  rw [State.abandonForCritical_of_running sealing idle, ← State.answer_eq_concluded]
  show s.stopForAbandon.link.deliver _ = s.link.deliver _
  rw [link]

theorem State.abandonForCritical_notices (s : State) :
    s.abandonForCritical.link.notices = s.link.notices ∧ s.abandonForCritical.link.tx = s.link.tx := by
  by_cases kept : s.save.state = .sealing ∨ s.save.state = .idle
  · rw [State.abandonForCritical_of_kept kept]
    exact ⟨rfl, rfl⟩
  · obtain ⟨sealing, idle⟩ := not_or.1 kept
    obtain ⟨_, link⟩ := s.abandonForCritical_link
    rw [link sealing idle, ← State.answer_eq_concluded]
    exact s.link.deliver_notices _

theorem State.abandonForCritical_slotTable (s : State) : s.abandonForCritical.save.slotTable = s.save.slotTable := by
  by_cases kept : s.save.state = .sealing ∨ s.save.state = .idle
  · rw [State.abandonForCritical_of_kept kept]
  · obtain ⟨sealing, idle⟩ := not_or.1 kept
    obtain ⟨_, save⟩ := s.stopForAbandon_save
    rw [State.abandonForCritical_of_running sealing idle]
    show s.stopForAbandon.save.slotTable = _
    rw [save]

theorem State.abandonForCritical_backup {s : State} (sealing : s.save.state ≠ .sealing) (idle : s.save.state ≠ .idle) :
    s.abandonForCritical.backup = s.stopOperation.backup := by
  rw [State.abandonForCritical_of_running sealing idle]
  exact State.stopForAbandon_backup sealing

/-! ## The obligation -/

/-- A result that changes the supply state: the monitor, and the event at the other blocks. -/
theorem takeVcart_changed {s t : State} {count : Count12} {turns : List SupplyTurn} (powered : s.corePowered = true)
    (converting : s.supply.converting = .channel .vcart) (step : exec (.vcartResult ⟨count, turns⟩) s = .next t)
    (changed : t.supply.supply ≠ s.supply.supply) :
    ∃ m : SupplyMonitor, t = ((s.withSupply m).eventTaken m.supply turns).pendSupply ∧ t.supply = m ∧
      m.vcart = count.val ∧ m.vbat = s.supply.vbat ∧ m.battery = s.supply.battery := by
  rw [exec_vcartResult powered converting] at step
  injection step with step
  subst step
  have monitor := s.takeVcart_supply count.val turns
  rw [monitor] at changed
  refine ⟨(s.supply.takeVcart count.val).roundOn, State.takeVcart_of_changed changed turns, monitor, ?_⟩
  cases first : s.supply.firstVcart
  · rw [SupplyMonitor.takeVcart_of_first first]
    exact ⟨rfl, rfl, rfl⟩
  · rw [SupplyMonitor.takeVcart_of_later first]
    exact ⟨rfl, rfl, rfl⟩

/-- The event whatever the turns. -/
theorem supplyChange_reaches {s t : State} {count : Count12} {turns : List SupplyTurn} (powered : s.corePowered = true)
    (converting : s.supply.converting = .channel .vcart) (step : exec (.vcartResult ⟨count, turns⟩) s = .next t)
    (changed : t.supply.supply ≠ s.supply.supply) :
    t.governor.supply = t.supply.supply ∧ t.governor.record = t.governor.form ∧
    t.rumble.supplyHold = decide (t.supply.supply = .critical) ∧
    (t.supply.supply = .critical →
      t.governor.record.mceil = 0 ∧ t.governor.record.dceil = 0 ∧ t.mixer.override = .held ∧ t.rumble.applied = 0 ∧
      (s.save.state = .sealing ∨ s.save.state = .idle → t.save = s.save ∧ t.backup = s.backup) ∧
      (s.save.state ≠ .sealing → t.save.state = .idle)) ∧
    (t.supply.supply ≠ .critical → t.mixer.override ≠ .held) ∧
    (maskEnables s.link.mask .supply = true →
      t.link.notices.supply = some ⟨t.supply.supply, s.supply.battery, count.val, s.supply.vbat⟩) ∧
    t.voice = s.voice ∧ t.stream = s.stream ∧ t.cue = s.cue := by
  obtain ⟨m, eq, monitor, vcart, vbat, battery⟩ := takeVcart_changed powered converting step changed
  rw [monitor]
  obtain ⟨-, -, voice, stream, cue, -⟩ := (s.withSupply m).supplyChanged_frame m.supply turns
  rw [State.supplyChanged_eq, ← eq] at voice stream cue
  obtain ⟨governor, record⟩ := eventTaken_governor (s.withSupply m) m.supply turns
  obtain ⟨hold, off⟩ := eventTaken_rumble (s.withSupply m) m.supply turns
  have override := eventTaken_mixer (s.withSupply m) m.supply turns
  have supply := eventTaken_supply (s.withSupply m) m.supply turns
  have mask := eventTaken_mask (s.withSupply m) m.supply turns
  have saveKept := eventTaken_save_kept m.supply turns (s := s.withSupply m)
  have saveIdle := eventTaken_save_idle turns (s := s.withSupply m)
  subst eq
  refine ⟨governor, record, hold, fun critical => ?_, fun released held => released (override.1 held), fun enabled => ?_,
    voice, stream, cue⟩
  · obtain ⟨mceil, dceil⟩ := Governor.form_of_critical (governor.trans critical)
    have applied := off (hold.trans (decide_eq_true critical))
    rw [← critical] at saveIdle
    exact ⟨(congrArg GrantRecord.mceil record).trans mceil, (congrArg GrantRecord.dceil record).trans dceil,
      override.2 critical, applied, saveKept, fun sealing => (saveIdle sealing).trans rfl⟩
  · generalize (s.withSupply m).eventTaken m.supply turns = u at *
    have enabled : maskEnables u.link.mask .supply = true := by rw [mask]; exact enabled
    show (u.link.pend .supply _).notices.supply = _
    rw [Link.pend_notices, if_pos enabled, supply]
    show some (_ : SupplyNotice) = _
    rw [State.withSupply_supply, vcart, vbat, battery]

/-- What the abandonment leaves of the controller, backup memory and the link, for a state `s` whose operation is abandoned with the
result `a`. -/
def State.Abandoned (s a : State) : Prop :=
  a.save.slotTable = s.save.slotTable ∧
  (s.save.state = .waitReserve ∨ s.save.state = .verifying → a.backup = s.backup) ∧
  (s.save.state = .loading → { a.backup with store := s.store } = s.backup ∧
    { a.store with staging := s.store.staging } = s.store) ∧
  (s.save.state = .copying → { a.backup with store := s.store } = s.backup ∧ { a.store with banks := s.store.banks } = s.store ∧
    ∀ slot bank, slot ≠ s.save.opSlot ∨ bank ≠ s.save.target → a.store.bank slot bank = s.store.bank slot bank) ∧
  (let link := { a.link with notices := s.link.notices, tx := s.link.tx }
   let abandoned (kind : Byte) : Link := (s.concluded kind s.save.deferredTag .abandoned .none).link
   (s.save.state = .idle ∨ s.save.state = .sealing → link = s.link) ∧
   (s.save.state = .loading → link = abandoned 0x36) ∧
   (s.save.state = .waitReserve ∨ s.save.state = .copying → link = abandoned 0x37) ∧
   (s.save.state = .verifying → link = abandoned 0x3B))

/-- Backup memory after an abandonment, by the operation that was in flight. -/
theorem State.abandonForCritical_backup_cases (s : State) :
    (s.save.state = .waitReserve ∨ s.save.state = .verifying → s.abandonForCritical.backup = s.backup) ∧
    (s.save.state = .loading → s.abandonForCritical.backup = { s.backup with store := { s.store with staging := s.stagingAtStop } }) ∧
    (s.save.state = .copying → s.abandonForCritical.backup =
      { s.backup with store := s.store.writeBank s.save.opSlot s.save.target s.save.moved s.copiedAtStop }) := by
  have running {x : SaveState} (state : s.save.state = x) (sealing : x ≠ .sealing) (idle : x ≠ .idle) :
      s.abandonForCritical.backup = s.stopOperation.backup :=
    State.abandonForCritical_backup (state ▸ sealing) (state ▸ idle)
  refine ⟨fun h => ?_, fun loading => ?_, fun copying => ?_⟩
  · have still : s.stopOperation = s := State.stopOperation_of_writesNothing (.inr h)
    rcases h with waiting | verifying
    · rw [running waiting nofun nofun, still]
    · rw [running verifying nofun nofun, still]
  · rw [running loading nofun nofun, State.stopOperation_of_loading loading]
  · rw [running copying nofun nofun, State.stopOperation_of_copying copying]

theorem State.abandoned_abandonForCritical (s : State) : s.Abandoned s.abandonForCritical := by
  obtain ⟨notices, tx⟩ := s.abandonForCritical_notices
  obtain ⟨linkKept, linkAnswered⟩ := s.abandonForCritical_link
  obtain ⟨still, load, copy⟩ := s.abandonForCritical_backup_cases
  have slotTable := s.abandonForCritical_slotTable
  have bank (slot : Fin 4) (bank : Bank) (other : slot ≠ s.save.opSlot ∨ bank ≠ s.save.target) :=
    SaveStore.bank_writeBank_ne s.store other s.save.moved s.copiedAtStop
  unfold State.Abandoned
  generalize s.abandonForCritical = a at *
  have restored : { a.link with notices := s.link.notices, tx := s.link.tx } = a.link := by rw [← notices, ← tx]
  have answered {x : SaveState} (state : s.save.state = x) (sealing : x ≠ .sealing) (idle : x ≠ .idle) :
      { a.link with notices := s.link.notices, tx := s.link.tx } =
        (s.concluded x.requestKind s.save.deferredTag .abandoned .none).link := by
    subst state
    exact restored.trans (linkAnswered sealing idle)
  refine ⟨slotTable, still, fun loading => ?_, fun copying => ?_, fun kept => ?_, fun loading => ?_, ?_, fun verifying => ?_⟩
  · have store : a.store = { s.store with staging := s.stagingAtStop } := congrArg Backup.store (load loading)
    rw [store, load loading]
    exact ⟨rfl, rfl⟩
  · have store : a.store = s.store.writeBank s.save.opSlot s.save.target s.save.moved s.copiedAtStop :=
      congrArg Backup.store (copy copying)
    rw [store, copy copying]
    exact ⟨rfl, rfl, bank⟩
  · exact restored.trans (linkKept kept.symm)
  · exact answered (x := .loading) loading nofun nofun
  · rintro (waiting | copying)
    · exact answered (x := .waitReserve) waiting nofun nofun
    · exact answered (x := .copying) copying nofun nofun
  · exact answered (x := .verifying) verifying nofun nofun

theorem State.Abandoned.pendSupply {s a : State} (h : s.Abandoned a) : s.Abandoned a.pendSupply := by
  obtain ⟨slotTable, still, load, copy, kept, answered⟩ := h
  have link : { a.pendSupply.link with notices := s.link.notices, tx := s.link.tx } =
      { a.link with notices := s.link.notices, tx := s.link.tx } := by
    show { a.link.pend .supply _ with notices := s.link.notices, tx := s.link.tx } = _
    obtain ⟨_, _, eq⟩ := a.link.pend_frame .supply fun n =>
      { n with supply := some ⟨a.supply.supply, a.supply.battery, a.supply.vcart, a.supply.vbat⟩ }
    rw [eq]
  refine ⟨slotTable, still, load, copy, ?_⟩
  rw [link]
  exact ⟨kept, answered⟩

/-- What the event leaves of the mixer and the driver, and of the pending set, when no mark comes between. -/
def State.SupplyEventKept (s t : State) : Prop :=
  { t.link.notices with supply := s.link.notices.supply } = s.link.notices ∧
  { t.mixer with override := s.mixer.override } = s.mixer ∧
  { t.rumble with supplyHold := s.rumble.supplyHold, applied := s.rumble.applied } = s.rumble

theorem Mixer.takeSupply_restored (m : Mixer) (supply : SupplyState) :
    { m.takeSupply supply with override := m.override } = m := by
  cases supply <;> rfl

theorem Rumble.takeSupply_restored (r : Rumble) (supply : SupplyState) :
    { r.takeSupply supply with supplyHold := r.supplyHold, applied := r.applied } = r := by
  cases supply <;> rfl

theorem State.SupplyEventKept.of_taken {s u : State} {supply : SupplyState} (notices : u.link.notices = s.link.notices)
    (mixer : u.mixer = s.mixer.takeSupply supply) (rumble : u.rumble = s.rumble.takeSupply supply) :
    s.SupplyEventKept u.pendSupply := by
  refine ⟨?_, ?_, ?_⟩
  · show { (u.link.pend .supply _).notices with supply := s.link.notices.supply } = _
    rw [Link.pend_notices, ← notices]
    split
    · rfl
    · rfl
  · show { u.mixer with override := s.mixer.override } = _
    rw [mixer, Mixer.takeSupply_restored]
  · show { u.rumble with supplyHold := s.rumble.supplyHold, applied := s.rumble.applied } = _
    rw [rumble, Rumble.takeSupply_restored]

/-- The state in which the operation in flight is abandoned when the supply enters CRITICAL and no mark comes between. -/
def State.changedToCritical (s : State) (m : SupplyMonitor) : State :=
  (s.withSupply m).withTaken (s.governor.takeSupply .critical) (s.mixer.takeSupply .critical) (s.rumble.takeSupply .critical)

theorem eventTaken_critical (s : State) (m : SupplyMonitor) :
    (s.withSupply m).eventTaken .critical [] = (s.changedToCritical m).abandonForCritical := rfl

theorem abandoned_changedToCritical (s : State) (m : SupplyMonitor) :
    s.Abandoned (s.changedToCritical m).abandonForCritical.pendSupply :=
  (s.changedToCritical m).abandoned_abandonForCritical.pendSupply

theorem supplyEventKept_changedToCritical (s : State) (m : SupplyMonitor) :
    s.SupplyEventKept (s.changedToCritical m).abandonForCritical.pendSupply := by
  obtain ⟨notices, -⟩ := (s.changedToCritical m).abandonForCritical_notices
  obtain ⟨_, _, _, _, _, frame⟩ := (s.changedToCritical m).abandonForCritical_frame
  exact .of_taken (supply := .critical) notices (by rw [frame]; rfl) (by rw [frame]; rfl)

theorem supplyEventKept_of_not_critical (s : State) (m : SupplyMonitor) (supply : SupplyState) :
    s.SupplyEventKept ((s.withSupply m).withTaken (s.governor.takeSupply supply) (s.mixer.takeSupply supply)
      (s.rumble.takeSupply supply)).pendSupply :=
  .of_taken (supply := supply) rfl rfl rfl

/-- The event with no mark among the turns. -/
theorem supplyChange_withoutMark {s t : State} {count : Count12} (powered : s.corePowered = true)
    (converting : s.supply.converting = .channel .vcart) (step : exec (.vcartResult ⟨count, []⟩) s = .next t)
    (changed : t.supply.supply ≠ s.supply.supply) :
    (t.supply.supply = .critical →
      t.save.slotTable = s.save.slotTable ∧
      (s.save.state = .waitReserve ∨ s.save.state = .verifying → t.backup = s.backup) ∧
      (s.save.state = .loading → { t.backup with store := s.store } = s.backup ∧
        { t.store with staging := s.store.staging } = s.store) ∧
      (s.save.state = .copying → { t.backup with store := s.store } = s.backup ∧ { t.store with banks := s.store.banks } = s.store ∧
        ∀ slot bank, slot ≠ s.save.opSlot ∨ bank ≠ s.save.target → t.store.bank slot bank = s.store.bank slot bank) ∧
      (let link := { t.link with notices := s.link.notices, tx := s.link.tx }
       let abandoned (kind : Byte) : Link := (s.concluded kind s.save.deferredTag .abandoned .none).link
       (s.save.state = .idle ∨ s.save.state = .sealing → link = s.link) ∧
       (s.save.state = .loading → link = abandoned 0x36) ∧
       (s.save.state = .waitReserve ∨ s.save.state = .copying → link = abandoned 0x37) ∧
       (s.save.state = .verifying → link = abandoned 0x3B))) ∧
    (t.supply.supply ≠ .critical → t.save = s.save ∧ t.backup = s.backup ∧
      { t.link with notices := s.link.notices, tx := s.link.tx } = s.link ∧ t.rumble.applied = s.rumble.applied ∧
      t.mixer.override = if s.mixer.override = .held then .releasing else s.mixer.override) ∧
    { t.link.notices with supply := s.link.notices.supply } = s.link.notices ∧
    { t.mixer with override := s.mixer.override } = s.mixer ∧
    { t.rumble with supplyHold := s.rumble.supplyHold, applied := s.rumble.applied } = s.rumble := by
  obtain ⟨m, eq, monitor, -⟩ := takeVcart_changed powered converting step changed
  rw [monitor]
  clear changed step
  by_cases critical : m.supply = .critical
  · rw [critical, eventTaken_critical] at eq
    subst eq
    exact ⟨fun _ => abandoned_changedToCritical s m, fun other => absurd critical other, supplyEventKept_changedToCritical s m⟩
  · rw [eventTaken_nil_of_not_critical _ critical] at eq
    subst eq
    refine ⟨fun h => absurd h critical, fun _ => ⟨rfl, rfl, Link.pend_restored s.link .supply _, ?_, ?_⟩,
      supplyEventKept_of_not_critical s m m.supply⟩
    · show (s.rumble.takeSupply m.supply).applied = _
      rw [Rumble.takeSupply_of_not_critical _ critical]
    · show (s.mixer.takeSupply m.supply).override = _
      rw [Mixer.takeSupply_of_not_critical _ critical]

/-! ## The event with a mark between two blocks -/

/-- The turns after a mark leave the mixer as the turns before them left it, when they name neither the mixer nor its mark. -/
theorem foldl_takeTurn_mixer (supply : SupplyState) : ∀ (turns : List SupplyTurn) (s : State), .mixer ∉ turns →
    .mixerMark ∉ turns → (turns.foldl (takeTurn supply) s).mixer = s.mixer
  | [], _, _, _ => rfl
  | turn :: turns, s, own, mark => by
    obtain ⟨own, ownRest⟩ := not_or.1 (List.mem_cons.not.1 own)
    obtain ⟨mark, markRest⟩ := not_or.1 (List.mem_cons.not.1 mark)
    rw [List.foldl_cons, foldl_takeTurn_mixer supply turns _ ownRest markRest]
    cases turn
    case mixer => exact absurd rfl own
    case mixerMark => exact absurd rfl mark
    case governor => rfl
    case rumble => rfl
    case save =>
      change (if supply = .critical then s.abandonForCritical else s).mixer = s.mixer
      split
      · obtain ⟨_, _, _, _, _, h⟩ := s.abandonForCritical_frame
        rw [h]
      · rfl
    case rumbleMark =>
      obtain ⟨_, _, _, _, h⟩ := s.rumbleMark_frame
      rw [takeTurn, h]

theorem foldl_takeTurn_rumble (supply : SupplyState) : ∀ (turns : List SupplyTurn) (s : State), .rumble ∉ turns →
    .rumbleMark ∉ turns → (turns.foldl (takeTurn supply) s).rumble = s.rumble
  | [], _, _, _ => rfl
  | turn :: turns, s, own, mark => by
    obtain ⟨own, ownRest⟩ := not_or.1 (List.mem_cons.not.1 own)
    obtain ⟨mark, markRest⟩ := not_or.1 (List.mem_cons.not.1 mark)
    rw [List.foldl_cons, foldl_takeTurn_rumble supply turns _ ownRest markRest]
    cases turn
    case rumble => exact absurd rfl own
    case rumbleMark => exact absurd rfl mark
    case governor => rfl
    case mixer => rfl
    case save =>
      change (if supply = .critical then s.abandonForCritical else s).rumble = s.rumble
      split
      · obtain ⟨_, _, _, _, _, h⟩ := s.abandonForCritical_frame
        rw [h]
      · rfl
    case mixerMark =>
      obtain ⟨_, _, h⟩ := s.mixerMark_frame
      rw [takeTurn, h]

section
variable (s : State) (supply : SupplyState)

/-- The mark finds the record of before the change, and the mixer with the event taken. -/
theorem eventTaken_mixer_mark : (s.eventTaken supply [.mixer, .mixerMark]).mixer =
    (s.mixer.takeSupply supply).latch s.governor.record.mceil :=
  (foldl_takeTurn_mixer supply [.governor, .rumble, .save] (takeTurn supply (takeTurn supply s .mixer) .mixerMark)
    (by decide) (by decide)).trans (State.mixerMark_mixer _)

/-- The mark finds the record formed for the new supply state, and the mixer without the event. -/
theorem eventTaken_governor_mixerMark : (s.eventTaken supply [.governor, .mixerMark]).mixer =
    (s.mixer.latch ({ s.governor with supply := supply } : Governor).form.mceil).takeSupply supply :=
  (foldl_takeTurn_mixer supply [.rumble, .save]
    (takeTurn supply (takeTurn supply (takeTurn supply s .governor) .mixerMark) .mixer) (by decide) (by decide)).trans
    (congrArg (·.takeSupply supply) (State.mixerMark_mixer (takeTurn supply s .governor)))

theorem eventTaken_rumble_mark : (s.eventTaken supply [.rumble, .rumbleMark]).rumble =
    (s.rumble.takeSupply supply).marked s.governor.record :=
  (foldl_takeTurn_rumble supply [.governor, .mixer, .save] (takeTurn supply (takeTurn supply s .rumble) .rumbleMark)
    (by decide) (by decide)).trans (State.rumbleMark_rumble _)

theorem eventTaken_governor_rumbleMark : (s.eventTaken supply [.governor, .rumbleMark]).rumble =
    (s.rumble.marked ({ s.governor with supply := supply } : Governor).form).takeSupply supply := by
  have marked : (takeTurn supply (takeTurn supply s .governor) .rumbleMark).rumble =
      s.rumble.marked ({ s.governor with supply := supply } : Governor).form :=
    State.rumbleMark_rumble (takeTurn supply s .governor)
  have rest := foldl_takeTurn_rumble supply [.save]
    (takeTurn supply (takeTurn supply (takeTurn supply (takeTurn supply s .governor) .rumbleMark) .mixer) .rumble)
    (by decide) (by decide)
  exact rest.trans (congrArg (·.takeSupply supply) marked)

end

theorem Mixer.latch_override (m : Mixer) (mceil : Nat) :
    (m.latch mceil).override = if m.override = .releasing then .clear else m.override := rfl

theorem Mixer.takeSupply_latchedMceil (m : Mixer) (supply : SupplyState) : (m.takeSupply supply).latchedMceil = m.latchedMceil := by
  cases supply <;> rfl

theorem Mixer.takeSupply_override (m : Mixer) (supply : SupplyState) : (m.takeSupply supply).override =
    if supply = .critical then .held else if m.override = .held then .releasing else m.override := by
  cases supply <;> rfl

/-- The grant that a mark latches (R97). -/
theorem Rumble.marked_latched (r : Rumble) (grant : GrantRecord) :
    (r.marked grant).latchedCeiling = grant.dceil ∧ (r.marked grant).latchedReserve = grant.reserve := ⟨rfl, rfl⟩

theorem Rumble.takeSupply_latched (r : Rumble) (supply : SupplyState) :
    (r.takeSupply supply).latchedCeiling = r.latchedCeiling ∧ (r.takeSupply supply).latchedReserve = r.latchedReserve := by
  cases supply <;> exact ⟨rfl, rfl⟩

theorem Rumble.takeSupply_applied_zero {r : Rumble} (h : r.applied = 0) (supply : SupplyState) :
    (r.takeSupply supply).applied = 0 := by
  cases supply
  case critical => rfl
  all_goals exact h

/-- Settles O18: the event whatever the turns, without a mark, in every order of the blocks, and with a mark among them. -/
theorem supplyChangeReachesEveryBlock : Obligations.SupplyChangeReachesEveryBlock := by
  unfold Obligations.SupplyChangeReachesEveryBlock
  refine ⟨fun s t count turns powered converting step changed => supplyChange_reaches powered converting step changed,
    fun s t count powered converting step changed => supplyChange_withoutMark powered converting step changed,
    fun s count turns nodup mixerMark rumbleMark => exec_vcartResult_swap s count nodup mixerMark rumbleMark,
    fun s t count turns powered converting step changed => ?_⟩
  obtain ⟨m, eq, monitor, -⟩ := takeVcart_changed powered converting step changed
  rw [monitor]
  clear changed step monitor
  subst eq
  refine ⟨?_, ?_, ?_, ?_⟩
  · rintro rfl
    show ((s.withSupply m).eventTaken m.supply _).mixer.latchedMceil = _ ∧ ((s.withSupply m).eventTaken m.supply _).mixer.override = _
    rw [eventTaken_mixer_mark]
    refine ⟨rfl, ?_⟩
    rw [Mixer.latch_override, Mixer.takeSupply_override, State.withSupply_mixer]
    by_cases critical : m.supply = .critical
    · rw [if_pos critical, if_neg Override.noConfusion, if_pos critical]
    · rw [if_neg critical, if_neg critical]
      cases s.mixer.override <;> rfl
  · rintro rfl
    show ((s.withSupply m).eventTaken m.supply _).mixer.latchedMceil = _ ∧ ((s.withSupply m).eventTaken m.supply _).mixer.override = _
    rw [eventTaken_governor_mixerMark]
    refine ⟨Mixer.takeSupply_latchedMceil _ _, ?_⟩
    rw [Mixer.takeSupply_override, Mixer.latch_override, State.withSupply_mixer]
    by_cases critical : m.supply = .critical
    · rw [if_pos critical, if_pos critical]
    · rw [if_neg critical, if_neg critical]
      cases s.mixer.override <;> rfl
  · rintro rfl
    show ((s.withSupply m).eventTaken m.supply _).rumble.latchedCeiling = _ ∧
      ((s.withSupply m).eventTaken m.supply _).rumble.latchedReserve = _
    rw [eventTaken_rumble_mark]
    exact Rumble.marked_latched _ _
  · rintro rfl
    show ((s.withSupply m).eventTaken m.supply _).rumble.latchedCeiling = _ ∧
      ((s.withSupply m).eventTaken m.supply _).rumble.latchedReserve = _ ∧
      (_ → ((s.withSupply m).eventTaken m.supply _).rumble.applied = 0)
    rw [eventTaken_governor_rumbleMark]
    obtain ⟨ceiling, reserve⟩ := Rumble.takeSupply_latched
      (s.rumble.marked ({ s.governor with supply := m.supply } : Governor).form) m.supply
    exact ⟨ceiling, reserve, fun hold =>
      Rumble.takeSupply_applied_zero (Rumble.marked_applied_heldOff (.inl hold)) m.supply⟩

end Sys2Proof.Machine
end

