-- ==== Sys2Proof/Proofs/VoiceSet.lean ====
section
/-! SUPPORT. Voice Set: which fields it takes and what it writes (R50). -/

namespace Sys2Proof.Machine

set_option Elab.async false

/-- The fields of Voice Set pass their checks, and the wave that they make with the pending record and the voice record fits. -/
def VoiceSetAccepted (f : VoiceSetFields) (p : PendingVoice) (r : VoiceRecord) : Prop :=
  f.namesField = true ∧ f.singlesOk = true ∧ voiceSetFits f.written p r = true

theorem takeVoiceSet_accepted {s : State} {v : Fin 8} {f : VoiceSetFields}
    (h : VoiceSetAccepted f (s.voice.pendings.get v) (s.voice.voices.get v)) :
    takeVoiceSet v.val f s = accept (s.writePending v fun p => p.merge f.written) (.voiceSet v.val f.written) := by
  obtain ⟨names, singles, fits⟩ := h
  rw [takeVoiceSet, number?_val]
  exact if_pos (by rw [names, singles, fits]; rfl)

theorem takeVoiceSet_refused {s : State} {v : Fin 8} {f : VoiceSetFields}
    (h : ¬VoiceSetAccepted f (s.voice.pendings.get v) (s.voice.voices.get v)) :
    takeVoiceSet v.val f s = refuse s .badField := by
  rw [takeVoiceSet, number?_val]
  refine if_neg fun ok => h ?_
  rw [Bool.and_eq_true, Bool.and_eq_true] at ok
  obtain ⟨⟨names, singles⟩, fits⟩ := ok
  exact ⟨names, singles, fits⟩

theorem takeVoiceSet_of_le {voice : Nat} (h : 8 ≤ voice) (f : VoiceSetFields) (s : State) :
    takeVoiceSet voice f s = refuse s .badField := by
  rw [takeVoiceSet, number?_of_le h]

theorem exec_voiceSet (tag : Byte) (voice : Nat) (f : VoiceSetFields) (s : State) :
    exec (.voiceSet tag voice f) s = serve (.voiceSet tag voice f) (takeVoiceSet voice f) s := rfl

/-- The combined limits of R50, on the values as they would stand. -/
theorem voiceSetFits_iff (f : VoiceSetFields) (p : PendingVoice) (r : VoiceRecord) : voiceSetFits f.written p r = true ↔
    (f.waveStart.or p.waveStart).getD r.waveStart + (f.waveLength.or p.waveLength).getD r.waveLength ≤ 8192 ∧
    (f.loopStart.or p.loopStart).getD r.loopStart < (f.waveLength.or p.waveLength).getD r.waveLength := by
  rw [voiceSetFits, waveFits, Bool.and_eq_true, decide_eq_true_eq, decide_eq_true_eq]
  rfl

/-- The checks on the single fields, one by one (R50). -/
theorem singlesOk_iff (f : VoiceSetFields) : f.singlesOk = true ↔
    f.mode.all setModeOk = true ∧ f.volume.all byteOk = true ∧ f.substitution ≠ some .other ∧ f.waveStart.all waveStartOk = true ∧
    f.waveLength.all waveLengthOk = true ∧ f.loopStart.all loopStartOk = true ∧ f.loopMode ≠ some .other ∧
    f.pitchStep.all wordOk = true ∧ f.attackRate.all rateOk = true ∧ f.sustainLevel.all byteOk = true ∧
    f.releaseRate.all rateOk = true := by
  simp only [VoiceSetFields.singlesOk, Bool.and_eq_true, all_named_iff, and_assoc]

theorem map_is_bind_coded {α : Type} {o : Option (Coded α)} (h : o ≠ some .other) : (o.bind coded?).map .is = o := by
  match o, h with
  | none, _ => rfl
  | some (.is a), _ => rfl
  | some .other, h => exact absurd rfl h

theorem mode_ne_other {o : Option (Coded VoiceMode)} (h : o.all setModeOk = true) : o ≠ some .other := by
  rintro rfl
  exact absurd h (by decide)

/-- What Voice Set writes is what it was sent, clamped. -/
theorem written_of_singlesOk {f : VoiceSetFields} (h : f.singlesOk = true) :
    f.written.mode.map .is = f.mode ∧ f.written.substitution.map .is = f.substitution ∧
    f.written.loopMode.map .is = f.loopMode := by
  obtain ⟨mode, _, substitution, _, _, _, loopMode, _⟩ := (singlesOk_iff f).1 h
  exact ⟨map_is_bind_coded (mode_ne_other mode), map_is_bind_coded substitution, map_is_bind_coded loopMode⟩

/-- A value out of its range, a code without a meaning, no field at all, or a wave that does not fit. -/
theorem not_voiceSetAccepted {f : VoiceSetFields} {p : PendingVoice} {r : VoiceRecord}
    (h : f.unassignedBit = true ∨
      8192 < (f.waveStart.or p.waveStart).getD r.waveStart + (f.waveLength.or p.waveLength).getD r.waveLength ∨
      (f.waveLength.or p.waveLength).getD r.waveLength ≤ (f.loopStart.or p.loopStart).getD r.loopStart ∨
      f.mode = some (.is .stream) ∨ f.mode = some .other ∨ f.substitution = some .other ∨ f.loopMode = some .other ∨
      (∃ x ∈ f.waveStart, 8191 < x) ∨ (∃ x ∈ f.waveLength, x = 0 ∨ 8192 < x) ∨ (∃ x ∈ f.loopStart, 8191 < x) ∨
      f.attackRate = some 0 ∨ f.releaseRate = some 0 ∨
      f = ⟨none, none, none, none, none, none, none, none, none, none, none, false⟩) : ¬VoiceSetAccepted f p r := by
  rintro ⟨names, singles, fits⟩
  obtain ⟨mode, _, substitution, waveStart, waveLength, loopStart, loopMode, _, attack, _, release⟩ := (singlesOk_iff f).1 singles
  obtain ⟨inside, loop⟩ := (voiceSetFits_iff f p r).1 fits
  rcases h with unassigned | outside | beyond | isStream | noMode | noSubstitution | noLoopMode | ⟨x, hx, high⟩ |
    ⟨x, hx, wrong⟩ | ⟨x, hx, high⟩ | zero | zero | rfl
  · rw [VoiceSetFields.namesField, unassigned] at names
    exact absurd names Bool.false_ne_true
  · omega
  · omega
  · rw [isStream] at mode
    exact absurd mode (by decide)
  · exact mode_ne_other mode noMode
  · exact substitution noSubstitution
  · exact loopMode noLoopMode
  · have := of_decide_eq_true ((Option.all_eq_true _ _).1 waveStart x hx)
    omega
  · have ok := (Option.all_eq_true _ _).1 waveLength x hx
    rw [waveLengthOk, Bool.and_eq_true, decide_eq_true_eq, decide_eq_true_eq] at ok
    omega
  · have := of_decide_eq_true ((Option.all_eq_true _ _).1 loopStart x hx)
    omega
  · rw [zero] at attack
    exact absurd attack (by decide)
  · rw [zero] at release
    exact absurd release (by decide)
  · exact absurd names (by decide)

/-- Settles O25: a voice number out of range, and the fields accepted or refused. -/
theorem voiceSetWritesThePendingRecord : Obligations.VoiceSetWritesThePendingRecord := by
  unfold Obligations.VoiceSetWritesThePendingRecord
  refine ⟨fun s tag voice f serves high => ?_, fun s tag v f serves => ⟨fun ⟨assigned, names, singles, inside, loop⟩ => ?_,
    fun wrong => ?_⟩⟩
  · rw [exec_voiceSet]
    exact serve_refused rfl serves (takeVoiceSet_of_le high f s)
  · have accepted : VoiceSetAccepted f (s.voice.pendings.get v) (s.voice.voices.get v) :=
      ⟨names, singles, (voiceSetFits_iff _ _ _).2 ⟨inside, loop⟩⟩
    obtain ⟨mode, substitution, loopMode⟩ := written_of_singlesOk singles
    refine ⟨s.writePending v fun p => p.merge f.written, f.written, ?_,
      ⟨rfl, rfl, rfl, rfl, rfl, rfl, rfl, rfl, mode, substitution, loopMode, rfl, rfl⟩, rfl, rfl, rfl, fun u other => ?_, ?_⟩
    · rw [exec_voiceSet]
      exact serve_accepted rfl serves (takeVoiceSet_accepted accepted)
    · exact Tab.get_modify_ne _ (Ne.symm other) _
    · refine (Tab.get_modify_self _ _ _).trans ?_
      rw [PendingVoice.merge, show f.written.streamOpen = false from rfl, Bool.or_false]
      rfl
  · rw [exec_voiceSet]
    exact serve_refused rfl serves (takeVoiceSet_refused (not_voiceSetAccepted wrong))

end Sys2Proof.Machine
end

