-- ==== Sys2Proof/Proofs/Sweeps.lean ====
section
/-! SUPPORT. Sweeps over the voices: what each voice makes of its own part, and the voices that a sweep makes join a set of the
notices. -/

namespace Sys2Proof.Machine

set_option Elab.async false

/-- Work that changes only its own part changes each part that it comes to, once. -/
theorem foldl_parts {σ α : Type} {n : Nat} {f : σ → Fin n → σ} {get : σ → Fin n → α} {g : α → α}
    (own : ∀ s v, get (f s v) v = g (get s v)) (other : ∀ s v u, v ≠ u → get (f s v) u = get s u) :
    ∀ {l : List (Fin n)}, l.Nodup → ∀ s v, get (l.foldl f s) v = if v ∈ l then g (get s v) else get s v
  | [], _, s, v => rfl
  | x :: l, nodup, s, v => by
    obtain ⟨notIn, nodup⟩ := List.nodup_cons.1 nodup
    rw [List.foldl_cons, foldl_parts own other nodup]
    by_cases its : x = v
    · subst its
      rw [if_neg notIn, own, if_pos List.mem_cons_self]
    · have mem : v ∈ x :: l ↔ v ∈ l := by simp [Ne.symm its]
      rw [other s x v its]
      simp only [mem]

/-- The link after a sweep in which some of the voices make a kind pending, judged by their own parts. -/
theorem foldl_link {α : Type} {n : Nat} {f : State → Fin n → State} {get : State → Fin n → α} {g : α → α} {k : NoticeKind}
    {join : Fin n → NoticeSet → NoticeSet} {rings : α → Bool}
    (own : ∀ s v, get (f s v) v = g (get s v)) (other : ∀ s v u, v ≠ u → get (f s v) u = get s u)
    (link : ∀ s v, (f s v).link = if rings (get s v) = true then s.link.pend k (join v) else s.link) :
    ∀ {l : List (Fin n)}, l.Nodup → ∀ s, (l.foldl f s).link =
      (l.filter fun v => rings (get s v)).foldl (fun link v => link.pend k (join v)) s.link
  | [], _, _ => rfl
  | x :: l, nodup, s => by
    obtain ⟨notIn, nodup⟩ := List.nodup_cons.1 nodup
    have rest : (l.filter fun v => rings (get (f s x) v)) = l.filter fun v => rings (get s v) :=
      List.filter_congr fun v hv => by rw [other s x v fun same => notIn (same ▸ hv)]
    rw [List.foldl_cons, foldl_link own other link nodup, rest, link]
    cases rung : rings (get s x)
    · rw [List.filter_cons_of_neg (by simp [rung]), if_neg Bool.false_ne_true]
    · rw [List.filter_cons_of_pos (p := fun v => rings (get s v)) rung, if_pos rfl, List.foldl_cons]

theorem markRewritten_idem (k : NoticeKind) (tx : Option TxFrame) : markRewritten k (markRewritten k tx) = markRewritten k tx := by
  match tx with
  | none => rfl
  | some ⟨.reply _, _⟩ => rfl
  | some ⟨.notice f, sending⟩ => simp [markRewritten]

/-- A kind made pending by several voices, one after the other. -/
theorem foldl_pend {α : Type} {k : NoticeKind} {join : α → NoticeSet → NoticeSet} :
    ∀ (members : List α) (l : Link), members.foldl (fun link v => link.pend k (join v)) l =
      if maskEnables l.mask k = true ∧ members ≠ [] then
        { l with notices := members.foldl (fun n v => join v n) l.notices, tx := markRewritten k l.tx }
      else l
  | [], l => by simp
  | x :: members, l => by
    rw [List.foldl_cons, foldl_pend members, Link.pend_mask]
    cases on : maskEnables l.mask k
    · rw [Link.pend_disabled on]
      simp
    · rw [Link.pend_enabled on]
      cases members with
      | nil => simp
      | cons y members => simp [markRewritten_idem]

theorem mem_foldl_insertMember {n : Nat} (members : List (Fin n)) : ∀ (set : List (Fin n)) (v : Fin n),
    v ∈ members.foldl (fun set v => insertMember v set) set ↔ v ∈ set ∨ v ∈ members := by
  induction members with
  | nil => simp
  | cons x members ih =>
    intro set v
    rw [List.foldl_cons, ih, mem_insertMember, List.mem_cons]
    tauto

/-- Voices that join VOICE_END, one after the other. -/
theorem foldl_voiceEnd (members : List (Fin 8)) : ∀ n : NoticeSet,
    members.foldl (fun n v => { n with voiceEnd := insertMember v n.voiceEnd }) n =
      { n with voiceEnd := members.foldl (fun set v => insertMember v set) n.voiceEnd } := by
  induction members with
  | nil => exact fun _ => rfl
  | cons x members ih =>
    intro n
    rw [List.foldl_cons, ih]
    rfl

/-- Voices that join STREAM, one after the other. -/
theorem foldl_stream (members : List (Fin 8)) : ∀ n : NoticeSet,
    members.foldl (fun n v => { n with stream := insertMember v n.stream }) n =
      { n with stream := members.foldl (fun set v => insertMember v set) n.stream } := by
  induction members with
  | nil => exact fun _ => rfl
  | cons x members ih =>
    intro n
    rw [List.foldl_cons, ih]
    rfl

/-- What a sweep does to VOICE_END: the voices that ended join it where it is enabled, and with none of them the link stays. -/
theorem foldl_pend_voiceEnd (members : List (Fin 8)) (l : Link) :
    let l' := members.foldl (fun link v => link.pend .voiceEnd fun n => { n with voiceEnd := insertMember v n.voiceEnd }) l
    { l' with notices := l.notices, tx := l.tx } = l ∧
    { l'.notices with voiceEnd := l.notices.voiceEnd } = l.notices ∧
    (∀ v, v ∈ l'.notices.voiceEnd ↔ v ∈ l.notices.voiceEnd ∨ maskEnables l.mask .voiceEnd = true ∧ v ∈ members) ∧
    (maskEnables l.mask .voiceEnd = true → members ≠ [] → l'.tx = markRewritten .voiceEnd l.tx) ∧
    (maskEnables l.mask .voiceEnd = false ∨ members = [] → l' = l) := by
  intro l'
  have eq : l' = _ := foldl_pend (k := .voiceEnd) (join := fun v n => { n with voiceEnd := insertMember v n.voiceEnd }) members l
  by_cases rung : maskEnables l.mask .voiceEnd = true ∧ members ≠ []
  · rw [if_pos rung, foldl_voiceEnd] at eq
    rw [eq]
    refine ⟨rfl, rfl, fun v => ?_, fun _ _ => rfl, fun none => ?_⟩
    · rw [mem_foldl_insertMember]
      simp [rung.1]
    · rcases none with off | nil
      · exact absurd (rung.1.symm.trans off) Bool.true_eq_false.mp
      · exact absurd nil rung.2
  · rw [if_neg rung] at eq
    rw [eq]
    refine ⟨rfl, rfl, fun v => ⟨.inl, fun joined => joined.elim id fun ⟨on, mem⟩ => absurd ⟨on, List.ne_nil_of_mem mem⟩ rung⟩,
      fun on some => absurd ⟨on, some⟩ rung, fun _ => rfl⟩

end Sys2Proof.Machine
end

