-- ==== Sys2Proof/Proofs/VoiceLatch.lean ====
section
/-! SUPPORT. The voice engine's period mark: what one voice's latch and envelope step make of its record, the streams that close, and
the voices that end (R37 to R39, R42 to R44, R71). -/

namespace Sys2Proof.Machine

set_option Elab.async false

/-! ## The steps of one latch -/

section
variable (r old : VoiceRecord) (p : PendingVoice)

/-- The record with its wave gone back to the beginning when its start or its length has changed (R37 step 3). -/
def VoiceRecord.rewound : VoiceRecord :=
  if r.waveStart ≠ old.waveStart ∨ r.waveLength ≠ old.waveLength then { r with posInt := 0, posFrac := 0 } else r

/-- The record released by a key OFF (R38). -/
def VoiceRecord.keyedOff : VoiceRecord := { r with envState := .release }

theorem VoiceRecord.takeWave_of_not_table {r : VoiceRecord} (h : r.mode ≠ .table) (startedNow : Bool) :
    r.takeWave old startedNow = r := if_neg fun changes => h changes.1

theorem VoiceRecord.takeWave_of_started : r.takeWave old true = r := if_neg fun changes => Bool.noConfusion changes.2.1

theorem VoiceRecord.takeWave_of_table {r : VoiceRecord} (h : r.mode = .table) : r.takeWave old false = r.rewound old := by
  unfold VoiceRecord.takeWave VoiceRecord.rewound
  simp only [h, true_and]

theorem VoiceRecord.takeKey_none (mode : Option VoiceMode) : r.takeKey mode none = r := rfl

theorem VoiceRecord.takeKey_off_of_not_table {r : VoiceRecord} (h : r.mode ≠ .table) (mode : Option VoiceMode) :
    r.takeKey mode (some .off) = r := if_neg fun releases => h releases.1

theorem VoiceRecord.takeKey_off_of_table {r : VoiceRecord} (h : r.mode = .table) (mode : Option VoiceMode) :
    r.takeKey mode (some .off) = r.keyedOff := by
  by_cases released : r.envState = .release
  · refine (if_neg fun releases => releases.2 released).trans ?_
    rw [VoiceRecord.keyedOff, ← released]
  · exact if_pos ⟨h, released⟩

/-- Key ON does nothing when the pending mode is OFF or STREAM. -/
theorem VoiceRecord.takeKey_on_of_pending {mode : VoiceMode} (h : mode ≠ .table) : r.takeKey (some mode) (some .on) = r := by
  cases mode
  case table => exact absurd rfl h
  all_goals rfl

theorem VoiceRecord.takeKey_on_of_stream {r : VoiceRecord} (h : r.mode = .stream) (mode : Option VoiceMode) :
    r.takeKey mode (some .on) = r := by
  unfold VoiceRecord.takeKey
  dsimp only
  rw [h]
  match mode with
  | none => rfl
  | some .off => rfl
  | some .table => rfl
  | some .stream => rfl

/-- Key ON starts the voice, without a pending mode or with TABLE, unless it is a STREAM voice. -/
theorem VoiceRecord.takeKey_on {r : VoiceRecord} {mode : Option VoiceMode} (h : r.mode ≠ .stream)
    (pending : mode = none ∨ mode = some .table) : r.takeKey mode (some .on) = r.started := by
  unfold VoiceRecord.takeKey
  rcases pending with rfl | rfl
  · cases m : r.mode
    case stream => exact absurd m h
    all_goals rfl
  · cases m : r.mode
    case stream => exact absurd m h
    all_goals rfl

theorem VoiceRecord.stepEnvelope_of_not_table {r : VoiceRecord} (h : r.mode ≠ .table) : r.stepEnvelope = (r, false) := if_neg h

theorem VoiceRecord.stepEnvelope_attack {r : VoiceRecord} (table : r.mode = .table) (attack : r.envState = .attack) :
    r.stepEnvelope = ({ r with envLevel := min (r.envLevel + r.attackRate) r.sustainLevel
                               envState := if min (r.envLevel + r.attackRate) r.sustainLevel = r.sustainLevel then .sustain
                                 else .attack }, false) := by
  unfold VoiceRecord.stepEnvelope
  rw [if_pos table, attack]

theorem VoiceRecord.stepEnvelope_sustain {r : VoiceRecord} (table : r.mode = .table) (sustain : r.envState = .sustain) :
    r.stepEnvelope = ({ r with envLevel := r.sustainLevel }, false) := by
  unfold VoiceRecord.stepEnvelope
  rw [if_pos table, sustain]

theorem VoiceRecord.stepEnvelope_release {r : VoiceRecord} (table : r.mode = .table) (release : r.envState = .release) :
    r.stepEnvelope = if r.envLevel ≤ r.releaseRate then (r.turnedOff, true)
      else ({ r with envLevel := r.envLevel - r.releaseRate }, false) := by
  unfold VoiceRecord.stepEnvelope
  rw [if_pos table, release]
  simp only [Nat.sub_eq_zero_iff_le]

/-- A TABLE voice ends exactly when the step turns it off. -/
theorem VoiceRecord.stepEnvelope_ended {r : VoiceRecord} (table : r.mode = .table) :
    r.stepEnvelope.2 = true ↔ r.stepEnvelope.1.mode = .off := by
  cases state : r.envState
  case attack => rw [VoiceRecord.stepEnvelope_attack table state]; simp [table]
  case sustain => rw [VoiceRecord.stepEnvelope_sustain table state]; simp [table]
  case release =>
    rw [VoiceRecord.stepEnvelope_release table state]
    split
    · exact iff_of_true rfl rfl
    · simp [table]

/-! ## One latch by what it meets -/

/-- The record after the latch and the envelope step. -/
def VoiceRecord.latched : VoiceRecord := (old.latch p).1.stepEnvelope.1

/-- The voice ended in its envelope step. -/
def VoiceRecord.latchEnds : Bool := (old.latch p).1.stepEnvelope.2

/-- The voice goes to TABLE from another mode, or a key ON starts it. -/
def VoiceRecord.Starts : Prop :=
  p.mode = some .table ∧ old.mode ≠ .table ∨ p.key = some .on ∧ (p.mode = none ∧ old.mode ≠ .stream ∨ p.mode = some .table)

variable {old p}

theorem VoiceRecord.latch_fst {m : VoiceRecord} {startedNow : Bool}
    (moded : (old.takeFields p).takeMode p.mode = (m, startedNow)) :
    (old.latch p).1 = (m.takeWave old startedNow).takeKey p.mode p.key := by
  unfold VoiceRecord.latch
  rw [moded]

/-- A record whose mode is neither TABLE nor to be started by its key passes the later steps as it is. -/
theorem VoiceRecord.latched_of_still {m : VoiceRecord} (moded : (old.takeFields p).takeMode p.mode = (m, false))
    (notTable : m.mode ≠ .table) (keyOn : p.key = some .on → m.takeKey p.mode (some .on) = m) :
    old.latched p = m ∧ old.latchEnds p = false := by
  have keyed : m.takeKey p.mode p.key = m := by
    match key : p.key with
    | none => rfl
    | some .on => exact keyOn key
    | some .off => exact VoiceRecord.takeKey_off_of_not_table notTable _
  rw [VoiceRecord.latched, VoiceRecord.latchEnds, VoiceRecord.latch_fst moded, VoiceRecord.takeWave_of_not_table old notTable, keyed,
    VoiceRecord.stepEnvelope_of_not_table notTable]
  exact ⟨rfl, rfl⟩

theorem VoiceRecord.latched_stream (h : p.mode = some .stream ∨ p.mode = none ∧ old.mode = .stream) :
    old.latched p = { old.takeFields p with mode := .stream } ∧ old.latchEnds p = false := by
  rcases h with pending | ⟨none, stream⟩
  · refine VoiceRecord.latched_of_still (by rw [pending]; rfl) VoiceMode.noConfusion fun _ => ?_
    rw [pending]
    rfl
  · have mode : (old.takeFields p).mode = .stream := stream
    rw [← mode]
    refine VoiceRecord.latched_of_still (by rw [none]; rfl) (by rw [mode]; exact VoiceMode.noConfusion) fun _ =>
      VoiceRecord.takeKey_on_of_stream mode _

theorem VoiceRecord.latched_off (off : old.mode = .off) (h : p.mode = some .off ∨ p.mode = none ∧ p.key ≠ some .on) :
    old.latched p = old.takeFields p ∧ old.latchEnds p = false := by
  have mode : (old.takeFields p).mode = .off := off
  have notTable : (old.takeFields p).mode ≠ .table := by rw [mode]; exact VoiceMode.noConfusion
  rcases h with pending | ⟨none, key⟩
  · refine VoiceRecord.latched_of_still ?_ notTable fun _ => ?_
    · rw [pending]
      exact congrArg (·, false) (if_pos mode)
    · rw [pending]
      rfl
  · exact VoiceRecord.latched_of_still (by rw [none]; rfl) notTable fun on => absurd on key

theorem VoiceRecord.latched_turnedOff (on : old.mode ≠ .off) (pending : p.mode = some .off) :
    old.latched p = (old.takeFields p).turnedOff ∧ old.latchEnds p = false := by
  refine VoiceRecord.latched_of_still ?_ VoiceMode.noConfusion fun _ => ?_
  · rw [pending]
    exact congrArg (·, false) (if_neg on)
  · rw [pending]
    rfl

/-- What the latch makes of a voice that is started. -/
theorem VoiceRecord.latch_of_starts (starts : old.Starts p) : (old.latch p).1 =
    if p.key = some .off then (old.takeFields p).started.keyedOff else (old.takeFields p).started := by
  have startedNow (r : VoiceRecord) (m : Option VoiceMode) :
      r.started.takeKey (some .table) p.key = if p.key = some .off then r.started.keyedOff else r.started := by
    match p.key with
    | none => rfl
    | some .on => rfl
    | some .off => rfl
  by_cases fresh : p.mode = some .table ∧ old.mode ≠ .table
  · obtain ⟨pending, notTable⟩ := fresh
    have moded : (old.takeFields p).takeMode p.mode = ((old.takeFields p).started, true) := by
      rw [pending]
      exact if_neg notTable
    rw [VoiceRecord.latch_fst moded, VoiceRecord.takeWave_of_started, pending, startedNow _ none]
  · obtain ⟨key, pending⟩ := starts.resolve_left fresh
    have moded : (old.takeFields p).takeMode p.mode = (old.takeFields p, false) := by
      rcases pending with ⟨none, _⟩ | table
      · rw [none]
        rfl
      · rw [table]
        exact if_pos (Classical.not_not.1 fun other => fresh ⟨table, other⟩)
    have notStream : ((old.takeFields p).takeWave old false).mode ≠ .stream := by
      have kept : ((old.takeFields p).takeWave old false).mode = old.mode := by
        unfold VoiceRecord.takeWave
        split
        · rfl
        · rfl
      rw [kept]
      rcases pending with ⟨_, other⟩ | table
      · exact other
      · intro stream
        exact fresh ⟨table, by rw [stream]; exact VoiceMode.noConfusion⟩
    rw [VoiceRecord.latch_fst moded, key, VoiceRecord.takeKey_on notStream (pending.imp_left And.left), if_neg (by simp)]
    unfold VoiceRecord.takeWave
    split
    · rfl
    · rfl

/-- What the latch makes of a TABLE voice that goes on. -/
theorem VoiceRecord.latch_of_table (table : old.mode = .table) (stays : p.mode = none ∨ p.mode = some .table)
    (starts : ¬old.Starts p) : (old.latch p).1 =
      if p.key = some .off then ((old.takeFields p).rewound old).keyedOff else (old.takeFields p).rewound old := by
  have mode : (old.takeFields p).mode = .table := table
  have rewound : ((old.takeFields p).rewound old).mode = .table := by
    unfold VoiceRecord.rewound
    split
    · exact mode
    · exact mode
  have moded : (old.takeFields p).takeMode p.mode = (old.takeFields p, false) := by
    rcases stays with none | pending
    · rw [none]
      rfl
    · rw [pending]
      exact if_pos mode
  rw [VoiceRecord.latch_fst moded, VoiceRecord.takeWave_of_table old mode]
  match key : p.key with
  | none => rfl
  | some .on =>
    refine absurd (.inr ⟨key, ?_⟩) starts
    rcases stays with none | pending
    · exact .inl ⟨none, by rw [table]; exact VoiceMode.noConfusion⟩
    · exact .inr pending
  | some .off => rw [VoiceRecord.takeKey_off_of_table rewound, if_pos rfl]

theorem VoiceRecord.rewound_restored (r old : VoiceRecord) :
    { r.rewound old with posInt := r.posInt, posFrac := r.posFrac } = r := by
  unfold VoiceRecord.rewound
  split
  · rfl
  · rfl

end

/-! ## The fields of the record after the latch -/

/-- Only the mode, the position and the envelope differ. -/
def VoiceRecord.SameFields (r new : VoiceRecord) : Prop :=
  { new with mode := r.mode, posInt := r.posInt, posFrac := r.posFrac, envState := r.envState, envLevel := r.envLevel } = r

theorem VoiceRecord.SameFields.stepEnvelope {r new : VoiceRecord} (h : r.SameFields new) : r.SameFields new.stepEnvelope.1 := by
  by_cases table : new.mode = .table
  · cases state : new.envState
    case attack => rw [VoiceRecord.stepEnvelope_attack table state]; exact h
    case sustain => rw [VoiceRecord.stepEnvelope_sustain table state]; exact h
    case release =>
      rw [VoiceRecord.stepEnvelope_release table state]
      split
      · exact h
      · exact h
  · rw [VoiceRecord.stepEnvelope_of_not_table table]
    exact h

theorem VoiceRecord.SameFields.takeMode {r new : VoiceRecord} (h : r.SameFields new) (mode : Option VoiceMode) :
    r.SameFields (new.takeMode mode).1 := by
  match mode with
  | none => exact h
  | some .stream => exact h
  | some .off =>
    show r.SameFields (if new.mode = .off then new else new.turnedOff)
    split
    · exact h
    · exact h
  | some .table =>
    unfold VoiceRecord.takeMode
    dsimp only
    split
    · exact h
    · exact h

theorem VoiceRecord.SameFields.takeWave {r new : VoiceRecord} (h : r.SameFields new) (old : VoiceRecord) (startedNow : Bool) :
    r.SameFields (new.takeWave old startedNow) := by
  unfold VoiceRecord.takeWave
  split
  · exact h
  · exact h

theorem VoiceRecord.SameFields.takeKey {r new : VoiceRecord} (h : r.SameFields new) (mode : Option VoiceMode) (key : Option Key) :
    r.SameFields (new.takeKey mode key) := by
  match key with
  | none => exact h
  | some .on =>
    unfold VoiceRecord.takeKey
    dsimp only
    split
    · exact h
    · exact h
    · exact h
    · exact h
  | some .off =>
    unfold VoiceRecord.takeKey
    dsimp only
    split
    · exact h
    · exact h

theorem VoiceRecord.sameFields_latched (old : VoiceRecord) (p : PendingVoice) :
    (old.takeFields p).SameFields (old.latched p) :=
  ((VoiceRecord.SameFields.takeWave (.takeMode (show (old.takeFields p).SameFields (old.takeFields p) from rfl) p.mode) old _).takeKey p.mode p.key).stepEnvelope

/-! ## What one voice makes of its pending record -/

section
variable {old : VoiceRecord} {p : PendingVoice}

/-- The stream-close condition of R39, on the modes before and in the pending record. -/
theorem VoiceRecord.latch_closes (old : VoiceRecord) (p : PendingVoice) : (old.latch p).2 = true ↔
    (old.mode = .stream ∨ p.streamOpen = true) ∧
    (p.mode = some .off ∨ p.mode = some .table ∨ p.mode = none ∧ old.mode ≠ .stream) := by
  have after : (((old.takeFields p).takeMode p.mode).1.mode ≠ .stream) ↔
      (p.mode = some .off ∨ p.mode = some .table ∨ p.mode = none ∧ old.mode ≠ .stream) := by
    match p.mode with
    | none => simp [VoiceRecord.takeMode, VoiceRecord.takeFields]
    | some .stream => simp [VoiceRecord.takeMode]
    | some .off =>
      unfold VoiceRecord.takeMode
      dsimp only
      split
      · next off => simp [show (old.takeFields p).mode = .off from off]
      · simp [VoiceRecord.turnedOff]
    | some .table =>
      unfold VoiceRecord.takeMode
      dsimp only
      split
      · next table => simp [table]
      · simp [VoiceRecord.started]
  show closesStream old ((old.takeFields p).takeMode p.mode).1 p = true ↔ _
  rw [closesStream, Bool.and_eq_true, Bool.or_eq_true, decide_eq_true_eq, decide_eq_true_eq, after, and_comm]

theorem VoiceRecord.latch_table_of_starts (starts : old.Starts p) : (old.latch p).1.mode = .table := by
  rw [VoiceRecord.latch_of_starts starts]
  split
  · rfl
  · rfl

theorem VoiceRecord.rewound_kept (r old : VoiceRecord) : (r.rewound old).mode = r.mode ∧ (r.rewound old).envState = r.envState ∧
    (r.rewound old).envLevel = r.envLevel := by
  unfold VoiceRecord.rewound
  split
  · exact ⟨rfl, rfl, rfl⟩
  · exact ⟨rfl, rfl, rfl⟩

theorem VoiceRecord.latch_table_of_table (table : old.mode = .table) (stays : p.mode = none ∨ p.mode = some .table)
    (starts : ¬old.Starts p) : (old.latch p).1.mode = .table := by
  obtain ⟨mode, _⟩ := (old.takeFields p).rewound_kept old
  rw [VoiceRecord.latch_of_table table stays starts]
  split
  · exact mode.trans table
  · exact mode.trans table

/-- A voice that neither starts nor was a TABLE voice that stays one is not a TABLE voice after the mark, and does not end. -/
theorem VoiceRecord.latched_of_rest (starts : ¬old.Starts p) (h : ¬(old.mode = .table ∧ (p.mode = none ∨ p.mode = some .table))) :
    (old.latched p).mode ≠ .table ∧ old.latchEnds p = false := by
  match pending : p.mode with
  | some .stream =>
    obtain ⟨eq, ends⟩ := VoiceRecord.latched_stream (old := old) (.inl pending)
    rw [eq]
    exact ⟨VoiceMode.noConfusion, ends⟩
  | some .off =>
    by_cases off : old.mode = .off
    · obtain ⟨eq, ends⟩ := VoiceRecord.latched_off off (.inl pending)
      rw [eq]
      exact ⟨fun table => VoiceMode.noConfusion (off.symm.trans table), ends⟩
    · obtain ⟨eq, ends⟩ := VoiceRecord.latched_turnedOff off pending
      rw [eq]
      exact ⟨VoiceMode.noConfusion, ends⟩
  | some .table => exact absurd ⟨Classical.not_not.1 fun other => starts (.inl ⟨pending, other⟩), .inr pending⟩ h
  | none =>
    cases mode : old.mode with
    | table => exact absurd ⟨mode, .inl pending⟩ h
    | stream =>
      obtain ⟨eq, ends⟩ := VoiceRecord.latched_stream (.inr ⟨pending, mode⟩)
      rw [eq]
      exact ⟨VoiceMode.noConfusion, ends⟩
    | off =>
      have key : p.key ≠ some .on := fun on => starts (.inr ⟨on, .inl ⟨pending, by rw [mode]; exact VoiceMode.noConfusion⟩⟩)
      obtain ⟨eq, ends⟩ := VoiceRecord.latched_off mode (.inr ⟨pending, key⟩)
      rw [eq]
      exact ⟨fun table => VoiceMode.noConfusion (mode.symm.trans table), ends⟩

/-- The voices that a mark ends (R44, R47). -/
theorem VoiceRecord.latchEnds_iff (old : VoiceRecord) (p : PendingVoice) : old.latchEnds p = true ↔
    (old.latched p).mode = .off ∧ (p.mode = some .table ∨ p.mode = none ∧ old.mode = .table) := by
  by_cases starts : old.Starts p
  · refine (VoiceRecord.stepEnvelope_ended (VoiceRecord.latch_table_of_starts starts)).trans
      ⟨fun off => ⟨off, ?_⟩, And.left⟩
    rcases starts with ⟨pending, _⟩ | ⟨key, ⟨none, notStream⟩ | pending⟩
    · exact .inl pending
    · have attacks : (old.latched p).mode = .table := by
        rw [VoiceRecord.latched, VoiceRecord.latch_of_starts (.inr ⟨key, .inl ⟨none, notStream⟩⟩), key, if_neg (by simp),
          VoiceRecord.stepEnvelope_attack rfl rfl]
        rfl
      exact absurd (attacks.symm.trans off) VoiceMode.noConfusion
    · exact .inl pending
  · by_cases table : old.mode = .table ∧ (p.mode = none ∨ p.mode = some .table)
    · obtain ⟨table, stays⟩ := table
      refine (VoiceRecord.stepEnvelope_ended (VoiceRecord.latch_table_of_table table stays starts)).trans
        ⟨fun off => ⟨off, ?_⟩, And.left⟩
      exact stays.symm.imp_right fun none => ⟨none, table⟩
    · obtain ⟨_, ends⟩ := VoiceRecord.latched_of_rest starts table
      rw [ends]
      refine iff_of_false Bool.false_ne_true fun ⟨_, pending⟩ => ?_
      rcases pending with pending | ⟨none, mode⟩
      · exact table ⟨Classical.not_not.1 fun other => starts (.inl ⟨pending, other⟩), .inr pending⟩
      · exact table ⟨mode, .inl none⟩

/-- A start with the first envelope step after it. -/
theorem VoiceRecord.latched_of_start (starts : old.Starts p) (key : p.key ≠ some .off) :
    old.latched p = { (old.takeFields p).started with
      envLevel := min (p.attackRate.getD old.attackRate) (p.sustainLevel.getD old.sustainLevel)
      envState := if p.attackRate.getD old.attackRate < p.sustainLevel.getD old.sustainLevel then .attack else .sustain } := by
  rw [VoiceRecord.latched, VoiceRecord.latch_of_starts starts, if_neg key, VoiceRecord.stepEnvelope_attack rfl rfl]
  show VoiceRecord.mk _ _ _ _ _ _ _ _ _ _ (if min (0 + p.attackRate.getD old.attackRate) (p.sustainLevel.getD old.sustainLevel) =
    p.sustainLevel.getD old.sustainLevel then _ else _) (min (0 + p.attackRate.getD old.attackRate) _) _ _ _ = _
  rw [Nat.zero_add]
  by_cases below : p.attackRate.getD old.attackRate < p.sustainLevel.getD old.sustainLevel
  · rw [if_neg (by omega), if_pos below]
    rfl
  · rw [if_pos (by omega), if_neg below]
    rfl

/-- A start released at once has no level left. -/
theorem VoiceRecord.latched_of_start_off (starts : old.Starts p) (key : p.key = some .off) : (old.latched p).mode = .off := by
  rw [VoiceRecord.latched, VoiceRecord.latch_of_starts starts, if_pos key, VoiceRecord.stepEnvelope_release rfl rfl,
    if_pos (show (old.takeFields p).started.keyedOff.envLevel ≤ _ from Nat.zero_le _)]
  rfl

/-- A TABLE voice that goes on without a key OFF, in its envelope state. -/
theorem VoiceRecord.latched_of_table (table : old.mode = .table) (stays : p.mode = none ∨ p.mode = some .table)
    (starts : ¬old.Starts p) (key : p.key ≠ some .off) :
    old.latched p = ((old.takeFields p).rewound old).stepEnvelope.1 := by
  rw [VoiceRecord.latched, VoiceRecord.latch_of_table table stays starts, if_neg key]

/-- A TABLE voice that goes on in release. -/
theorem VoiceRecord.latched_of_release (table : old.mode = .table) (stays : p.mode = none ∨ p.mode = some .table)
    (starts : ¬old.Starts p) (h : p.key = some .off ∨ old.envState = .release) :
    old.latched p = ((old.takeFields p).rewound old).keyedOff.stepEnvelope.1 := by
  rw [VoiceRecord.latched, VoiceRecord.latch_of_table table stays starts]
  split
  · rfl
  · next key =>
    have release : ((old.takeFields p).rewound old).envState = .release :=
      ((old.takeFields p).rewound_kept old).2.1.trans (h.resolve_left key)
    rw [VoiceRecord.keyedOff, ← release]

/-- The envelope step leaves the position of a voice that it does not end. -/
theorem VoiceRecord.stepEnvelope_position {r : VoiceRecord} (h : r.stepEnvelope.1.mode = .table) :
    r.stepEnvelope.1.posInt = r.posInt ∧ r.stepEnvelope.1.posFrac = r.posFrac := by
  by_cases table : r.mode = .table
  · cases state : r.envState
    case attack => rw [VoiceRecord.stepEnvelope_attack table state]; exact ⟨rfl, rfl⟩
    case sustain => rw [VoiceRecord.stepEnvelope_sustain table state]; exact ⟨rfl, rfl⟩
    case release =>
      rw [VoiceRecord.stepEnvelope_release table state] at h ⊢
      split at h
      · exact absurd h VoiceMode.noConfusion
      · next more =>
        rw [if_neg more]
        exact ⟨rfl, rfl⟩
  · rw [VoiceRecord.stepEnvelope_of_not_table table]
    exact ⟨rfl, rfl⟩

theorem VoiceRecord.latched_position (starts : ¬old.Starts p) (table : (old.latched p).mode = .table) :
    (old.latched p).posInt = ((old.takeFields p).rewound old).posInt ∧
    (old.latched p).posFrac = ((old.takeFields p).rewound old).posFrac := by
  by_cases stays : old.mode = .table ∧ (p.mode = none ∨ p.mode = some .table)
  · obtain ⟨was, stays⟩ := stays
    obtain ⟨int, frac⟩ := VoiceRecord.stepEnvelope_position table
    rw [VoiceRecord.latch_of_table was stays starts] at int frac
    have keyed : (if p.key = some .off then ((old.takeFields p).rewound old).keyedOff else (old.takeFields p).rewound old).posInt =
        ((old.takeFields p).rewound old).posInt ∧
      (if p.key = some .off then ((old.takeFields p).rewound old).keyedOff else (old.takeFields p).rewound old).posFrac =
        ((old.takeFields p).rewound old).posFrac := by
      split
      · exact ⟨rfl, rfl⟩
      · exact ⟨rfl, rfl⟩
    rw [VoiceRecord.latched, VoiceRecord.latch_of_table was stays starts]
    exact ⟨int.trans keyed.1, frac.trans keyed.2⟩
  · exact absurd table (VoiceRecord.latched_of_rest starts stays).1

end

/-! ## One voice of the mark -/

/-- A record put back with its slots accounted for leaves the pool as full as it was (R55). -/
theorem StreamBuffers.put_pool {sb : StreamBuffers} {v : Fin 8} {o : StreamOutcome}
    (slots : o.2 + o.1.held.length = sb.freeSlots + (sb.records.get v).held.length) :
    (sb.put v o).freeSlots + (sb.put v o).heldCount = sb.freeSlots + sb.heldCount := by
  have replaced := sum_map_set (fun r : StreamRecord => r.held.length) o.1 sb.records.cells v.val
    (sb.records.size_eq.symm ▸ v.isLt)
  change o.2 + o.1.held.length =
    sb.freeSlots + (sb.records.cells[v.val]'(sb.records.size_eq.symm ▸ v.isLt)).held.length at slots
  change o.2 + ((sb.records.cells.set v.val o.1).map fun r => r.held.length).sum =
    sb.freeSlots + (sb.records.cells.map fun r => r.held.length).sum
  omega

/-- A record after a stream-close event (R71). -/
def StreamRecord.closed (r : StreamRecord) : StreamRecord :=
  if r.state = .closed then r else { r with state := .closed, held := [], periodValues := silence }

theorem StreamBuffers.close_spec (sb : StreamBuffers) (v : Fin 8) :
    (sb.close v).records = sb.records.set v (sb.records.get v).closed ∧
    (sb.close v).freeSlots + (sb.close v).heldCount = sb.freeSlots + sb.heldCount ∧
    (sb.close v).stray = sb.stray ∧ (sb.close v).sampleIndex = sb.sampleIndex := by
  by_cases closed : (sb.records.get v).state = .closed
  · have same : sb.close v = sb := if_pos closed
    rw [same, StreamRecord.closed, if_pos closed, Tab.set_get_self]
    exact ⟨rfl, rfl, rfl, rfl⟩
  · rw [StreamBuffers.close_of_ne_closed closed, StreamRecord.closed, if_neg closed]
    exact ⟨rfl, StreamBuffers.put_pool rfl, rfl, rfl⟩

/-- The voice engine after voice `v` has taken its pending record. -/
def VoiceEngine.latched (e : VoiceEngine) (v : Fin 8) : VoiceEngine :=
  { e with voices := e.voices.set v ((e.voices.get v).latched (e.pendings.get v)), pendings := e.pendings.set v .empty }

section
variable (s : State) (v : Fin 8)

/-- One voice of the mark, block by block. -/
theorem latchOne_eq : latchOne s v =
    { s with voice := s.voice.latched v
             stream := if ((s.voice.voices.get v).latch (s.voice.pendings.get v)).2 = true then s.stream.close v else s.stream
             link := if (s.voice.voices.get v).latchEnds (s.voice.pendings.get v) = true then
                 s.link.pend .voiceEnd fun n => { n with voiceEnd := insertMember v n.voiceEnd } else s.link } := by
  show (if (s.voice.voices.get v).latchEnds (s.voice.pendings.get v) = true then
    (if ((s.voice.voices.get v).latch (s.voice.pendings.get v)).2 = true then
      (s.withVoice (s.voice.latched v)).withStream (s.stream.close v) else s.withVoice (s.voice.latched v)).joinVoiceEnd v else
    (if ((s.voice.voices.get v).latch (s.voice.pendings.get v)).2 = true then
      (s.withVoice (s.voice.latched v)).withStream (s.stream.close v) else s.withVoice (s.voice.latched v))) = _
  split
  · split
    · rfl
    · rfl
  · split
    · rfl
    · rfl

/-- A voice's record, its pending record and its stream. -/
def State.voicePart (s : State) (v : Fin 8) : VoiceRecord × PendingVoice × StreamRecord :=
  (s.voice.voices.get v, s.voice.pendings.get v, s.stream.records.get v)

/-- What the mark makes of them. -/
def latchedPart (x : VoiceRecord × PendingVoice × StreamRecord) : VoiceRecord × PendingVoice × StreamRecord :=
  (x.1.latched x.2.1, .empty, if (x.1.latch x.2.1).2 = true then x.2.2.closed else x.2.2)

theorem latchOne_records : (latchOne s v).stream.records =
    s.stream.records.set v (if ((s.voice.voices.get v).latch (s.voice.pendings.get v)).2 = true then
      (s.stream.records.get v).closed else s.stream.records.get v) := by
  rw [latchOne_eq]
  dsimp only
  split
  · exact (s.stream.close_spec v).1
  · rw [Tab.set_get_self]

theorem voicePart_latchOne_own : (latchOne s v).voicePart v = latchedPart (s.voicePart v) := by
  have voice : (latchOne s v).voice = s.voice.latched v := by rw [latchOne_eq]
  rw [State.voicePart, latchOne_records, voice, VoiceEngine.latched]
  simp only [Tab.get_set_self]
  rfl

theorem voicePart_latchOne_other {u : Fin 8} (h : v ≠ u) : (latchOne s v).voicePart u = s.voicePart u := by
  have voice : (latchOne s v).voice = s.voice.latched v := by rw [latchOne_eq]
  rw [State.voicePart, latchOne_records, voice, VoiceEngine.latched]
  simp only [Tab.get_set_ne _ h]
  rfl

theorem latchOne_link : (latchOne s v).link = if (s.voicePart v).1.latchEnds (s.voicePart v).2.1 = true then
    s.link.pend .voiceEnd fun n => { n with voiceEnd := insertMember v n.voiceEnd } else s.link := by
  rw [latchOne_eq]
  rfl

end

/-! ## The whole mark -/

theorem exec_voiceLatch {s : State} (powered : s.corePowered = true) : exec .voiceLatch s = .next s.latchVoices :=
  onCore_powered powered State.latchVoices

section
variable (s : State)

theorem latchVoices_part (v : Fin 8) : s.latchVoices.voicePart v = latchedPart (s.voicePart v) :=
  (foldl_parts (get := State.voicePart) voicePart_latchOne_own (fun s v _ h => voicePart_latchOne_other s v h)
    (nodup_numbers 8) s v).trans (if_pos (mem_numbers v))

/-- What the mark leaves as it is: wave memory, the stray count and the sample index, the pool, and every other block. -/
def State.LatchFrame (s t : State) : Prop :=
  t.voice.wave = s.voice.wave ∧ { t with voice := s.voice, stream := s.stream, link := s.link } = s ∧
  t.stream.stray = s.stream.stray ∧ t.stream.sampleIndex = s.stream.sampleIndex ∧
  t.stream.freeSlots + t.stream.heldCount = s.stream.freeSlots + s.stream.heldCount

theorem State.LatchFrame.latchOne {s t : State} (h : s.LatchFrame t) (v : Fin 8) : s.LatchFrame (latchOne t v) := by
  obtain ⟨wave, rest, stray, sampleIndex, pool⟩ := h
  obtain ⟨_, pool', stray', sampleIndex'⟩ := t.stream.close_spec v
  rw [latchOne_eq]
  refine ⟨wave, rest, ?_⟩
  dsimp only
  split
  · exact ⟨stray'.trans stray, sampleIndex'.trans sampleIndex, pool'.trans pool⟩
  · exact ⟨stray, sampleIndex, pool⟩

theorem latchVoices_frame : s.LatchFrame s.latchVoices :=
  foldl_keeps (P := s.LatchFrame) (fun _ v h => h.latchOne v) _ ⟨rfl, rfl, rfl, rfl, rfl⟩

/-- The voices whose release ended at this mark. -/
def State.endedVoices (s : State) : List (Fin 8) :=
  (numbers 8).filter fun v => (s.voicePart v).1.latchEnds (s.voicePart v).2.1

theorem mem_endedVoices (v : Fin 8) : v ∈ s.endedVoices ↔
    ((s.voice.voices.get v).latched (s.voice.pendings.get v)).mode = .off ∧
    ((s.voice.pendings.get v).mode = some .table ∨
      (s.voice.pendings.get v).mode = none ∧ (s.voice.voices.get v).mode = .table) := by
  refine (List.mem_filter.trans ?_).trans (VoiceRecord.latchEnds_iff _ _)
  simp only [mem_numbers, true_and]
  exact Iff.rfl

theorem latchVoices_link : s.latchVoices.link =
    s.endedVoices.foldl (fun link v => link.pend .voiceEnd fun n => { n with voiceEnd := insertMember v n.voiceEnd }) s.link :=
  foldl_link (get := State.voicePart) (k := .voiceEnd) (join := fun v n => { n with voiceEnd := insertMember v n.voiceEnd })
    (rings := fun x => x.1.latchEnds x.2.1) voicePart_latchOne_own (fun s v _ h => voicePart_latchOne_other s v h)
    latchOne_link (nodup_numbers 8) s

end

/-! ## The obligation -/

section
variable {old : VoiceRecord} {p : PendingVoice}

/-- The clauses on a TABLE voice's envelope. -/
theorem VoiceRecord.latched_attack (starts : ¬old.Starts p) (stays : p.mode = none ∨ p.mode = some .table)
    (table : old.mode = .table) (key : p.key ≠ some .off) (attack : old.envState = .attack) :
    (old.latched p).mode = .table ∧
    (old.latched p).envLevel = min (old.envLevel + (old.latched p).attackRate) (p.sustainLevel.getD old.sustainLevel) ∧
    (old.latched p).envState =
      if (old.latched p).envLevel = p.sustainLevel.getD old.sustainLevel then .sustain else .attack := by
  obtain ⟨mode, state, level⟩ := (old.takeFields p).rewound_kept old
  have fields := VoiceRecord.rewound_restored (old.takeFields p) old
  have rate : ((old.takeFields p).rewound old).attackRate = (old.takeFields p).attackRate := (congrArg VoiceRecord.attackRate fields :)
  have sustain : ((old.takeFields p).rewound old).sustainLevel = p.sustainLevel.getD old.sustainLevel :=
    (congrArg VoiceRecord.sustainLevel fields :)
  have level : ((old.takeFields p).rewound old).envLevel = old.envLevel := level
  rw [VoiceRecord.latched_of_table table stays starts key,
    VoiceRecord.stepEnvelope_attack (mode.trans table) (state.trans attack), rate, sustain, level]
  exact ⟨mode.trans table, rfl, rfl⟩

theorem VoiceRecord.latched_sustain (starts : ¬old.Starts p) (stays : p.mode = none ∨ p.mode = some .table)
    (table : old.mode = .table) (key : p.key ≠ some .off) (sustain : old.envState = .sustain) :
    (old.latched p).mode = .table ∧ (old.latched p).envLevel = p.sustainLevel.getD old.sustainLevel ∧
    (old.latched p).envState = .sustain := by
  obtain ⟨mode, state, _⟩ := (old.takeFields p).rewound_kept old
  have level : ((old.takeFields p).rewound old).sustainLevel = p.sustainLevel.getD old.sustainLevel :=
    (congrArg VoiceRecord.sustainLevel (VoiceRecord.rewound_restored (old.takeFields p) old) :)
  rw [VoiceRecord.latched_of_table table stays starts key,
    VoiceRecord.stepEnvelope_sustain (mode.trans table) (state.trans sustain), level]
  exact ⟨mode.trans table, rfl, state.trans sustain⟩

theorem VoiceRecord.latched_release (starts : ¬old.Starts p) (stays : p.mode = none ∨ p.mode = some .table)
    (table : old.mode = .table) (h : p.key = some .off ∨ old.envState = .release) :
    (p.releaseRate.getD old.releaseRate < old.envLevel → (old.latched p).mode = .table ∧ (old.latched p).envState = .release ∧
      (old.latched p).envLevel = old.envLevel - p.releaseRate.getD old.releaseRate) ∧
    (old.envLevel ≤ p.releaseRate.getD old.releaseRate → (old.latched p).mode = .off ∧ (old.latched p).posInt = 0 ∧
      (old.latched p).posFrac = 0 ∧ (old.latched p).envLevel = 0 ∧ (old.latched p).envState = .release) := by
  obtain ⟨mode, _, level⟩ := (old.takeFields p).rewound_kept old
  have rate : ((old.takeFields p).rewound old).keyedOff.releaseRate = p.releaseRate.getD old.releaseRate :=
    (congrArg VoiceRecord.releaseRate (VoiceRecord.rewound_restored (old.takeFields p) old) :)
  have level : ((old.takeFields p).rewound old).keyedOff.envLevel = old.envLevel := level
  have mode : ((old.takeFields p).rewound old).keyedOff.mode = .table := mode.trans table
  rw [VoiceRecord.latched_of_release table stays starts h, VoiceRecord.stepEnvelope_release mode rfl, rate, level]
  refine ⟨fun more => ?_, fun none => ?_⟩
  · rw [if_neg (Nat.not_le.2 more)]
    exact ⟨mode, rfl, rfl⟩
  · rw [if_pos none]
    exact ⟨rfl, rfl, rfl, rfl, rfl⟩

theorem VoiceRecord.latched_wave (starts : ¬old.Starts p) (table : (old.latched p).mode = .table) :
    ((old.latched p).waveStart = old.waveStart ∧ (old.latched p).waveLength = old.waveLength →
      (old.latched p).posInt = old.posInt ∧ (old.latched p).posFrac = old.posFrac) ∧
    ((old.latched p).waveStart ≠ old.waveStart ∨ (old.latched p).waveLength ≠ old.waveLength →
      (old.latched p).posInt = 0 ∧ (old.latched p).posFrac = 0) := by
  obtain ⟨int, frac⟩ := VoiceRecord.latched_position starts table
  have fields := VoiceRecord.sameFields_latched old p
  unfold VoiceRecord.SameFields at fields
  have start : (old.latched p).waveStart = (old.takeFields p).waveStart := (congrArg VoiceRecord.waveStart fields :)
  have length : (old.latched p).waveLength = (old.takeFields p).waveLength := (congrArg VoiceRecord.waveLength fields :)
  rw [int, frac, start, length, VoiceRecord.rewound]
  refine ⟨fun ⟨start, length⟩ => ?_, fun changed => ?_⟩
  · rw [if_neg (not_or.2 ⟨not_not_intro start, not_not_intro length⟩)]
    exact ⟨rfl, rfl⟩
  · rw [if_pos changed]
    exact ⟨rfl, rfl⟩

end

/-- Settles O27: the mark voice by voice, and the streams and notices that the voices leave behind. -/
theorem voiceLatchTakesThePendingRecords : Obligations.VoiceLatchTakesThePendingRecords := by
  unfold Obligations.VoiceLatchTakesThePendingRecords
  intro s powered
  obtain ⟨wave, rest, stray, sampleIndex, pool⟩ := latchVoices_frame s
  have parts := latchVoices_part s
  have link := latchVoices_link s
  refine ⟨s.latchVoices, exec_voiceLatch powered, ?_⟩
  generalize s.latchVoices = t at *
  have voice (v : Fin 8) : t.voice.voices.get v = (s.voice.voices.get v).latched (s.voice.pendings.get v) :=
    congrArg Prod.fst (parts v)
  have pending (v : Fin 8) : t.voice.pendings.get v = .empty := congrArg (·.2.1) (parts v)
  have record (v : Fin 8) : t.stream.records.get v = if ((s.voice.voices.get v).latch (s.voice.pendings.get v)).2 = true then
      (s.stream.records.get v).closed else s.stream.records.get v := congrArg (·.2.2) (parts v)
  obtain ⟨linkRest, noticesRest, members, rung, silent⟩ := foldl_pend_voiceEnd s.endedVoices s.link
  rw [← link] at linkRest noticesRest members rung silent
  refine ⟨wave, pending, rest, stray, sampleIndex, pool, linkRest, noticesRest, ⟨fun v => ?_, fun ⟨v, ended⟩ => ?_,
    fun none => ?_⟩, fun v => ?_⟩
  · rw [members, mem_endedVoices, ← voice]
    dsimp only
    tauto
  · obtain ⟨off, on, mode⟩ := ended
    rw [voice] at off
    exact rung on (List.ne_nil_of_mem ((mem_endedVoices s v).2 ⟨off, mode⟩))
  · refine silent ?_
    cases on : maskEnables s.link.mask .voiceEnd
    · exact .inl rfl
    · refine .inr (List.eq_nil_iff_forall_not_mem.2 fun v member => none v ?_)
      obtain ⟨off, mode⟩ := (mem_endedVoices s v).1 member
      exact ⟨(congrArg VoiceRecord.mode (voice v)).trans off, on, mode⟩
  · have joined (off : ((s.voice.voices.get v).latched (s.voice.pendings.get v)).mode = .off)
        (mode : (s.voice.pendings.get v).mode = some .table ∨
          (s.voice.pendings.get v).mode = none ∧ (s.voice.voices.get v).mode = .table)
        (on : maskEnables s.link.mask .voiceEnd = true) : v ∈ t.link.notices.voiceEnd :=
      (members v).2 (.inr ⟨on, (mem_endedVoices s v).2 ⟨off, mode⟩⟩)
    have closes := VoiceRecord.latch_closes (s.voice.voices.get v) (s.voice.pendings.get v)
    rw [voice v, record v]
    generalize s.voice.voices.get v = old at *
    generalize s.voice.pendings.get v = p at *
    have fields := VoiceRecord.sameFields_latched old p
    unfold VoiceRecord.SameFields at fields
    have attackRate : (old.latched p).attackRate = p.attackRate.getD old.attackRate := (congrArg VoiceRecord.attackRate fields :)
    have releaseRate : (old.latched p).releaseRate = p.releaseRate.getD old.releaseRate :=
      (congrArg VoiceRecord.releaseRate fields :)
    refine ⟨(congrArg VoiceRecord.volume fields :), (congrArg VoiceRecord.substitution fields :),
      (congrArg VoiceRecord.waveStart fields :), (congrArg VoiceRecord.waveLength fields :),
      (congrArg VoiceRecord.loopStart fields :), (congrArg VoiceRecord.loopMode fields :),
      (congrArg VoiceRecord.pitchStep fields :), attackRate, (congrArg VoiceRecord.sustainLevel fields :), releaseRate,
      fun stream => ?_, fun off still => ?_, fun pendingOff on => ?_, fun starts key => ?_,
      fun starts key => VoiceRecord.latched_of_start_off starts key,
      fun starts stays table key attack => VoiceRecord.latched_attack starts stays table key attack,
      fun starts stays table key sustain => VoiceRecord.latched_sustain starts stays table key sustain,
      fun starts stays table release => ?_, fun starts table => VoiceRecord.latched_wave starts table, fun close isOpen => ?_,
      fun kept => ?_⟩
    · rw [(VoiceRecord.latched_stream stream).1]
      exact ⟨rfl, rfl, rfl, rfl, rfl⟩
    · rw [(VoiceRecord.latched_off off still).1]
      exact ⟨off, rfl, rfl, rfl, rfl⟩
    · rw [(VoiceRecord.latched_turnedOff on pendingOff).1]
      exact ⟨rfl, rfl, rfl, rfl, rfl⟩
    · rw [attackRate, VoiceRecord.latched_of_start starts key]
      exact ⟨rfl, rfl, rfl, rfl, rfl⟩
    · obtain ⟨more, none⟩ := VoiceRecord.latched_release starts stays table release
      rw [releaseRate]
      refine ⟨more, fun low => ?_⟩
      obtain ⟨off, int, frac, level, state⟩ := none low
      exact ⟨off, int, frac, level, state, joined off (stays.symm.imp_right fun none => ⟨none, table⟩)⟩
    · rw [if_pos (closes.2 close), StreamRecord.closed, if_neg isOpen]
      rfl
    · split
      · next close => exact if_pos (kept.resolve_left (not_not_intro (closes.1 close)))
      · rfl

end Sys2Proof.Machine
end

