-- ==== Sys2Proof/Proofs/StreamBlocks.lean ====
section
/-! SUPPORT. Stream blocks by the cases of R57, the fill check, and playout (R56 to R66). -/

namespace Sys2Proof.Machine

set_option Elab.async false

/-! ## A stream block on its way to its record -/

/-- A stream block received in a selection, between frames. -/
theorem exec_streamBlock {s : State} (selected : s.Selected) (between : s.link.deframer = .between) {body : List Byte}
    (length : body.length ≤ 72) (q : Byte) : exec (.streamBlock q body) s = .next (s.takeBlock q body) := by
  obtain ⟨powered, low⟩ := selected
  have row : exec (.streamBlock q body) s = .next (s.receiveGood 0x3F q body) :=
    onCore_powered powered fun s => s.receiveGood 0x3F q body
  have isOpen : s.link.deframer ≠ .hunt := by rw [between]; exact Deframer.noConfusion
  have same : s.withLink { s.link with deframer := .between } = s := by rw [← between, State.withLink_self]
  rw [row, State.receiveGood, if_pos length, State.receive_of_open low isOpen, same, State.classify, if_pos rfl]

theorem State.takeBlock_of_length {s : State} {samples : List Byte} (h : samples.length = 64) (q voice : Byte) :
    s.takeBlock q (voice :: samples) = s.withStream (s.stream.take q voice samples) := if_pos h

theorem State.takeBlock_of_badLength {s : State} {body : List Byte} (h : body.length ≠ 65) (q : Byte) :
    s.takeBlock q body = s.withLink (s.link.count fun c => { c with badLength := sat16 c.badLength }) := by
  match body, h with
  | [], _ => rfl
  | voice :: samples, h => exact if_neg fun length => h (by rw [List.length_cons, length])

theorem StreamBuffers.take_voice {voice : Byte} {v : Fin 8} (h : voice.toNat = v.val) (sb : StreamBuffers) (q : Byte)
    (samples : List Byte) : sb.take q voice samples = sb.put v ((sb.records.get v).arrive ⟨q, samples⟩ sb.freeSlots) := by
  rw [StreamBuffers.take, h, number?_val]

theorem StreamBuffers.take_stray {voice : Byte} (h : 8 ≤ voice.toNat) (sb : StreamBuffers) (q : Byte) (samples : List Byte) :
    sb.take q voice samples = { sb with stray := sat16 sb.stray } := by
  rw [StreamBuffers.take, number?_of_le h]

theorem exec_streamBlock_voice {s : State} (selected : s.Selected) (between : s.link.deframer = .between) {voice : Byte}
    {v : Fin 8} {samples : List Byte} (length : samples.length = 64) (voiceNumber : voice.toNat = v.val) (q : Byte) :
    exec (.streamBlock q (voice :: samples)) s =
      .next (s.withStream (s.stream.put v ((s.stream.records.get v).arrive ⟨q, samples⟩ s.stream.freeSlots))) := by
  rw [exec_streamBlock selected between (by rw [List.length_cons, length]; decide), State.takeBlock_of_length length,
    StreamBuffers.take_voice voiceNumber]

/-! ## The cases of R57 -/

section
variable {r : StreamRecord} {b : Block} {free : Nat}

theorem StreamRecord.arrive_of_closed (closed : r.state = .closed) :
    r.arrive b free = (r.count fun c => { c with unbound := sat16 c.unbound }, free) := if_pos closed

theorem StreamRecord.arrive_of_late (isOpen : r.state ≠ .closed) (late : 128 ≤ distance r.x b.seq) :
    r.arrive b free = (r.count fun c => { c with late := sat16 c.late }, free) := by
  unfold StreamRecord.arrive
  dsimp only
  rw [if_neg isOpen, if_pos late]

theorem StreamRecord.arrive_of_overrun (play : r.state = .play) (beyond : r.limit ≤ distance r.x b.seq)
    (ahead : distance r.x b.seq < 128) : r.arrive b free = (r.count fun c => { c with overrun := sat16 c.overrun }, free) := by
  unfold StreamRecord.arrive
  dsimp only
  rw [play, if_neg StreamState.noConfusion, if_neg (Nat.not_le.2 ahead), if_pos beyond]
  rfl

theorem StreamRecord.arrive_of_resync (filling : r.state = .fill ∨ r.state = .starved) (beyond : r.limit ≤ distance r.x b.seq)
    (ahead : distance r.x b.seq < 128) : r.arrive b free = r.resynchronise b free := by
  unfold StreamRecord.arrive
  dsimp only
  rcases filling with fill | starved
  · rw [fill, if_neg StreamState.noConfusion, if_neg (Nat.not_le.2 ahead), if_pos beyond]
    rfl
  · rw [starved, if_neg StreamState.noConfusion, if_neg (Nat.not_le.2 ahead), if_pos beyond]
    rfl

theorem StreamRecord.arrive_of_duplicate (isOpen : r.state ≠ .closed) (inside : distance r.x b.seq < r.limit)
    (ahead : distance r.x b.seq < 128) (held : r.holds b.seq = true) :
    r.arrive b free = (r.count fun c => { c with duplicate := sat16 c.duplicate }, free) := by
  unfold StreamRecord.arrive
  dsimp only
  rw [if_neg isOpen, if_neg (Nat.not_le.2 ahead), if_neg (Nat.not_le.2 inside), if_pos held]

theorem StreamRecord.arrive_of_exhausted (isOpen : r.state ≠ .closed) (inside : distance r.x b.seq < r.limit)
    (ahead : distance r.x b.seq < 128) (new : r.holds b.seq = false) (none : free = 0) :
    r.arrive b free = (r.count fun c => { c with exhausted := sat16 c.exhausted }, free) := by
  unfold StreamRecord.arrive
  dsimp only
  rw [if_neg isOpen, if_neg (Nat.not_le.2 ahead), if_neg (Nat.not_le.2 inside), if_neg (ne_true_of_eq_false new), if_pos none]

theorem StreamRecord.arrive_of_stored (isOpen : r.state ≠ .closed) (inside : distance r.x b.seq < r.limit)
    (ahead : distance r.x b.seq < 128) (new : r.holds b.seq = false) (slot : 0 < free) :
    r.arrive b free = (if r.state.filling then (r.store b).fillCheck else r.store b, free - 1) := by
  unfold StreamRecord.arrive
  dsimp only
  rw [if_neg isOpen, if_neg (Nat.not_le.2 ahead), if_neg (Nat.not_le.2 inside), if_neg (ne_true_of_eq_false new),
    if_neg (Nat.ne_of_gt slot)]

theorem StreamRecord.arrive_of_play (play : r.state = .play) (inside : distance r.x b.seq < r.limit)
    (ahead : distance r.x b.seq < 128) (new : r.holds b.seq = false) (slot : 0 < free) :
    r.arrive b free = (r.store b, free - 1) := by
  rw [StreamRecord.arrive_of_stored (by rw [play]; exact StreamState.noConfusion) inside ahead new slot, play]
  rfl

theorem perm_insertBlock (x : Byte) (b : Block) (held : List Block) : (insertBlock x b held).Perm (b :: held) := by
  induction held with
  | nil => exact .refl _
  | cons h hs ih =>
    unfold insertBlock
    split
    · exact .refl _
    · exact (ih.cons h).trans (.swap b h hs)

/-- A store puts the block in its place and counts it as reordered when a later one is held; nothing else changes (R60). -/
theorem StreamRecord.store_eq (r : StreamRecord) (b : Block) : r.store b =
    { r with held := insertBlock r.x b r.held
             counters := if ∃ h ∈ r.held, distance r.x b.seq < distance r.x h.seq
               then { r.counters with reordered := sat16 r.counters.reordered } else r.counters } := by
  have behind : (r.held.any fun h => decide (distance r.x b.seq < distance r.x h.seq)) = true ↔
      ∃ h ∈ r.held, distance r.x b.seq < distance r.x h.seq := by simp
  unfold StreamRecord.store
  dsimp only
  by_cases later : ∃ h ∈ r.held, distance r.x b.seq < distance r.x h.seq
  · rw [if_pos (behind.2 later), if_pos later]
    rfl
  · rw [if_neg fun any => later (behind.1 any), if_neg later]

/-- Blocks X to X + T − 1 are held. -/
def StreamRecord.Filled (r : StreamRecord) : Prop := ∀ k, k < r.depth → r.holds (r.x + BitVec.ofNat 8 k) = true

theorem StreamRecord.filled_iff (r : StreamRecord) :
    ((List.range r.depth).all fun k => r.holds (r.x + BitVec.ofNat 8 k)) = true ↔ r.Filled := by
  simp [StreamRecord.Filled]

theorem StreamRecord.fillCheck_of_filled (h : r.Filled) :
    r.fillCheck = { r with state := .play, missingRun := 0, periodValues := silence } := if_pos (r.filled_iff.2 h)

theorem StreamRecord.fillCheck_of_not (h : ¬r.Filled) : r.fillCheck = r := if_neg fun all => h (r.filled_iff.1 all)

end

/-- A block of another stream, or of a wrong length, changes one counter alone. -/
theorem streamBuffers_put_counted (s : State) (v : Fin 8) (c : StreamCounters) :
    s.withStream (s.stream.put v ({ s.stream.records.get v with counters := c }, s.stream.freeSlots)) =
      { s with stream := { s.stream with records := s.stream.records.set v { s.stream.records.get v with counters := c } } } := rfl

/-- Settles O28: a block by the first case of R57 that applies, and one that reaches no record. -/
theorem streamBlocksAreJudgedInOrder : Obligations.StreamBlocksAreJudgedInOrder := by
  unfold Obligations.StreamBlocksAreJudgedInOrder
  refine ⟨fun s q voice samples v selected between length number => ?_,
    fun s q voice samples selected between length high => ?_, fun s q body selected between short length => ?_⟩
  · have row := exec_streamBlock_voice selected between length number q
    refine ⟨fun closed => ?_, fun isOpen late => ?_, fun play beyond ahead => ?_, fun isOpen inside ahead held => ?_,
      fun isOpen inside ahead new none => ?_, fun play inside ahead new slot => ?_⟩
    · rw [row, StreamRecord.arrive_of_closed closed]
      rfl
    · rw [row, StreamRecord.arrive_of_late (b := ⟨q, samples⟩) isOpen late]
      rfl
    · rw [row, StreamRecord.arrive_of_overrun (b := ⟨q, samples⟩) play beyond ahead]
      rfl
    · rw [row, StreamRecord.arrive_of_duplicate (b := ⟨q, samples⟩) isOpen inside ahead held]
      rfl
    · rw [row, StreamRecord.arrive_of_exhausted (b := ⟨q, samples⟩) isOpen inside ahead new none]
      rfl
    · have record : (s.withStream (s.stream.put v ((s.stream.records.get v).store ⟨q, samples⟩, s.stream.freeSlots - 1))).stream.records.get
          v = (s.stream.records.get v).store ⟨q, samples⟩ := Tab.get_set_self _ _ _
      rw [row, StreamRecord.arrive_of_play (b := ⟨q, samples⟩) play inside ahead new slot]
      refine ⟨_, rfl, rfl, rfl, fun w other => Tab.get_set_ne _ (Ne.symm other) _, ?_⟩
      rw [record, StreamRecord.store_eq]
      exact ⟨perm_insertBlock _ _ _, play, rfl, rfl, rfl⟩
  · rw [exec_streamBlock selected between (by rw [List.length_cons, length]; decide), State.takeBlock_of_length length,
      StreamBuffers.take_stray high]
    rfl
  · obtain ⟨notices, tx, eq, enabled, disabled⟩ := Link.count_frame s.link fun c => { c with badLength := sat16 c.badLength }
    rw [exec_streamBlock selected between short, State.takeBlock_of_badLength length, eq]
    exact ⟨_, rfl, rfl, rfl, rfl, fun on => (enabled on).1, fun off => (disabled off).1⟩

/-! ## Records that are filling -/

/-- The record that follows the console to a new point, with nothing held (R59). -/
def StreamRecord.followed (r : StreamRecord) (q : Byte) : StreamRecord :=
  { r with held := [], x := q, missingRun := 0, state := .fill, periodValues := silence
           counters := { r.counters with resync := sat16 r.counters.resync } }

/-- One block does not fill a record of two or more. -/
theorem StreamRecord.not_filled_of_one {r : StreamRecord} {b : Block} (depth : 2 ≤ r.depth) (held : r.held = [b])
    (x : b.seq = r.x) : ¬r.Filled := by
  intro filled
  have next := filled 1 (by omega)
  rw [StreamRecord.holds, held, List.any_cons, List.any_nil, Bool.or_false, beq_iff_eq, x] at next
  have bits := congrArg BitVec.toNat next
  rw [BitVec.toNat_add] at bits
  have small := r.x.isLt
  simp only [BitVec.toNat_ofNat] at bits
  omega

theorem StreamRecord.resynchronise_eq {r : StreamRecord} {b : Block} (depth : 2 ≤ r.depth) (free : Nat) : r.resynchronise b free =
    ({ r.followed b.seq with held := if 0 < free + r.held.length then [b] else [] }, free + r.held.length - 1) := by
  unfold StreamRecord.resynchronise
  dsimp only
  by_cases none : free + r.held.length = 0
  · rw [if_pos none, if_neg (by omega), none]
    rfl
  · have stored : (r.followed b.seq).store b = { r.followed b.seq with held := [b] } := by
      rw [StreamRecord.store_eq]
      simp [StreamRecord.followed, insertBlock]
    rw [if_neg none, if_pos (Nat.pos_of_ne_zero none)]
    show (((r.followed b.seq).store b).fillCheck, _) = _
    rw [stored]
    exact congrArg (·, free + r.held.length - 1) (StreamRecord.fillCheck_of_not
      (StreamRecord.not_filled_of_one (r := { r.followed b.seq with held := [b] }) (b := b) depth rfl rfl))

theorem StreamState.filling_iff (x : StreamState) : x.filling = true ↔ x = .fill ∨ x = .starved := by
  cases x <;> decide

/-- What no block changes in its record: the depth, the limit and the last block played. -/
def StreamRecord.Kept (r r' : StreamRecord) : Prop := r'.depth = r.depth ∧ r'.limit = r.limit ∧ r'.lastPlayed = r.lastPlayed

theorem StreamRecord.kept_fillCheck {r r' : StreamRecord} (h : r.Kept r') : r.Kept r'.fillCheck := by
  unfold StreamRecord.fillCheck
  split
  · exact h
  · exact h

theorem StreamRecord.kept_store {r r' : StreamRecord} (h : r.Kept r') (b : Block) : r.Kept (r'.store b) := by
  rw [StreamRecord.store_eq]
  exact h

theorem StreamRecord.kept_resynchronise (r : StreamRecord) (b : Block) (free : Nat) : r.Kept (r.resynchronise b free).1 := by
  unfold StreamRecord.resynchronise
  dsimp only
  split
  · exact ⟨rfl, rfl, rfl⟩
  · refine StreamRecord.kept_fillCheck (StreamRecord.kept_store (r' := { r with
      held := [], x := b.seq, missingRun := 0, state := .fill, periodValues := silence
      counters := { r.counters with resync := sat16 r.counters.resync } }) ?_ b)
    exact ⟨rfl, rfl, rfl⟩

theorem StreamRecord.kept_arrive (r : StreamRecord) (b : Block) (free : Nat) : r.Kept (r.arrive b free).1 := by
  have self : r.Kept r := ⟨rfl, rfl, rfl⟩
  unfold StreamRecord.arrive
  dsimp only
  split
  · exact self
  split
  · exact self
  split
  · split
    · exact r.kept_resynchronise b free
    · exact self
  split
  · exact self
  split
  · exact self
  dsimp only
  split
  · exact StreamRecord.kept_fillCheck (StreamRecord.kept_store self b)
  · exact StreamRecord.kept_store self b

/-- A block stored in a record that is filling, with the fill check after it (R60, R61). -/
theorem StreamRecord.arrive_fills {r : StreamRecord} {b : Block} {free : Nat} (filling : r.state = .fill ∨ r.state = .starved)
    (inside : distance r.x b.seq < r.limit) (ahead : distance r.x b.seq < 128) (new : r.holds b.seq = false) (slot : 0 < free) :
    r.arrive b free = ((r.store b).fillCheck, free - 1) := by
  have isOpen : r.state ≠ .closed := by
    rcases filling with fill | starved
    · rw [fill]; exact StreamState.noConfusion
    · rw [starved]; exact StreamState.noConfusion
  rw [StreamRecord.arrive_of_stored isOpen inside ahead new slot, if_pos ((StreamState.filling_iff _).2 filling)]

/-- The fill check changes neither the blocks nor what they are judged by. -/
theorem StreamRecord.fillCheck_judged (r : StreamRecord) : r.fillCheck.held = r.held ∧ r.fillCheck.x = r.x ∧
    r.fillCheck.depth = r.depth ∧ r.fillCheck.counters = r.counters := by
  unfold StreamRecord.fillCheck
  split
  · exact ⟨rfl, rfl, rfl, rfl⟩
  · exact ⟨rfl, rfl, rfl, rfl⟩

theorem StreamRecord.filled_fillCheck (r : StreamRecord) : r.fillCheck.Filled ↔ r.Filled := by
  obtain ⟨held, x, depth, _⟩ := r.fillCheck_judged
  unfold StreamRecord.Filled StreamRecord.holds
  rw [held, x, depth]

/-- Settles O29: a block beyond the window moves the record; a stored one makes the fill check. -/
theorem fillingStreamsFollowTheirBlocks : Obligations.FillingStreamsFollowTheirBlocks := by
  unfold Obligations.FillingStreamsFollowTheirBlocks
  intro s q voice samples v selected between length number r d filling depth
  obtain ⟨keptDepth, keptLimit, keptLast⟩ := r.kept_arrive ⟨q, samples⟩ s.stream.freeSlots
  have record : (s.withStream (s.stream.put v (r.arrive ⟨q, samples⟩ s.stream.freeSlots))).stream.records.get v =
    (r.arrive ⟨q, samples⟩ s.stream.freeSlots).1 := Tab.get_set_self _ _ _
  have free : (s.withStream (s.stream.put v (r.arrive ⟨q, samples⟩ s.stream.freeSlots))).stream.freeSlots =
    (r.arrive ⟨q, samples⟩ s.stream.freeSlots).2 := rfl
  refine ⟨_, exec_streamBlock_voice selected between length number q, rfl, rfl, rfl,
    fun w other => Tab.get_set_ne _ (Ne.symm other) _, ?_⟩
  rw [record, free]
  refine ⟨keptDepth, keptLimit, keptLast, fun beyond ahead => ?_, fun inside ahead new slot => ?_⟩
  · rw [StreamRecord.arrive_of_resync (b := ⟨q, samples⟩) filling beyond ahead, StreamRecord.resynchronise_eq depth]
    exact ⟨rfl, rfl, rfl, rfl, rfl, rfl, rfl⟩
  · rw [StreamRecord.arrive_fills (b := ⟨q, samples⟩) filling inside ahead new slot]
    obtain ⟨held, x, checkedDepth, counters⟩ := (r.store ⟨q, samples⟩).fillCheck_judged
    have stored := r.store_eq ⟨q, samples⟩
    have storedHeld : (r.store ⟨q, samples⟩).held = insertBlock r.x ⟨q, samples⟩ r.held := by rw [stored]
    have storedDepth : (r.store ⟨q, samples⟩).depth = r.depth := by rw [stored]
    have storedX : (r.store ⟨q, samples⟩).x = r.x := by rw [stored]
    have filled : (∀ k, k < r.depth → (r.store ⟨q, samples⟩).fillCheck.holds (r.x + BitVec.ofNat 8 k) = true) ↔
        (r.store ⟨q, samples⟩).Filled := by
      rw [← StreamRecord.filled_fillCheck, StreamRecord.Filled, x, checkedDepth, storedDepth, storedX]
    refine ⟨rfl, held ▸ storedHeld ▸ perm_insertBlock _ _ _, x.trans storedX, counters.trans (by rw [stored]; rfl),
      fun all => ?_, fun notAll => ?_⟩
    · rw [StreamRecord.fillCheck_of_filled (filled.1 all)]
      exact ⟨rfl, rfl, rfl⟩
    · rw [StreamRecord.fillCheck_of_not fun all => notAll (filled.2 all), stored]
      exact ⟨rfl, rfl, rfl⟩

/-! ## Playout -/

theorem StreamRecord.playout_of_idle {r : StreamRecord} (h : r.state ≠ .play) :
    r.playout = ({ r with periodValues := silence }, 0, false) := by
  unfold StreamRecord.playout
  split
  · next play => exact absurd play h
  · rfl

theorem StreamRecord.playout_of_found {r : StreamRecord} {b : Block} (play : r.state = .play)
    (found : (r.held.find? fun b => b.seq == r.x) = some b) :
    r.playout = (r.play b, r.held.length - (r.play b).held.length, false) := by
  unfold StreamRecord.playout
  rw [play, found]

theorem StreamRecord.playout_of_missing {r : StreamRecord} (play : r.state = .play) (missing : r.holds r.x = false) :
    r.playout = (r.miss, 0, decide (r.miss.state = .starved)) := by
  have none : (r.held.find? fun b => b.seq == r.x) = none := by
    refine List.find?_eq_none.2 fun b hb => ?_
    exact List.any_eq_false.1 missing b hb
  unfold StreamRecord.playout
  rw [play, none]

/-- The slots that a playout gives back are those of the blocks that it no longer holds (R55). -/
theorem StreamRecord.playout_slots (r : StreamRecord) : r.playout.2.1 + r.playout.1.held.length = r.held.length := by
  by_cases play : r.state = .play
  · cases found : r.held.find? fun b => b.seq == r.x with
    | some b =>
      rw [StreamRecord.playout_of_found play found]
      exact Nat.sub_add_cancel (List.length_filter_le _ _)
    | none =>
      have missing : r.holds r.x = false := List.any_eq_false.2 fun b hb => List.find?_eq_none.1 found b hb
      rw [StreamRecord.playout_of_missing play missing]
      exact Nat.zero_add _
  · rw [StreamRecord.playout_of_idle play]
    exact Nat.zero_add _

section
variable (s : State) (v : Fin 8)

theorem playoutOne_eq : playoutOne s v =
    { s with stream := s.stream.put v ((s.stream.records.get v).playout.1,
               s.stream.freeSlots + (s.stream.records.get v).playout.2.1)
             link := if (s.stream.records.get v).playout.2.2 = true then
                 s.link.pend .stream fun n => { n with stream := insertMember v n.stream } else s.link } := by
  unfold playoutOne
  dsimp only
  split
  · rfl
  · rfl

/-- A voice's stream record. -/
def State.streamRecord (s : State) (v : Fin 8) : StreamRecord := s.stream.records.get v

theorem playoutOne_own : (playoutOne s v).streamRecord v = (s.streamRecord v).playout.1 := by
  rw [playoutOne_eq]
  exact Tab.get_set_self _ _ _

theorem playoutOne_other {u : Fin 8} (h : v ≠ u) : (playoutOne s v).streamRecord u = s.streamRecord u := by
  rw [playoutOne_eq]
  exact Tab.get_set_ne _ h _

theorem playoutOne_link : (playoutOne s v).link = if (s.streamRecord v).playout.2.2 = true then
    s.link.pend .stream fun n => { n with stream := insertMember v n.stream } else s.link := by
  rw [playoutOne_eq]
  rfl

end

/-- What playout leaves as it is. -/
def State.PlayoutFrame (s t : State) : Prop :=
  { t with stream := s.stream, link := s.link } = s ∧ t.stream.stray = s.stream.stray ∧ t.stream.sampleIndex = 0 ∧
  t.stream.freeSlots + t.stream.heldCount = s.stream.freeSlots + s.stream.heldCount

theorem State.PlayoutFrame.playoutOne {s t : State} (h : s.PlayoutFrame t) (v : Fin 8) : s.PlayoutFrame (playoutOne t v) := by
  obtain ⟨rest, stray, sampleIndex, pool⟩ := h
  have slots := (t.stream.records.get v).playout_slots
  have put := StreamBuffers.put_pool (sb := t.stream) (v := v) (o := ((t.stream.records.get v).playout.1,
    t.stream.freeSlots + (t.stream.records.get v).playout.2.1)) (by dsimp only; omega)
  rw [playoutOne_eq]
  exact ⟨rest, stray, sampleIndex, put.trans pool⟩

theorem playoutAll_frame (s : State) : s.PlayoutFrame s.playoutAll :=
  foldl_keeps (P := s.PlayoutFrame) (fun _ v h => h.playoutOne v) _ ⟨rfl, rfl, rfl, rfl⟩

theorem playoutAll_record (s : State) (v : Fin 8) : s.playoutAll.streamRecord v = (s.streamRecord v).playout.1 := by
  have fold := foldl_parts (get := State.streamRecord) (g := fun r => r.playout.1) playoutOne_own
    (fun s v _ h => playoutOne_other s v h) (nodup_numbers 8) (s.withStream { s.stream with sampleIndex := 0 }) v
  exact fold.trans (if_pos (mem_numbers v))

/-- A voice whose stream starves joins STREAM where that is enabled (R66). -/
theorem playoutAll_starved {s : State} {v : Fin 8} (on : maskEnables s.link.mask .stream = true)
    (starved : (s.streamRecord v).playout.2.2 = true) : v ∈ s.playoutAll.link.notices.stream := by
  have link : s.playoutAll.link = ((numbers 8).filter fun v => (s.streamRecord v).playout.2.2).foldl
      (fun link v => link.pend .stream fun n => { n with stream := insertMember v n.stream }) s.link :=
    foldl_link (get := State.streamRecord) (g := fun r => r.playout.1) (k := .stream)
      (join := fun v n => { n with stream := insertMember v n.stream }) (rings := fun r => r.playout.2.2) playoutOne_own
      (fun s v _ h => playoutOne_other s v h) playoutOne_link (nodup_numbers 8)
      (s.withStream { s.stream with sampleIndex := 0 })
  have member : v ∈ (numbers 8).filter fun v => (s.streamRecord v).playout.2.2 :=
    List.mem_filter.2 ⟨mem_numbers v, starved⟩
  rw [link, foldl_pend (k := .stream) (join := fun v n => { n with stream := insertMember v n.stream }),
    if_pos ⟨on, List.ne_nil_of_mem member⟩, foldl_stream]
  exact (mem_foldl_insertMember _ _ _).2 (.inr member)

theorem exec_streamPlayout {s : State} (powered : s.corePowered = true) : exec .streamPlayout s = .next s.playoutAll :=
  onCore_powered powered State.playoutAll

/-- A missing period, by how many have been missed before it (R65, R66). -/
theorem StreamRecord.miss_spec {r : StreamRecord} (play : r.state = .play) :
    (r.missingRun = 0 → r.miss.state = .play ∧ r.miss.periodValues = r.lastPlayed.map fun x => x.sshiftRight 1) ∧
    (r.missingRun = 1 → r.miss.state = .play ∧ r.miss.periodValues = r.lastPlayed.map fun x => x.sshiftRight 2) ∧
    (r.missingRun = 2 → r.miss.state = .starved ∧ r.miss.periodValues = List.replicate 64 0) := by
  unfold StreamRecord.miss
  dsimp only
  refine ⟨fun run => ?_, fun run => ?_, fun run => ?_⟩
  · rw [run]
    exact ⟨play, rfl⟩
  · rw [run]
    exact ⟨play, rfl⟩
  · rw [run]
    exact ⟨rfl, rfl⟩

/-- Settles O31: each record by its state and whether block X is held. -/
theorem playoutTakesOneBlockAPeriod : Obligations.PlayoutTakesOneBlockAPeriod := by
  unfold Obligations.PlayoutTakesOneBlockAPeriod
  intro s powered
  obtain ⟨rest, stray, sampleIndex, pool⟩ := playoutAll_frame s
  refine ⟨s.playoutAll, exec_streamPlayout powered, rest, stray, sampleIndex, pool, fun v => ?_⟩
  rw [show s.playoutAll.stream.records.get v = (s.stream.records.get v).playout.1 from playoutAll_record s v]
  refine ⟨fun idle => ?_, fun b play found => ?_, fun play missing => ?_⟩
  · rw [StreamRecord.playout_of_idle idle]
    rfl
  · rw [StreamRecord.playout_of_found play found]
    rfl
  · obtain ⟨half, quarter, starves⟩ := StreamRecord.miss_spec play
    have starved (run : (s.stream.records.get v).missingRun = 2) (on : maskEnables s.link.mask .stream = true) :
        v ∈ s.playoutAll.link.notices.stream := by
      refine playoutAll_starved on ?_
      rw [State.streamRecord, StreamRecord.playout_of_missing play missing]
      exact decide_eq_true (starves run).1
    rw [StreamRecord.playout_of_missing play missing]
    exact ⟨rfl, rfl, rfl, rfl, rfl, half, quarter, fun run => ⟨(starves run).1, (starves run).2, starved run⟩⟩

end Sys2Proof.Machine
end

