-- ==== Sys2Proof/Proofs/OutputSample.lean ====
section
/-! SUPPORT. One output sample: the mix of the eight channels, the clip count, the output code, the tone's phase, and the voices'
positions (R40, R41, R78 to R85). -/

namespace Sys2Proof.Machine

set_option Elab.async false

/-! ## The mix -/

/-- The substitution in force for a voice (R78). -/
def State.substitutionOf (s : State) (v : Fin 8) : Substitution :=
  substitutionInForce s.mixer.inForce.global (s.voice.voices.get v).substitution

/-- What a voice gives the sum, and what the mixer keeps for it (R79, R80). -/
def State.channelOf (s : State) (v : Fin 8) : MixChannel × Int :=
  (s.mixer.channels.get v).sample (s.substitutionOf v) (s.voiceSource v)

/-- One voice joins the mix. -/
def State.mixOne (s : State) (acc : Tab 8 MixChannel × Int) (v : Fin 8) : Tab 8 MixChannel × Int :=
  (acc.1.set v ((acc.1.get v).sample (s.substitutionOf v) (s.voiceSource v)).1,
    acc.2 + ((acc.1.get v).sample (s.substitutionOf v) (s.voiceSource v)).2)

theorem mixVoices_eq (s : State) : s.mixVoices = (numbers 8).foldl s.mixOne (s.mixer.channels, 0) := rfl

theorem foldl_mixOne (s : State) : ∀ {l : List (Fin 8)}, l.Nodup → ∀ acc : Tab 8 MixChannel × Int,
    (∀ v ∈ l, acc.1.get v = s.mixer.channels.get v) →
    (∀ v, (l.foldl s.mixOne acc).1.get v = if v ∈ l then (s.channelOf v).1 else acc.1.get v) ∧
    (l.foldl s.mixOne acc).2 = acc.2 + (l.map fun v => (s.channelOf v).2).sum
  | [], _, acc, _ => ⟨fun _ => rfl, (Int.add_zero _).symm⟩
  | x :: l, nodup, acc, fresh => by
    obtain ⟨notIn, nodup⟩ := List.nodup_cons.1 nodup
    have own : (acc.1.get x).sample (s.substitutionOf x) (s.voiceSource x) = s.channelOf x := by
      rw [fresh x List.mem_cons_self]
      rfl
    have step : s.mixOne acc x = (acc.1.set x (s.channelOf x).1, acc.2 + (s.channelOf x).2) := by
      rw [State.mixOne, own]
    obtain ⟨channels, sum⟩ := foldl_mixOne s nodup (s.mixOne acc x) fun v hv => by
      rw [step]
      exact (Tab.get_set_ne _ (fun same : x = v => notIn (same ▸ hv)) _).trans (fresh v (List.mem_cons_of_mem x hv))
    rw [List.foldl_cons]
    refine ⟨fun v => ?_, ?_⟩
    · rw [channels, step, Tab.get_set]
      by_cases its : x = v
      · subst its
        rw [if_neg notIn, if_pos rfl, if_pos List.mem_cons_self]
      · have mem : v ∈ x :: l ↔ v ∈ l := by simp [Ne.symm its]
        simp only [if_neg its, mem]
    · rw [sum, step, List.map_cons, List.sum_cons, Int.add_assoc]

theorem mixVoices_channel (s : State) (v : Fin 8) : s.mixVoices.1.get v = (s.channelOf v).1 := by
  obtain ⟨channels, _⟩ := foldl_mixOne s (nodup_numbers 8) (s.mixer.channels, 0) fun _ _ => rfl
  rw [mixVoices_eq, channels, if_pos (mem_numbers v)]

theorem mixVoices_sum (s : State) : s.mixVoices.2 = (s.channelOf 0).2 + (s.channelOf 1).2 + (s.channelOf 2).2 + (s.channelOf 3).2 +
    (s.channelOf 4).2 + (s.channelOf 5).2 + (s.channelOf 6).2 + (s.channelOf 7).2 := by
  obtain ⟨_, sum⟩ := foldl_mixOne s (nodup_numbers 8) (s.mixer.channels, 0) fun _ _ => rfl
  have eight : numbers 8 = [0, 1, 2, 3, 4, 5, 6, 7] := rfl
  rw [mixVoices_eq, sum, eight]
  simp only [List.map_cons, List.map_nil, List.sum_cons, List.sum_nil]
  omega

/-! ## The tone and the clip count -/

theorem Mixer.stepTone_restored (m : Mixer) :
    { m.stepTone with tonePositive := m.tonePositive, toneCount := m.toneCount } = m := by
  unfold Mixer.stepTone
  split
  · split
    · rfl
    · rfl
  · rfl

theorem Mixer.stepTone_spec (m : Mixer) :
    (m.inForce.tone = false → m.stepTone.tonePositive = m.tonePositive ∧ m.stepTone.toneCount = m.toneCount) ∧
    (m.inForce.tone = true → m.toneCount + 1 < m.inForce.halfPeriod →
      m.stepTone.tonePositive = m.tonePositive ∧ m.stepTone.toneCount = m.toneCount + 1) ∧
    (m.inForce.tone = true → m.inForce.halfPeriod ≤ m.toneCount + 1 →
      m.stepTone.tonePositive = !m.tonePositive ∧ m.stepTone.toneCount = 0) := by
  unfold Mixer.stepTone
  refine ⟨fun off => ?_, fun on more => ?_, fun on last => ?_⟩
  · rw [if_neg (ne_true_of_eq_false off)]
    exact ⟨rfl, rfl⟩
  · rw [if_pos on, if_neg (Nat.not_le.2 more)]
    exact ⟨rfl, rfl⟩
  · rw [if_pos on, if_pos last]
    exact ⟨rfl, rfl⟩

/-- The tone's phase does not look at the channels or the code. -/
theorem Mixer.stepTone_with (m : Mixer) (channels : Tab 8 MixChannel) (code : Nat) :
    { m with channels := channels, code := code }.stepTone = { m.stepTone with channels := channels, code := code } := by
  unfold Mixer.stepTone
  dsimp only
  split
  · split
    · rfl
    · rfl
  · rfl

theorem saturate_eq_iff (y : Int) : saturate y = y ↔ ¬(y < -512 ∨ 511 < y) := by
  unfold saturate
  omega

/-! ## The voices move on -/

/-- A voice's record. -/
def State.voiceRecord (s : State) (v : Fin 8) : VoiceRecord := s.voice.voices.get v

/-- The record after an output sample. -/
def VoiceRecord.advanced (r : VoiceRecord) : VoiceRecord := if r.mode = .table then r.advance.1 else r

/-- Its ONCE wave has ended. -/
def VoiceRecord.waveEnds (r : VoiceRecord) : Bool := decide (r.mode = .table) && r.advance.2

section
variable (s : State) (v : Fin 8)

theorem advanceOne_eq : advanceOne s v =
    { s with voice := { s.voice with voices := s.voice.voices.set v (s.voiceRecord v).advanced }
             link := if (s.voiceRecord v).waveEnds = true then
                 s.link.pend .voiceEnd fun n => { n with voiceEnd := insertMember v n.voiceEnd } else s.link } := by
  unfold advanceOne VoiceRecord.advanced VoiceRecord.waveEnds State.voiceRecord
  by_cases table : (s.voice.voices.get v).mode = .table
  · dsimp only
    rw [if_pos table, if_pos table, decide_eq_true table, Bool.true_and]
    split
    · rfl
    · rfl
  · dsimp only
    rw [if_neg table, if_neg table, decide_eq_false table, Bool.false_and, if_neg Bool.false_ne_true, Tab.set_get_self]

theorem advanceOne_own : (advanceOne s v).voiceRecord v = (s.voiceRecord v).advanced := by
  rw [advanceOne_eq]
  exact Tab.get_set_self _ _ _

theorem advanceOne_other {u : Fin 8} (h : v ≠ u) : (advanceOne s v).voiceRecord u = s.voiceRecord u := by
  rw [advanceOne_eq]
  exact Tab.get_set_ne _ h _

theorem advanceOne_link : (advanceOne s v).link = if (s.voiceRecord v).waveEnds = true then
    s.link.pend .voiceEnd fun n => { n with voiceEnd := insertMember v n.voiceEnd } else s.link := by
  rw [advanceOne_eq]

/-- Moving on changes the voice records and the link alone. -/
def State.AdvanceFrame (s t : State) : Prop :=
  { t with voice := s.voice, link := s.link } = s ∧ t.voice.pendings = s.voice.pendings ∧ t.voice.wave = s.voice.wave

theorem advanceVoices_frame : s.AdvanceFrame s.advanceVoices := by
  refine foldl_keeps (P := s.AdvanceFrame) (fun t v h => ?_) _ ⟨rfl, rfl, rfl⟩
  rw [advanceOne_eq]
  exact h

theorem advanceVoices_record : s.advanceVoices.voiceRecord v = (s.voiceRecord v).advanced :=
  (foldl_parts (get := State.voiceRecord) advanceOne_own (fun s v _ h => advanceOne_other s v h) (nodup_numbers 8) s v).trans
    (if_pos (mem_numbers v))

/-- The voices whose ONCE wave ends at this sample. -/
def State.waveEnded : List (Fin 8) := (numbers 8).filter fun v => (s.voiceRecord v).waveEnds

theorem advanceVoices_link : s.advanceVoices.link =
    s.waveEnded.foldl (fun link v => link.pend .voiceEnd fun n => { n with voiceEnd := insertMember v n.voiceEnd }) s.link :=
  foldl_link (get := State.voiceRecord) (k := .voiceEnd) (join := fun v n => { n with voiceEnd := insertMember v n.voiceEnd })
    (rings := VoiceRecord.waveEnds) advanceOne_own (fun s v _ h => advanceOne_other s v h) advanceOne_link (nodup_numbers 8) s

end

/-- A table position by what it meets (R40, R41). -/
theorem VoiceRecord.advance_inside {r : VoiceRecord} (inside : r.posInt + (r.posFrac + r.pitchStep) / 256 < r.waveLength) :
    r.advance = ({ r with posInt := r.posInt + (r.posFrac + r.pitchStep) / 256
                          posFrac := (r.posFrac + r.pitchStep) % 256 }, false) := if_pos inside

theorem VoiceRecord.advance_once {r : VoiceRecord} (beyond : r.waveLength ≤ r.posInt + (r.posFrac + r.pitchStep) / 256)
    (once : r.loopMode = .once) : r.advance = (r.turnedOff, true) := by
  unfold VoiceRecord.advance
  dsimp only
  rw [if_neg (Nat.not_lt.2 beyond), once]

theorem VoiceRecord.advance_loop {r : VoiceRecord} (beyond : r.waveLength ≤ r.posInt + (r.posFrac + r.pitchStep) / 256)
    (loop : r.loopMode = .loop) : r.advance =
      ({ r with posInt := r.loopStart +
                  (r.posInt + (r.posFrac + r.pitchStep) / 256 - r.waveLength) % (r.waveLength - r.loopStart)
                posFrac := (r.posFrac + r.pitchStep) % 256 }, false) := by
  unfold VoiceRecord.advance
  dsimp only
  rw [if_neg (Nat.not_lt.2 beyond), loop]

theorem VoiceRecord.waveEnds_iff (r : VoiceRecord) : r.waveEnds = true ↔
    r.mode = .table ∧ r.waveLength ≤ r.posInt + (r.posFrac + r.pitchStep) / 256 ∧ r.loopMode = .once := by
  rw [VoiceRecord.waveEnds, Bool.and_eq_true, decide_eq_true_eq]
  refine and_congr_right fun _ => ?_
  by_cases inside : r.posInt + (r.posFrac + r.pitchStep) / 256 < r.waveLength
  · rw [VoiceRecord.advance_inside inside]
    exact iff_of_false Bool.false_ne_true fun beyond => absurd beyond.1 (Nat.not_le.2 inside)
  · have beyond := Nat.not_lt.1 inside
    cases mode : r.loopMode
    case once => rw [VoiceRecord.advance_once beyond mode]; exact iff_of_true rfl ⟨beyond, rfl⟩
    case loop => rw [VoiceRecord.advance_loop beyond mode]; exact iff_of_false Bool.false_ne_true nofun

/-- A LOOP wave goes back by whole turns of its loop. -/
theorem loop_turns {pos length start : Nat} (beyond : length ≤ pos) (loop : start < length) :
    start ≤ start + (pos - length) % (length - start) ∧ start + (pos - length) % (length - start) < length ∧
    ∃ k, pos = start + (pos - length) % (length - start) + k * (length - start) := by
  have below := Nat.mod_lt (pos - length) (Nat.sub_pos_of_lt loop)
  have turns := Nat.div_add_mod (pos - length) (length - start)
  refine ⟨Nat.le_add_right _ _, by omega, (pos - length) / (length - start) + 1, ?_⟩
  rw [Nat.add_mul, Nat.one_mul, Nat.mul_comm ((pos - length) / (length - start))]
  omega

/-! ## One voice's channel -/

/-- The contribution that a voice's channel holds for substitution HOLD (R79). -/
def State.heldOf (s : State) (v : Fin 8) : Int :=
  if s.substitutionOf v = .hold ∧ (s.mixer.channels.get v).lastSub ≠ .hold then (s.mixer.channels.get v).last
  else (s.mixer.channels.get v).held

/-- The contribution of a voice to the sum (R80). -/
def State.givenOf (s : State) (v : Fin 8) : Int :=
  match (s.voice.voices.get v).mode, s.substitutionOf v with
  | .off, _ => 0
  | _, .mute => 0
  | _, .hold => s.heldOf v
  | .table, .none => liveContribution (s.voice.wave.read ((s.voice.voices.get v).waveStart + (s.voice.voices.get v).posInt)).toInt
      (s.voice.voices.get v).volume (s.voice.voices.get v).envLevel
  | .stream, .none => liveContribution (s.stream.sample v) (s.voice.voices.get v).volume 255

theorem channelOf_eq (s : State) (v : Fin 8) : s.channelOf v = (⟨s.givenOf v, s.heldOf v, s.substitutionOf v⟩, s.givenOf v) := by
  unfold State.channelOf State.voiceSource State.givenOf MixChannel.sample State.heldOf
  dsimp only
  cases (s.voice.voices.get v).mode with
  | off => rfl
  | table => cases s.substitutionOf v <;> rfl
  | stream => cases s.substitutionOf v <;> rfl

/-! ## The clip count -/

/-- The state when the sample has been made and its clip counted, before the voices move on. -/
def State.clipped (s : State) (channels : Tab 8 MixChannel) (sum : Int) : State :=
  if saturate (scaledSum sum s.mixer.effective) = scaledSum sum s.mixer.effective then s.sampled channels sum
  else (s.sampled channels sum).countClip

theorem State.countClip_of_counted {s : State} (h : s.mixer.clipNow = true) : s.countClip = s := if_pos h

theorem State.countClip_of_first {s : State} (h : s.mixer.clipNow = false) : s.countClip =
    (s.withMixer { s.mixer with clipNow := true, clipCount := sat16 s.mixer.clipCount }).pendClip (sat16 s.mixer.clipCount) :=
  if_neg (ne_true_of_eq_false h)

theorem Mixer.stepTone_clip (m : Mixer) : m.stepTone.clipNow = m.clipNow ∧ m.stepTone.clipCount = m.clipCount := by
  have same := m.stepTone_restored
  exact ⟨(congrArg Mixer.clipNow same :), (congrArg Mixer.clipCount same :)⟩

/-- A sample that does not clip. -/
theorem State.clipped_of_clean {s : State} {sum : Int}
    (clean : ¬(scaledSum sum s.mixer.effective < -512 ∨ 511 < scaledSum sum s.mixer.effective)) (channels : Tab 8 MixChannel) :
    s.clipped channels sum = s.sampled channels sum := if_pos ((saturate_eq_iff _).2 clean)

theorem State.clipped_of_clip {s : State} {sum : Int}
    (clips : scaledSum sum s.mixer.effective < -512 ∨ 511 < scaledSum sum s.mixer.effective) (channels : Tab 8 MixChannel) :
    s.clipped channels sum = (s.sampled channels sum).countClip := if_neg fun same => (saturate_eq_iff _).1 same clips

/-- The sample changes the channels, the code and the tone's phase of the mixer. -/
theorem State.sampled_mixer (s : State) (channels : Tab 8 MixChannel) (sum : Int) :
    { (s.sampled channels sum).mixer with tonePositive := s.mixer.tonePositive, toneCount := s.mixer.toneCount } =
      { s.mixer with channels := channels
                     code := (s.mixer.outputValue (saturate (scaledSum sum s.mixer.effective)) + 512).toNat } :=
  Mixer.stepTone_restored { s.mixer with
    channels := channels, code := (s.mixer.outputValue (saturate (scaledSum sum s.mixer.effective)) + 512).toNat }

/-- The first clipped sample of a period is counted, with its notice where CLIP is enabled. -/
def State.CountsClip (s : State) (clips : Prop) : Prop :=
  clips ∧ s.mixer.clipNow = false ∧ maskEnables s.link.mask .clip = true

/-- What the clip count makes of the mixer and the link. -/
def State.ClipCounted (s u : State) (sampled : Mixer) (clips : Prop) : Prop :=
  { u with mixer := s.mixer, link := s.link } = s ∧
  { u.mixer with clipNow := s.mixer.clipNow, clipCount := s.mixer.clipCount } = sampled ∧
  (clips → u.mixer.clipNow = true ∧
    u.mixer.clipCount = (if s.mixer.clipNow = true then s.mixer.clipCount else min (s.mixer.clipCount + 1) 65535) ∧
    (s.mixer.clipNow = false → maskEnables s.link.mask .clip = true → u.link.notices.clip = some u.mixer.clipCount)) ∧
  (¬clips → u.mixer.clipNow = s.mixer.clipNow ∧ u.mixer.clipCount = s.mixer.clipCount) ∧
  { u.link with notices := s.link.notices, tx := s.link.tx } = s.link ∧
  { u.link.notices with clip := s.link.notices.clip } = s.link.notices ∧
  (s.CountsClip clips → u.link.tx = markRewritten .clip s.link.tx) ∧ (¬s.CountsClip clips → u.link = s.link)

theorem State.clipCounted_clipped (s : State) (channels : Tab 8 MixChannel) (sum : Int) :
    s.ClipCounted (s.clipped channels sum) (s.sampled channels sum).mixer
      (scaledSum sum s.mixer.effective < -512 ∨ 511 < scaledSum sum s.mixer.effective) := by
  have same := s.sampled_mixer channels sum
  have now : (s.sampled channels sum).mixer.clipNow = s.mixer.clipNow := (congrArg Mixer.clipNow same :)
  have count : (s.sampled channels sum).mixer.clipCount = s.mixer.clipCount := (congrArg Mixer.clipCount same :)
  by_cases clips : scaledSum sum s.mixer.effective < -512 ∨ 511 < scaledSum sum s.mixer.effective
  · rw [State.clipped_of_clip clips]
    cases before : s.mixer.clipNow
    · rw [State.countClip_of_first (now.trans before), count]
      obtain ⟨_, _, frame⟩ := s.link.pend_frame .clip fun n => { n with clip := some (sat16 s.mixer.clipCount) }
      refine ⟨?_, ?_, fun _ => ⟨rfl, ?_, fun _ on => ?_⟩, fun clean => absurd clips clean, ?_, ?_, fun ⟨_, _, on⟩ => ?_,
        fun silent => ?_⟩
      · rfl
      · rw [← now, ← count]
        rfl
      · rw [if_neg (ne_true_of_eq_false before)]
        rfl
      · show (s.link.pend .clip _).notices.clip = _
        rw [Link.pend_enabled on]
        rfl
      · exact Link.pend_restored s.link .clip _
      · show { (s.link.pend .clip _).notices with clip := s.link.notices.clip } = _
        rw [Link.pend_notices]
        split
        · rfl
        · rfl
      · exact Link.pend_tx_of_enabled on _
      · exact (Link.pend_disabled (Bool.eq_false_iff.2 fun on => silent ⟨clips, before, on⟩)
          fun n : NoticeSet => { n with clip := some (sat16 s.mixer.clipCount) } :)
    · rw [State.countClip_of_counted (now.trans before)]
      refine ⟨rfl, ?_, fun _ => ⟨now.trans before, ?_, fun again => ?_⟩, fun clean => absurd clips clean, rfl, rfl,
        fun ⟨_, again, _⟩ => ?_, fun _ => rfl⟩
      · rw [← now, ← count]
      · rw [count, if_pos before]
      · exact absurd (before.symm.trans again) Bool.true_eq_false.mp
      · exact absurd (before.symm.trans again) Bool.true_eq_false.mp
  · rw [State.clipped_of_clean clips]
    refine ⟨rfl, ?_, fun clip => absurd clip clips, fun _ => ⟨now, count⟩, rfl, rfl, fun ⟨clip, _⟩ => absurd clip clips, fun _ => rfl⟩
    rw [← now, ← count]

/-! ## The obligation -/

theorem exec_outputSample {s : State} (powered : s.corePowered = true) : exec .outputSample s = .next s.outputSample :=
  onCore_powered powered State.outputSample

theorem State.resampled_eq (s : State) (channels : Tab 8 MixChannel) (sum : Int) : s.resampled channels sum =
    (s.clipped channels sum).advanceVoices.withStream { (s.clipped channels sum).advanceVoices.stream with
      sampleIndex := min ((s.clipped channels sum).advanceVoices.stream.sampleIndex + 1) 64 } := by
  unfold State.resampled State.clipped
  with_reducible rfl

/-- The sample, the clip count, the voices and then the sample position. -/
theorem outputSample_eq (s : State) : s.outputSample =
    let u := (s.clipped s.mixVoices.1 s.mixVoices.2).advanceVoices
    u.withStream { u.stream with sampleIndex := min (u.stream.sampleIndex + 1) 64 } :=
  (State.outputSample_of_mix Prod.mk.eta.symm).trans (State.resampled_eq s _ _)

theorem mem_waveEnded (s : State) (v : Fin 8) : v ∈ s.waveEnded ↔ (s.voice.voices.get v).mode = .table ∧
    (s.voice.voices.get v).waveLength ≤
      (s.voice.voices.get v).posInt + ((s.voice.voices.get v).posFrac + (s.voice.voices.get v).pitchStep) / 256 ∧
    (s.voice.voices.get v).loopMode = .once := by
  refine (List.mem_filter.trans ?_).trans (VoiceRecord.waveEnds_iff _)
  simp only [mem_numbers, true_and]
  exact Iff.rfl

/-- A voice's record after the sample (R40, R41). -/
theorem VoiceRecord.advanced_spec (r : VoiceRecord) :
    (r.mode ≠ .table → r.advanced = r) ∧
    (r.mode = .table → r.posInt + (r.posFrac + r.pitchStep) / 256 < r.waveLength → r.advanced =
      { r with posInt := r.posInt + (r.posFrac + r.pitchStep) / 256, posFrac := (r.posFrac + r.pitchStep) % 256 }) ∧
    (r.mode = .table → r.waveLength ≤ r.posInt + (r.posFrac + r.pitchStep) / 256 → r.loopMode = .once →
      r.advanced = r.turnedOff) ∧
    (r.mode = .table → r.waveLength ≤ r.posInt + (r.posFrac + r.pitchStep) / 256 → r.loopMode = .loop →
      r.advanced = { r with
        posInt := r.loopStart + (r.posInt + (r.posFrac + r.pitchStep) / 256 - r.waveLength) % (r.waveLength - r.loopStart)
        posFrac := (r.posFrac + r.pitchStep) % 256 }) := by
  unfold VoiceRecord.advanced
  refine ⟨fun other => if_neg other, fun table inside => ?_, fun table beyond once => ?_, fun table beyond loop => ?_⟩
  · rw [if_pos table, VoiceRecord.advance_inside inside]
  · rw [if_pos table, VoiceRecord.advance_once beyond once]
  · rw [if_pos table, VoiceRecord.advance_loop beyond loop]

/-- The first part of the sample leaves the voices, the stream buffers and the link's mask alone, and its last part the mixer. -/
theorem outputSample_parts (s : State) :
    let u := s.clipped s.mixVoices.1 s.mixVoices.2
    let t := s.outputSample
    { t with mixer := s.mixer, voice := s.voice, stream := s.stream, link := s.link } = s ∧
    t.voice.pendings = s.voice.pendings ∧ t.voice.wave = s.voice.wave ∧
    t.stream = { s.stream with sampleIndex := min (s.stream.sampleIndex + 1) 64 } ∧
    t.mixer = u.mixer ∧ t.link = u.advanceVoices.link ∧ u.link.mask = s.link.mask ∧
    (∀ v, u.voiceRecord v = s.voiceRecord v) ∧ (∀ v, t.voiceRecord v = (s.voiceRecord v).advanced) := by
  obtain ⟨rest, _, _, _, linkRest, _⟩ := s.clipCounted_clipped s.mixVoices.1 s.mixVoices.2
  have eq := outputSample_eq s
  generalize s.outputSample = t at eq ⊢
  generalize s.clipped s.mixVoices.1 s.mixVoices.2 = u at rest linkRest eq ⊢
  obtain ⟨frame, pendings, wave⟩ := advanceVoices_frame u
  have advanced := advanceVoices_record u
  dsimp only at eq ⊢
  generalize u.advanceVoices = w at frame pendings wave advanced eq ⊢
  have voices : u.voice = s.voice := (congrArg State.voice rest :)
  have streams : w.stream = s.stream := (congrArg State.stream frame :).trans (congrArg State.stream rest :)
  have record : ∀ v, u.voiceRecord v = s.voiceRecord v := fun v => congrArg (fun b => b.voices.get v) voices
  subst eq
  refine ⟨?_, pendings.trans (congrArg VoiceEngine.pendings voices), wave.trans (congrArg VoiceEngine.wave voices), ?_,
    (congrArg State.mixer frame :), rfl, (congrArg Link.mask linkRest :), record, fun v => ?_⟩
  · have whole : { w with mixer := s.mixer, voice := s.voice, stream := s.stream, link := s.link } =
        { u with mixer := s.mixer, voice := s.voice, stream := s.stream, link := s.link } :=
      (congrArg (fun x : State => { x with mixer := s.mixer, voice := s.voice, stream := s.stream, link := s.link }) frame :)
    exact whole.trans (congrArg (fun x : State => { x with voice := s.voice, stream := s.stream }) rest :)
  · show { w.stream with sampleIndex := min (w.stream.sampleIndex + 1) 64 } = _
    rw [streams]
  · exact (advanced v).trans (congrArg VoiceRecord.advanced (record v))

/-- What the voices' waves that end make of the link's notices. -/
theorem outputSample_link (s : State) :
    let u := s.clipped s.mixVoices.1 s.mixVoices.2
    let t := s.outputSample
    { t.link with notices := u.link.notices, tx := u.link.tx } = u.link ∧
    { t.link.notices with voiceEnd := u.link.notices.voiceEnd } = u.link.notices ∧
    (∀ v, v ∈ t.link.notices.voiceEnd ↔ v ∈ u.link.notices.voiceEnd ∨
      maskEnables s.link.mask .voiceEnd = true ∧ (s.voiceRecord v).waveEnds = true) ∧
    ((∃ v, (s.voiceRecord v).waveEnds = true ∧ maskEnables s.link.mask .voiceEnd = true) →
      t.link.tx = markRewritten .voiceEnd u.link.tx) ∧
    ((∀ v, ¬((s.voiceRecord v).waveEnds = true ∧ maskEnables s.link.mask .voiceEnd = true)) → t.link = u.link) := by
  intro u t
  obtain ⟨_, _, _, _, _, link, mask, record, _⟩ := outputSample_parts s
  obtain ⟨rest, notices, members, rung, silent⟩ := foldl_pend_voiceEnd u.waveEnded u.link
  have mem : ∀ v, v ∈ u.waveEnded ↔ (s.voiceRecord v).waveEnds = true := fun v => by
    rw [← record v, State.waveEnded, List.mem_filter, and_iff_right (mem_numbers v)]
  have eq : t.link = _ := link.trans (advanceVoices_link u)
  rw [eq]
  refine ⟨rest, notices, fun v => ?_, fun ⟨v, ends, on⟩ => ?_, fun none => ?_⟩
  · rw [members v, mem v]
    show _ ∨ maskEnables u.link.mask .voiceEnd = true ∧ _ ↔ _
    rw [show u.link.mask = s.link.mask from mask]
  · exact rung ((congrArg (maskEnables · .voiceEnd) mask).trans on) (List.ne_nil_of_mem ((mem v).2 ends))
  · refine silent ?_
    by_cases on : maskEnables s.link.mask .voiceEnd = true
    · exact .inr (List.eq_nil_iff_forall_not_mem.2 fun v hv => none v ⟨(mem v).1 hv, on⟩)
    · exact .inl ((congrArg (maskEnables · .voiceEnd) mask).trans (Bool.eq_false_iff.2 on))

/-- The mixer after the sample. -/
theorem outputSample_mixer (s : State) :
    let t := s.outputSample
    { t.mixer with tonePositive := s.mixer.tonePositive, toneCount := s.mixer.toneCount, clipNow := s.mixer.clipNow,
                   clipCount := s.mixer.clipCount } =
      { s.mixer with channels := s.mixVoices.1
                     code := (s.mixer.outputValue (saturate (scaledSum s.mixVoices.2 s.mixer.effective)) + 512).toNat } ∧
    t.mixer.tonePositive = s.mixer.stepTone.tonePositive ∧ t.mixer.toneCount = s.mixer.stepTone.toneCount := by
  intro t
  obtain ⟨_, _, _, _, mixer, _⟩ := outputSample_parts s
  obtain ⟨_, sampled, _⟩ := s.clipCounted_clipped s.mixVoices.1 s.mixVoices.2
  have same := s.sampled_mixer s.mixVoices.1 s.mixVoices.2
  have tone := Mixer.stepTone_with s.mixer s.mixVoices.1
    (s.mixer.outputValue (saturate (scaledSum s.mixVoices.2 s.mixer.effective)) + 512).toNat
  have phase : (s.sampled s.mixVoices.1 s.mixVoices.2).mixer.tonePositive = s.mixer.stepTone.tonePositive ∧
      (s.sampled s.mixVoices.1 s.mixVoices.2).mixer.toneCount = s.mixer.stepTone.toneCount :=
    ⟨(congrArg Mixer.tonePositive tone :), (congrArg Mixer.toneCount tone :)⟩
  rw [← sampled] at same phase
  rw [mixer]
  exact ⟨same, phase⟩

/-- Settles O33: the mix, the clip count, and the voices one by one. -/
theorem outputSampleMixesTheVoices : Obligations.OutputSampleMixesTheVoices := by
  unfold Obligations.OutputSampleMixesTheVoices
  intro s powered
  obtain ⟨rest, pendings, wave, streams, mixers, _, _, _, record⟩ := outputSample_parts s
  obtain ⟨linkRest, noticesRest, members, rung, silent⟩ := outputSample_link s
  obtain ⟨same, positive, count⟩ := outputSample_mixer s
  obtain ⟨_, _, clip, clean, clipRest, clipNotices, clipRung, clipSilent⟩ := s.clipCounted_clipped s.mixVoices.1 s.mixVoices.2
  refine ⟨s.outputSample, exec_outputSample powered, ?_⟩
  generalize s.outputSample = t at *
  generalize s.clipped s.mixVoices.1 s.mixVoices.2 = u at *
  refine ⟨rest, pendings, wave, (congrArg StreamBuffers.records streams :), (congrArg StreamBuffers.freeSlots streams :),
    (congrArg StreamBuffers.stray streams :), (congrArg StreamBuffers.sampleIndex streams :), (congrArg Mixer.inForce same :),
    (congrArg Mixer.pending same :), (congrArg Mixer.latchedMceil same :), (congrArg Mixer.override same :),
    (congrArg Mixer.clipLast same :), ?_, ?_, fun v => ?_⟩
  · intro inForce held c sum y out clips
    have sub : ∀ v, s.substitutionOf v = inForce v := fun v => by
      simp only [inForce, State.substitutionOf]
      cases s.mixer.inForce.global <;> rfl
    have kept : ∀ v, s.heldOf v = held v := fun v => by
      simp only [held, State.heldOf, sub]
    have given : ∀ v, s.givenOf v = c v := fun v => by
      simp only [c, State.givenOf, sub, kept]
      cases (s.voice.voices.get v).mode with
      | off => rfl
      | table => cases inForce v <;> rfl
      | stream => cases inForce v <;> rfl
    have channel : ∀ v, s.channelOf v = (⟨c v, held v, inForce v⟩, c v) := fun v => by
      rw [channelOf_eq, given, kept, sub]
    have total : s.mixVoices.2 = sum := by
      rw [mixVoices_sum]
      simp only [channel, sum]
    have scaled : scaledSum s.mixVoices.2 s.mixer.effective = y := by
      rw [total]
      rfl
    have ends : ∀ v, ((s.voiceRecord v).waveEnds = true ∧ maskEnables s.link.mask .voiceEnd = true) ↔ _ :=
      fun v => (and_congr_left' (VoiceRecord.waveEnds_iff _)).trans (and_assoc.trans (and_congr_right' and_assoc))
    rw [scaled] at same clip clean clipRung clipSilent
    rw [mixers]
    have told : t.link.notices.clip = u.link.notices.clip := (congrArg NoticeSet.clip noticesRest :)
    have ringing : u.link.notices.voiceEnd = s.link.notices.voiceEnd := (congrArg NoticeSet.voiceEnd clipNotices :)
    refine ⟨fun v => ?_, ?_, fun clips => ?_, clean, ?_⟩
    · have channels : u.mixer.channels = s.mixVoices.1 := (congrArg Mixer.channels (mixers ▸ same) :)
      rw [channels, mixVoices_channel, channel]
    · exact (congrArg Mixer.code (mixers ▸ same) :)
    · obtain ⟨now, counts, notices⟩ := clip clips
      exact ⟨now, counts, fun first on => told.trans (notices first on)⟩
    · intro counted ended tx
      have sent : u.link.tx = tx := by
        by_cases counts : counted
        · exact (clipRung counts).trans (if_pos counts).symm
        · exact (congrArg Link.tx (clipSilent counts)).trans (if_neg counts).symm
      refine ⟨?_, ?_, fun counts => ?_, fun v => ?_, fun ⟨v, its⟩ => ?_, fun none => ?_⟩
      · exact (congrArg (fun l : Link => { l with notices := s.link.notices, tx := s.link.tx }) linkRest :).trans clipRest
      · exact (congrArg (fun n : NoticeSet => { n with voiceEnd := s.link.notices.voiceEnd, clip := s.link.notices.clip })
          noticesRest :).trans
          (congrArg (fun n : NoticeSet => { n with voiceEnd := s.link.notices.voiceEnd }) clipNotices :)
      · exact told.trans (congrArg (fun l => l.notices.clip) (clipSilent counts))
      · rw [members, ringing, and_comm (b := (s.voiceRecord v).waveEnds = true)]
        exact or_congr_right (ends v)
      · rw [rung ⟨v, (ends v).2 its⟩, sent]
      · rw [silent fun v its => none v ((ends v).1 its)]
        exact ⟨sent, ringing⟩
  · rw [positive, count]
    exact s.mixer.stepTone_spec
  · obtain ⟨other, inside, once, loop⟩ := (s.voiceRecord v).advanced_spec
    rw [← record v] at other inside once loop
    intro r r' frac pos
    refine ⟨other, inside, fun table beyond mode => ⟨once table beyond mode, fun on => ?_⟩, fun table beyond mode start => ?_⟩
    · exact (members v).2 (.inr ⟨on, (VoiceRecord.waveEnds_iff _).2 ⟨table, beyond, mode⟩⟩)
    · have moved : r' = _ := loop table beyond mode
      rw [moved]
      exact ⟨table, rfl, loop_turns beyond start⟩

end Sys2Proof.Machine
end

