-- ==== Sys2Proof/Proofs/RumbleRequests.lean ====
section
/-! SUPPORT. The rumble driver's requests: Rumble Play by the priorities, Rumble Set by its checks, and Stop, Clear and Status
(R90, R93 to R96, R105, R108). -/

namespace Sys2Proof.Machine

set_option Elab.async false

/-! ## The steps as taken -/

/-- A step as it is taken: a length of 0 counts as 1 (R93). -/
def PlayStep.clamped (x : PlayStep) : PlayStep := ⟨x.level, max x.length 1, x.shape⟩

/-- The step as Rumble Play carries it. -/
def PlayStep.fields (x : PlayStep) : StepFields := ⟨x.level, x.length, .is x.shape⟩

/-- A step as it joins the queue. -/
def PlayStep.joined (x : PlayStep) : EffectStep := ⟨x.level, max x.length 1, x.shape, 0, 0⟩

theorem queued_clamped (steps : List PlayStep) : (steps.map PlayStep.clamped).map PlayStep.queued = steps.map PlayStep.joined :=
  List.map_map

theorem taken_fields {x : PlayStep} (inRange : x.level ≤ 255 ∧ x.length ≤ 255) : x.fields.taken = some x.clamped := by
  obtain ⟨level, length⟩ := inRange
  exact if_pos (Bool.and_eq_true_iff.2 ⟨decide_eq_true level, decide_eq_true length⟩)

/-- Steps in range are taken. -/
theorem takenSteps_fields : ∀ {steps : List PlayStep}, (∀ x ∈ steps, x.level ≤ 255 ∧ x.length ≤ 255) →
    takenSteps (steps.map PlayStep.fields) = some (steps.map PlayStep.clamped)
  | [], _ => rfl
  | x :: steps, inRange => by
    obtain ⟨first, rest⟩ := List.forall_mem_cons.1 inRange
    rw [List.map_cons, List.map_cons, takenSteps, taken_fields first, takenSteps_fields rest]

/-- Steps of which one has no shape are not. -/
theorem takenSteps_of_other : ∀ {fs : List StepFields}, (∃ x ∈ fs, x.shape = .other) → takenSteps fs = none
  | f :: fs, unnamed => by
    obtain ⟨x, mem, other⟩ := unnamed
    rw [takenSteps]
    obtain rfl | mem := List.mem_cons.1 mem
    · have refused : x.taken = none := by
        rw [StepFields.taken, other]
        rfl
      rw [refused]
    · rw [takenSteps_of_other ⟨x, mem, other⟩]
      split
      · next h => cases h
      · rfl

/-! ## Rumble Play -/

/-- Rumble Play that passes its checks goes by what the driver makes of the steps (R93). -/
theorem takeRumblePlay_inRange {s : State} {m : PlayMode} {p : Nat} {steps : List PlayStep} (priority : p ≤ 3)
    (filled : 1 ≤ steps.length) (few : steps.length ≤ 8) (inRange : ∀ x ∈ steps, x.level ≤ 255 ∧ x.length ≤ 255) :
    takeRumblePlay (.is m) p (steps.map PlayStep.fields) s =
      match s.rumble.submit m p (steps.map PlayStep.clamped) with
      | .taken r applied => accept (s.withRumble r) (.rumblePlay applied r.queue.length r.priority)
      | .refused status => refuse s status := by
  unfold takeRumblePlay
  rw [takenSteps_fields inRange]
  refine (if_pos ⟨priority, ?_, ?_⟩).trans rfl
  · rwa [List.length_map]
  · rwa [List.length_map]

theorem takeRumblePlay_faulty {m : Coded PlayMode} {p : Nat} {fs : List StepFields}
    (faulty : m = .other ∨ 3 < p ∨ fs = [] ∨ 8 < fs.length ∨ ∃ x ∈ fs, x.shape = .other) (s : State) :
    takeRumblePlay m p fs s = refuse s .badField := by
  unfold takeRumblePlay
  by_cases unnamed : ∃ x ∈ fs, x.shape = .other
  · rw [takenSteps_of_other unnamed]
    split
    · next h => cases h
    · rfl
  · split
    · next ps named taken =>
      refine if_neg fun ⟨priority, filled, few⟩ => ?_
      obtain rfl | above | rfl | many | unnamed' := faulty
      · cases named
      · omega
      · exact absurd filled (Nat.not_succ_le_zero 0)
      · omega
      · exact unnamed unnamed'
    · rfl

section
variable {s : State} {tag : Byte} {m : PlayMode} {p : Nat} {steps : List PlayStep}
  (serves : s.Serves (.rumblePlay tag (.is m) p (steps.map PlayStep.fields))) (priority : p ≤ 3) (filled : 1 ≤ steps.length)
  (few : steps.length ≤ 8) (inRange : ∀ x ∈ steps, x.level ≤ 255 ∧ x.length ≤ 255)
include serves priority filled few inRange

theorem exec_rumblePlay_refused {status : Status} (h : s.rumble.submit m p (steps.map PlayStep.clamped) = .refused status) :
    exec (.rumblePlay tag (.is m) p (steps.map PlayStep.fields)) s = .next (s.replied 0x20 tag status .none) := by
  refine serve_refused rfl serves ?_
  rw [takeRumblePlay_inRange priority filled few inRange, h]

theorem exec_rumblePlay_taken {r : Rumble} {applied : PlayMode}
    (h : s.rumble.submit m p (steps.map PlayStep.clamped) = .taken r applied) :
    exec (.rumblePlay tag (.is m) p (steps.map PlayStep.fields)) s =
      .next ((s.withRumble r).replied 0x20 tag .ok (.rumblePlay applied r.queue.length r.priority)) := by
  refine serve_accepted rfl serves ?_
  rw [takeRumblePlay_inRange priority filled few inRange, h]

end

/-! ## What the driver makes of offered steps -/

section
variable {r : Rumble} {m : PlayMode} {p : Nat} {steps : List PlayStep}

theorem Rumble.submit_fault (fault : r.state = .fault) : r.submit m p steps = .refused .faulted := if_pos fault

section
variable (sound : r.state ≠ .fault)
include sound

theorem Rumble.submit_calibrating (calibrating : r.calibrating = true) : r.submit m p steps = .refused .busy := by
  unfold Rumble.submit
  rw [if_neg sound, if_pos calibrating]

variable (free : r.calibrating = false)
include free

theorem Rumble.submit_empty (empty : r.queue = []) : r.submit m p steps = .taken (r.load p steps) .replace := by
  unfold Rumble.submit
  rw [if_neg sound, if_neg (ne_true_of_eq_false free), empty]
  rfl

variable (holds : r.queue ≠ []) {held : Nat} (priority : r.priority = some held)
include holds priority

theorem Rumble.submit_held : r.submit m p steps =
    if p < held then .refused .outranked
    else match m with
      | .replace => .taken (r.flush.load p steps) .replace
      | .append =>
        if held < p then .taken (r.flush.load p steps) .replace
        else if r.queue.length + steps.length ≤ 16 then .taken (r.append steps) .append
        else .refused .queueFull := by
  unfold Rumble.submit
  rw [if_neg sound, if_neg (ne_true_of_eq_false free), if_neg fun empty => holds (List.isEmpty_iff.1 empty), priority]
  rfl

theorem Rumble.submit_outranked (below : p < held) : r.submit m p steps = .refused .outranked := by
  rw [Rumble.submit_held sound free holds priority, if_pos below]

theorem Rumble.submit_replaces (atLeast : held ≤ p) (replaces : m = .replace ∨ held < p) :
    r.submit m p steps = .taken (r.flush.load p steps) .replace := by
  rw [Rumble.submit_held sound free holds priority, if_neg (Nat.not_lt.2 atLeast)]
  cases m with
  | replace => rfl
  | append => exact if_pos (replaces.resolve_left nofun)

theorem Rumble.submit_appends (same : held = p) : r.submit .append p steps =
    if r.queue.length + steps.length ≤ 16 then .taken (r.append steps) .append else .refused .queueFull := by
  subst same
  rw [Rumble.submit_held sound free holds priority, if_neg (Nat.lt_irrefl _)]
  exact if_neg (Nat.lt_irrefl _)

end

end

/-- Settles O34: each case of R93 and R94 by what the driver makes of the steps. -/
theorem rumblePlayIsJudgedByPriority : Obligations.RumblePlayIsJudgedByPriority := by
  unfold Obligations.RumblePlayIsJudgedByPriority
  refine ⟨fun s tag m p steps priority filled few inRange => ?_, fun s tag m p fs serves faulty =>
    serve_refused rfl serves (takeRumblePlay_faulty faulty s)⟩
  intro play serves after queued replaced
  have taken {r : Rumble} {applied : PlayMode} (h : s.rumble.submit m p (steps.map PlayStep.clamped) = .taken r applied) :
      after = _ := exec_rumblePlay_taken serves priority filled few inRange h
  have refused {status : Status} (h : s.rumble.submit m p (steps.map PlayStep.clamped) = .refused status) :
      after = _ := exec_rumblePlay_refused serves priority filled few inRange h
  have joins : (steps.map PlayStep.clamped).map PlayStep.queued = queued := queued_clamped steps
  have count : (steps.map PlayStep.clamped).length = steps.length := List.length_map ..
  have replaces {r : Rumble} (its : r = s.rumble ∨ r = s.rumble.flush)
      (h : s.rumble.submit m p (steps.map PlayStep.clamped) = .taken (r.load p (steps.map PlayStep.clamped)) .replace) :
      after = .next replaced := by
    have loaded : r.load p (steps.map PlayStep.clamped) = { s.rumble with
        queue := queued, priority := some p, state := if s.rumble.state = .idle then .running else s.rumble.state } := by
      rw [Rumble.load, joins]
      obtain rfl | rfl := its
      · rfl
      · rfl
    have length : queued.length = steps.length := List.length_map ..
    rw [taken h, loaded, length]
    rfl
  refine ⟨fun fault => refused (Rumble.submit_fault fault), fun sound calibrating => refused (Rumble.submit_calibrating sound calibrating),
    fun sound free empty => replaces (.inl rfl) (Rumble.submit_empty sound free empty), fun h sound free holds held => ⟨fun below =>
      refused (Rumble.submit_outranked sound free holds held below), fun atLeast above =>
      replaces (.inr rfl) (Rumble.submit_replaces sound free holds held atLeast above), fun same append fits => ?_,
      fun same append full => ?_⟩⟩
  · subst append
    have appends := Rumble.submit_appends (steps := steps.map PlayStep.clamped) sound free holds held same
    rw [count, if_pos fits] at appends
    have length : (s.rumble.queue ++ queued).length = s.rumble.queue.length + steps.length := by
      rw [List.length_append]
      exact congrArg _ (List.length_map ..)
    rw [taken appends, Rumble.append, joins, length, ← held]
    rfl
  · subst append
    have appends := Rumble.submit_appends (steps := steps.map PlayStep.clamped) sound free holds held same
    rw [count, if_neg (Nat.not_le.2 full)] at appends
    exact refused appends

/-! ## Rumble Set -/

/-- What Rumble Set may name and carry, in the terms of its checks (R90). -/
theorem rumbleSet_ok_iff (f : RumbleSetFields) : f.ok = true ↔ f.unassignedBit = false ∧
    (f.carrier.isSome = true ∨ f.kick.isSome = true ∨ f.stall.isSome = true ∨ f.trip.isSome = true ∨ f.drainNotice.isSome = true) ∧
    (∀ x ∈ f.carrier, x = 2 ∨ x = 4 ∨ x = 8 ∨ x = 16) ∧ f.kick ≠ some .other ∧ (∀ x ∈ f.stall, x ≤ 4095) ∧
    (∀ x ∈ f.trip, 20 ≤ x ∧ x ≤ 1000) ∧ f.drainNotice ≠ some .other := by
  simp only [RumbleSetFields.ok, Bool.and_eq_true, Bool.or_eq_true, Bool.not_eq_true', all_named_iff]
  simp only [Option.all_eq_true, carrierOk, Bool.and_eq_true, Bool.or_eq_true, beq_iff_eq, decide_eq_true_eq, or_assoc, and_assoc]
  exact Iff.rfl

/-- The settings that Rumble Set writes, the enumerated ones by codes that name them. -/
def rumbleNaming (carrier stall trip : Option Nat) (kick drained : Option Bool) : RumbleSetFields :=
  ⟨carrier, kick.map .is, stall, trip, drained.map .is, false⟩

theorem rumbleNaming_ok_iff (carrier stall trip : Option Nat) (kick drained : Option Bool) :
    (rumbleNaming carrier stall trip kick drained).ok = true ↔
    (carrier.isSome = true ∨ kick.isSome = true ∨ stall.isSome = true ∨ trip.isSome = true ∨ drained.isSome = true) ∧
    (∀ x ∈ carrier, x = 2 ∨ x = 4 ∨ x = 8 ∨ x = 16) ∧ (∀ x ∈ stall, x ≤ 4095) ∧ (∀ x ∈ trip, 20 ≤ x ∧ x ≤ 1000) := by
  simp only [rumbleSet_ok_iff, rumbleNaming, Option.isSome_map, map_is_ne_other kick, map_is_ne_other drained, ne_eq,
    not_false_eq_true, and_true, true_and]

theorem writeSettings_naming (r : Rumble) (carrier stall trip : Option Nat) (kick drained : Option Bool) :
    r.writeSettings (rumbleNaming carrier stall trip kick drained) =
      { r with pendingCarrier := carrier.or r.pendingCarrier
               settings := ⟨r.settings.carrier, kick.getD r.settings.kick, stall.getD r.settings.stall,
                 (trip.map fun x => 4 * x).getD r.settings.trip, drained.getD r.settings.drainNotice⟩ } := by
  simp only [Rumble.writeSettings, rumbleNaming, bind_coded_map_is]

theorem exec_rumbleSet_refused {s : State} {tag : Byte} {f : RumbleSetFields} (serves : s.Serves (.rumbleSet tag f))
    (h : ¬f.ok = true) : exec (.rumbleSet tag f) s = .next (s.replied 0x22 tag .badField .none) :=
  serve_refused rfl serves (if_neg h)

theorem exec_rumbleSet_naming {s : State} {tag : Byte} {carrier stall trip : Option Nat} {kick drained : Option Bool}
    (serves : s.Serves (.rumbleSet tag (rumbleNaming carrier stall trip kick drained)))
    (ok : (rumbleNaming carrier stall trip kick drained).ok = true) :
    exec (.rumbleSet tag (rumbleNaming carrier stall trip kick drained)) s =
      .next ((s.withRumble (s.rumble.writeSettings (rumbleNaming carrier stall trip kick drained))).replied 0x22 tag .ok
        (.rumbleSet carrier kick stall (trip.map fun x => 4 * x) drained)) := by
  have taken : takeRumbleSet (rumbleNaming carrier stall trip kick drained) s = _ := if_pos ok
  dsimp only [rumbleNaming] at taken
  rw [bind_coded_map_is, bind_coded_map_is] at taken
  exact serve_accepted rfl serves taken

/-- Settles O35: Stop and Status have one case each, Clear goes by the driver's state, Set by whether its checks pass. -/
theorem rumbleRequestsStopSetClearAndReport : Obligations.RumbleRequestsStopSetClearAndReport := by
  unfold Obligations.RumbleRequestsStopSetClearAndReport
  refine fun s tag => ⟨fun serves => serve_accepted rfl serves rfl, fun serves fault => serve_accepted rfl serves (if_pos fault),
    fun serves other => serve_refused rfl serves (if_neg other), fun serves => serve_accepted rfl serves rfl,
    fun carrier stall trip kick drained serves => ⟨fun carries inCarrier inStall inTrip => ?_, fun faulty => ?_⟩,
    fun f serves unnamed => exec_rumbleSet_refused serves fun ok => ?_⟩
  · refine (exec_rumbleSet_naming serves ((rumbleNaming_ok_iff ..).2 ⟨carries, inCarrier, inStall, inTrip⟩)).trans ?_
    rw [writeSettings_naming]
    rfl
  · refine exec_rumbleSet_refused serves fun ok => ?_
    obtain ⟨carries, inCarrier, inStall, inTrip⟩ := (rumbleNaming_ok_iff ..).1 ok
    obtain ⟨rfl, rfl, rfl, rfl, rfl⟩ | ⟨x, mem, outside⟩ | ⟨x, mem, above⟩ | ⟨x, mem, outside⟩ := faulty
    · simp at carries
    · have := inCarrier x mem
      omega
    · exact absurd (inStall x mem) (Nat.not_le.2 above)
    · have := inTrip x mem
      omega
  · obtain ⟨assigned, _, _, kick, _, _, drained⟩ := (rumbleSet_ok_iff f).1 ok
    obtain bit | other | other := unnamed
    · exact Bool.false_ne_true (assigned.symm.trans bit)
    · exact kick other
    · exact drained other

end Sys2Proof.Machine
end

