-- ==== Sys2Proof/Proofs/CueRequests.lean ====
section
/-! SUPPORT. The cue unit's requests: Cue Define and what it stores, Cue Start, Cue Cancel and Cue Status (R141, R142, R144,
R148). -/

namespace Sys2Proof.Machine

set_option Elab.async false

/-! ## What Cue Define stores -/

/-- A sound part as Cue Define carries it. -/
def SoundPart.fields (p : SoundPart) : SoundFields :=
  ⟨p.voice.val, p.volume, p.waveStart, p.waveLength, p.loopStart, .is p.loopMode, p.pitchStep, p.attackRate, p.sustainLevel,
    p.releaseRate, p.keyOffAfter⟩

/-- A sound part as it is stored: the volume and the pitch step clamped (R141). -/
def SoundPart.clamped (p : SoundPart) : SoundPart :=
  { p with volume := min p.volume 127, pitchStep := min (max p.pitchStep 1) 2048 }

/-- A sound part's values are in their ranges (R141). -/
def SoundPart.InRange (p : SoundPart) : Prop :=
  p.volume ≤ 255 ∧ p.pitchStep ≤ 65535 ∧ p.waveStart + p.waveLength ≤ 8192 ∧ p.loopStart < p.waveLength ∧
  (1 ≤ p.attackRate ∧ p.attackRate ≤ 255) ∧ p.sustainLevel ≤ 255 ∧ (1 ≤ p.releaseRate ∧ p.releaseRate ≤ 255) ∧
  ∀ k ∈ p.keyOffAfter, 1 ≤ k ∧ k ≤ 255

/-- The checks of a sound part, as the model makes them. -/
theorem soundFields_stored (f : SoundFields) {voice : Fin 8} {loopMode : LoopMode} (named : number? 8 f.voice = some voice)
    (loop : coded? f.loopMode = some loopMode) : f.stored =
    if f.volume ≤ 255 ∧ f.waveStart ≤ 8191 ∧ (1 ≤ f.waveLength ∧ f.waveLength ≤ 8192) ∧ f.loopStart ≤ 8191 ∧ f.pitchStep ≤ 65535 ∧
        (1 ≤ f.attackRate ∧ f.attackRate ≤ 255) ∧ f.sustainLevel ≤ 255 ∧ (1 ≤ f.releaseRate ∧ f.releaseRate ≤ 255) ∧
        (f.waveStart + f.waveLength ≤ 8192 ∧ f.loopStart < f.waveLength) ∧ ∀ k ∈ f.keyOffAfter, 1 ≤ k ∧ k ≤ 255 then
      some { voice := voice, volume := min f.volume 127, waveStart := f.waveStart, waveLength := f.waveLength
             loopStart := f.loopStart, loopMode := loopMode, pitchStep := min (max f.pitchStep 1) 2048
             attackRate := f.attackRate, sustainLevel := f.sustainLevel, releaseRate := f.releaseRate
             keyOffAfter := f.keyOffAfter }
    else none := by
  unfold SoundFields.stored
  rw [named, loop]
  dsimp only
  refine if_congr ?_ rfl rfl
  simp only [Bool.and_eq_true, byteOk, waveStartOk, waveLengthOk, loopStartOk, wordOk, rateOk, waveFits, decide_eq_true_eq,
    and_assoc, Option.all_eq_true]
  exact Iff.rfl

theorem stored_fields {p : SoundPart} (inRange : p.InRange) : p.fields.stored = some p.clamped := by
  obtain ⟨volume, pitch, wave, loop, attack, sustain, release, keyOff⟩ := inRange
  rw [soundFields_stored p.fields (number?_val p.voice) rfl]
  refine (if_pos ⟨volume, ?_, ⟨?_, ?_⟩, ?_, pitch, attack, sustain, release, ⟨wave, loop⟩, keyOff⟩).trans rfl
  all_goals
    dsimp only [SoundPart.fields]
    omega

/-- A sound part with one of these faults is not stored (R141). -/
theorem stored_faulty {f : SoundFields} (faulty : 8 ≤ f.voice ∨ f.loopMode = .other ∨ 8192 < f.waveStart + f.waveLength ∨
    f.waveLength ≤ f.loopStart ∨ f.attackRate = 0 ∨ f.releaseRate = 0) : f.stored = none := by
  match voice : number? 8 f.voice, mode : coded? f.loopMode with
  | none, _ =>
    unfold SoundFields.stored
    rw [voice]
  | some _, none =>
    unfold SoundFields.stored
    rw [voice, mode]
  | some _, some _ =>
    rw [soundFields_stored f voice mode]
    refine if_neg fun ⟨_, _, _, _, _, attack, _, release, ⟨wave, loop⟩, _⟩ => ?_
    obtain beyond | other | faulty := faulty
    · rw [number?_of_le beyond] at voice
      cases voice
    · rw [other] at mode
      cases mode
    · omega

/-- A rumble part as Cue Define carries it, and as it is stored (R141). -/
def RumblePart.fields (p : RumblePart) : RumbleFields := ⟨p.priority, p.steps.map PlayStep.fields⟩

def RumblePart.clamped (p : RumblePart) : RumblePart := ⟨p.priority, p.steps.map PlayStep.clamped⟩

theorem rumbleStored_fields {p : RumblePart} (priority : p.priority ≤ 3) (filled : 1 ≤ p.steps.length) (few : p.steps.length ≤ 4)
    (inRange : ∀ x ∈ p.steps, x.level ≤ 255 ∧ x.length ≤ 255) : p.fields.stored = some p.clamped := by
  unfold RumbleFields.stored
  dsimp only [RumblePart.fields]
  rw [takenSteps_fields inRange]
  refine if_pos (Bool.and_eq_true_iff.2 ⟨Bool.and_eq_true_iff.2 ⟨decide_eq_true priority, decide_eq_true ?_⟩, decide_eq_true ?_⟩)
  · rwa [List.length_map]
  · rwa [List.length_map]

theorem rumbleStored_faulty {f : RumbleFields} (faulty : 3 < f.priority ∨ f.steps = [] ∨ 4 < f.steps.length ∨
    ∃ x ∈ f.steps, x.shape = .other) : f.stored = none := by
  unfold RumbleFields.stored
  by_cases unnamed : ∃ x ∈ f.steps, x.shape = .other
  · rw [takenSteps_of_other unnamed, Option.map_none, ite_self]
  · refine if_neg fun ok => ?_
    simp only [Bool.and_eq_true, decide_eq_true_eq] at ok
    obtain ⟨⟨priority, filled⟩, few⟩ := ok
    obtain above | empty | many | unnamed' := faulty
    · omega
    · rw [empty] at filled
      exact absurd filled (Nat.not_succ_le_zero 0)
    · omega
    · exact unnamed unnamed'

theorem storedPart_map {α β : Type} {store : β → Option α} {fields : α → β} {clamped : α → α} {o : Option α}
    (h : ∀ a ∈ o, store (fields a) = some (clamped a)) : storedPart store (o.map fields) = some (o.map clamped) := by
  cases o with
  | none => rfl
  | some a => exact (congrArg (Option.map some) (h a rfl) :)

theorem storedPart_faulty {α β : Type} {store : β → Option α} {o : Option β} (h : ∃ b ∈ o, store b = none) :
    storedPart store o = none := by
  obtain ⟨b, rfl, refused⟩ := h
  exact (congrArg (Option.map some) refused :)

/-- A cue with a fault is not stored (R141). -/
theorem cueStored_faulty {f : CueFields} (faulty : 8 ≤ f.cue ∨ (f.sound = none ∧ f.rumble = none) ∨ f.steal = .other ∨
    (∃ p ∈ f.sound, p.stored = none) ∨ ∃ p ∈ f.rumble, p.stored = none) : f.stored = none := by
  unfold CueFields.stored
  split
  · next number sound steal rumble =>
    obtain beyond | ⟨noSound, noRumble⟩ | other | refused | refused := faulty
    · rw [number?_of_le beyond] at number
      cases number
    · rw [noSound] at sound
      rw [noRumble] at rumble
      cases sound
      cases rumble
      rfl
    · rw [other] at steal
      cases steal
    · rw [storedPart_faulty refused] at sound
      cases sound
    · rw [storedPart_faulty refused] at rumble
      cases rumble
  · rfl

/-! ## Cue Cancel -/

section
variable {s : State} {front back : List PendingStart} {p : PendingStart} (starts : s.cue.starts = front ++ p :: back)
  (oldest : ∀ x ∈ front, x.cue ≠ p.cue)
include starts oldest

/-- The oldest waiting start of the cue leaves the list (R144). -/
theorem takeCueCancel_found : takeCueCancel p.cue.val s = cancelled (s.withCue { s.cue with starts := front ++ back }) p := by
  have others : ∀ x ∈ front, ¬decide (x.cue = p.cue) = true := fun x mem its => oldest x mem (of_decide_eq_true its)
  have own : decide (p.cue = p.cue) = true := decide_eq_true rfl
  have found : s.cue.starts.find? (fun x => decide (x.cue = p.cue)) = some p := by
    rw [starts, List.find?_append, List.find?_eq_none.2 others, List.find?_cons_of_pos (p := fun x : PendingStart => decide (x.cue = p.cue)) own]
    rfl
  have left : s.cue.starts.eraseP (fun x => decide (x.cue = p.cue)) = front ++ back := by
    rw [starts, List.eraseP_append_right _ others, List.eraseP_cons_of_pos (p := fun x : PendingStart => decide (x.cue = p.cue)) own]
  unfold takeCueCancel
  rw [number?_val]
  dsimp only
  rw [found, left]

end

theorem takeCueCancel_absent {s : State} {c : Fin 8} (absent : ∀ p ∈ s.cue.starts, p.cue ≠ c) :
    takeCueCancel c.val s = refuse s .nothingPending := by
  have none : s.cue.starts.find? (fun x => decide (x.cue = c)) = none :=
    List.find?_eq_none.2 fun x mem its => absent x mem (of_decide_eq_true its)
  unfold takeCueCancel
  rw [number?_val]
  dsimp only
  rw [none]

theorem takeCueCancel_beyond {cue : Nat} (beyond : 8 ≤ cue) (s : State) : takeCueCancel cue s = refuse s .badField := by
  unfold takeCueCancel
  rw [number?_of_le beyond]

/-- Settles O43: Cue Define by what it stores, Cue Cancel by the start it finds. -/
theorem cueTableIsDefinedAndStartsAreCancelled : Obligations.CueTableIsDefinedAndStartsAreCancelled := by
  unfold Obligations.CueTableIsDefinedAndStartsAreCancelled
  refine ⟨fun s tag c sound steal rumble present inRange rumbleInRange => ?_, fun s tag f serves faulty => ?_,
    fun s tag => ⟨fun serves => serve_accepted rfl serves rfl,
      fun cue beyond serves => serve_refused rfl serves (takeCueCancel_beyond beyond s),
      fun c absent serves => serve_refused rfl serves (takeCueCancel_absent absent)⟩,
    fun s tag front back p serves starts oldest => ?_⟩
  · intro fields d serves
    have soundStored : storedPart SoundFields.stored (sound.map SoundPart.fields) = some (sound.map SoundPart.clamped) :=
      storedPart_map fun p mem => stored_fields (inRange p mem)
    have rumbleStored : storedPart RumbleFields.stored (rumble.map RumblePart.fields) = some (rumble.map RumblePart.clamped) :=
      storedPart_map fun p mem => by
        obtain ⟨priority, filled, few, steps⟩ := rumbleInRange p mem
        exact rumbleStored_fields priority filled few steps
    have stored : CueFields.stored ⟨c.val, sound.map SoundPart.fields, .is steal, rumble.map RumblePart.fields⟩ =
        some (c, ⟨sound.map SoundPart.clamped, steal, rumble.map RumblePart.clamped⟩) := by
      unfold CueFields.stored
      dsimp only
      rw [number?_val, soundStored, rumbleStored]
      refine if_neg fun absent => ?_
      simp only [Option.isNone_map, Bool.and_eq_true, Option.isNone_iff_eq_none] at absent
      obtain ⟨rfl, rfl⟩ := absent
      simp at present
    have taken : takeCueDefine fields s = accept (s.withCue { s.cue with table := s.cue.table.set c (some d) }) (.cueDefine c.val d) := by
      have its : fields.stored = some (c, d) := stored
      unfold takeCueDefine
      rw [its]
    exact serve_accepted rfl serves taken
  · have refused : takeCueDefine f s = refuse s .badField := by
      unfold takeCueDefine
      rw [cueStored_faulty (faulty.imp_right (.imp_right (.imp_right (.imp
        (fun ⟨p, mem, its⟩ => ⟨p, mem, stored_faulty its⟩) fun ⟨p, mem, its⟩ => ⟨p, mem, rumbleStored_faulty its⟩))))]
    exact serve_refused rfl serves refused
  · have found := takeCueCancel_found starts oldest
    refine ⟨fun first source => ?_, fun entry source => ?_⟩
    · refine (serve_of_serves rfl serves (takeCueCancel p.cue.val)).trans ?_
      rw [found, cancelled, source]
      rfl
    · obtain ⟨notices, tx, told, _, notice⟩ := State.pendCue_noticed (s.withCue { s.cue with starts := front ++ back })
        ⟨.cancelled, p.cue.val, entry⟩
      have taken : takeCueCancel p.cue.val s = accept (State.pendCue (s.withCue { s.cue with starts := front ++ back })
          ⟨.cancelled, p.cue.val, entry⟩) (.cueCancel p.source) := by
        rw [found, cancelled, source]
      refine ⟨_, serve_accepted rfl serves taken, ?_⟩
      rw [told]
      exact ⟨rfl, rfl, fun on => notice.trans (if_pos on)⟩

/-! ## Cue Start -/

theorem takeCueStart_faulty {cue : Nat} {q : Coded Bool} {s : State}
    (faulty : 8 ≤ cue ∨ q = .other ∨ ∃ c : Fin 8, c.val = cue ∧ s.cue.table.get c = none) (tag : Byte) :
    takeCueStart tag cue q s = refuse s .badField := by
  unfold takeCueStart
  split
  · next c q' number named =>
    obtain beyond | other | ⟨c', rfl, absent⟩ := faulty
    · rw [number?_of_le beyond] at number
      cases number
    · rw [other] at named
      cases named
    · rw [number?_val] at number
      cases number
      rw [absent]
      rfl
  · rfl

/-- A Cue Start of a cue that the table holds. -/
theorem takeCueStart_defined {c : Fin 8} {d : CueDefinition} {s : State} (defined : s.cue.table.get c = some d) (tag : Byte) (q : Bool) :
    takeCueStart tag c.val (.is q) s =
      if q = true then
        if s.cue.starts.length < 4 then defer (s.withCue { s.cue with starts := s.cue.starts ++ [⟨c, .request tag⟩] })
        else refuse s .queueFull
      else accept (s.actParts c).1 (.cueReport c.val (s.actParts c).2.1 (s.actParts c).2.2) := by
  unfold takeCueStart
  rw [number?_val]
  dsimp only [coded?]
  rw [defined]
  rfl

/-- Settles O44: by the cue's definition, the flag and the room in the list. -/
theorem cueStartActsOrWaits : Obligations.CueStartActsOrWaits := by
  unfold Obligations.CueStartActsOrWaits
  refine ⟨fun s tag cue q serves faulty => serve_refused rfl serves (takeCueStart_faulty faulty tag),
    fun s tag c d defined => ⟨fun serves room => ?_, fun serves full => ?_, fun serves => ?_⟩⟩
  · exact serve_deferred rfl serves ((takeCueStart_defined defined tag true).trans (if_pos room))
  · exact serve_refused rfl serves ((takeCueStart_defined defined tag true).trans (if_neg (Nat.not_lt.2 full)))
  · obtain ⟨voice, rumble, cue, sound, driven, acts, acted⟩ := s.actParts_acted c defined
    have taken : takeCueStart tag c.val (.is false) s = _ := takeCueStart_defined defined tag false
    rw [if_neg Bool.false_ne_true, acts] at taken
    exact ⟨_, sound, driven, serve_accepted rfl serves taken, rfl, acted⟩

end Sys2Proof.Machine
end

