-- ==== Sys2Proof/Proofs/CueMarks.lean ====
section
/-! SUPPORT. The cue unit's marks: the key-offs whose countdowns have ended, the starts of a measure mark, and the period mark that
does the work left over first (R140, R143, R146). -/

namespace Sys2Proof.Machine

set_option Elab.async false

/-! ## Key-offs -/

/-- The countdown of a voice has ended and its key-off has not been done. -/
def State.KeyOffDue (s : State) (v : Fin 8) : Prop := ∃ c, s.cue.countdowns.get v = some c ∧ c.begun = true ∧ c.count = 0

/-- The key-off of a voice done. -/
def State.keyedOff (s : State) (v : Fin 8) : State :=
  { s with voice := { s.voice with pendings := s.voice.pendings.set v { s.voice.pendings.get v with key := some .off } }
           cue := { s.cue with countdowns := s.cue.countdowns.set v none } }

theorem keyOffDue_congr {s t : State} {v : Fin 8} (same : t.cue.countdowns.get v = s.cue.countdowns.get v) :
    t.KeyOffDue v ↔ s.KeyOffDue v := by
  rw [State.KeyOffDue, State.KeyOffDue, same]

/-- No key-off is due, as the statements say it. -/
theorem none_due_iff (s : State) :
    (∀ v, ¬s.KeyOffDue v) ↔ ∀ v c, s.cue.countdowns.get v = some c → c.begun = true → c.count ≠ 0 :=
  ⟨fun none v c its begun ended => none v ⟨c, its, begun, ended⟩, fun none v ⟨c, its, begun, ended⟩ => none v c its begun ended⟩

section
variable {s : State} {v : Fin 8}

theorem finishCountdown_of_due (due : s.KeyOffDue v) : s.finishCountdown v = s.keyedOff v := by
  obtain ⟨c, its, begun, ended⟩ := due
  unfold State.finishCountdown
  rw [its]
  exact if_pos ⟨begun, ended⟩

theorem finishCountdown_of_not_due (none : ¬s.KeyOffDue v) : s.finishCountdown v = s := by
  unfold State.finishCountdown
  split
  · next c its => exact if_neg fun ⟨begun, ended⟩ => none ⟨c, its, begun, ended⟩
  · rfl

theorem keyedOff_not_due : ¬(s.keyedOff v).KeyOffDue v := by
  rintro ⟨c, its, _⟩
  have none : (s.keyedOff v).cue.countdowns.get v = none := Tab.get_set_self _ _ _
  cases none.symm.trans its

theorem keyedOff_due_other {u : Fin 8} (h : v ≠ u) : (s.keyedOff v).KeyOffDue u ↔ s.KeyOffDue u :=
  keyOffDue_congr (Tab.get_set_ne _ h _)

theorem finishCountdown_not_due : ¬(s.finishCountdown v).KeyOffDue v := by
  by_cases due : s.KeyOffDue v
  · rw [finishCountdown_of_due due]
    exact keyedOff_not_due
  · rwa [finishCountdown_of_not_due due]

theorem finishCountdown_due_other {u : Fin 8} (h : v ≠ u) : (s.finishCountdown v).KeyOffDue u ↔ s.KeyOffDue u := by
  by_cases due : s.KeyOffDue v
  · rw [finishCountdown_of_due due]
    exact keyedOff_due_other h
  · rw [finishCountdown_of_not_due due]

theorem finishCountdown_idem : (s.finishCountdown v).finishCountdown v = s.finishCountdown v :=
  finishCountdown_of_not_due finishCountdown_not_due

end

theorem keyedOff_comm (s : State) {u v : Fin 8} (h : u ≠ v) : (s.keyedOff u).keyedOff v = (s.keyedOff v).keyedOff u := by
  have swap {α : Type} (t : Tab 8 α) (a b : α) : (t.set u a).set v b = (t.set v b).set u a := Tab.ext_get fun i => by
    simp only [Tab.get_set]
    grind
  unfold State.keyedOff
  dsimp only
  rw [Tab.get_set_ne _ h, Tab.get_set_ne _ (Ne.symm h), swap, swap]

/-- The key-offs of two voices do not disturb each other. -/
theorem finishCountdown_comm (s : State) (u v : Fin 8) :
    (s.finishCountdown u).finishCountdown v = (s.finishCountdown v).finishCountdown u := by
  by_cases same : u = v
  · rw [same]
  have others (s : State) : (s.keyedOff u).KeyOffDue v ↔ s.KeyOffDue v := keyedOff_due_other same
  have others' (s : State) : (s.keyedOff v).KeyOffDue u ↔ s.KeyOffDue u := keyedOff_due_other (Ne.symm same)
  by_cases first : s.KeyOffDue u
  · by_cases second : s.KeyOffDue v
    · rw [finishCountdown_of_due first, finishCountdown_of_due second, finishCountdown_of_due ((others s).2 second),
        finishCountdown_of_due ((others' s).2 first), keyedOff_comm s same]
    · rw [finishCountdown_of_not_due second, finishCountdown_of_due first,
        finishCountdown_of_not_due fun due => second ((others s).1 due)]
  · by_cases second : s.KeyOffDue v
    · rw [finishCountdown_of_not_due first, finishCountdown_of_due second,
        finishCountdown_of_not_due fun due => first ((others' s).1 due)]
    · rw [finishCountdown_of_not_due first, finishCountdown_of_not_due second, finishCountdown_of_not_due first]

/-- A key-off that is done before the sweep makes no difference to it. -/
theorem foldl_finishCountdown_absorbs {v : Fin 8} : ∀ {l : List (Fin 8)} (s : State), v ∈ l →
    l.foldl State.finishCountdown (s.finishCountdown v) = l.foldl State.finishCountdown s
  | [], _, mem => absurd mem List.not_mem_nil
  | x :: l, s, mem => by
    rw [List.foldl_cons, List.foldl_cons]
    by_cases its : x = v
    · rw [its, finishCountdown_idem]
    · rw [finishCountdown_comm, foldl_finishCountdown_absorbs (s.finishCountdown x) ((List.mem_cons.1 mem).resolve_left (Ne.symm its))]

theorem foldl_finishCountdown_of_none {s : State} (none : ∀ v, ¬s.KeyOffDue v) :
    ∀ l : List (Fin 8), l.foldl State.finishCountdown s = s
  | [] => rfl
  | x :: l => by rw [List.foldl_cons, finishCountdown_of_not_due (none x), foldl_finishCountdown_of_none none l]

/-- After the sweep no key-off is due. -/
theorem foldl_finishCountdown_none (s : State) (v : Fin 8) : ¬((numbers 8).foldl State.finishCountdown s).KeyOffDue v := by
  have swept := foldl_finishCountdown_absorbs s (mem_numbers v)
  have last : ∀ (l : List (Fin 8)) {s : State}, ¬s.KeyOffDue v → ¬(l.foldl State.finishCountdown s).KeyOffDue v :=
    fun l _ => foldl_keeps (P := fun s => ¬s.KeyOffDue v) (fun s u none => by
      by_cases its : u = v
      · subst its
        exact finishCountdown_not_due
      · rwa [finishCountdown_due_other its]) l
  rw [← swept]
  exact last _ finishCountdown_not_due

/-! ## The starts of a measure mark -/

/-- Key-offs and starts change the pending records, the driver, the countdowns and the link alone. -/
def State.CueFrame (s t : State) : Prop :=
  { t with voice := s.voice, rumble := s.rumble, cue := s.cue, link := s.link } = s ∧
  { t.voice with pendings := s.voice.pendings } = s.voice ∧ { t.cue with countdowns := s.cue.countdowns } = s.cue

theorem State.CueFrame.refl (s : State) : s.CueFrame s := ⟨rfl, rfl, rfl⟩

theorem State.CueFrame.trans {a b c : State} (first : a.CueFrame b) (second : b.CueFrame c) : a.CueFrame c := by
  obtain ⟨rest, voice, cue⟩ := first
  obtain ⟨rest', voice', cue'⟩ := second
  exact ⟨(congrArg (fun x : State => { x with voice := a.voice, rumble := a.rumble, cue := a.cue, link := a.link }) rest' :).trans rest,
    (congrArg (fun x : VoiceEngine => { x with pendings := a.voice.pendings }) voice' :).trans voice,
    (congrArg (fun x : CueUnit => { x with countdowns := a.cue.countdowns }) cue' :).trans cue⟩

theorem cueFrame_finishCountdown (s : State) (v : Fin 8) : s.CueFrame (s.finishCountdown v) := by
  by_cases due : s.KeyOffDue v
  · rw [finishCountdown_of_due due]
    exact ⟨rfl, rfl, rfl⟩
  · rw [finishCountdown_of_not_due due]
    exact .refl s

theorem cueFrame_foldl {α : Type} {f : State → α → State} (h : ∀ (s : State) a, s.CueFrame (f s a)) (l : List α) (s : State) :
    s.CueFrame (l.foldl f s) :=
  foldl_keeps (P := s.CueFrame) (fun t a frame => frame.trans (h t a)) l (.refl s)

/-- A start that acts is reported as its source wants it (R148). -/
theorem actPending_of_acted {s t : State} {p : PendingStart} {sound : SoundOutcome} {rumble : RumbleOutcome}
    (acts : s.actParts p.cue = (t, sound, rumble)) : actPending s p = match p.source with
      | .request tag => t.concluded 0x31 tag .ok (.cueReport p.cue.val sound rumble)
      | .event entry => t.pendCue ⟨.acted sound rumble, p.cue.val, entry⟩ := by
  unfold actPending
  rw [acts]
  rfl

theorem cueFrame_actParts (s : State) (c : Fin 8) : s.CueFrame (s.actParts c).1 ∧ (s.actParts c).1.link = s.link := by
  cases defined : s.cue.table.get c with
  | none =>
    have absent : s.actParts c = (s, .absent, .absent) := by
      unfold State.actParts
      rw [defined]
    rw [absent]
    exact ⟨.refl s, rfl⟩
  | some d =>
    obtain ⟨voice, rumble, cue, sound, driven, acts, voices, cues, _⟩ := s.actParts_acted c defined
    rw [acts]
    exact ⟨⟨rfl, voices, cues⟩, rfl⟩

theorem cueFrame_actPending (s : State) (p : PendingStart) : s.CueFrame (actPending s p) := by
  obtain ⟨frame, _⟩ := cueFrame_actParts s p.cue
  rw [actPending_of_acted Prod.mk.eta.symm]
  refine frame.trans ?_
  cases p.source with
  | request tag => exact ⟨rfl, rfl, rfl⟩
  | event entry => exact ⟨rfl, rfl, rfl⟩

/-! ## Work left over from an earlier mark -/

/-- The waiting starts of a measure mark leave the list. -/
def State.atMeasure (s : State) : State := { s with cue := { s.cue with starts := [], measureDue := false } }

theorem finishMark_of_none {s : State} (none : ∀ v, ¬s.KeyOffDue v) :
    s.finishMark = if s.cue.measureDue = true then s.cue.starts.foldl actPending s.atMeasure else s := by
  unfold State.finishMark
  rw [foldl_finishCountdown_of_none none]
  rfl

theorem finishMark_finishCountdown (s : State) (v : Fin 8) : (s.finishCountdown v).finishMark = s.finishMark := by
  unfold State.finishMark
  rw [foldl_finishCountdown_absorbs s (mem_numbers v)]

/-- A countdown that a start sets has not begun, so a start leaves no key-off due (R146). -/
theorem actParts_none_due {s : State} (none : ∀ v, ¬s.KeyOffDue v) (c v : Fin 8) : ¬(s.actParts c).1.KeyOffDue v := by
  cases defined : s.cue.table.get c with
  | none =>
    unfold State.actParts
    rw [defined]
    exact none v
  | some d =>
    obtain ⟨voice, rumble, cue, sound, driven, acts, _, _, absent, present, _⟩ := s.actParts_acted c defined
    rw [acts]
    have unchanged (same : cue = s.cue) : ¬({ s with voice := voice, rumble := rumble, cue := cue } : State).KeyOffDue v :=
      fun due => none v ((keyOffDue_congr (congrArg (fun x : CueUnit => x.countdowns.get v) same)).1 due)
    cases part : d.sound with
    | none =>
      obtain ⟨_, _, same⟩ := absent part
      exact unchanged same
    | some p =>
      obtain ⟨skips, plays⟩ := present p part
      by_cases streaming : ((s.voice.voices.get p.voice).mode = .stream ∨ (s.voice.pendings.get p.voice).mode = some .stream) ∧
          d.steal = false
      · obtain ⟨_, _, same⟩ := skips streaming.1 streaming.2
        exact unchanged same
      · obtain ⟨_, _, countdowns⟩ := plays (by
          cases steal : d.steal
          · exact .inl fun its => streaming ⟨its, steal⟩
          · exact .inr rfl)
        rintro ⟨x, its, begun, ended⟩
        have get : (s.cue.countdowns.set p.voice (p.keyOffAfter.map fun n => ⟨n, c, false⟩)).get v = some x :=
          (congrArg (·.get v) countdowns).symm.trans its
        rw [Tab.get_set] at get
        split at get
        · obtain ⟨n, _, rfl⟩ := Option.map_eq_some_iff.1 get
          cases begun
        · exact none v ⟨x, get, begun, ended⟩

theorem actPending_none_due {s : State} (p : PendingStart) (none : ∀ v, ¬s.KeyOffDue v) (v : Fin 8) : ¬(actPending s p).KeyOffDue v := by
  have parts := actParts_none_due none p.cue v
  rw [actPending_of_acted Prod.mk.eta.symm]
  cases p.source with
  | request tag => exact parts
  | event entry => exact parts

/-- The work of a mark, once done, leaves none (log entry 17). -/
theorem finishMark_done (s : State) : (∀ v, ¬s.finishMark.KeyOffDue v) ∧ s.finishMark.cue.measureDue = false := by
  unfold State.finishMark
  have none := foldl_finishCountdown_none s
  generalize (numbers 8).foldl State.finishCountdown s = m at none ⊢
  dsimp only
  split
  · have after : ∀ l : List PendingStart, ∀ v, ¬(l.foldl actPending m.atMeasure).KeyOffDue v := fun l =>
      foldl_keeps (P := fun s => ∀ v, ¬s.KeyOffDue v) (fun s p h => actPending_none_due p h) l none
    obtain ⟨_, _, cue⟩ := cueFrame_foldl cueFrame_actPending m.cue.starts m.atMeasure
    exact ⟨after m.cue.starts, (congrArg CueUnit.measureDue cue :)⟩
  · next notDue => exact ⟨none, Bool.eq_false_iff.2 notDue⟩

theorem finishMark_idem (s : State) : s.finishMark.finishMark = s.finishMark := by
  obtain ⟨none, notDue⟩ := finishMark_done s
  rw [finishMark_of_none none, if_neg (ne_true_of_eq_false notDue)]

theorem cueMark_of_finishMark {s t : State} (same : s.finishMark = t.finishMark) : s.cueMark = t.cueMark := by
  unfold State.cueMark
  rw [same]

theorem exec_cuePeriodMark {s : State} (powered : s.corePowered = true) : exec .cuePeriodMark s = .next s.cueMark :=
  onCore_powered powered State.cueMark

theorem exec_measureMark {s : State} (powered : s.corePowered = true) : exec .measureMark s = .next s.measure :=
  onCore_powered powered State.measure

theorem measure_of_due {s : State} (due : s.cue.measureDue = true) : s.measure = s.finishMark := if_pos due

theorem exec_keyOffCountdown {s : State} (powered : s.corePowered = true) (v : Fin 8) :
    exec (.keyOffCountdown v.val) s = .next (s.finishCountdown v) := by
  refine (onCore_powered powered fun s => match number? 8 v.val with
    | some v => s.finishCountdown v
    | none => s).trans ?_
  rw [number?_val]

/-- The work of a mark changes what key-offs and starts change, and empties the list when it was due. -/
theorem cueFrame_finishMark (s : State) : ∃ starts due, ({ s with cue := { s.cue with starts := starts, measureDue := due } } : State).CueFrame
    s.finishMark ∧ (s.cue.measureDue = true → starts = []) := by
  have keyOffs := cueFrame_foldl cueFrame_finishCountdown (numbers 8) s
  unfold State.finishMark
  generalize (numbers 8).foldl State.finishCountdown s = m at keyOffs ⊢
  obtain ⟨rest, voice, cue⟩ := keyOffs
  dsimp only
  split
  · next due =>
    refine ⟨[], false, State.CueFrame.trans (b := m.atMeasure) ⟨?_, voice, ?_⟩ (cueFrame_foldl cueFrame_actPending m.cue.starts m.atMeasure),
      fun _ => rfl⟩
    · exact (congrArg (fun x : State => { x with cue := { s.cue with starts := [], measureDue := false } }) rest :)
    · exact (congrArg (fun x : CueUnit => { x with starts := [], measureDue := false }) cue :)
  · next notDue =>
    refine ⟨s.cue.starts, s.cue.measureDue, ⟨rest, voice, cue⟩, fun due => absurd ?_ notDue⟩
    exact (congrArg CueUnit.measureDue cue :).trans due

theorem finishMark_of_idle {s : State} (none : ∀ v, ¬s.KeyOffDue v) (notDue : s.cue.measureDue = false) : s.finishMark = s := by
  rw [finishMark_of_none none, if_neg (ne_true_of_eq_false notDue)]

/-- A period mark with no work left counts (R140, R146). -/
theorem cueMark_of_idle {s : State} (none : ∀ v, ¬s.KeyOffDue v) (notDue : s.cue.measureDue = false) : s.cueMark =
    { s with cue := { s.cue with countdowns := s.cue.countdowns.map stepCountdown
                                 periodCount := if s.cue.periodCount = 31 then 0 else s.cue.periodCount + 1
                                 measureDue := decide (s.cue.periodCount = 31) } } := by
  have wraps : decide (s.cue.periodCount + 1 = 32) = decide (s.cue.periodCount = 31) := decide_eq_decide.2 (by omega)
  unfold State.cueMark
  rw [finishMark_of_idle none notDue]
  dsimp only
  rw [wraps]
  simp only [decide_eq_true_eq]
  rfl

theorem stepCountdown_eq (o : Option Countdown) : stepCountdown o =
    o.map fun c => if c.begun = true then { c with count := c.count - 1 } else { c with begun := true } := by
  cases o with
  | none => rfl
  | some c => rfl

/-- These starts wait for a measure mark that is due. -/
def State.awaiting (s : State) (ps : List PendingStart) : State := { s with cue := { s.cue with starts := ps, measureDue := true } }

/-- The first start of a measure mark acts, and the mark goes on with the others (R143). -/
theorem finishMark_first {s : State} {p : PendingStart} {ps : List PendingStart} (none : ∀ v, ¬s.KeyOffDue v)
    (due : s.cue.measureDue = true) (starts : s.cue.starts = p :: ps) :
    s.finishMark = ((actPending s.atMeasure p).awaiting ps).finishMark := by
  have left : ∀ v, ¬(actPending s.atMeasure p).KeyOffDue v := actPending_none_due p none
  obtain ⟨_, _, cue⟩ := cueFrame_actPending s.atMeasure p
  have empty : (actPending s.atMeasure p).cue.starts = [] := (congrArg CueUnit.starts cue :)
  have done : (actPending s.atMeasure p).cue.measureDue = false := (congrArg CueUnit.measureDue cue :)
  rw [finishMark_of_none none, if_pos due, starts, List.foldl_cons]
  generalize actPending s.atMeasure p = t at left empty done ⊢
  have again : (t.awaiting ps).atMeasure = t := by
    show ({ t with cue := { t.cue with starts := [], measureDue := false } } : State) = t
    rw [← empty, ← done]
  rw [finishMark_of_none (s := t.awaiting ps) left, if_pos (show (t.awaiting ps).cue.measureDue = true from rfl), again]
  rfl

/-- Settles O45: the marks by the work that is left, and a measure mark by its first start. -/
theorem cueMarksCountAndReleaseStarts : Obligations.CueMarksCountAndReleaseStarts := by
  unfold Obligations.CueMarksCountAndReleaseStarts
  refine ⟨fun s powered notDue none => ?_, fun s v powered => ⟨fun cue its => ?_, fun idle => ?_⟩, fun s powered notDue => ?_,
    fun s powered due => ?_, fun s p ps d powered due starts defined none => ?_, fun s v cue powered its => ?_,
    fun s u powered done due => ?_, fun s powered due empty none => ?_⟩
  · have none := (none_due_iff s).2 none
    rw [exec_cuePeriodMark powered, cueMark_of_idle none notDue]
    refine ⟨_, rfl, rfl, rfl, rfl, rfl, rfl, fun v => ?_⟩
    exact (Tab.get_map _ _ _).trans (stepCountdown_eq _)
  · rw [exec_keyOffCountdown powered, finishCountdown_of_due ⟨_, its, rfl, rfl⟩]
    rfl
  · rw [exec_keyOffCountdown powered, finishCountdown_of_not_due]
    rintro ⟨c, its, begun, ended⟩
    obtain absent | ⟨c', its', runs⟩ := idle
    · cases absent.symm.trans its
    · cases its'.symm.trans its
      exact runs.elim (fun more => more ended) fun waits => Bool.false_ne_true (waits.symm.trans begun)
  · rw [exec_measureMark powered]
    exact congrArg _ (if_neg (ne_true_of_eq_false notDue))
  · rw [exec_measureMark powered, measure_of_due due]
    obtain ⟨starts, later, ⟨rest, voice, cue⟩, empty⟩ := cueFrame_finishMark s
    obtain ⟨_, notDue⟩ := finishMark_done s
    generalize s.finishMark = t at rest voice cue notDue
    exact ⟨t, rfl, (congrArg CueUnit.starts cue :).trans (empty due), notDue, (congrArg CueUnit.periodCount cue :),
      (congrArg State.backup rest :), (congrArg State.governor rest :), (congrArg State.save rest :), (congrArg State.supply rest :),
      (congrArg State.stream rest :), (congrArg State.mixer rest :), (congrArg CueUnit.table cue :),
      (congrArg VoiceEngine.voices voice :), (congrArg VoiceEngine.wave voice :)⟩
  · intro mark
    have first := finishMark_first ((none_due_iff s).2 none) due starts
    obtain ⟨voice, rumble, cue, sound, driven, acts, acted⟩ := mark.actParts_acted p.cue defined
    have acting : actPending s.atMeasure p = _ := actPending_of_acted acts
    have still : (actPending s.atMeasure p).corePowered = true := by
      obtain ⟨rest, _⟩ := cueFrame_actPending s.atMeasure p
      exact (congrArg State.corePowered rest :).trans powered
    refine ⟨actPending s.atMeasure p, sound, driven, ?_, ?_⟩
    · rw [exec_measureMark powered, measure_of_due due, first]
      generalize actPending s.atMeasure p = t at still
      exact ((exec_measureMark (s := t.awaiting ps) still).trans (congrArg _ (measure_of_due rfl))).symm
    · rw [acting]
      cases source : p.source with
      | request tag =>
        refine ⟨rfl, acted, ?_, ?_⟩
        · rintro _ ⟨⟩
          rfl
        · rintro _ ⟨⟩
      | event entry =>
        obtain ⟨notices, tx, told, others, notice⟩ := State.pendCue_noticed { mark with voice := voice, rumble := rumble, cue := cue }
          ⟨.acted sound driven, p.cue.val, entry⟩
        dsimp only
        rw [told]
        refine ⟨rfl, acted, ?_, ?_⟩
        · rintro _ ⟨⟩
        · rintro _ ⟨⟩
          exact ⟨rfl, others, fun on => notice.trans (if_pos on)⟩
  · intro done
    have finished : s.finishCountdown v = done := finishCountdown_of_due ⟨_, its, rfl, rfl⟩
    have same : s.finishMark = done.finishMark := by rw [← finished, finishMark_finishCountdown]
    refine ⟨?_, fun due => ?_⟩
    · rw [exec_cuePeriodMark powered, exec_cuePeriodMark (s := done) powered, cueMark_of_finishMark same]
    · rw [exec_measureMark powered, exec_measureMark (s := done) powered, measure_of_due due, measure_of_due (s := done) due, same]
  · rw [exec_measureMark powered, measure_of_due due] at done
    obtain ⟨_, _, ⟨rest, _⟩, _⟩ := cueFrame_finishMark s
    have again := cueMark_of_finishMark (finishMark_idem s).symm
    rw [exec_cuePeriodMark powered, again]
    generalize s.finishMark = m at done rest
    have still : m.corePowered = true := (congrArg State.corePowered rest :).trans powered
    cases done
    exact (exec_cuePeriodMark still).symm
  · have none := (none_due_iff s).2 none
    rw [exec_measureMark powered, measure_of_due due, finishMark_of_none none, if_pos due, empty]
    show Host.Outcome.next s.atMeasure = _
    rw [State.atMeasure, ← empty]

end Sys2Proof.Machine
end

