-- ==== Sys2Proof/Proofs/StagingAndLoad.lean ====
section
/-! SUPPORT. The staging area and Stage Load: bytes copied from one memory into another, the requests on the staging area, and the
load from its request to its end (R156, R157). -/

namespace Sys2Proof.Machine

set_option Elab.async false

/-! ## Bytes copied -/

/-- The bytes from `moved` up to `upTo` of one memory written into another. -/
def Memory.copied (m source : Memory) (moved upTo : Nat) : Memory :=
  Memory.writeBytes m moved (Memory.readBytes source moved (upTo - moved))

theorem Memory.read_writeBytes_at {m : Memory} (wf : m.wf = true) (bytes : List Byte) {address a : Nat}
    (inside : address ≤ a ∧ a < address + bytes.length) :
    Memory.read (Memory.writeBytes m address bytes) a = bytes[a - address]'(by omega) := by
  have at_ := Memory.read_writeBytes_inside bytes (m := m) (a := address) (i := a - address) (by omega) wf
  rwa [Nat.add_sub_cancel' inside.1] at at_

theorem Memory.read_copied {m : Memory} (wf : m.wf = true) (source : Memory) {moved upTo : Nat} (a : Nat) :
    Memory.read (m.copied source moved upTo) a =
      if moved ≤ a ∧ a < upTo then Memory.read source a else Memory.read m a := by
  have length := Memory.length_readBytes source moved (upTo - moved)
  unfold Memory.copied
  split
  · next inside =>
    rw [Memory.read_writeBytes_at wf _ (by rw [length]; omega)]
    simp only [Memory.readBytes_eq_map, List.getElem_map, List.getElem_range, Nat.add_sub_cancel' inside.1]
  · next outside => exact Memory.read_writeBytes_outside _ (by rw [length]; omega)

/-- A run of bytes that agree is the same run. -/
theorem Memory.readBytes_congr {m source : Memory} {n : Nat} (same : ∀ a, a < n → Memory.read m a = Memory.read source a) :
    Memory.readBytes m 0 n = Memory.readBytes source 0 n := by
  rw [Memory.readBytes_eq_map, Memory.readBytes_eq_map]
  refine List.map_congr_left fun i mem => ?_
  rw [Nat.zero_add]
  exact same i (List.mem_range.1 mem)

/-! ## The load as far as it has come -/

theorem State.copyUpTo_of_loading {s : State} (loading : s.save.state = .loading) {bank : Bank}
    (live : (s.save.entry s.save.opSlot).liveBank = some bank) (upTo : Nat) : s.copyUpTo upTo =
      { s with save := { s.save with moved := upTo }
               backup := { s.backup with store := { s.store with
                 staging := s.store.staging.copied (s.store.bank s.save.opSlot bank) s.save.moved upTo } } } := by
  unfold State.copyUpTo
  dsimp only
  rw [loading, live]
  rfl

theorem State.copyUpTo_of_copying {s : State} (copying : s.save.state = .copying) (upTo : Nat) : s.copyUpTo upTo =
      { s with save := { s.save with moved := upTo }
               backup := { s.backup with store := (s.store.writeBank s.save.opSlot s.save.target s.save.moved
                 (Memory.readBytes s.store.staging s.save.moved (upTo - s.save.moved)) : SaveStore) } } := by
  unfold State.copyUpTo
  dsimp only
  rw [copying]
  rfl

theorem State.copySoFar_of_loading {s : State} (loading : s.save.state = .loading) : s.copySoFar =
    (s.copyUpTo (copyAdvance s.save.moved s.save.length (Config.copyProgress s.freeCount))).countFree := by
  unfold State.copySoFar
  rw [loading]

/-- A copy that has not ended has come no farther than its last byte but one (log entry 7). -/
theorem copyAdvance_spec {moved length : Nat} (draw : Nat) (short : moved ≤ length) :
    moved ≤ copyAdvance moved length draw ∧ copyAdvance moved length draw ≤ length ∧
    (moved < length → copyAdvance moved length draw < length) := by
  unfold copyAdvance
  split
  · next more =>
    have := Nat.mod_lt draw (Nat.sub_pos_of_lt more)
    omega
  · next done => exact ⟨Nat.le_refl _, short, fun more => absurd more done⟩

/-! ## Stage Write and Stage Read -/

theorem locksStaging_iff (x : SaveState) : x.locksStaging = true ↔ x = .loading ∨ x = .waitReserve ∨ x = .copying := by
  cases x <;> decide

section
variable {s : State} {offset : Nat} {bytes : List Byte}

theorem takeStageWrite_outOfRange (outside : ¬rangeOk 3584 offset bytes.length = true) :
    takeStageWrite offset bytes s = refuse s .badField := by
  unfold takeStageWrite
  rw [if_pos (by rw [Bool.eq_false_iff.2 outside]; rfl)]

theorem takeStageWrite_inRange (inside : rangeOk 3584 offset bytes.length = true) : takeStageWrite offset bytes s =
    if s.save.state.locksStaging = true then refuse s .stageLocked
    else if s.supply.supply = .critical then refuse s .supplyCritical
    else accept (s.withStore { s.store with staging := Memory.writeBytes s.store.staging offset bytes })
      (.written offset bytes.length) := by
  unfold takeStageWrite
  rw [if_neg (by rw [inside]; exact Bool.false_ne_true)]

end

theorem takeStageRead_inRange {s : State} {offset count : Nat} (inside : rangeOk 3584 offset count = true) :
    takeStageRead offset count s = accept (if s.save.state = .loading then s.copySoFar else s)
      (.stageRead (Memory.readBytes (if s.save.state = .loading then s.copySoFar else s).store.staging offset count)) := if_pos inside

/-- Settles O46: by the range, what locks the staging area and the supply; Stage Read by whether a load is in progress. -/
theorem stagingIsWrittenAndRead : Obligations.StagingIsWrittenAndRead := by
  unfold Obligations.StagingIsWrittenAndRead
  refine ⟨fun s tag offset bytes serves => ?_, fun s tag offset count serves => ⟨fun outside => ?_,
    fun some few fits notLoading => ?_, fun bank some few fits loading wf live moved => ?_⟩⟩
  · intro after inRange locked
    have range : rangeOk 3584 offset bytes.length = true ↔ inRange := rangeOk_iff ..
    have locks : s.save.state.locksStaging = true ↔ locked := locksStaging_iff _
    refine ⟨fun outside => ?_, fun inside is => ?_, fun inside free critical => ?_, fun inside free notCritical wf => ?_⟩
    · exact serve_refused rfl serves (takeStageWrite_outOfRange fun ok => outside (range.1 ok))
    all_goals have taken := takeStageWrite_inRange (s := s) (range.2 inside)
    · rw [if_pos (locks.2 is)] at taken
      exact serve_refused rfl serves taken
    · rw [if_neg fun is => free (locks.1 is), if_pos critical] at taken
      exact serve_refused rfl serves taken
    · rw [if_neg fun is => free (locks.1 is), if_neg notCritical] at taken
      exact ⟨Memory.writeBytes s.store.staging offset bytes, serve_accepted rfl serves taken,
        fun i h => Memory.read_writeBytes_inside bytes h wf, fun a outside => Memory.read_writeBytes_outside bytes outside⟩
  · exact serve_refused rfl serves (if_neg ((not_rangeOk_iff ..).2 outside))
  · have taken := takeStageRead_inRange (s := s) ((rangeOk_iff ..).2 ⟨some, few, fits⟩)
    rw [if_neg notLoading, Memory.readBytes_eq_map] at taken
    exact serve_accepted rfl serves taken
  · have taken := takeStageRead_inRange (s := s) ((rangeOk_iff ..).2 ⟨some, few, fits⟩)
    rw [if_pos loading, Memory.readBytes_eq_map, State.copySoFar_of_loading loading, State.copyUpTo_of_loading loading live] at taken
    obtain ⟨atLeast, atMost, before⟩ := copyAdvance_spec (Config.copyProgress s.freeCount) moved
    exact ⟨_, _, atLeast, atMost, before, serve_accepted rfl serves taken, fun a => Memory.read_copied wf _ a⟩

/-! ## The checks that Stage Load and Slot Verify share -/

section
variable {s : State} {slot : Fin 4}

theorem liveSlotRefusal_busy (busy : s.save.state ≠ .idle) : liveSlotRefusal s slot = some .busy := if_pos busy

variable (idle : s.save.state = .idle)
include idle

theorem liveSlotRefusal_critical (critical : s.supply.supply = .critical) : liveSlotRefusal s slot = some .supplyCritical := by
  unfold liveSlotRefusal
  rw [if_neg (not_not_intro idle), if_pos critical]

variable (notCritical : s.supply.supply ≠ .critical)
include notCritical

theorem liveSlotRefusal_empty (empty : (s.save.entry slot).condition = .empty) : liveSlotRefusal s slot = some .noData := by
  unfold liveSlotRefusal
  rw [if_neg (not_not_intro idle), if_neg notCritical, empty]

theorem liveSlotRefusal_damaged (damaged : (s.save.entry slot).condition = .damaged) : liveSlotRefusal s slot = some .damaged := by
  unfold liveSlotRefusal
  rw [if_neg (not_not_intro idle), if_neg notCritical, damaged]

theorem liveSlotRefusal_none (valid : (s.save.entry slot).condition = .valid ∨ (s.save.entry slot).condition = .validFallback) :
    liveSlotRefusal s slot = none := by
  unfold liveSlotRefusal
  rw [if_neg (not_not_intro idle), if_neg notCritical]
  obtain valid | valid := valid
  · rw [valid]
  · rw [valid]

end

/-! ## Stage Load -/

theorem takeStageLoad_beyond {slot : Nat} (beyond : 4 ≤ slot) (tag : Byte) (s : State) :
    takeStageLoad tag slot s = refuse s .badField := by
  unfold takeStageLoad
  rw [number?_of_le beyond]

theorem takeStageLoad_refused {s : State} {slot : Fin 4} {status : Status} (h : liveSlotRefusal s slot = some status) (tag : Byte) :
    takeStageLoad tag slot.val s = refuse s status := by
  unfold takeStageLoad
  rw [number?_val]
  dsimp only
  rw [h]

theorem takeStageLoad_begins {s : State} {slot : Fin 4} (free : liveSlotRefusal s slot = none) {h : Header}
    (header : (s.save.entry slot).liveHeader = some h) (tag : Byte) : takeStageLoad tag slot.val s =
      defer (s.leaveIdle { s.save with state := .loading, opSlot := slot, length := h.length, moved := 0, deferredTag := tag }) := by
  unfold takeStageLoad
  rw [number?_val]
  dsimp only
  rw [free, header]
  rfl

theorem exec_loadComplete {s : State} (powered : s.corePowered = true) : exec .loadComplete s = .next s.completeLoad :=
  onCore_powered powered State.completeLoad

theorem completeLoad_of_not {s : State} (notLoading : s.save.state ≠ .loading) : s.completeLoad = s := by
  unfold State.completeLoad
  split
  · next loading _ => exact absurd loading notLoading
  · rfl

/-- Settles O47: the request by its refusals, the end of the load by the bytes copied up to the length. -/
theorem stageLoadCopiesTheLivePayload : Obligations.StageLoadCopiesTheLivePayload := by
  unfold Obligations.StageLoadCopiesTheLivePayload
  refine ⟨fun s tag slot serves beyond => serve_refused rfl serves (takeStageLoad_beyond beyond tag s),
    fun s tag slot serves => ?_, fun s powered notLoading => ?_, fun s bank h powered loading live header wf moved => ?_,
    fun s t bank sound powered loading live done a inside => ?_⟩
  · intro after e
    have refused {status : Status} (h : liveSlotRefusal s slot = some status) : after = _ :=
      serve_refused rfl serves (takeStageLoad_refused h tag)
    exact ⟨fun busy => refused (liveSlotRefusal_busy busy), fun idle critical => refused (liveSlotRefusal_critical idle critical),
      fun idle notCritical empty => refused (liveSlotRefusal_empty idle notCritical empty),
      fun idle notCritical damaged => refused (liveSlotRefusal_damaged idle notCritical damaged),
      fun h idle notCritical valid header =>
        serve_deferred rfl serves (takeStageLoad_begins (liveSlotRefusal_none idle notCritical valid) header tag)⟩
  · rw [exec_loadComplete powered, completeLoad_of_not notLoading]
  · refine ⟨_, ?_, fun a => Memory.read_copied wf (s.store.bank s.save.opSlot bank) a⟩
    rw [exec_loadComplete powered, State.completeLoad_of_loading loading header, State.copyUpTo_of_loading loading live]
    rfl
  · obtain ⟨_, _, _, _, _, copies, _⟩ := sound.save
    obtain ⟨moved, header, bank', live', same⟩ := copies loading
    obtain ⟨h, header, _⟩ := Option.map_eq_some_iff.1 header
    obtain ⟨_, ⟨wf, _⟩, _⟩ := sound.memories
    cases live.symm.trans live'
    rw [exec_loadComplete powered, State.completeLoad_of_loading loading header, State.copyUpTo_of_loading loading live] at done
    cases done
    refine (Memory.read_copied wf (s.store.bank s.save.opSlot bank) (moved := s.save.moved) (upTo := s.save.length) a).trans ?_
    split
    · rfl
    · exact same a (by omega)

end Sys2Proof.Machine
end

