-- ==== Sys2Proof/Proofs/CopyAndSeal.lean ====
section
/-! SUPPORT. The end of a commit's copy and the end of its seal (R160, R161). -/

namespace Sys2Proof.Machine

set_option Elab.async false

/-! ## The banks and the headers of a slot -/

theorem bank_writeBank_self (st : SaveStore) (slot : Fin 4) (target : Bank) (offset : Nat) (bytes : List Byte) :
    (st.writeBank slot target offset bytes).bank slot target = Memory.writeBytes (st.bank slot target) offset bytes := by
  unfold SaveStore.bank SaveStore.writeBank
  rw [Tab.get_modify_self, BankPair.get_set_self]

theorem header_writeHeader_self (st : SaveStore) (slot : Fin 4) (target : Bank) (h : Header) :
    (st.writeHeader slot target h).header slot target = h := by
  unfold SaveStore.header SaveStore.writeHeader
  rw [Tab.get_modify_self, BankPair.get_set_self]

theorem header_writeHeader_ne (st : SaveStore) {slot k : Fin 4} {target bank : Bank} (other : k ≠ slot ∨ bank ≠ target) (h : Header) :
    (st.writeHeader slot target h).header k bank = st.header k bank := by
  unfold SaveStore.header SaveStore.writeHeader
  by_cases its : slot = k
  · subst its
    rw [Tab.get_modify_self, BankPair.get_set_ne _ (other.resolve_left fun ne => ne rfl)]
  · rw [Tab.get_modify_ne _ its]

theorem payloadCheck_eq (m : Memory) (n : Nat) : payloadCheck m n = crc16 ((List.range n).map m.read) := by
  unfold payloadCheck
  rw [Memory.readBytes_eq_map]
  simp only [Nat.zero_add]

/-! ## The end of the copy -/

theorem completeCopy_of_not {s : State} (other : s.save.state ≠ .copying) : s.completeCopy = s := by
  unfold State.completeCopy
  split
  · next copying => exact absurd copying other
  · rfl

theorem completeCopy_of_copying {s : State} (copying : s.save.state = .copying) : s.completeCopy =
    { s with save := { s.save with state := .sealing, moved := s.save.length
                                   copyCheck := payloadCheck s.store.staging s.save.length }
             backup := { s.backup with store := (s.store.writeBank s.save.opSlot s.save.target s.save.moved
               (Memory.readBytes s.store.staging s.save.moved (s.save.length - s.save.moved)) : SaveStore) } } := by
  unfold State.completeCopy
  rw [copying]
  dsimp only
  rw [State.copyUpTo_of_copying copying]
  rfl

/-- The target's bytes at the end of the copy. -/
theorem completeCopy_read {s : State} (copying : s.save.state = .copying) (wf : (s.store.bank s.save.opSlot s.save.target).wf = true)
    (a : Nat) : (s.completeCopy.store.bank s.save.opSlot s.save.target).read a =
      if s.save.moved ≤ a ∧ a < s.save.length then s.store.staging.read a
      else (s.store.bank s.save.opSlot s.save.target).read a := by
  rw [completeCopy_of_copying copying]
  refine Eq.trans ?_ (Memory.read_copied wf s.store.staging a)
  exact congrArg (Memory.read · a) (bank_writeBank_self ..)

theorem exec_copyComplete {s : State} (powered : s.corePowered = true) : exec .copyComplete s = .next s.completeCopy :=
  onCore_powered powered State.completeCopy

/-! ## The end of the seal -/

theorem completeSeal_of_not {s : State} (other : s.save.state ≠ .sealing) : s.completeSeal = s := by
  unfold State.completeSeal
  split
  · next sealing => exact absurd sealing other
  · rfl

theorem exec_sealComplete {s : State} (powered : s.corePowered = true) : exec .sealComplete s = .next s.completeSeal :=
  onCore_powered powered State.completeSeal

/-- The entry of the slot after a seal (R161). -/
theorem sealed_spec (e : SlotEntry) (target : Bank) (h : Header) :
    (e.sealed target h).standings.get target = .live ∧
    (e.liveBank = some target.other → (e.sealed target h).standings.get target.other = .validOlder) ∧
    (e.liveBank = none → (e.sealed target h).standings.get target.other = e.standings.get target.other) := by
  have distinct : target.other ≠ target := by cases target <;> nofun
  unfold SlotEntry.sealed
  refine ⟨BankPair.get_set_self .., fun former => ?_, fun none => ?_⟩
  · refine (BankPair.get_set_ne _ distinct _).trans ?_
    rw [former]
    exact BankPair.get_set_self ..
  · refine (BankPair.get_set_ne _ distinct _).trans ?_
    rw [none]

/-- Settles O49: the copy's end and the seal's end, each by its state; the whole payload by what the invariant says of the part
copied before. -/
theorem copyAndSealMakeTheTargetLive : Obligations.CopyAndSealMakeTheTargetLive := by
  unfold Obligations.CopyAndSealMakeTheTargetLive
  refine ⟨fun s powered => ⟨fun other => ?_, fun other => ?_⟩, fun s powered copying moved wf => ?_, fun s powered sealing => ?_,
    fun s t sound powered => ⟨fun copying done a inside => ?_, fun sealing done => ?_⟩⟩
  · rw [exec_copyComplete powered, completeCopy_of_not other]
  · rw [exec_sealComplete powered, completeSeal_of_not other]
  · have reads := completeCopy_read copying wf
    rw [completeCopy_of_copying copying] at reads
    rw [exec_copyComplete powered, completeCopy_of_copying copying, payloadCheck_eq] at *
    exact ⟨_, rfl, rfl, rfl, rfl, rfl, fun slot bank other => SaveStore.bank_writeBank_ne _ other _ _, reads⟩
  · intro slot target e h
    obtain ⟨live, older, kept⟩ := sealed_spec e target h
    rw [exec_sealComplete powered, State.completeSeal_of_sealing sealing]
    refine ⟨_, rfl, rfl, rfl, rfl, fun k other => Tab.get_set_ne _ (Ne.symm other) _, ?_, rfl, rfl, header_writeHeader_self ..,
      fun k bank other => header_writeHeader_ne _ other _⟩
    intro e'
    have entry : e' = e.sealed target h := Tab.get_set_self ..
    rw [entry]
    exact ⟨rfl, rfl, rfl, rfl, live, older, kept⟩
  · obtain ⟨_, _, _, _, _, _, copies, _⟩ := sound.save
    obtain ⟨moved, same⟩ := copies copying
    obtain ⟨_, _, banks, _⟩ := sound.memories
    obtain ⟨wf, _⟩ := banks s.save.opSlot s.save.target
    rw [exec_copyComplete powered] at done
    cases done
    rw [completeCopy_read copying wf]
    split
    · rfl
    · exact same a (by omega)
  · obtain ⟨_, _, _, _, _, _, _, checked⟩ := sound.save
    rw [exec_sealComplete powered, State.completeSeal_of_sealing sealing] at done
    cases done
    refine (congrArg (fun h => bankValid h (s.store.bank s.save.opSlot s.save.target)) (header_writeHeader_self ..)).trans ?_
    have good : s.sealedHeader.good = true := rfl
    unfold bankValid
    rw [good, Bool.true_and]
    exact beq_iff_eq.2 (checked sealing).symm

end Sys2Proof.Machine
end

