-- ==== Sys2Proof/Proofs/SlotRequests.lean ====
section
/-! SUPPORT. The requests on the slots: Slot Read, Slot Info, Slot Erase, and Slot Verify with its end (R163 to R165). -/

namespace Sys2Proof.Machine

set_option Elab.async false

/-! ## Slot Read, Slot Info, Slot Erase -/

theorem takeSlotRead_beyond {slot : Nat} (beyond : 4 ≤ slot) (offset count : Nat) (s : State) :
    takeSlotRead slot offset count s = refuse s .badField := by
  unfold takeSlotRead
  rw [number?_of_le beyond]

theorem takeSlotInfo_beyond {slot : Nat} (beyond : 4 ≤ slot) (s : State) : takeSlotInfo slot s = refuse s .badField := by
  unfold takeSlotInfo
  rw [number?_of_le beyond]

theorem takeSlotErase_beyond {slot : Nat} (beyond : 4 ≤ slot) (s : State) : takeSlotErase slot s = refuse s .badField := by
  unfold takeSlotErase
  rw [number?_of_le beyond]

theorem takeSlotInfo_val (slot : Fin 4) (s : State) : takeSlotInfo slot.val s =
    accept s (.slotInfo slot.val (s.save.entry slot) ((s.save.entry slot).liveHeader.map Header.check)) := by
  unfold takeSlotInfo
  rw [number?_val]

section
variable {s : State} {slot : Fin 4} {offset count : Nat}

theorem takeSlotRead_outOfRange (outside : ¬(offset ≤ 3583 ∧ 1 ≤ count ∧ count ≤ 64)) :
    takeSlotRead slot.val offset count s = refuse s .badField := by
  unfold takeSlotRead
  rw [number?_val]
  exact if_pos outside

variable (inRange : offset ≤ 3583 ∧ 1 ≤ count ∧ count ≤ 64)
include inRange

theorem takeSlotRead_empty (empty : (s.save.entry slot).condition = .empty) :
    takeSlotRead slot.val offset count s = refuse s .noData := by
  unfold takeSlotRead
  rw [number?_val]
  dsimp only
  rw [if_neg (not_not_intro inRange), empty]

theorem takeSlotRead_damaged (damaged : (s.save.entry slot).condition = .damaged) :
    takeSlotRead slot.val offset count s = refuse s .damaged := by
  unfold takeSlotRead
  rw [number?_val]
  dsimp only
  rw [if_neg (not_not_intro inRange), damaged]

theorem takeSlotRead_valid {bank : Bank} {h : Header}
    (valid : (s.save.entry slot).condition = .valid ∨ (s.save.entry slot).condition = .validFallback)
    (live : (s.save.entry slot).liveBank = some bank) (header : (s.save.entry slot).liveHeader = some h) :
    takeSlotRead slot.val offset count s = accept s (.slotRead slot.val offset
      ((List.range (min count (h.length - offset))).map fun i => (s.store.bank slot bank).read (offset + i)) h.generation) := by
  rw [← Memory.readBytes_eq_map]
  unfold takeSlotRead
  rw [number?_val]
  dsimp only
  rw [if_neg (not_not_intro inRange), live, header]
  obtain valid | valid := valid
  · rw [valid]
  · rw [valid]

end

section
variable {s : State} {slot : Fin 4}

theorem takeSlotErase_busy (busy : s.save.state ≠ .idle) : takeSlotErase slot.val s = refuse s .busy := by
  unfold takeSlotErase
  rw [number?_val]
  exact if_pos busy

theorem takeSlotErase_critical (idle : s.save.state = .idle) (critical : s.supply.supply = .critical) :
    takeSlotErase slot.val s = refuse s .supplyCritical := by
  unfold takeSlotErase
  rw [number?_val]
  dsimp only
  rw [if_neg (not_not_intro idle), if_pos critical]

theorem takeSlotErase_erases (idle : s.save.state = .idle) (notCritical : s.supply.supply ≠ .critical) :
    takeSlotErase slot.val s = accept ((s.withSave (s.save.setEntry slot .emptied)).withStore
      { s.store with headers := s.store.headers.set slot ⟨.invalid, .invalid⟩ }) .none := by
  unfold takeSlotErase
  rw [number?_val]
  dsimp only
  rw [if_neg (not_not_intro idle), if_neg notCritical]

end

/-- Settles O50: each request by its refusals and by the slot's condition. -/
theorem slotsAreReadReportedAndErased : Obligations.SlotsAreReadReportedAndErased := by
  unfold Obligations.SlotsAreReadReportedAndErased
  refine ⟨fun s tag slot offset count beyond => ⟨fun serves => serve_refused rfl serves (takeSlotRead_beyond beyond offset count s),
      fun serves => serve_refused rfl serves (takeSlotInfo_beyond beyond s),
      fun serves => serve_refused rfl serves (takeSlotErase_beyond beyond s)⟩,
    fun s tag slot => ⟨fun serves => ⟨_, serve_accepted rfl serves (takeSlotInfo_val slot s)⟩, fun offset count serves => ?_,
      fun serves => ?_⟩⟩
  · exact ⟨fun outside => serve_refused rfl serves (takeSlotRead_outOfRange outside),
      fun inRange empty => serve_refused rfl serves (takeSlotRead_empty inRange empty),
      fun inRange damaged => serve_refused rfl serves (takeSlotRead_damaged inRange damaged),
      fun bank h inRange valid live header => serve_accepted rfl serves (takeSlotRead_valid inRange valid live header)⟩
  · exact ⟨fun busy => serve_refused rfl serves (takeSlotErase_busy busy),
      fun idle critical => serve_refused rfl serves (takeSlotErase_critical idle critical),
      fun idle notCritical => serve_accepted rfl serves (takeSlotErase_erases idle notCritical)⟩

/-! ## Slot Verify -/

theorem takeSlotVerify_beyond {slot : Nat} (beyond : 4 ≤ slot) (tag : Byte) (s : State) :
    takeSlotVerify tag slot s = refuse s .badField := by
  unfold takeSlotVerify
  rw [number?_of_le beyond]

theorem takeSlotVerify_refused {s : State} {slot : Fin 4} {status : Status} (h : liveSlotRefusal s slot = some status) (tag : Byte) :
    takeSlotVerify tag slot.val s = refuse s status := by
  unfold takeSlotVerify
  rw [number?_val]
  dsimp only
  rw [h]

theorem takeSlotVerify_begins {s : State} {slot : Fin 4} (free : liveSlotRefusal s slot = none) (tag : Byte) :
    takeSlotVerify tag slot.val s = defer (s.leaveIdle { s.save with state := .verifying, opSlot := slot, deferredTag := tag }) := by
  unfold takeSlotVerify
  rw [number?_val]
  dsimp only
  rw [free]

theorem exec_verifyComplete {s : State} (powered : s.corePowered = true) : exec .verifyComplete s = .next s.completeVerify :=
  onCore_powered powered State.completeVerify

theorem completeVerify_of_not {s : State} (other : s.save.state ≠ .verifying) : s.completeVerify = s := by
  unfold State.completeVerify
  split
  · next verifying => exact absurd verifying other
  · rfl

/-- A verify of a slot with a live bank (R164). -/
theorem verifyOutcome_of_live {e : SlotEntry} {live : Bank} {h : Header} (bank : e.liveBank = some live)
    (header : e.liveHeader = some h) (st : SaveStore) (slot : Fin 4) : verifyOutcome st slot e =
      if crc16 ((List.range h.length).map (st.bank slot live).read) = h.payloadCheck then (.matched, e)
      else (if st.valid slot live.other = true then .fellBack else .damaged,
        e.failedVerify live h (st.header slot live.other) (st.valid slot live.other)) := by
  unfold verifyOutcome
  rw [bank, header]
  dsimp only
  rw [payloadCheck_eq]

/-- The entry after a failed verify whose other bank is valid. -/
theorem failedVerify_valid (e : SlotEntry) (live : Bank) (h other : Header) :
    let e' := e.failedVerify live h other true
    e'.highest = e.highest ∧ e'.liveBank = some live.other ∧ e'.liveHeader = some other ∧ e'.standings.get live = .invalid ∧
    e'.standings.get live.other = .live ∧
    e'.condition = if other.generation < h.generation then .validFallback else .valid := by
  have distinct : live ≠ live.other := by cases live <;> nofun
  exact ⟨rfl, rfl, rfl, (BankPair.get_set_ne _ distinct _).trans (BankPair.get_set_self ..), BankPair.get_set_self .., rfl⟩

theorem failedVerify_invalid (e : SlotEntry) (live : Bank) (h other : Header) :
    let e' := e.failedVerify live h other false
    e'.highest = e.highest ∧ e'.liveBank = none ∧ e'.liveHeader = none ∧ e'.condition = .damaged ∧
    e'.standings.get live = .invalid ∧ e'.standings.get live.other = e.standings.get live.other :=
  have distinct : live.other ≠ live := by cases live <;> nofun
  ⟨rfl, rfl, rfl, rfl, BankPair.get_set_self .., BankPair.get_set_ne _ distinct _⟩

/-- Settles O51: the request by its refusals, its end by whether the payload matches and by the other bank. -/
theorem slotVerifyChecksTheLivePayload : Obligations.SlotVerifyChecksTheLivePayload := by
  unfold Obligations.SlotVerifyChecksTheLivePayload
  refine ⟨fun s tag slot serves beyond => serve_refused rfl serves (takeSlotVerify_beyond beyond tag s), fun s tag slot serves => ?_,
    fun s powered other => ?_, fun s live h powered verifying bank header => ?_⟩
  · intro after e
    have refused {status : Status} (h : liveSlotRefusal s slot = some status) : after = _ :=
      serve_refused rfl serves (takeSlotVerify_refused h tag)
    exact ⟨fun busy => refused (liveSlotRefusal_busy busy), fun idle critical => refused (liveSlotRefusal_critical idle critical),
      fun idle notCritical empty => refused (liveSlotRefusal_empty idle notCritical empty),
      fun idle notCritical damaged => refused (liveSlotRefusal_damaged idle notCritical damaged),
      fun idle notCritical valid => serve_deferred rfl serves (takeSlotVerify_begins (liveSlotRefusal_none idle notCritical valid) tag)⟩
  · rw [exec_verifyComplete powered, completeVerify_of_not other]
  · intro slot e matches' other
    have outcome := verifyOutcome_of_live bank header s.store slot
    generalize found : verifyOutcome s.store slot e = result at outcome
    obtain ⟨result, e''⟩ := result
    refine ⟨s.verified e'', result, ?_, rfl, rfl,
      (congrArg (fun x : SaveState => { s.save with state := x }) verifying.symm :), rfl, fun k ne => Tab.get_set_ne _ (Ne.symm ne) _, ?_⟩
    · rw [exec_verifyComplete powered, State.completeVerify_of_verifying verifying found]
      have entry : (s.verified e'').save.entry slot = e'' := Tab.get_set_self ..
      rw [entry]
      rfl
    · intro e'
      have entry : e' = e'' := Tab.get_set_self ..
      rw [entry]
      by_cases same : matches'
      · rw [if_pos same] at outcome
        cases outcome
        exact ⟨rfl, fun _ => ⟨rfl, rfl⟩, fun differs => absurd same differs, fun differs => absurd same differs⟩
      · rw [if_neg same] at outcome
        cases valid : s.store.valid slot live.other
        · rw [valid, if_neg Bool.false_ne_true] at outcome
          cases outcome
          obtain ⟨highest, rest⟩ := failedVerify_invalid e live h other
          exact ⟨highest, fun its => absurd its same, fun _ its => absurd its Bool.false_ne_true, fun _ _ => ⟨rfl, rest⟩⟩
        · rw [valid, if_pos rfl] at outcome
          cases outcome
          obtain ⟨highest, rest⟩ := failedVerify_valid e live h other
          exact ⟨highest, fun its => absurd its same, fun _ _ => ⟨rfl, rest⟩, fun _ its => absurd its.symm Bool.false_ne_true⟩

end Sys2Proof.Machine
end

