-- ==== Sys2Proof/Proofs/FramesOnTheWire.lean ====
section
/-! SUPPORT. A frame's bytes through the deframer: stuffing, the bytes taken in one after another, and the delimiter that closes the
frame (R168, R170). -/

namespace Sys2Proof.Machine

set_option Elab.async false

/-! ## Stuffing -/

theorem stuffByte_special {b : Byte} (special : b = escapeByte ∨ b = delimiterByte) : stuffByte b = [escapeByte, b ^^^ 0x20] :=
  if_pos special

theorem stuffByte_plain {b : Byte} (plain : ¬(b = escapeByte ∨ b = delimiterByte)) : stuffByte b = [b] := if_neg plain

theorem delimiter_not_mem_stuffByte (b : Byte) : delimiterByte ∉ stuffByte b := by
  by_cases special : b = escapeByte ∨ b = delimiterByte
  · rw [stuffByte_special special]
    obtain rfl | rfl := special
    · decide
    · decide
  · rw [stuffByte_plain special, List.mem_singleton]
    exact fun same => special (.inr same.symm)

theorem delimiter_not_mem_stuffedFrame (kind tag : Byte) (body : List Byte) : delimiterByte ∉ stuffedFrame kind tag body := by
  intro mem
  obtain ⟨b, _, inside⟩ := List.mem_flatMap.1 mem
  exact delimiter_not_mem_stuffByte b inside

theorem stuffByte_ne_nil (b : Byte) : stuffByte b ≠ [] := by
  by_cases special : b = escapeByte ∨ b = delimiterByte
  · rw [stuffByte_special special]
    exact List.cons_ne_nil _ _
  · rw [stuffByte_plain special]
    exact List.cons_ne_nil _ _

/-! ## Bytes one after another -/

/-- The deframer takes these bytes in, and no frame ends among them. -/
def Deframer.Takes (d : Deframer) (bytes : List Byte) (after : Deframer) : Prop := d.bytes bytes = (after, [])

theorem Deframer.Takes.nil (d : Deframer) : d.Takes [] d := rfl

theorem Deframer.Takes.cons {d d' after : Deframer} {b : Byte} {bs : List Byte} (first : d.byte b = (d', none))
    (rest : d'.Takes bs after) : d.Takes (b :: bs) after := by
  unfold Deframer.Takes at rest ⊢
  rw [Deframer.bytes, first]
  dsimp only
  rw [rest]
  rfl

/-- The first of the bytes taken in ends no frame. -/
theorem Deframer.Takes.uncons {d after : Deframer} {b : Byte} {bs : List Byte} (h : d.Takes (b :: bs) after) :
    ∃ d', d.byte b = (d', none) ∧ d'.Takes bs after := by
  unfold Deframer.Takes at h
  rw [Deframer.bytes] at h
  obtain ⟨same, silent⟩ := Prod.mk.inj h
  obtain ⟨none, noEvents⟩ := List.append_eq_nil_iff.1 silent
  exact ⟨(d.byte b).1, Prod.ext rfl (Option.toList_eq_nil_iff.1 none), Prod.ext same noEvents⟩

theorem Deframer.Takes.append {d' after : Deframer} {as : List Byte} :
    ∀ {d : Deframer}, d.Takes as d' → ∀ {bs : List Byte}, d'.Takes bs after → d.Takes (as ++ bs) after := by
  induction as with
  | nil =>
    intro d first bs rest
    cases first
    exact rest
  | cons a as ih =>
    intro d first bs rest
    obtain ⟨d₁, byte, others⟩ := first.uncons
    exact .cons byte (ih others rest)

/-- Bytes taken in, and then one byte that ends a frame. -/
theorem Deframer.bytes_of_takes {d' after : Deframer} {event : RxEvent} {b : Byte} : ∀ {as : List Byte} {d : Deframer},
    d.Takes as d' → d'.byte b = (after, some event) → d.bytes (as ++ [b]) = (after, [event])
  | [], _, first, last => by
    cases first
    rw [List.nil_append, Deframer.bytes, last]
    rfl
  | a :: as, d, first, last => by
    obtain ⟨d₁, byte, others⟩ := first.uncons
    rw [List.cons_append, Deframer.bytes, byte]
    dsimp only
    rw [Deframer.bytes_of_takes others last]
    rfl

/-! ## A stuffed frame -/

/-- One unstuffed byte of a frame comes in whole. -/
theorem takes_stuffByte {bytes : List Byte} (room : bytes.length < 76) (b : Byte) :
    (Deframer.inFrame bytes false).Takes (stuffByte b) (.inFrame (bytes ++ [b]) false) := by
  have added (c : Byte) : addByte bytes c = (.inFrame (bytes ++ [c]) false, none) := if_neg (Nat.not_le.2 room)
  by_cases special : b = escapeByte ∨ b = delimiterByte
  · rw [stuffByte_special special]
    refine .cons (d' := .inFrame bytes true) rfl (.cons ?_ (.nil _))
    obtain rfl | rfl := special
    · exact added escapeByte
    · exact added delimiterByte
  · obtain ⟨notEscape, notDelimiter⟩ := not_or.1 special
    rw [stuffByte_plain special]
    refine .cons ?_ (.nil _)
    show frameByte bytes false b = _
    unfold frameByte
    rw [if_neg Bool.false_ne_true, if_neg notDelimiter, if_neg notEscape, added]

theorem takes_stuffed : ∀ {l bytes : List Byte}, bytes.length + l.length ≤ 76 →
    (Deframer.inFrame bytes false).Takes (l.flatMap stuffByte) (.inFrame (bytes ++ l) false)
  | [], bytes, _ => by
    rw [List.append_nil]
    exact .nil _
  | b :: l, bytes, room => by
    rw [List.length_cons] at room
    have rest := takes_stuffed (l := l) (bytes := bytes ++ [b]) (by rw [List.length_append, List.length_singleton]; omega)
    rw [List.append_assoc] at rest
    rw [List.flatMap_cons]
    exact .append (takes_stuffByte (by omega) b) rest

/-- Between two frames the first byte other than a delimiter begins a frame. -/
theorem between_byte {b : Byte} (other : b ≠ delimiterByte) : Deframer.between.byte b = (Deframer.inFrame [] false).byte b :=
  if_neg other

theorem takes_between {b : Byte} {bs : List Byte} {after : Deframer} (other : b ≠ delimiterByte)
    (h : (Deframer.inFrame [] false).Takes (b :: bs) after) : Deframer.between.Takes (b :: bs) after := by
  obtain ⟨d', first, rest⟩ := h.uncons
  exact .cons ((between_byte other).trans first) rest

/-- The unstuffed bytes of a frame: kind, tag, body and check. -/
def frameBytes (kind tag : Byte) (body : List Byte) : List Byte := kind :: tag :: body ++ checkBytes (kind :: tag :: body)

theorem takes_stuffedFrame {body : List Byte} (length : body.length ≤ 72) (kind tag : Byte) :
    Deframer.between.Takes (stuffedFrame kind tag body) (.inFrame (frameBytes kind tag body) false) := by
  have inside : (Deframer.inFrame [] false).Takes (stuffedFrame kind tag body) (.inFrame (frameBytes kind tag body) false) :=
    takes_stuffed (l := frameBytes kind tag body) (by
      simp only [frameBytes, checkBytes, List.length_append, List.length_cons, List.length_nil]
      omega)
  have none := delimiter_not_mem_stuffedFrame kind tag body
  cases bytes : stuffedFrame kind tag body with
  | nil =>
    have first : stuffByte kind = [] := (List.append_eq_nil_iff.1 bytes).1
    exact absurd first (stuffByte_ne_nil kind)
  | cons b bs =>
    rw [bytes] at inside none
    exact takes_between (fun same => none (same ▸ List.mem_cons_self)) inside

/-- The bytes of a frame give back its kind, its tag and its body. -/
theorem closeFrame_frameBytes (kind tag : Byte) (body : List Byte) :
    closeFrame (frameBytes kind tag body) = .goodFrame kind tag body := by
  have check : (checkBytes (kind :: tag :: body)).length = 2 := rfl
  have all : (frameBytes kind tag body).length = (kind :: tag :: body).length + 2 := by
    rw [frameBytes, List.length_append, check]
  have whole : closeFrame (frameBytes kind tag body) =
      if (frameBytes kind tag body).length < 4 then .discarded .short
      else if checkBytes ((frameBytes kind tag body).take ((frameBytes kind tag body).length - 2)) =
          (frameBytes kind tag body).drop ((frameBytes kind tag body).length - 2) then
        .goodFrame kind tag ((body ++ checkBytes (kind :: tag :: body)).take ((body ++ checkBytes (kind :: tag :: body)).length - 2))
      else .discarded .badCheck := rfl
  rw [whole, if_neg (by rw [all, List.length_cons, List.length_cons]; omega), all, Nat.add_sub_cancel, frameBytes, List.take_left,
    List.drop_left, if_pos rfl, List.length_append, check, Nat.add_sub_cancel, List.take_left]

theorem frame_closes (kind tag : Byte) (body : List Byte) :
    (Deframer.inFrame (frameBytes kind tag body) false).byte delimiterByte = (.between, some (.goodFrame kind tag body)) := by
  rw [← closeFrame_frameBytes kind tag body]
  rfl

end Sys2Proof.Machine
end

