-- ==== Sys2Proof/Proofs/ByteExchange.lean ====
section
/-! SUPPORT. The link bit by bit: the frame's bytes acting one after another as the frame's row does, the eight clocks that exchange a
byte, and the byte boundary at which a frame ends and the next one starts (R167, R170, R173). -/

namespace Sys2Proof.Machine

set_option Elab.async false

/-! ## A frame received byte by byte -/

/-- The link with another state of the deframer. -/
def State.hearing (s : State) (d : Deframer) : State := s.withLink { s.link with deframer := d }

theorem receiveByte_silent {s : State} {b : Byte} {d : Deframer} (h : s.link.deframer.byte b = (d, none)) :
    s.receiveByte b = s.hearing d := by
  unfold State.receiveByte
  rw [h]
  rfl

theorem receiveByte_good {s : State} {b kind tag : Byte} {body : List Byte} {d : Deframer}
    (h : s.link.deframer.byte b = (d, some (.goodFrame kind tag body))) : s.receiveByte b = (s.hearing d).classify kind tag body := by
  unfold State.receiveByte
  rw [h]
  rfl

/-- Bytes taken in change the deframer alone. -/
theorem foldl_receiveByte_silent : ∀ {bytes : List Byte} {s : State} {d : Deframer}, s.link.deframer.Takes bytes d →
    bytes.foldl State.receiveByte s = s.hearing d
  | [], s, _, h => by
    cases h
    rfl
  | b :: bytes, s, d, h => by
    obtain ⟨d', first, rest⟩ := h.uncons
    rw [List.foldl_cons, receiveByte_silent first, foldl_receiveByte_silent (s := s.hearing d') rest]
    rfl

/-- The bytes of a frame act when the last one has come. -/
theorem foldl_receiveByte_wireFrame {s : State} (between : s.link.deframer = .between) {body : List Byte} (length : body.length ≤ 72)
    (kind tag : Byte) : (wireFrame kind tag body).foldl State.receiveByte s = (s.hearing .between).classify kind tag body := by
  have taken : s.link.deframer.Takes (stuffedFrame kind tag body) _ := between ▸ takes_stuffedFrame length kind tag
  rw [wireFrame, List.foldl_append, foldl_receiveByte_silent taken]
  exact receiveByte_good (s := s.hearing (.inFrame (frameBytes kind tag body) false)) (frame_closes kind tag body)

theorem classify_badKind {kind : Byte} (bad : kind = 0 ∨ 0x40 ≤ kind.toNat) (s : State) (tag : Byte) (body : List Byte) :
    s.classify kind tag body = s.withLink (s.link.count fun c => c.discard .badKind) := by
  have notBlock : kind ≠ 0x3F := by
    rintro rfl
    exact absurd bad (by decide)
  have notRequest : ¬(0x01 ≤ kind.toNat ∧ kind.toNat ≤ 0x3E) := by
    rintro ⟨low, high⟩
    obtain rfl | above := bad
    · exact absurd low (by decide)
    · omega
  unfold State.classify
  rw [if_neg notBlock, if_neg notRequest]

/-! ## Eight clocks -/

/-- The receiver's shift register after a bit, most significant bit first. -/
def shiftBit (x : Byte) (ldi : Bool) : Byte := (x <<< 1) ||| (if ldi then 1 else 0)

theorem getLsbD_shiftBit (x : Byte) (ldi : Bool) {i : Nat} (h : i < 8) :
    (shiftBit x ldi).getLsbD i = if i = 0 then ldi else x.getLsbD (i - 1) := by
  unfold shiftBit
  cases i with
  | zero => cases ldi <;> simp
  | succ i =>
    have inside : i < 8 := by omega
    cases ldi <;> simp [h, BitVec.getLsbD_eq_getElem inside]

/-- After eight bits of a byte the register holds it, whatever it held before. -/
theorem shiftBit_eight (x b : Byte) : [b.getMsbD 0, b.getMsbD 1, b.getMsbD 2, b.getMsbD 3, b.getMsbD 4, b.getMsbD 5, b.getMsbD 6,
    b.getMsbD 7].foldl shiftBit x = b := by
  refine BitVec.eq_of_getLsbD_eq fun i h => ?_
  simp only [List.foldl_cons, List.foldl_nil]
  interval_cases i
  all_goals
    simp only [getLsbD_shiftBit, Nat.reduceLT, Nat.reduceSub, Nat.reduceEqDiff, if_true, if_false]
    exact BitVec.getMsbD_eq_getLsbD ..

section
variable {s : State}

/-- The bits exchanged so far, the register and the level on LDO. -/
def State.exchanging (s : State) (count : Nat) (shiftIn : Byte) (ldo : Bool) : State :=
  s.withLink { s.link with bitCount := count, shiftIn := shiftIn, ldo := ldo }

theorem clock_nil (s : State) : s.clock [] = ([], s) := rfl

theorem clock_cons (s : State) (ldi : Bool) (bits : List Bool) : s.clock (ldi :: bits) =
    (s.lckFall.ldoPin :: ((s.lckFall.lckRise ldi).clock bits).1, ((s.lckFall.lckRise ldi).clock bits).2) := rfl

section
variable (selected : s.Selected) {count : Nat} {x : Byte} {ldo : Bool}
include selected

theorem lckFall_exchanging : (s.exchanging count x ldo).lckFall = s.exchanging count x (s.link.sendingByte.getMsbD count) :=
  if_pos (Bool.and_eq_true_iff.2 selected)

theorem ldoPin_exchanging : (s.exchanging count x ldo).ldoPin = some ldo := if_pos (Bool.and_eq_true_iff.2 selected)

theorem lckRise_exchanging (ldi : Bool) : (s.exchanging count x ldo).lckRise ldi =
    if count < 7 then s.exchanging (count + 1) (shiftBit x ldi) ldo
    else ((s.exchanging 0 0 ldo).receiveByte (shiftBit x ldi)).sentByte := if_pos (Bool.and_eq_true_iff.2 selected)

/-- One clock of the first seven. -/
theorem clock_exchanging (more : count < 7) (ldi : Bool) (bits : List Bool) : (s.exchanging count x ldo).clock (ldi :: bits) =
    (some (s.link.sendingByte.getMsbD count) ::
      ((s.exchanging (count + 1) (shiftBit x ldi) (s.link.sendingByte.getMsbD count)).clock bits).1,
    ((s.exchanging (count + 1) (shiftBit x ldi) (s.link.sendingByte.getMsbD count)).clock bits).2) := by
  rw [clock_cons, lckFall_exchanging selected, ldoPin_exchanging selected, lckRise_exchanging selected, if_pos more]

/-- The eighth clock. -/
theorem clock_exchanging_last (ldi : Bool) : (s.exchanging 7 x ldo).clock [ldi] =
    ([some (s.link.sendingByte.getMsbD 7)],
      ((s.exchanging 0 0 (s.link.sendingByte.getMsbD 7)).receiveByte (shiftBit x ldi)).sentByte) := by
  rw [clock_cons, lckFall_exchanging selected, ldoPin_exchanging selected, lckRise_exchanging selected, if_neg (by decide), clock_nil]

end

/-- Eight clocks exchange one byte each way. -/
theorem clock_byte (boundary : s.AtByteBoundary) (b : Byte) :
    s.clock ((List.range 8).map b.getMsbD) = ((List.range 8).map fun i => some (s.link.sendingByte.getMsbD i),
      ((s.exchanging 0 0 (s.link.sendingByte.getMsbD 7)).receiveByte b).sentByte) := by
  obtain ⟨selected, aligned⟩ := boundary
  have start : s = s.exchanging 0 s.link.shiftIn s.link.ldo := by
    rw [State.exchanging, ← aligned]
    rfl
  have bits : (List.range 8).map b.getMsbD = [b.getMsbD 0, b.getMsbD 1, b.getMsbD 2, b.getMsbD 3, b.getMsbD 4, b.getMsbD 5,
    b.getMsbD 6, b.getMsbD 7] := rfl
  have whole := shiftBit_eight s.link.shiftIn b
  simp only [List.foldl_cons, List.foldl_nil] at whole
  calc s.clock ((List.range 8).map b.getMsbD)
      = (s.exchanging 0 s.link.shiftIn s.link.ldo).clock [b.getMsbD 0, b.getMsbD 1, b.getMsbD 2, b.getMsbD 3, b.getMsbD 4,
          b.getMsbD 5, b.getMsbD 6, b.getMsbD 7] := by rw [bits, ← start]
    _ = _ := by
      rw [clock_exchanging selected (by decide), clock_exchanging selected (by decide), clock_exchanging selected (by decide),
        clock_exchanging selected (by decide), clock_exchanging selected (by decide), clock_exchanging selected (by decide),
        clock_exchanging selected (by decide), clock_exchanging_last selected, whole]
      rfl

/-- Without a selection the clocks change nothing. -/
theorem clock_unselected (unselected : s.corePowered = false ∨ s.link.lselLow = false) : ∀ bits : List Bool,
    s.clock bits = (bits.map fun _ => none, s)
  | [] => rfl
  | ldi :: bits => by
    have off : (s.corePowered && s.link.lselLow) = false := Bool.and_eq_false_iff.2 unselected
    have fall : s.lckFall = s := if_neg (ne_true_of_eq_false off)
    have rise : s.lckRise ldi = s := if_neg (ne_true_of_eq_false off)
    have pin : s.ldoPin = none := if_neg (ne_true_of_eq_false off)
    rw [clock_cons, fall, rise, pin, clock_unselected unselected bits]
    rfl

end

/-! ## The byte boundary -/

theorem sentByte_of_more {s : State} {b : Byte} {bs : List Byte} (out : s.link.out = b :: bs) (more : bs ≠ []) :
    s.sentByte = { s with link := { s.link with out := bs, delimiterSent := s.link.delimiterSent || decide (b = 0xF9) } } := by
  have sending : s.link.sendingByte = b := by
    rw [Link.sendingByte, out]
    rfl
  unfold State.sentByte
  rw [out, sending]
  exact if_neg fun empty => more (List.isEmpty_iff.1 empty)

theorem sentByte_of_last {s : State} (out : s.link.out.tail = []) : s.sentByte =
    (s.withLink { s.link with out := []
                              delimiterSent := s.link.delimiterSent || decide (s.link.sendingByte = delimiterByte) }).completeFrame.startFrame := by
  unfold State.sentByte
  rw [out]
  rfl

/-- The completion of a frame drops what is left to send, and stays at the byte boundary. -/
theorem completeFrame_spec {s : State} {c : TxContent} (tx : s.link.tx = some ⟨c, true⟩) :
    (s.withLink { s.link with out := [] }).completeFrame = s.completeFrame ∧
    s.completeFrame.corePowered = s.corePowered ∧ s.completeFrame.link.lselLow = s.link.lselLow ∧
    s.completeFrame.link.bitCount = s.link.bitCount := by
  cases c with
  | reply r =>
    rw [State.completeFrame_of_reply (s := s.withLink { s.link with out := [] }) tx, State.completeFrame_of_reply tx]
    cases waiting : s.link.waiting with
    | nil =>
      rw [Link.completeReply_of_nil waiting, Link.completeReply_of_nil (l := (s.withLink { s.link with out := [] }).link) waiting]
      exact ⟨rfl, rfl, rfl, rfl⟩
    | cons w ws =>
      rw [Link.completeReply_of_cons waiting, Link.completeReply_of_cons (l := (s.withLink { s.link with out := [] }).link) waiting]
      exact ⟨rfl, rfl, rfl, rfl⟩
  | notice f =>
    rw [State.completeFrame_of_notice (s := s.withLink { s.link with out := [] }) tx, State.completeFrame_of_notice tx]
    refine ⟨rfl, ?_⟩
    by_cases other : f.live = false ∨ f.content.kind ≠ .events
    · rw [State.completeNotice_of_other other]
      exact ⟨rfl, rfl, rfl⟩
    · obtain ⟨live, events⟩ := not_or.1 other
      cases content : f.content
      case events es =>
        obtain ⟨_, eq, _⟩ := State.completeNotice_events (s := s) (Bool.eq_true_of_not_eq_false live) content
        rw [eq]
        exact ⟨rfl, rfl, rfl⟩
      all_goals
        rw [content] at events
        exact absurd nofun events

/-- Settles O52: the frame through the deframer, the eight clocks one by one, and the byte boundary. -/
theorem sentFramesAreReceivedWhole : Obligations.SentFramesAreReceivedWhole := by
  unfold Obligations.SentFramesAreReceivedWhole
  refine ⟨fun kind tag body length => ⟨delimiter_not_mem_stuffedFrame kind tag body,
      Deframer.bytes_of_takes (takes_stuffedFrame length kind tag) (frame_closes kind tag body)⟩,
    fun s kind tag body selected between length => ?_, fun s b boundary => ?_, fun s bits unselected => clock_unselected unselected bits,
    fun s b bs out more => sentByte_of_more out more, fun s t c boundary tx out delimited done => ?_, fun s boundary tx out => ?_⟩
  · have heard : s.link.deframer ≠ .hunt := between ▸ nofun
    obtain ⟨powered, low⟩ := selected
    dsimp only
    rw [foldl_receiveByte_wireFrame between length]
    refine ⟨fun atLeast atMost => ?_, fun block => ?_, fun bad => ?_⟩
    · have row : exec (.requestFrame kind tag body) s = .next (s.receiveGood kind tag body) :=
        onCore_powered powered fun s => s.receiveGood kind tag body
      rw [row, State.receiveGood, if_pos length, State.receive_of_open low heard]
      rfl
    · have row : exec (.streamBlock tag body) s = .next (s.receiveGood 0x3F tag body) :=
        onCore_powered powered fun s => s.receiveGood 0x3F tag body
      rw [row, State.receiveGood, if_pos length, State.receive_of_open low heard, block]
      rfl
    · rw [exec_frameDiscarded powered, State.discardFrame_of_open low heard, classify_badKind bad]
      rfl
  · have aligned := boundary.2
    intro sent
    rw [clock_byte boundary, State.exchanging, ← aligned]
    rfl
  · obtain ⟨again, powered, low, aligned⟩ := completeFrame_spec tx
    rw [exec_frameTransmitComplete boundary] at done
    have last : s.sentByte = s.completeFrame.startFrame := by
      rw [sentByte_of_last (by rw [out]; rfl), delimited, Bool.true_or, ← delimited, again]
    have still : s.completeFrame.AtByteBoundary := by
      obtain ⟨⟨on, selected⟩, zero⟩ := boundary
      exact ⟨⟨powered.trans on, low.trans selected⟩, aligned.trans zero⟩
    generalize s.completeFrame = u at done last still
    cases done
    rw [exec_frameStart still, last]
  · have idle : s.link.sendingByte = delimiterByte := by
      rw [Link.sendingByte, out]
      rfl
    have kept (u : State) (none : u.link.tx = none) : u.completeFrame = u := by
      unfold State.completeFrame
      rw [none]
    rw [sentByte_of_last (by rw [out]; rfl), idle, decide_eq_true rfl, Bool.or_true, kept (s.withLink { s.link with out := [], delimiterSent := true }) tx, ← out]
    exact exec_frameStart (s := { s with link := { s.link with delimiterSent := true } }) boundary

end Sys2Proof.Machine
end

