-- ==== Sys2Proof/Proofs/Firings.lean ====
section
/-! SUPPORT. One entry of the event table judged: what its firing makes of it, of the EVENTS set and of the cue it starts (R133 to
R136). -/

namespace Sys2Proof.Machine

set_option Elab.async false

/-! ## The entry -/

/-- An entry is due as the statements say it. -/
theorem isDue_iff (x : EventEntry) (record : GameDayRecord) (now : Instant) :
    x.isDue record now = true ↔ x.state = .armed ∧ x.Met record now := by
  obtain ⟨state, trigger, due, cue, quantize, late, firedAt⟩ := x
  rw [EventEntry.isDue, Bool.and_eq_true, decide_eq_true_eq]
  refine and_congr_right fun _ => ?_
  unfold triggerDue EventEntry.Met
  cases trigger with
  | gameDay value => exact Bool.and_eq_true_iff.trans (and_congr_right' decide_eq_true_iff)
  | dateTime i => exact Instant.atOrAfter_iff now i
  | daily time =>
    match due with
    | .at i => exact Instant.atOrAfter_iff now i
    | .absent => exact iff_of_false Bool.false_ne_true id
    | .beyondRange => exact iff_of_false Bool.false_ne_true id

/-- The next occurrence of a time of day has not come. -/
theorem nextOccurrence_later {time : Nat} {now i : Instant} (next : nextOccurrence time now = .at i) : now.atOrAfter i = false := by
  refine Bool.eq_false_iff.2 fun reached => ?_
  have reached := (Instant.atOrAfter_iff now i).1 reached
  unfold nextOccurrence at next
  split at next
  · cases next
    simp only [Instant.Reached] at reached
    omega
  · split at next
    · cases next
      simp only [Instant.Reached] at reached
      omega
    · cases next

/-- What a firing judged at one instant, with the calendar at another, makes of an entry. -/
def EventEntry.judgedTo (x : EventEntry) (i now : Instant) (late events : Bool) : EventEntry :=
  if events = true then { x.fired i late with state := .fired } else (x.fired i late).released now

/-- Where EVENTS is enabled it does not matter where the calendar stands. -/
theorem judgedTo_enabled (x : EventEntry) (i now : Instant) (late : Bool) : x.judgedTo i now late true = x.afterFiring i late true := by
  obtain ⟨state, trigger, due, cue, quantize, _, firedAt⟩ := x
  cases trigger with
  | gameDay value => rfl
  | dateTime i => rfl
  | daily time => rfl

/-- A firing judged at the calendar's instant, as the statements say it. -/
theorem judgedTo_now (x : EventEntry) (now : Instant) (late events : Bool) :
    x.judgedTo now now late events = x.afterFiring now late events := by
  cases events with
  | true => exact judgedTo_enabled x now now late
  | false =>
    obtain ⟨state, trigger, due, cue, quantize, _, firedAt⟩ := x
    cases trigger with
    | gameDay value => rfl
    | dateTime i => rfl
    | daily time =>
      have later := fun i => nextOccurrence_later (time := time) (now := now) (i := i)
      unfold EventEntry.judgedTo EventEntry.released EventEntry.fired EventEntry.rescheduled EventEntry.afterFiring
      dsimp only
      match next : nextOccurrence time now with
      | .at i => exact if_neg (ne_true_of_eq_false (later i next))
      | .absent => rfl
      | .beyondRange => rfl

/-! ## What a firing leaves as it is -/

/-- A firing changes the event table, the sets EVENTS and CUE with the frame in transmission, and what the start of a cue changes. -/
def State.FiringFrame (s t : State) : Prop :=
  { t with backup := s.backup, link := s.link, voice := s.voice, rumble := s.rumble, cue := s.cue } = s ∧
  { t.backup with events := s.backup.events } = s.backup ∧
  { t.link with notices := s.link.notices, tx := s.link.tx } = s.link ∧
  { t.link.notices with events := s.link.notices.events, cue := s.link.notices.cue } = s.link.notices

theorem State.FiringFrame.refl (s : State) : s.FiringFrame s := ⟨rfl, rfl, rfl, rfl⟩

theorem State.FiringFrame.trans {a b c : State} (first : a.FiringFrame b) (second : b.FiringFrame c) : a.FiringFrame c := by
  obtain ⟨rest, backup, link, notices⟩ := first
  obtain ⟨rest', backup', link', notices'⟩ := second
  refine ⟨(congrArg
      (fun x : State => { x with backup := a.backup, link := a.link, voice := a.voice, rumble := a.rumble, cue := a.cue }) rest' :).trans
      rest, (congrArg (fun x : Backup => { x with events := a.backup.events }) backup' :).trans backup,
    (congrArg (fun x : Link => { x with notices := a.link.notices, tx := a.link.tx }) link' :).trans link,
    (congrArg (fun x : NoticeSet => { x with events := a.link.notices.events, cue := a.link.notices.cue }) notices' :).trans notices⟩

theorem State.FiringFrame.record {s t : State} (h : s.FiringFrame t) : t.record = s.record := (congrArg Backup.record h.2.1 :)

theorem State.FiringFrame.now {s t : State} (h : s.FiringFrame t) : t.now = s.now :=
  (congrArg (fun b : Backup => b.calendar.now) h.2.1 :)

theorem State.FiringFrame.mask {s t : State} (h : s.FiringFrame t) : t.link.mask = s.link.mask := (congrArg Link.mask h.2.2.1 :)

theorem State.StartsKept.refl (s : State) : s.StartsKept s := ⟨rfl, rfl, rfl, rfl, rfl⟩

theorem State.StartsKept.trans {a b c : State} (first : a.StartsKept b) (second : b.StartsKept c) : a.StartsKept c := by
  obtain ⟨voice, rumble, cue, mask, notice⟩ := first
  obtain ⟨voice', rumble', cue', mask', notice'⟩ := second
  exact ⟨voice'.trans voice, rumble'.trans rumble, cue'.trans cue, mask'.trans mask, notice'.trans notice⟩

/-- A start is told by the parts it touches. -/
theorem State.EventStarted.congr {s s' t t' : State} {e : Fin 16} {cue : Nat} {quantize : Bool} (started : s.EventStarted t e cue quantize)
    (before : s'.StartsKept s) (after : t.StartsKept t') : s'.EventStarted t' e cue quantize := by
  obtain ⟨voice, rumble, cues, mask, notice⟩ := before
  obtain ⟨voice', rumble', cues', mask', notice'⟩ := after
  simp only [State.EventStarted, State.StartActed, State.CueNoticed, State.StartsKept, voice, rumble, cues, mask, notice] at started
  simp only [State.EventStarted, State.StartActed, State.CueNoticed, State.StartsKept, voice', rumble', cues', mask', notice']
  exact started

/-! ## The firing -/

/-- The last step of both firings: the entry, and the EVENTS set. -/
theorem reportFiring_spec (s : State) (e : Fin 16) :
    let t := s.reportFiring e
    s.FiringFrame t ∧ s.StartsKept t ∧
    (∀ k, t.entry k = if k = e then
        (if maskEnables s.link.mask .events = true then { s.entry e with state := .fired } else (s.entry e).released s.now)
      else s.entry k) ∧
    ∀ k, k ∈ t.link.notices.events ↔ k ∈ s.link.notices.events ∨ maskEnables s.link.mask .events = true ∧ k = e := by
  intro t
  by_cases on : maskEnables s.link.mask .events = true
  · have reported : t = (s.setEvent e { s.entry e with state := .fired }).withLink { s.link with
        notices := { s.link.notices with events := insertMember e s.link.notices.events }
        tx := markRewritten .events s.link.tx } := by
      refine (if_pos on).trans ?_
      exact congrArg (s.setEvent e { s.entry e with state := .fired }).withLink
        (Link.pend_enabled (l := s.link) on fun n => { n with events := insertMember e n.events })
    clear_value t
    subst reported
    refine ⟨⟨rfl, rfl, rfl, rfl⟩, ⟨rfl, rfl, rfl, rfl, rfl⟩, fun k => ?_, fun k => ?_⟩
    · rw [if_pos on]
      exact (State.entry_setEvent s e k _).trans (if_congr eq_comm rfl rfl)
    · simp only [on, true_and]
      exact (mem_insertMember ..).trans or_comm
  · have released : t = s.releaseEntry e := if_neg on
    clear_value t
    subst released
    refine ⟨⟨rfl, rfl, rfl, rfl⟩, ⟨rfl, rfl, rfl, rfl, rfl⟩, fun k => ?_, fun k => ?_⟩
    · rw [if_neg on]
      exact (State.entry_setEvent s e k _).trans (if_congr eq_comm rfl rfl)
    · simp only [on, Bool.false_eq_true, false_and, or_false]
      exact Iff.rfl

/-- An entry judged, late or on time. -/
def State.judged (late : Bool) (i : Instant) (s : State) (e : Fin 16) : State :=
  if late = true then judgeLate i s e else judgeOnTime i s e

/-- The entry is due at this instant. -/
def State.DueAt (s : State) (i : Instant) (e : Fin 16) : Prop := (s.entry e).isDue s.record i = true

/-- What one judgement makes of the entry, of the EVENTS set, and of the cue. -/
def State.JudgedTo (late : Bool) (i : Instant) (e : Fin 16) (s t : State) : Prop :=
  s.FiringFrame t ∧
  (s.DueAt i e → t.entry e = (s.entry e).judgedTo i s.now late (maskEnables s.link.mask .events)) ∧
  (∀ k, k ≠ e ∨ ¬s.DueAt i e → t.entry k = s.entry k) ∧
  (∀ k, k ∈ t.link.notices.events ↔
    k ∈ s.link.notices.events ∨ maskEnables s.link.mask .events = true ∧ k = e ∧ s.DueAt i e) ∧
  (late = true ∨ ¬s.DueAt i e ∨ (s.entry e).cue = none → s.StartsKept t) ∧
  ∀ cue, late = false → s.DueAt i e → (s.entry e).cue = some cue → s.EventStarted t e cue (s.entry e).quantize

/-- A firing is the entry written, the start of its cue when there is one to start, and the report. -/
theorem judgedTo_of_started {late : Bool} {i : Instant} {e : Fin 16} {s u : State} (due : s.DueAt i e)
    (frame : s.FiringFrame u) (events : u.backup = (s.setEvent e ((s.entry e).fired i late)).backup)
    (members : u.link.notices.events = s.link.notices.events)
    (kept : late = true ∨ (s.entry e).cue = none → s.StartsKept u)
    (started : ∀ cue, late = false → (s.entry e).cue = some cue → s.EventStarted u e cue (s.entry e).quantize) :
    State.JudgedTo late i e s (u.reportFiring e) := by
  obtain ⟨reportFrame, reportKept, entries, joined⟩ := reportFiring_spec u e
  have entry (k : Fin 16) : u.entry k = if e = k then (s.entry e).fired i late else s.entry k :=
    (congrArg (fun b : Backup => b.events.get k) events).trans (State.entry_setEvent s e k _)
  refine ⟨frame.trans reportFrame, fun _ => ?_, fun k other => ?_, fun k => ?_, fun silent => ?_, fun cue onTime _ its =>
    (started cue onTime its).congr (.refl s) reportKept⟩
  · rw [entries, if_pos rfl, frame.mask, frame.now, entry, if_pos rfl]
    rfl
  · have ne : k ≠ e := other.resolve_right (not_not_intro due)
    rw [entries, if_neg ne, entry, if_neg (Ne.symm ne)]
  · rw [joined, frame.mask, members]
    simp only [due, and_true]
  · exact (kept (silent.imp_right fun h => h.resolve_left (not_not_intro due))).trans reportKept

theorem judgedTo_of_not_due {late : Bool} {i : Instant} {e : Fin 16} {s : State} (none : ¬s.DueAt i e) :
    State.JudgedTo late i e s s :=
  ⟨.refl s, fun due => absurd due none, fun _ _ => rfl, fun _ => ⟨.inl, fun joined => joined.elim id fun ⟨_, _, due⟩ => absurd due none⟩,
    fun _ => .refl s, fun _ _ due => absurd due none⟩

theorem judgeLate_of_due {i : Instant} {e : Fin 16} {s : State} (due : s.DueAt i e) : judgeLate i s e = s.fireLate i e := if_pos due

theorem judgeOnTime_of_due {i : Instant} {e : Fin 16} {s : State} (due : s.DueAt i e) : judgeOnTime i s e = s.fireOnTime i e := if_pos due

/-- A judgement, by whether the entry is due, whether it fires late, and whether it has a cue (R134, R135). -/
theorem judged_spec (late : Bool) (i : Instant) (s : State) (e : Fin 16) : State.JudgedTo late i e s (s.judged late i e) := by
  by_cases due : s.DueAt i e
  · have writtenFrame : s.FiringFrame (s.setEvent e ((s.entry e).fired i late)) := ⟨rfl, rfl, rfl, rfl⟩
    have writtenKept : s.StartsKept (s.setEvent e ((s.entry e).fired i late)) := ⟨rfl, rfl, rfl, rfl, rfl⟩
    cases late with
    | true =>
      have fires : s.judged true i e = (s.setEvent e ((s.entry e).fired i true)).reportFiring e := judgeLate_of_due due
      rw [fires]
      exact judgedTo_of_started due writtenFrame rfl rfl (fun _ => writtenKept) nofun
    | false =>
      have fires : s.judged false i e = s.fireOnTime i e := judgeOnTime_of_due due
      rw [fires]
      unfold State.fireOnTime
      dsimp only
      cases cue : (s.entry e).cue with
      | none =>
        refine judgedTo_of_started due writtenFrame rfl rfl (fun _ => writtenKept) fun c _ its => ?_
        cases cue.symm.trans its
      | some c =>
        dsimp only
        obtain ⟨⟨voice, rumble, cues, notices, tx, eq, others⟩, started⟩ :=
          (s.setEvent e ((s.entry e).fired i false)).eventStart_started e c (s.entry e).quantize
        have frame : (s.setEvent e ((s.entry e).fired i false)).FiringFrame
            ((s.setEvent e ((s.entry e).fired i false)).eventStart c e.val (s.entry e).quantize) := by
          rw [eq]
          exact ⟨rfl, rfl, rfl, (congrArg (fun n : NoticeSet => { n with events := s.link.notices.events }) others :)⟩
        refine judgedTo_of_started due (writtenFrame.trans frame) ?_ ?_ (fun none => ?_) fun c' _ its => ?_
        · rw [eq]
        · rw [eq]
          exact (congrArg NoticeSet.events others :)
        · obtain late | none := none
          · cases late
          · cases cue.symm.trans none
        · cases cue.symm.trans its
          exact started.congr writtenKept (.refl _)
  · have still : s.judged late i e = s := by
      unfold State.judged
      split
      · exact if_neg due
      · exact if_neg due
    rw [still]
    exact judgedTo_of_not_due due

end Sys2Proof.Machine
end

