-- ==== Sys2Proof/Proofs/EventSet.lean ====
section
/-! SUPPORT. Event Set: the trigger as it is spelled, the checks, and the entry armed and judged at once (R137). -/

namespace Sys2Proof.Machine

set_option Elab.async false

/-! ## The trigger -/

theorem taken_of_spelled {trigger : Trigger} {fields : TriggerFields} (spelled : trigger.SpelledBy fields) :
    fields.taken = some trigger := by
  cases fields with
  | gameDay n =>
    obtain ⟨inRange, rfl⟩ := spelled
    exact if_pos inRange
  | dateTime d =>
    obtain ⟨ok, rfl⟩ := spelled
    exact if_pos ok
  | daily h m n =>
    obtain ⟨hour, minute, second, rfl⟩ := spelled
    have ok : timeOk h m n = true := by
      simp [timeOk, hour, minute, second]
    exact if_pos ok
  | other => exact spelled.elim

theorem taken_of_faulty {fields : TriggerFields} (faulty : fields = .other ∨ (∃ n, fields = .gameDay n ∧ 1073048 < n) ∨
    (∃ d, fields = .dateTime d ∧ d.ok = false) ∨ (∃ h m n, fields = .daily h m n ∧ (23 < h ∨ 59 < m ∨ 59 < n))) :
    fields.taken = none := by
  obtain rfl | ⟨n, rfl, above⟩ | ⟨d, rfl, notOk⟩ | ⟨h, m, n, rfl, above⟩ := faulty
  · rfl
  · exact if_neg (Nat.not_le.2 above)
  · exact if_neg (ne_true_of_eq_false notOk)
  · refine if_neg fun ok => ?_
    simp only [timeOk, Bool.and_eq_true, decide_eq_true_eq] at ok
    omega

/-- The entry that Event Set writes (R137). -/
theorem armedWith_eq (x : EventEntry) (trigger : Trigger) (cue : Option Nat) (quantize : Bool) (now : Instant) :
    x.armedWith trigger cue quantize now = { x with
      state := .armed, trigger := trigger, cue := cue, quantize := quantize, late := false
      due := match trigger with | .daily time => nextOccurrence time now | _ => .absent } := by
  cases trigger with
  | gameDay value => rfl
  | dateTime i => rfl
  | daily time => rfl

/-- Whether the trigger's unit is ready for it (R137 step 4). -/
def State.openFor (s : State) : Trigger → Bool
  | .gameDay _ => s.record.valid
  | _ => s.backup.calendar.valid

def closedStatus : Trigger → Status
  | .gameDay _ => .noGameDays
  | _ => .clockInvalid

theorem armRefusal_eq (s : State) (trigger : Trigger) :
    armRefusal s trigger = if s.openFor trigger = true then none else some (closedStatus trigger) := by
  cases trigger with
  | gameDay value => rfl
  | dateTime i => rfl
  | daily time => rfl

/-! ## The request -/

section
variable {s : State} {e : Fin 16} {fields : TriggerFields} {trigger : Trigger} {cue : Option (Fin 8)} {q : Bool}
  (spelled : fields.taken = some trigger)
include spelled

/-- Event Set whose fields name values. -/
theorem takeEventSet_spelled : takeEventSet e.val fields (cue.map Fin.val) (.is q) s =
    if (s.entry e).state = .fired then refuse s .busy
    else if s.supply.supply = .critical then refuse s .supplyCritical
    else if s.openFor trigger = true then
      accept (State.judged false s.now (s.setEvent e ((s.entry e).armedWith trigger (cue.map Fin.val) q s.now)) e)
        (.eventEntry ((State.judged false s.now (s.setEvent e ((s.entry e).armedWith trigger (cue.map Fin.val) q s.now)) e).entry e))
    else refuse s (closedStatus trigger) := by
  have few : (cue.map Fin.val).all (fun c => decide (c ≤ 7)) = true := by
    cases cue with
    | none => rfl
    | some c => exact decide_eq_true (by have := c.isLt; omega)
  unfold takeEventSet
  rw [number?_val, spelled]
  dsimp only [coded?]
  rw [if_pos few, armRefusal_eq]
  by_cases opened : s.openFor trigger = true
  · rw [if_pos opened, if_pos opened]
    rfl
  · rw [if_neg opened, if_neg opened]

end

theorem takeEventSet_faulty {entry : Nat} {fields : TriggerFields} {cue : Option Nat} {q : Coded Bool}
    (faulty : 16 ≤ entry ∨ fields.taken = none ∨ q = .other ∨ ∃ c ∈ cue, 7 < c) (s : State) :
    takeEventSet entry fields cue q s = refuse s .badField := by
  unfold takeEventSet
  split
  · next e t q' number taken quantize =>
    obtain beyond | refused | other | ⟨c, mem, above⟩ := faulty
    · rw [number?_of_le beyond] at number
      cases number
    · cases refused.symm.trans taken
    · rw [other] at quantize
      cases quantize
    · refine if_neg fun few => ?_
      cases mem
      exact absurd (of_decide_eq_true few) (Nat.not_le.2 above)
  · rfl

/-- The event table with one entry replaced. -/
theorem backup_of_entries {s t : State} {e : Fin 16} {x : EventEntry} (rest : { t.backup with events := s.backup.events } = s.backup)
    (own : t.entry e = x) (others : ∀ k, k ≠ e → t.entry k = s.entry k) :
    t.backup = { s.backup with events := s.backup.events.set e x } := by
  have events : t.backup.events = s.backup.events.set e x := Tab.ext_get fun k => by
    rw [Tab.get_set]
    split
    · next same => exact same ▸ own
    · next ne => exact others k (Ne.symm ne)
  rw [← events]
  exact (congrArg (fun b : Backup => { b with events := t.backup.events }) rest :)

/-- Settles O41: the request by its refusals, and the armed entry by whether it is due and by the start of its cue. -/
theorem eventSetArmsAndJudgesAnEntry : Obligations.EventSetArmsAndJudgesAnEntry := by
  unfold Obligations.EventSetArmsAndJudgesAnEntry
  refine ⟨fun s tag e fields trigger cue q serves spelled => ?_, fun s tag entry fields cue q serves faulty => ?_⟩
  · intro after due x open' events
    have taken := takeEventSet_spelled (s := s) (e := e) (cue := cue) (q := q) (taken_of_spelled spelled)
    have opened : s.openFor trigger = open' := by
      cases trigger <;> rfl
    have armed : (s.entry e).armedWith trigger (cue.map Fin.val) q s.now = x := by
      refine (armedWith_eq _ _ _ _ _).trans ?_
      cases trigger <;> rfl
    rw [opened, armed] at taken
    refine ⟨fun fired => ?_, fun notFired critical => ?_, fun notFired notCritical closed => ?_,
      fun notFired notCritical isOpen notDue => ?_, fun notFired notCritical isOpen met => ?_⟩
    · rw [if_pos fired] at taken
      exact serve_refused rfl serves taken
    all_goals rw [if_neg notFired] at taken
    · rw [if_pos critical] at taken
      exact serve_refused rfl serves taken
    all_goals rw [if_neg notCritical] at taken
    · rw [if_neg (ne_true_of_eq_false closed)] at taken
      refine (serve_refused rfl serves taken).trans ?_
      cases trigger <;> rfl
    all_goals
      rw [if_pos isOpen] at taken
      have own : (s.setEvent e x).entry e = x := (State.entry_setEvent s e e x).trans (if_pos rfl)
      have others : ∀ k, k ≠ e → (s.setEvent e x).entry k = s.entry k := fun k ne =>
        (State.entry_setEvent s e k x).trans (if_neg (Ne.symm ne))
      have dueAt : (s.setEvent e x).DueAt s.now e ↔ x.Met s.record s.now := by
        rw [State.DueAt, own]
        exact (isDue_iff x s.record s.now).trans (and_iff_right rfl)
    · have still : State.judged false s.now (s.setEvent e x) e = s.setEvent e x := if_neg fun due => notDue (dueAt.1 due)
      rw [still, own] at taken
      exact serve_accepted rfl serves taken
    · obtain ⟨frame, fired, kept, members, silent, started⟩ := judged_spec false s.now (s.setEvent e x) e
      have entry := fired (dueAt.2 met)
      rw [own] at entry silent started
      have entry : (State.judged false s.now (s.setEvent e x) e).entry e = x.afterFiring s.now false events :=
        entry.trans (judgedTo_now x s.now false events)
      generalize State.judged false s.now (s.setEvent e x) e = t at taken frame kept members silent started entry
      rw [entry] at taken
      obtain ⟨rest, backup, link, _⟩ := frame
      have whole : { t with backup := s.backup, link := s.link, voice := s.voice, rumble := s.rumble, cue := s.cue } = s :=
        (congrArg (fun u : State => { u with backup := s.backup }) rest :)
      have table : { t.backup with events := s.backup.events } = s.backup :=
        (congrArg (fun b : Backup => { b with events := s.backup.events }) backup :)
      have unstarted (voice : t.voice = s.voice) (rumble : t.rumble = s.rumble) (cues : t.cue = s.cue) :
          { t with backup := s.backup, link := s.link } = s := by
        rw [← voice, ← rumble, ← cues] at whole
        exact whole
      refine ⟨t, serve_accepted rfl serves taken, backup_of_entries table entry fun k ne => (kept k (.inl ne)).trans (others k ne),
        (congrArg Link.replies link :), fun on => (members e).2 (.inr ⟨on, rfl, dueAt.2 met⟩), fun none => ?_,
        fun c its absent => ?_, fun c d its defined queued room => ?_, fun c d its defined queued full => ?_,
        fun c d its defined notQueued => ?_⟩
      · obtain ⟨voice, rumble, cues, _⟩ := silent (.inr (.inr (congrArg (Option.map Fin.val) none)))
        exact unstarted voice rumble cues
      all_goals
        have cueOf : x.cue = some c.val := congrArg (Option.map Fin.val) its
        obtain ⟨absentStart, definedStart⟩ := started c.val rfl (dueAt.2 met) cueOf
      · obtain ⟨voice, rumble, cues, _, notice⟩ := absentStart (.inr ⟨c, rfl, absent⟩)
        exact ⟨unstarted voice rumble cues, fun on => notice.trans (if_pos on)⟩
      all_goals obtain ⟨waits, drops, acts⟩ := definedStart c d rfl defined
      · obtain ⟨⟨voice, rumble, _⟩, cues⟩ := waits queued room
        refine ⟨?_, cues⟩
        have voice : t.voice = s.voice := voice
        have rumble : t.rumble = s.rumble := rumble
        rw [← voice, ← rumble] at whole
        exact whole
      · obtain ⟨voice, rumble, cues, _, notice⟩ := drops queued full
        exact ⟨unstarted voice rumble cues, fun on => notice.trans (if_pos on)⟩
      · obtain ⟨sound, driven, acted, _, notice⟩ := acts notQueued
        exact ⟨sound, driven, whole, acted,
          fun on => notice.trans (if_pos on)⟩
  · refine serve_refused rfl serves (takeEventSet_faulty ?_ s)
    obtain beyond | other | notCoded | cues | faulty := faulty
    · exact .inl beyond
    · exact .inr (.inl (taken_of_faulty (.inl other)))
    · exact .inr (.inr (.inl notCoded))
    · exact .inr (.inr (.inr cues))
    · exact .inr (.inl (taken_of_faulty (.inr faulty)))

end Sys2Proof.Machine
end

