-- ==== Sys2Proof/Proofs/FiringSweeps.lean ====
section
/-! SUPPORT. The sweep over the event table: every entry judged once, in entry-number order, and the starts one after the other
(R134, R135). -/

namespace Sys2Proof.Machine

set_option Elab.async false

/-! ## The entries -/

/-- What a sweep over some entries makes of the table and of the EVENTS set. -/
def State.SweptOver (l : List (Fin 16)) (late : Bool) (i : Instant) (s t : State) : Prop :=
  s.FiringFrame t ∧
  (∀ e, e ∈ l → s.DueAt i e → t.entry e = (s.entry e).judgedTo i s.now late (maskEnables s.link.mask .events)) ∧
  (∀ e, e ∉ l ∨ ¬s.DueAt i e → t.entry e = s.entry e) ∧
  ∀ e, e ∈ t.link.notices.events ↔
    e ∈ s.link.notices.events ∨ maskEnables s.link.mask .events = true ∧ e ∈ l ∧ s.DueAt i e

theorem dueAt_congr {s t : State} {i : Instant} {e : Fin 16} (entry : t.entry e = s.entry e) (record : t.record = s.record) :
    t.DueAt i e ↔ s.DueAt i e := by
  rw [State.DueAt, State.DueAt, entry, record]

theorem sweptOver_foldl (late : Bool) (i : Instant) : ∀ {l : List (Fin 16)} (s : State), l.Nodup →
    State.SweptOver l late i s (l.foldl (State.judged late i) s)
  | [], s, _ => ⟨.refl s, fun _ mem => absurd mem List.not_mem_nil, fun _ _ => rfl,
      fun _ => ⟨.inl, fun joined => joined.elim id fun ⟨_, mem, _⟩ => absurd mem List.not_mem_nil⟩⟩
  | x :: l, s, nodup => by
    obtain ⟨notIn, nodup⟩ := List.nodup_cons.1 nodup
    obtain ⟨frame, fired, kept, joined, _⟩ := judged_spec late i s x
    obtain ⟨frame', fired', kept', joined'⟩ := sweptOver_foldl late i (s.judged late i x) nodup
    rw [List.foldl_cons]
    have other {e : Fin 16} (ne : e ≠ x) : (s.judged late i x).entry e = s.entry e := kept e (.inl ne)
    have due {e : Fin 16} (ne : e ≠ x) : (s.judged late i x).DueAt i e ↔ s.DueAt i e := dueAt_congr (other ne) frame.record
    have apart {e : Fin 16} (mem : e ∈ l) : e ≠ x := fun same => notIn (same ▸ mem)
    refine ⟨frame.trans frame', fun e mem its => ?_, fun e not => ?_, fun e => ?_⟩
    · obtain rfl | mem := List.mem_cons.1 mem
      · rw [kept' e (.inl notIn), fired its]
      · have ne := apart mem
        rw [fired' e mem ((due ne).2 its), other ne, frame.now, frame.mask]
    · by_cases same : e = x
      · subst same
        rw [kept' e (.inl notIn), kept e (.inr (not.resolve_left (not_not_intro List.mem_cons_self)))]
      · rw [kept' e (not.imp (fun out mem => out (List.mem_cons_of_mem x mem)) fun none its => none ((due same).1 its)), other same]
    · rw [joined', joined, frame.mask, List.mem_cons]
      by_cases same : e = x
      · subst same
        simp only [notIn, false_and, and_false, or_false, true_and]
      · simp only [same, due same, false_and, and_false, or_false, false_or]

/-! ## The starts -/

/-- The sweep as far as the first entries. -/
def State.sweptSoFar (late : Bool) (i : Instant) (s : State) (n : Nat) : State :=
  ((numbers 16).take n).foldl (State.judged late i) s

theorem take_numbers_succ (e : Fin 16) : (numbers 16).take (e.val + 1) = (numbers 16).take e.val ++ [e] := by
  have inside : e.val < (numbers 16).length := by
    rw [numbers, List.length_ofFn]
    exact e.isLt
  rw [List.take_succ_eq_append_getElem inside]
  simp only [numbers, List.getElem_ofFn, id_eq]

theorem not_mem_take_numbers (e : Fin 16) : e ∉ (numbers 16).take e.val := by
  have nodup := (nodup_numbers 16).sublist (List.take_sublist (e.val + 1) (numbers 16))
  rw [take_numbers_succ e] at nodup
  exact fun mem => (List.nodup_append.1 nodup).2.2 e mem e List.mem_cons_self rfl

theorem sweptSoFar_succ (late : Bool) (i : Instant) (s : State) (e : Fin 16) :
    s.sweptSoFar late i (e.val + 1) = (s.sweptSoFar late i e.val).judged late i e := by
  unfold State.sweptSoFar
  rw [take_numbers_succ, List.foldl_append]
  rfl

/-- The cues of the entries that fire on time are started one after the other (R134). -/
theorem firingsStarted_sweep (late : Bool) (i : Instant) (s : State) :
    s.FiringsStarted ((numbers 16).foldl (State.judged late i) s) fun e => late = false ∧ s.DueAt i e := by
  have whole : (numbers 16).take 16 = numbers 16 := rfl
  have last : s.sweptSoFar late i 16 = (numbers 16).foldl (State.judged late i) s := by
    rw [State.sweptSoFar, whole]
  refine ⟨s.sweptSoFar late i, rfl, ?_, fun e => ?_⟩
  · rw [last]
    exact .refl _
  · obtain ⟨frame, _, kept, _⟩ := sweptOver_foldl late i s ((nodup_numbers 16).sublist (List.take_sublist e.val (numbers 16)))
    obtain ⟨_, _, _, _, silent, started⟩ := judged_spec late i (s.sweptSoFar late i e.val) e
    rw [← sweptSoFar_succ] at silent started
    have entry : (s.sweptSoFar late i e.val).entry e = s.entry e := kept e (.inl (not_mem_take_numbers e))
    have due : (s.sweptSoFar late i e.val).DueAt i e ↔ s.DueAt i e := dueAt_congr entry frame.record
    rw [entry] at silent started
    refine ⟨fun cue ⟨onTime, its⟩ cueOf => started cue onTime (due.2 its) cueOf, fun none => silent ?_⟩
    obtain notFires | noCue := none
    · cases late with
      | true => exact .inl rfl
      | false => exact .inr (.inl fun its => notFires ⟨rfl, due.1 its⟩)
    · exact .inr (.inr noCue)

/-- The starts are the same from a state with the same units and the same cues in its entries. -/
theorem State.FiringsStarted.congr {s s' t : State} {fires fires' : Fin 16 → Prop} (h : s.FiringsStarted t fires)
    (before : s'.StartsKept s) (cues : ∀ e, (s'.entry e).cue = (s.entry e).cue ∧ (s'.entry e).quantize = (s.entry e).quantize)
    (same : ∀ e, fires' e ↔ fires e) : s'.FiringsStarted t fires' := by
  obtain ⟨after, first, last, each⟩ := h
  have from_ {n : Nat} : State.StartsKept (if n = 0 then s' else after n) (after n) := by
    split
    · next zero =>
      rw [zero, first]
      exact before
    · exact .refl _
  refine ⟨fun n => if n = 0 then s' else after n, rfl, last, fun e => ?_⟩
  obtain ⟨started, kept⟩ := each e
  obtain ⟨cue, quantize⟩ := cues e
  refine ⟨fun c its named => ?_, fun none => ?_⟩
  · rw [quantize]
    exact (started c ((same e).1 its) (cue.symm.trans named)).congr from_ (.refl _)
  · exact from_.trans (kept (none.imp (fun not its => not ((same e).2 its)) fun noCue => cue.symm.trans noCue))

/-- A sweep in which no entry that fires on time has a cue starts nothing. -/
theorem State.FiringsStarted.kept {s t : State} {fires : Fin 16 → Prop} (h : s.FiringsStarted t fires)
    (none : ∀ e, fires e → (s.entry e).cue = none) : s.StartsKept t := by
  obtain ⟨after, first, last, each⟩ := h
  have upTo : ∀ n, n ≤ 16 → s.StartsKept (after n) := by
    intro n
    induction n with
    | zero =>
      intro _
      rw [first]
      exact .refl s
    | succ n ih =>
      intro inside
      obtain ⟨_, kept⟩ := each ⟨n, by omega⟩
      refine (ih (by omega)).trans (kept ?_)
      by_cases its : fires ⟨n, by omega⟩
      · exact .inr (none _ its)
      · exact .inl its
  exact (upTo 16 (Nat.le_refl 16)).trans last

/-! ## The whole sweep -/

/-- What a sweep at an instant makes of the state. -/
def State.Swept (late : Bool) (i : Instant) (s t : State) : Prop :=
  s.FiringFrame t ∧
  (∀ e, s.DueAt i e → t.entry e = (s.entry e).judgedTo i s.now late (maskEnables s.link.mask .events)) ∧
  (∀ e, ¬s.DueAt i e → t.entry e = s.entry e) ∧
  (∀ e, e ∈ t.link.notices.events ↔ e ∈ s.link.notices.events ∨ maskEnables s.link.mask .events = true ∧ s.DueAt i e) ∧
  s.FiringsStarted t fun e => late = false ∧ s.DueAt i e

theorem swept_foldl (late : Bool) (i : Instant) (s : State) : s.Swept late i ((numbers 16).foldl (State.judged late i) s) := by
  obtain ⟨frame, fired, kept, members⟩ := sweptOver_foldl late i s (nodup_numbers 16)
  refine ⟨frame, fun e => fired e (mem_numbers e), fun e none => kept e (.inr none), fun e => ?_, firingsStarted_sweep late i s⟩
  rw [members]
  simp only [mem_numbers, true_and]

theorem swept_late (i : Instant) (s : State) : s.Swept true i (s.sweepLate i) := swept_foldl true i s

theorem swept_onTime (i : Instant) (s : State) : s.Swept false i (s.sweepOnTime i) := swept_foldl false i s

end Sys2Proof.Machine
end

