-- ==== Sys2Proof/Proofs/GameDayEvents.lean ====
section
/-! SUPPORT. The game-day record and the sweep after it: crossings, catch-up and the start of game days, each with its GAMEDAY notice
and its firings (R125 to R131), and the second tick (R111, R113). -/

namespace Sys2Proof.Machine

set_option Elab.async false

/-! ## The record and its notice -/

/-- The record is written, and GAMEDAY made pending where there is a notice. -/
def State.GameDayStep (s t : State) (record : GameDayRecord) (notice : Option GameDayNotice) : Prop :=
  { t with backup := s.backup, link := s.link } = s ∧ t.backup = { s.backup with record := record } ∧
  { t.link with notices := s.link.notices, tx := s.link.tx } = s.link ∧
  { t.link.notices with gameDay := s.link.notices.gameDay } = s.link.notices ∧
  t.link.notices.gameDay =
    if maskEnables s.link.mask .gameDay = true then notice.or s.link.notices.gameDay else s.link.notices.gameDay

theorem gameDayStep_refl (s : State) : s.GameDayStep s s.record none := ⟨rfl, rfl, rfl, rfl, (ite_self _).symm⟩

theorem gameDayStep_recorded (s : State) {r : GameDayRecord} {valid : Bool} (h : r.valid = valid) (reason : GameDayReason)
    (index : Int) (credited : Nat) :
    s.GameDayStep ((s.writeRecord r).pendGameDayOf reason index credited) { r with checkMatches := true }
      (some ⟨reason, valid, r.counter, r.highWater, index, credited, r.forfeited, r.rewind⟩) := by
  subst h
  have notices := Link.pend_notices s.link .gameDay fun n => { n with
    gameDay := some ⟨reason, r.valid, r.counter, r.highWater, index, credited, r.forfeited, r.rewind⟩ }
  refine ⟨rfl, rfl, Link.pend_restored s.link .gameDay _, ?_, ?_⟩
  · refine (congrArg (fun n : NoticeSet => { n with gameDay := s.link.notices.gameDay }) notices).trans ?_
    split
    · rfl
    · rfl
  · refine (congrArg NoticeSet.gameDay notices).trans ?_
    split
    · rfl
    · rfl

theorem gameDayStep_cross (s : State) (index : Int) : s.GameDayStep (s.cross index)
    { s.record with counter := s.record.counter + 1, highWater := index, checkMatches := true }
    (some ⟨.crossing, s.record.valid, s.record.counter + 1, index, index, 1, s.record.forfeited, s.record.rewind⟩) :=
  gameDayStep_recorded s (r := { s.record with counter := s.record.counter + 1, highWater := index }) rfl .crossing index 1

/-- The days of a catch-up: some passed, or the count would go back, or neither (R127). -/
theorem gameDayStep_creditDays (s : State) (valid : s.record.valid = true) (index : Int) :
    s.GameDayStep (s.creditDays index) (s.record.caughtUp index) (s.record.catchUpNotice index) := by
  unfold State.creditDays GameDayRecord.catchUpNotice GameDayRecord.caughtUp
  dsimp only
  by_cases passed : 0 < index - s.record.highWater
  · simp only [if_pos passed]
    have left : (index - s.record.highWater).toNat - min (index - s.record.highWater).toNat s.record.cap =
        (index - s.record.highWater).toNat - s.record.cap := by omega
    rw [left]
    exact gameDayStep_recorded s (r := { s.record with
      counter := s.record.counter + min (index - s.record.highWater).toNat s.record.cap
      forfeited := s.record.forfeited + ((index - s.record.highWater).toNat - s.record.cap)
      highWater := index }) valid .catchUp index (min (index - s.record.highWater).toNat s.record.cap)
  · simp only [if_neg passed]
    by_cases back : index - s.record.highWater < 0
    · simp only [if_pos back]
      exact gameDayStep_recorded s (r := { s.record with rewind := true }) valid .rewind index 0
    · simp only [if_neg back]
      exact gameDayStep_refl s

/-! ## A step of the record and the sweep after it -/

/-- From `s` to `t` the record has become this one with this notice, and the entries have been judged at `i`. -/
def State.Advanced (s t : State) (late : Bool) (i : Instant) (record : GameDayRecord) (notice : Option GameDayNotice) : Prop :=
  { t with backup := s.backup, link := s.link, voice := s.voice, rumble := s.rumble, cue := s.cue } = s ∧
  { t.backup with record := s.backup.record, events := s.backup.events } = s.backup ∧ t.record = record ∧
  { t.link with notices := s.link.notices, tx := s.link.tx } = s.link ∧
  { t.link.notices with gameDay := s.link.notices.gameDay, events := s.link.notices.events, cue := s.link.notices.cue } =
    s.link.notices ∧
  t.link.notices.gameDay =
    (if maskEnables s.link.mask .gameDay = true then notice.or s.link.notices.gameDay else s.link.notices.gameDay) ∧
  (∀ e, (s.entry e).state = .armed → (s.entry e).Met record i →
    t.entry e = (s.entry e).judgedTo i s.now late (maskEnables s.link.mask .events)) ∧
  (∀ e, (s.entry e).state ≠ .armed ∨ ¬(s.entry e).Met record i → t.entry e = s.entry e) ∧
  (∀ e, e ∈ t.link.notices.events ↔ e ∈ s.link.notices.events ∨
    maskEnables s.link.mask .events = true ∧ (s.entry e).state = .armed ∧ (s.entry e).Met record i) ∧
  s.FiringsStarted t fun e => late = false ∧ (s.entry e).state = .armed ∧ (s.entry e).Met record i

theorem advanced_of_swept {s u t : State} {late : Bool} {i : Instant} {record : GameDayRecord} {notice : Option GameDayNotice}
    (step : s.GameDayStep u record notice) (swept : u.Swept late i t) : s.Advanced t late i record notice := by
  obtain ⟨rest, backup, link, notices, gameDay⟩ := step
  obtain ⟨⟨rest', backup', link', notices'⟩, fired, kept, members, started⟩ := swept
  have entry (e : Fin 16) : u.entry e = s.entry e := (congrArg (fun b : Backup => b.events.get e) backup :)
  have record' : u.record = record := (congrArg Backup.record backup :)
  have now : u.now = s.now := (congrArg (fun b : Backup => b.calendar.now) backup :)
  have mask : u.link.mask = s.link.mask := (congrArg Link.mask link :)
  have events : u.link.notices.events = s.link.notices.events := (congrArg NoticeSet.events notices :)
  have due (e : Fin 16) : u.DueAt i e ↔ (s.entry e).state = .armed ∧ (s.entry e).Met record i := by
    rw [State.DueAt, entry, record']
    exact isDue_iff _ _ _
  have units : s.StartsKept u := ⟨(congrArg State.voice rest :), (congrArg State.rumble rest :), (congrArg State.cue rest :), mask,
    (congrArg NoticeSet.cue notices :)⟩
  refine ⟨?_, ?_, ?_, ?_, ?_, ?_, fun e armed met => ?_, fun e none => ?_, fun e => ?_,
    started.congr units (fun e => by rw [entry e]; exact ⟨rfl, rfl⟩) fun e => and_congr_right' (due e).symm⟩
  · exact (congrArg (fun x : State =>
      { x with backup := s.backup, link := s.link, voice := s.voice, rumble := s.rumble, cue := s.cue }) rest' :).trans
      (congrArg (fun x : State => { x with voice := s.voice, rumble := s.rumble, cue := s.cue }) rest :)
  · exact (congrArg (fun b : Backup => { b with record := s.backup.record, events := s.backup.events }) backup' :).trans
      (congrArg (fun b : Backup => { b with record := s.backup.record, events := s.backup.events }) backup :)
  · exact (congrArg Backup.record backup' :).trans record'
  · exact (congrArg (fun l : Link => { l with notices := s.link.notices, tx := s.link.tx }) link' :).trans link
  · exact (congrArg (fun n : NoticeSet =>
      { n with gameDay := s.link.notices.gameDay, events := s.link.notices.events, cue := s.link.notices.cue }) notices' :).trans
      (congrArg (fun n : NoticeSet => { n with events := s.link.notices.events, cue := s.link.notices.cue }) notices :)
  · exact (congrArg NoticeSet.gameDay notices' :).trans gameDay
  · rw [fired e ((due e).2 ⟨armed, met⟩), entry, now, mask]
  · rw [kept e fun its => none.elim (fun notArmed => notArmed ((due e).1 its).1) fun notMet => notMet ((due e).1 its).2, entry]
  · rw [members, events, mask, due]

/-- A catch-up (R127). -/
theorem advanced_catchUp {s : State} (valid : s.record.valid = true) (i : Instant) :
    s.Advanced (s.catchUp i) true i (s.record.caughtUp (gameDayIndex s.record.rollover i))
      (s.record.catchUpNotice (gameDayIndex s.record.rollover i)) := by
  unfold State.catchUp
  rw [if_pos valid]
  exact advanced_of_swept (gameDayStep_creditDays s valid _) (swept_late i _)

theorem advanced_catchUp_invalid {s : State} (invalid : s.record.valid = false) (i : Instant) :
    s.Advanced (s.catchUp i) true i s.record none := by
  unfold State.catchUp
  rw [if_neg (ne_true_of_eq_false invalid)]
  exact advanced_of_swept (gameDayStep_refl s) (swept_late i s)

/-! ## The second event -/

/-- The index has moved by more than one (R126). -/
def State.skipsDays (s : State) (i : Instant) : Bool :=
  s.record.valid && decide (s.record.highWater + 1 < gameDayIndex s.record.rollover i)

/-- What a second event makes of the record: a catch-up, a crossing, or nothing. -/
theorem secondEvent_advanced (s : State) (i : Instant) : ∃ record notice,
    let index := gameDayIndex s.record.rollover i
    s.Advanced (s.secondEvent i) (s.skipsDays i) i record notice ∧
    (s.skipsDays i = true → record = s.record.caughtUp index ∧ notice = s.record.catchUpNotice index ∧ notice.isSome = true) ∧
    (s.record.valid = true → index = s.record.highWater + 1 →
      record = { s.record with counter := s.record.counter + 1, highWater := index, checkMatches := true } ∧
      notice = some ⟨.crossing, true, s.record.counter + 1, index, index, 1, s.record.forfeited, s.record.rewind⟩) ∧
    (s.record.valid = false ∨ index ≤ s.record.highWater → record = s.record ∧ notice = none) := by
  unfold State.secondEvent
  dsimp only
  by_cases skips : s.record.valid = true ∧ s.record.highWater + 1 < gameDayIndex s.record.rollover i
  · obtain ⟨valid, beyond⟩ := skips
    have late : s.skipsDays i = true := Bool.and_eq_true_iff.2 ⟨valid, decide_eq_true beyond⟩
    have noticed : (s.record.catchUpNotice (gameDayIndex s.record.rollover i)).isSome = true := by
      unfold GameDayRecord.catchUpNotice
      rw [if_pos (by omega)]
      rfl
    rw [if_pos ⟨valid, beyond⟩, late]
    refine ⟨_, _, advanced_catchUp valid i, fun _ => ⟨rfl, rfl, noticed⟩, fun _ next => ?_, fun none => ?_⟩
    · omega
    · obtain invalid | behind := none
      · cases invalid.symm.trans valid
      · omega
  · have late : s.skipsDays i = false := Bool.eq_false_iff.2 fun its => by
      obtain ⟨valid, beyond⟩ := Bool.and_eq_true_iff.1 its
      exact skips ⟨valid, of_decide_eq_true beyond⟩
    rw [if_neg skips, late]
    by_cases crosses : s.record.valid = true ∧ gameDayIndex s.record.rollover i = s.record.highWater + 1
    · obtain ⟨valid, next⟩ := crosses
      have step := gameDayStep_cross s (gameDayIndex s.record.rollover i)
      rw [if_pos ⟨valid, next⟩]
      refine ⟨_, _, advanced_of_swept step (swept_onTime i _), nofun, fun _ _ => ⟨rfl, by rw [valid]⟩, fun none => ?_⟩
      obtain invalid | behind := none
      · cases invalid.symm.trans valid
      · omega
    · rw [if_neg crosses]
      exact ⟨_, _, advanced_of_swept (gameDayStep_refl s) (swept_onTime i s), nofun, fun valid next => absurd ⟨valid, next⟩ crosses,
        fun _ => ⟨rfl, rfl⟩⟩

end Sys2Proof.Machine
end

