-- ==== Sys2Proof/Proofs/SecondTick.lean ====
section
/-! SUPPORT. The second tick and the second event after it (R111, R113, R126), and the game-day requests (R125, R130, R131). -/

namespace Sys2Proof.Machine

set_option Elab.async false

/-! ## The tick -/

/-- The instant one second later. -/
def nextSecond (i : Instant) : Instant := if i.second < 86399 then ⟨i.day, i.second + 1⟩ else ⟨i.day + 1, 0⟩

/-- The calendar stands at this instant, at the start of its second. -/
def State.countedTo (s : State) (now : Instant) : State :=
  { s with backup := { s.backup with calendar := { s.backup.calendar with now := now, divider := 0 } } }

theorem tick_of_counted {c : Calendar} (more : c.now.second < 86399 ∨ c.now.day < 73048) :
    c.tick = { c with now := nextSecond c.now, divider := 0 } := by
  unfold Calendar.tick nextSecond
  by_cases within : c.now.second < 86399
  · exact (if_pos within).trans (by rw [if_pos within])
  · refine (if_neg within).trans ((if_pos (more.resolve_left within)).trans ?_)
    rw [if_neg within]

theorem tick_of_end {c : Calendar} (second : 86399 ≤ c.now.second) (day : 73048 ≤ c.now.day) :
    c.tick = { c with ended := true, divider := 0 } := by
  unfold Calendar.tick
  exact (if_neg (Nat.not_lt.2 second)).trans (if_neg (Nat.not_lt.2 day))

theorem clamped_iff (c : Calendar) : c.clamped = true ↔ 86399 ≤ c.now.second ∧ 73048 ≤ c.now.day := by
  unfold Calendar.clamped
  rw [Bool.and_eq_true, decide_eq_true_eq, decide_eq_true_eq]
  exact Iff.rfl

theorem countSecond_state {s : State} (more : s.now.second < 86399 ∨ s.now.day < 73048) :
    s.countSecond.1 = s.countedTo (nextSecond s.now) := by
  have tick : s.backup.calendar.tick = _ := tick_of_counted more
  unfold State.countSecond
  dsimp only
  rw [tick]
  rfl

/-- The second event is given for a counted second while the core runs and its start-up catch-up has completed. -/
theorem countSecond_event {s : State} (more : s.now.second < 86399 ∨ s.now.day < 73048) :
    s.countSecond.2 = if s.corePowered = true ∧ s.link.catchUpDone = true then some (nextSecond s.now) else none := by
  have notClamped : s.backup.calendar.clamped = false := by
    refine Bool.eq_false_iff.2 fun clamped => ?_
    have ended : 86399 ≤ s.now.second ∧ 73048 ≤ s.now.day := (clamped_iff _).1 clamped
    omega
  have now : s.countSecond.1.now = nextSecond s.now := by
    rw [countSecond_state more]
    rfl
  unfold State.countSecond at now ⊢
  dsimp only at now ⊢
  rw [notClamped, now]
  simp only [Bool.not_false, Bool.true_and, Bool.and_eq_true]

theorem secondTick_of_off {s : State} (off : s.backup.powered = false) : s.secondTick = s := if_neg (ne_true_of_eq_false off)

theorem secondTick_of_on {s : State} (on : s.backup.powered = true) : s.secondTick = s.countSecond.1.afterSecond s.countSecond.2 :=
  if_pos on

theorem secondTick_of_end {s : State} (on : s.backup.powered = true) (second : 86399 ≤ s.now.second) (day : 73048 ≤ s.now.day) :
    s.secondTick = { s with backup := { s.backup with calendar := { s.backup.calendar with ended := true, divider := 0 } } } := by
  have clamped : s.backup.calendar.clamped = true := (clamped_iff _).2 ⟨second, day⟩
  have tick : s.backup.calendar.tick = _ := tick_of_end second day
  rw [secondTick_of_on on]
  unfold State.countSecond
  dsimp only
  rw [clamped, tick]
  rfl

theorem exec_secondTick (s : State) : exec .secondTick s = .next s.secondTick := rfl

/-- Settles O38: the tick by where the calendar stands, and the second event as a step of the record with a sweep. -/
theorem secondTickCountsAndFires : Obligations.SecondTickCountsAndFires := by
  unfold Obligations.SecondTickCountsAndFires
  refine ⟨fun s off => ?_, fun s on second day => ?_, fun s on more => ?_⟩
  · rw [exec_secondTick, secondTick_of_off off]
  · rw [exec_secondTick, secondTick_of_end on second day]
  · intro now counted index late events
    have state : s.countSecond.1 = counted := countSecond_state more
    have event := countSecond_event more
    have ticked := secondTick_of_on on
    rw [state] at ticked
    refine ⟨fun quiet => ?_, fun powered started => ?_⟩
    · rw [if_neg fun ⟨powered, started⟩ => quiet.elim (fun off => Bool.false_ne_true (off.symm.trans powered))
        fun notYet => Bool.false_ne_true (notYet.symm.trans started)] at event
      rw [exec_secondTick, ticked, event]
      rfl
    · rw [if_pos ⟨powered, started⟩] at event
      rw [event] at ticked
      obtain ⟨record, notice, ⟨rest, backup, recordIs, link, notices, gameDay, fired, kept, members, starts⟩, skips, crosses, stays⟩ :=
        secondEvent_advanced counted now
      have eq : s.secondTick = counted.secondEvent now := ticked
      generalize counted.secondEvent now = t at eq rest backup recordIs link notices gameDay fired kept members starts
      subst recordIs
      have firings : s.FiringsStarted t fun e => late = false ∧ (s.entry e).state = .armed ∧ (s.entry e).Met t.record now :=
        starts.congr ⟨rfl, rfl, rfl, rfl, rfl⟩ (fun _ => ⟨rfl, rfl⟩) fun _ => Iff.rfl
      refine ⟨t, by rw [exec_secondTick, eq], (congrArg (fun u : State => { u with backup := s.backup }) rest :),
        (congrArg Backup.calendar backup :), (congrArg Backup.store backup :), link, notices, firings, fun silent => ?_,
        fun off => gameDay.trans (if_neg (ne_true_of_eq_false off)), fun its => ?_, fun valid next => ?_, fun none => ?_,
        fun e => ⟨fun armed met => ?_, members e, fun none => kept e none⟩⟩
      · obtain ⟨voice, rumble, cues, _, notice⟩ := firings.kept fun e ⟨onTime, armed, met⟩ => by
          obtain its | none := silent
          · cases onTime.symm.trans its
          · exact none e armed met
        exact ⟨voice, rumble, cues, notice⟩
      · obtain ⟨credited, noticed, some⟩ := skips its
        refine ⟨credited, fun on => (gameDay.trans (if_pos on)).trans ?_⟩
        rw [Option.or_of_isSome some]
        exact noticed
      · obtain ⟨crossed, noticed⟩ := crosses valid next
        exact ⟨crossed, fun on => (gameDay.trans (if_pos on)).trans (by rw [noticed]; rfl)⟩
      · obtain ⟨same, noNotice⟩ := stays none
        refine ⟨same, gameDay.trans ?_⟩
        rw [noNotice]
        exact ite_self _
      · exact (fired e armed met).trans (judgedTo_now _ now late events)

/-! ## Game Day Start, Game Day Get, Game Day Clear Rewind -/

section
variable {s : State} {start rollover cap : Nat}

theorem takeGameDayStart_outOfRange (outside : ¬(start ≤ 999999 ∧ rollover ≤ 86399 ∧ 1 ≤ cap ∧ cap ≤ 65535)) :
    takeGameDayStart start rollover cap s = refuse s .badField := if_pos outside

variable (inRange : start ≤ 999999 ∧ rollover ≤ 86399 ∧ 1 ≤ cap ∧ cap ≤ 65535)
include inRange

theorem takeGameDayStart_critical (critical : s.supply.supply = .critical) :
    takeGameDayStart start rollover cap s = refuse s .supplyCritical := by
  unfold takeGameDayStart
  rw [if_neg (not_not_intro inRange), if_pos critical]

variable (notCritical : s.supply.supply ≠ .critical)
include notCritical

theorem takeGameDayStart_clockInvalid (invalid : s.backup.calendar.valid = false) :
    takeGameDayStart start rollover cap s = refuse s .clockInvalid := by
  unfold takeGameDayStart
  rw [if_neg (not_not_intro inRange), if_neg notCritical, if_pos invalid]

/-- The record is written, and the entries are judged on time. -/
theorem takeGameDayStart_starts (valid : s.backup.calendar.valid = true) :
    let index := gameDayIndex rollover s.now
    takeGameDayStart start rollover cap s = accept
      (((s.writeRecord (startedRecord start rollover cap s.now)).pendGameDayOf .started index start).sweepOnTime s.now)
      (.gameDay true start start index index rollover cap 0 false (some index) none) := by
  unfold takeGameDayStart
  rw [if_neg (not_not_intro inRange), if_neg notCritical, if_neg (by rw [valid]; exact Bool.true_eq_false.mp)]
  rfl

end

section
variable {s : State}

theorem takeClearRewind_critical (critical : s.supply.supply = .critical) : takeGameDayClearRewind s = refuse s .supplyCritical :=
  if_pos critical

variable (notCritical : s.supply.supply ≠ .critical)
include notCritical

theorem takeClearRewind_noGameDays (invalid : s.record.valid = false) : takeGameDayClearRewind s = refuse s .noGameDays := by
  unfold takeGameDayClearRewind
  rw [if_neg notCritical, if_pos invalid]

variable (valid : s.record.valid = true)
include valid

theorem takeClearRewind_nothing (clear : s.record.rewind = false) : takeGameDayClearRewind s = refuse s .nothingPending := by
  unfold takeGameDayClearRewind
  rw [if_neg notCritical, if_neg (by rw [valid]; exact Bool.true_eq_false.mp), if_pos clear]

theorem takeClearRewind_clears (mark : s.record.rewind = true) : takeGameDayClearRewind s =
    accept (s.writeRecord { s.record with rewind := false })
      ((s.writeRecord { s.record with rewind := false }).record.reported none none) := by
  unfold takeGameDayClearRewind
  rw [if_neg notCritical, if_neg (by rw [valid]; exact Bool.true_eq_false.mp), if_neg (by rw [mark]; exact Bool.true_eq_false.mp)]

end

/-- Settles O40: Game Day Start as a step of the record with a sweep on time, the other two by their refusals. -/
theorem gameDayRequestsStartReportAndClear : Obligations.GameDayRequestsStartReportAndClear := by
  unfold Obligations.GameDayRequestsStartReportAndClear
  refine ⟨fun s tag start rollover cap serves => ?_, fun s tag => ?_⟩
  · intro after index inRange events
    refine ⟨fun outside => serve_refused rfl serves (takeGameDayStart_outOfRange outside),
      fun inside critical => serve_refused rfl serves (takeGameDayStart_critical inside critical),
      fun inside notCritical invalid => serve_refused rfl serves (takeGameDayStart_clockInvalid inside notCritical invalid),
      fun inside notCritical valid => ?_⟩
    have taken := takeGameDayStart_starts inside notCritical valid
    have step := gameDayStep_recorded s (r := startedRecord start rollover cap s.now) rfl .started index start
    have advanced := advanced_of_swept step (swept_onTime s.now _)
    dsimp only at taken
    generalize ((s.writeRecord (startedRecord start rollover cap s.now)).pendGameDayOf .started index start).sweepOnTime s.now = t
      at taken advanced
    obtain ⟨rest, backup, record, link, notices, gameDay, fired, kept, members, starts⟩ := advanced
    have recordIs : t.record = ⟨true, start, start, index, index, rollover, cap, 0, false, true⟩ := record
    have firings : s.FiringsStarted t fun e => (s.entry e).state = .armed ∧ (s.entry e).Met t.record s.now :=
      starts.congr (.refl s) (fun _ => ⟨rfl, rfl⟩) fun e => by
        rw [record]
        exact (and_iff_right rfl).symm
    rw [← record] at fired kept members
    refine ⟨t, serve_accepted rfl serves taken, recordIs, rest, (congrArg Backup.calendar backup :), (congrArg Backup.store backup :),
      (congrArg Backup.powered backup :), link, notices, firings, fun none => ?_,
      fun off => gameDay.trans (if_neg (ne_true_of_eq_false off)), fun on => gameDay.trans (if_pos on),
      fun e => ⟨fun armed met => (fired e armed met).trans (judgedTo_now _ s.now false events), members e, kept e⟩⟩
    obtain ⟨voice, rumble, cues, _, notice⟩ := firings.kept fun e ⟨armed, met⟩ => none e armed met
    exact ⟨voice, rumble, cues, notice⟩
  · intro r
    exact ⟨fun serves => serve_accepted rfl serves rfl, fun serves => ⟨fun critical => serve_refused rfl serves (takeClearRewind_critical critical),
      fun notCritical invalid => serve_refused rfl serves (takeClearRewind_noGameDays notCritical invalid),
      fun notCritical valid clear => serve_refused rfl serves (takeClearRewind_nothing notCritical valid clear),
      fun notCritical valid mark => serve_accepted rfl serves (takeClearRewind_clears notCritical valid mark)⟩⟩

end Sys2Proof.Machine
end

