-- ==== Sys2Proof/Proofs/StartUpCatchUp.lean ====
section
/-! SUPPORT. The start-up work of the game-day unit: the record check, the entries found FIRED, and the catch-up (R123, R127, R128,
R136). -/

namespace Sys2Proof.Machine

set_option Elab.async false

/-! ## Entries found FIRED -/

/-- Rejoining changes the EVENTS set and the frame in transmission alone. -/
def State.RejoinFrame (s t : State) : Prop :=
  { t with link := s.link } = s ∧ { t.link with notices := s.link.notices, tx := s.link.tx } = s.link ∧
  { t.link.notices with events := s.link.notices.events } = s.link.notices

theorem rejoinFrame_rejoin (s : State) (e : Fin 16) : s.RejoinFrame (rejoin s e) := by
  unfold rejoin
  split
  · refine ⟨rfl, Link.pend_restored s.link .events _, ?_⟩
    refine (congrArg (fun n : NoticeSet => { n with events := s.link.notices.events })
      (Link.pend_notices s.link .events fun n => { n with events := insertMember e n.events })).trans ?_
    split
    · rfl
    · rfl
  · exact ⟨rfl, rfl, rfl⟩

theorem rejoinFrame_foldl (l : List (Fin 16)) (s : State) : s.RejoinFrame (l.foldl rejoin s) := by
  refine foldl_keeps (P := s.RejoinFrame) (fun t e frame => ?_) l ⟨rfl, rfl, rfl⟩
  obtain ⟨rest, link, notices⟩ := frame
  obtain ⟨rest', link', notices'⟩ := rejoinFrame_rejoin t e
  exact ⟨(congrArg (fun x : State => { x with link := s.link }) rest' :).trans rest,
    (congrArg (fun x : Link => { x with notices := s.link.notices, tx := s.link.tx }) link' :).trans link,
    (congrArg (fun x : NoticeSet => { x with events := s.link.notices.events }) notices' :).trans notices⟩

/-! ## The record check -/

/-- The record check leaves a matching record as it is, and makes another one invalid (R123). -/
theorem gameDayStep_checkRecord (s : State) : ∃ record notice, s.GameDayStep s.checkRecord record notice ∧
    (s.record.checkMatches = true → record = s.record ∧ notice = none) ∧
    (s.record.checkMatches = false → record = { s.record with valid := false, checkMatches := true } ∧
      notice = some ⟨.invalid, false, s.record.counter, s.record.highWater, s.index, 0, s.record.forfeited, s.record.rewind⟩) := by
  unfold State.checkRecord
  cases check : s.record.checkMatches
  · rw [if_neg Bool.false_ne_true]
    exact ⟨_, _, gameDayStep_recorded s (r := { s.record with valid := false }) rfl .invalid s.index 0, nofun, fun _ => ⟨rfl, rfl⟩⟩
  · rw [if_pos rfl]
    exact ⟨_, _, gameDayStep_refl s, fun _ => ⟨rfl, rfl⟩, nofun⟩

/-! ## The catch-up -/

/-- The catch-up of the start-up, made from the calendar's instant where the record and the calendar are valid (R128). -/
def State.startUpCatchUp (s : State) : State :=
  let credited := if s.record.valid = true ∧ s.backup.calendar.valid = true then s.creditDays s.index else s
  credited.sweepLate credited.now

theorem startUp_eq (s : State) : s.startUp = ((numbers 16).foldl rejoin s.checkRecord).startUpCatchUp.withLink
    { ((numbers 16).foldl rejoin s.checkRecord).startUpCatchUp.link with catchUpDone := true } := by
  unfold State.startUp State.startUpCatchUp
  dsimp only

/-- The state when the record has been checked and the entries found FIRED have joined EVENTS again. -/
theorem rejoined_spec (s : State) : ∃ record notice,
    let r := (numbers 16).foldl rejoin s.checkRecord
    { r with backup := s.backup, link := s.link } = s ∧ r.backup = { s.backup with record := record } ∧
    { r.link with notices := s.link.notices, tx := s.link.tx } = s.link ∧
    r.link.notices.gameDay =
      (if maskEnables s.link.mask .gameDay = true then notice.or s.link.notices.gameDay else s.link.notices.gameDay) ∧
    (maskEnables s.link.mask .events = true → ∀ e, (s.entry e).state = .fired → e ∈ r.link.notices.events) ∧
    (s.record.checkMatches = true → record = s.record ∧ notice = none) ∧
    (s.record.checkMatches = false → record = { s.record with valid := false, checkMatches := true } ∧
      notice = some ⟨.invalid, false, s.record.counter, s.record.highWater, s.index, 0, s.record.forfeited, s.record.rewind⟩) := by
  obtain ⟨record, notice, ⟨rest, backup, link, notices, gameDay⟩, good, bad⟩ := gameDayStep_checkRecord s
  have rejoined := rejoinFrame_foldl (numbers 16) s.checkRecord
  have joined := rejoin_foldl (numbers 16) s.checkRecord
  dsimp only
  generalize s.checkRecord = c at *
  generalize (numbers 16).foldl rejoin c = r at *
  obtain ⟨rest', link', notices'⟩ := rejoined
  have mask : c.link.mask = s.link.mask := (congrArg Link.mask link :)
  refine ⟨record, notice, ?_, (congrArg State.backup rest' :).trans backup, ?_, (congrArg NoticeSet.gameDay notices' :).trans gameDay,
    fun on e fired => ?_, good, bad⟩
  · exact (congrArg (fun x : State => { x with backup := s.backup, link := s.link }) rest' :).trans rest
  · exact (congrArg (fun x : Link => { x with notices := s.link.notices, tx := s.link.tx }) link' :).trans link
  · obtain ⟨_, _, _, members⟩ := joined (by rw [mask]; exact on)
    have entry : c.entry e = s.entry e := (congrArg (fun b : Backup => b.events.get e) backup :)
    exact (members e).2 (.inr ⟨mem_numbers e, (congrArg EventEntry.state entry).trans fired⟩)

theorem advanced_startUpCatchUp (s : State) : ∃ record notice, s.Advanced s.startUpCatchUp true s.now record notice ∧
    (s.record.valid = true → s.backup.calendar.valid = true →
      record = s.record.caughtUp s.index ∧ notice = s.record.catchUpNotice s.index) ∧
    (s.record.valid = false ∨ s.backup.calendar.valid = false → record = s.record ∧ notice = none) := by
  unfold State.startUpCatchUp
  dsimp only
  by_cases both : s.record.valid = true ∧ s.backup.calendar.valid = true
  · have step := gameDayStep_creditDays s both.1 s.index
    have now : (s.creditDays s.index).now = s.now := by
      obtain ⟨_, backup, _⟩ := step
      exact (congrArg (fun b : Backup => b.calendar.now) backup :)
    rw [if_pos both, now]
    refine ⟨_, _, advanced_of_swept step (swept_late s.now _), fun _ _ => ⟨rfl, rfl⟩, fun none => ?_⟩
    obtain ⟨valid, calendar⟩ := both
    exact none.elim (fun off => absurd (off.symm.trans valid) Bool.false_ne_true) fun off => absurd (off.symm.trans calendar) Bool.false_ne_true
  · rw [if_neg both]
    exact ⟨_, _, advanced_of_swept (gameDayStep_refl s) (swept_late s.now s), fun valid calendar => absurd ⟨valid, calendar⟩ both,
      fun _ => ⟨rfl, rfl⟩⟩

/-- Settles O6: the record check, the rejoining, and the catch-up, one after the other. -/
theorem startUpCatchUpCreditsDaysAndFiresLate : Obligations.StartUpCatchUpCreditsDaysAndFiresLate := by
  unfold Obligations.StartUpCatchUpCreditsDaysAndFiresLate
  intro s powered due
  have row : exec .startUpCatchUp s = .next s.startUp :=
    (onCore_powered powered fun s => if s.link.catchUpDone then s else s.startUp).trans
      (congrArg _ (if_neg (ne_true_of_eq_false due)))
  obtain ⟨record, notice, rest, backup, link, gameDay, joined, good, bad⟩ := rejoined_spec s
  have eq := startUp_eq s
  generalize (numbers 16).foldl rejoin s.checkRecord = r at *
  obtain ⟨record', notice', advanced, credits, stays⟩ := advanced_startUpCatchUp r
  generalize r.startUpCatchUp = t at *
  obtain ⟨rest', backup', recordIs, link', _, gameDay', fired, kept, members, starts⟩ := advanced
  have mask : r.link.mask = s.link.mask := (congrArg Link.mask link :)
  have now : r.now = s.now := (congrArg (fun b : Backup => b.calendar.now) backup :)
  have recordBefore : r.record = record := (congrArg Backup.record backup :)
  have calendar : r.backup.calendar = s.backup.calendar := (congrArg Backup.calendar backup :)
  have entry (e : Fin 16) : r.entry e = s.entry e := (congrArg (fun b : Backup => b.events.get e) backup :)
  simp only [now, mask, entry, gameDay] at fired kept members gameDay'
  subst recordIs
  have unstarted : r.StartsKept t := starts.kept nofun
  refine ⟨_, row.trans (congrArg _ eq), rfl, ?_, ?_, ?_, ?_, ?_, ?_, ?_, ?_, ?_, ?_⟩
  · obtain ⟨voice, rumble, cue, _, _⟩ := unstarted
    have whole : { t with backup := r.backup, link := r.link } = r := by
      rw [← voice, ← rumble, ← cue] at rest'
      exact rest'
    exact (congrArg (fun x : State => { x with backup := s.backup, link := s.link }) whole :).trans rest
  · exact (congrArg Backup.calendar backup' :).trans calendar
  · exact (congrArg Backup.store backup' :).trans (congrArg Backup.store backup :)
  · exact fun off => by
      rw [if_neg (ne_true_of_eq_false off), if_neg (ne_true_of_eq_false off)] at gameDay'
      exact gameDay'
  · intro faulty
    obtain ⟨made, noticed⟩ := bad faulty
    have invalid : r.record.valid = false := by rw [recordBefore, made]
    obtain ⟨same, none⟩ := stays (.inl invalid)
    refine ⟨same.trans (recordBefore.trans made), fun on => ?_⟩
    rw [none, noticed, if_pos on, if_pos on] at gameDay'
    exact gameDay'
  · intro matching off
    obtain ⟨made, noticed⟩ := good matching
    obtain ⟨same, none⟩ := stays (off.imp (fun off => by rw [recordBefore, made, off]) fun off => by rw [calendar, off])
    refine ⟨same.trans (recordBefore.trans made), ?_⟩
    rw [none, noticed] at gameDay'
    exact gameDay'.trans ((ite_self _).trans (ite_self _))
  · intro matching valid calendarValid
    obtain ⟨made, noticed⟩ := good matching
    have before : r.record = s.record := recordBefore.trans made
    have index : r.index = s.index := by
      unfold State.index
      rw [before, now]
    obtain ⟨credited, notice⟩ := credits (by rw [before, valid]) (by rw [calendar, calendarValid])
    rw [before, index] at credited notice
    refine ⟨credited, fun on => ?_⟩
    rw [notice, noticed, if_pos on, if_pos on] at gameDay'
    exact gameDay'
  · exact fun e found on => (members e).2 (.inl (joined on e found))
  · exact kept
  · exact fun e armed met => ⟨(fired e armed met).trans (judgedTo_now _ s.now true _), fun on => (members e).2 (.inr ⟨on, armed, met⟩)⟩

end Sys2Proof.Machine
end

