-- ==== Sys2Proof/Proofs/CalendarRequests.lean ====
section
/-! SUPPORT. Calendar Get and Calendar Set, with the clock-set event of the game-day unit, alone and together with a second tick (R116
to R119, R128). -/

namespace Sys2Proof.Machine

set_option Elab.async false

/-! ## The calendar at a new instant -/

/-- The calendar has been set, and the DAILY entries have gone to their next occurrence where the clock went back. -/
def State.setTo (s : State) (now : Instant) : State :=
  { s with backup := { s.backup with
    calendar := { now := now, valid := true, ended := false, divider := 0 }
    events := if now.earlier s.now = true then s.backup.events.map fun x => x.afterBackwardSet now else s.backup.events } }

theorem setTo_entry (s : State) (now : Instant) (e : Fin 16) :
    (s.setTo now).entry e = if s.now.Reached now then s.entry e else (s.entry e).afterBackwardSet now := by
  have earlier : now.earlier s.now = true ↔ ¬s.now.Reached now := by
    unfold Instant.earlier
    rw [Bool.not_eq_true', ← Instant.atOrAfter_iff, Bool.not_eq_true]
  change (if now.earlier s.now = true then s.backup.events.map fun x => x.afterBackwardSet now else s.backup.events).get e = _
  by_cases reached : s.now.Reached now
  · rw [if_neg fun back => earlier.1 back reached, if_pos reached]
    rfl
  · rw [if_pos (earlier.2 reached), if_neg reached]
    exact Tab.get_map _ _ _

theorem clockSet_eq {s u : State} {old : Instant} (set : (if s.now.earlier old then
    s.withBackup { s.backup with events := s.backup.events.map fun x => x.afterBackwardSet s.now } else s) = u) :
    s.clockSet old = u.catchUp u.now := by
  subst set
  rfl

theorem setClock_eq (s : State) (d : DateTime) : s.setClock d = (s.setTo d.instant).catchUp d.instant := by
  unfold State.setClock
  generalize d.instant = now
  refine clockSet_eq (u := s.setTo now) ?_
  unfold State.setTo
  by_cases back : now.earlier s.now = true
  · exact (if_pos back).trans (by rw [if_pos back]; rfl)
  · exact (if_neg back).trans (by rw [if_neg back]; rfl)

/-- The record after the clock-set event (R128). -/
def GameDayRecord.afterSet (r : GameDayRecord) (now : Instant) : GameDayRecord :=
  if r.valid = true then r.caughtUp (gameDayIndex r.rollover now) else r

/-- The notice of the clock-set event (R128). -/
def GameDayRecord.setNotice (r : GameDayRecord) (now : Instant) : Option GameDayNotice :=
  if r.valid = true then r.catchUpNotice (gameDayIndex r.rollover now) else none

theorem advanced_setClock (s : State) (d : DateTime) :
    (s.setTo d.instant).Advanced (s.setClock d) true d.instant (s.record.afterSet d.instant) (s.record.setNotice d.instant) := by
  rw [setClock_eq]
  unfold GameDayRecord.afterSet GameDayRecord.setNotice
  cases valid : s.record.valid
  · rw [if_neg Bool.false_ne_true, if_neg Bool.false_ne_true]
    exact advanced_catchUp_invalid (s := s.setTo d.instant) valid d.instant
  · rw [if_pos rfl, if_pos rfl]
    exact advanced_catchUp (s := s.setTo d.instant) valid d.instant

/-- The inbound requests have no part in the clock-set event. -/
theorem setClock_inbound (s : State) (d : DateTime) (q : List InboundRequest) :
    let first : State := { s with link := { s.link with inbound := q } }
    let t := s.setClock d
    let u := first.setClock d
    u.record = t.record ∧ (∀ e, u.entry e = t.entry e) ∧ u.link.notices.gameDay = t.link.notices.gameDay ∧ u.StartsKept t := by
  intro first
  have advanced := advanced_setClock s d
  have advanced' := advanced_setClock first d
  generalize s.setClock d = t at *
  generalize first.setClock d = u at *
  generalize d.instant = now at *
  obtain ⟨_, _, record, _, _, gameDay, fired, kept, _, starts⟩ := advanced
  obtain ⟨_, _, record', _, _, gameDay', fired', kept', _, starts'⟩ := advanced'
  obtain ⟨voice, rumble, cue, mask, notice⟩ := starts.kept nofun
  obtain ⟨voice', rumble', cue', mask', notice'⟩ := starts'.kept nofun
  refine ⟨record'.trans record.symm, fun e => ?_, gameDay'.trans gameDay.symm, voice.trans voice'.symm, rumble.trans rumble'.symm,
    cue.trans cue'.symm, mask.trans mask'.symm, notice.trans notice'.symm⟩
  by_cases due : ((s.setTo now).entry e).state = .armed ∧ ((s.setTo now).entry e).Met (s.record.afterSet now) now
  · obtain ⟨armed, met⟩ := due
    exact (fired' e armed met).trans (fired e armed met).symm
  · have none := Decidable.not_and_iff_not_or_not.1 due
    exact (kept' e none).trans (kept e none).symm

/-- Nor has the reply to it. -/
theorem setClock_replied {s v : State} {d : DateTime} {q : List InboundRequest} {tag : Byte} {body : ReplyBody}
    (replied : State.replied ({ s with link := { s.link with inbound := q } }.setClock d) 0x27 tag .ok body = v) :
    v.record = (s.setClock d).record ∧ (∀ e, v.entry e = (s.setClock d).entry e) ∧
    v.link.notices.gameDay = (s.setClock d).link.notices.gameDay ∧ v.StartsKept (s.setClock d) := by
  have same := setClock_inbound s d q
  subst replied
  dsimp only at same
  generalize State.setClock { s with link := { s.link with inbound := q } } d = u at same ⊢
  exact same

theorem setClock_of_ticked {s : State} (d : DateTime) (on : s.backup.powered = true) (powered : s.corePowered = true)
    (started : s.link.catchUpDone = true) (more : s.now.second < 86399 ∨ s.now.day < 73048) :
    s.setClockTicked d = ((s.countedTo (nextSecond s.now)).setClock d).secondEvent (nextSecond s.now) := by
  unfold State.setClockTicked
  rw [if_pos on, countSecond_state more, countSecond_event more, if_pos ⟨powered, started⟩]
  rfl

/-! ## Calendar Set -/

section
variable {s : State} {f : CalendarSetFields}

theorem takeCalendarSet_badField (bad : f.date.ok = false) :
    takeCalendarSet f s = refuse (if f.ticked = true then s.secondTick else s) .badField := if_pos bad

variable (good : f.date.ok = true)
include good

theorem takeCalendarSet_critical (critical : s.supply.supply = .critical) :
    takeCalendarSet f s = refuse (if f.ticked = true then s.secondTick else s) .supplyCritical := by
  unfold takeCalendarSet
  dsimp only
  rw [if_neg (by rw [good]; exact Bool.true_eq_false.mp), if_pos critical]

theorem takeCalendarSet_sets (notCritical : s.supply.supply ≠ .critical) :
    takeCalendarSet f s = accept (if f.ticked = true then s.setClockTicked f.date else s.setClock f.date)
      (.calendarSet f.date.instant.dateTime ((f.date.instant.day + 6) % 7) f.date.instant) := by
  unfold takeCalendarSet
  dsimp only
  rw [if_neg (by rw [good]; exact Bool.true_eq_false.mp), if_neg notCritical]
  rfl

end

/-- A Calendar Set that is set alone. -/
theorem exec_calendarSet {s : State} {tag : Byte} {d : DateTime} (serves : s.Serves (.calendarSet tag ⟨d, false⟩)) (good : d.ok = true)
    (notCritical : s.supply.supply ≠ .critical) : exec (.calendarSet tag ⟨d, false⟩) s = .next ((s.setClock d).replied 0x27 tag .ok
      (.calendarSet d.instant.dateTime ((d.instant.day + 6) % 7) d.instant)) :=
  serve_accepted rfl serves (takeCalendarSet_sets (f := ⟨d, false⟩) good notCritical)

/-- A Calendar Set together with a counted second: the second event follows the clock-set event. -/
theorem exec_calendarSet_ticked {s : State} {tag : Byte} {d : DateTime} (serves : s.Serves (.calendarSet tag ⟨d, true⟩))
    (good : d.ok = true) (notCritical : s.supply.supply ≠ .critical) (on : s.backup.powered = true) (started : s.link.catchUpDone = true)
    (more : s.now.second < 86399 ∨ s.now.day < 73048) : exec (.calendarSet tag ⟨d, true⟩) s =
      .next ((((s.countedTo (nextSecond s.now)).setClock d).secondEvent (nextSecond s.now)).replied 0x27 tag .ok
        (.calendarSet d.instant.dateTime ((d.instant.day + 6) % 7) d.instant)) := by
  rw [← setClock_of_ticked d on serves.1 started more]
  exact serve_accepted rfl serves (takeCalendarSet_sets (f := ⟨d, true⟩) good notCritical)

/-- Calendar Set is served when its request alone waits. -/
theorem serves_calendarSet {s : State} {tag : Byte} (powered : s.corePowered = true) (ready : s.link.readiness = .ready)
    (place : s.link.replies.length < 4) (d : DateTime)
    (waits : s.link.inbound = [⟨0x27, tag, [0, 0, 0, 0, 0, 0, 0], .handed⟩]) : s.Serves (.calendarSet tag ⟨d, false⟩) := by
  refine ⟨powered, ready, ?_⟩
  unfold Link.admits
  rw [waits]
  refine Bool.and_eq_true_iff.2 ⟨decide_eq_true place, ?_⟩
  exact Bool.or_eq_true_iff.2 (.inl (Bool.and_eq_true_iff.2 ⟨Bool.and_eq_true_iff.2 ⟨rfl, decide_eq_true rfl⟩, rfl⟩))

theorem exec_calendarSet_refused {s u : State} {tag : Byte} {f : CalendarSetFields} (serves : s.Serves (.calendarSet tag f))
    {status : Status} (refused : takeCalendarSet f s = refuse u status) :
    exec (.calendarSet tag f) s = .next (u.replied 0x27 tag status .none) :=
  (serve_of_serves rfl serves _).trans (by rw [refused, finish_refuse]; rfl)

/-- Settles O37: the requests by their refusals, the Set as the clock-set event, and the Set with a tick as that event between the
count and the second event. -/
theorem calendarRequestsReadAndSet : Obligations.CalendarRequestsReadAndSet := by
  unfold Obligations.CalendarRequestsReadAndSet
  refine ⟨fun s tag serves => serve_accepted rfl serves rfl, fun s tag d ticked serves u ticks => ?_,
    fun s tag d serves good notCritical => ?_, fun s tag d serves good notCritical on started more => ?_⟩
  · cases (exec_secondTick s).symm.trans ticks
    exact ⟨fun bad => exec_calendarSet_refused serves (takeCalendarSet_badField bad),
      fun good critical => exec_calendarSet_refused serves (takeCalendarSet_critical good critical)⟩
  · have row := exec_calendarSet serves good notCritical
    have advanced := advanced_setClock s d
    generalize s.setClock d = t at row advanced
    generalize d.instant = now at row advanced ⊢
    intro _ events
    obtain ⟨rest, backup, record, link, _, gameDay, fired, kept, members, starts⟩ := advanced
    obtain ⟨voice, rumble, cue, _, _⟩ := starts.kept nofun
    rw [← record] at fired kept members
    refine ⟨t, row, ?_, (congrArg Backup.calendar backup :), (congrArg Backup.store backup :), record,
      (congrArg Link.replies link :), (congrArg Link.inbound link :), (congrArg Link.mask link :), fun valid enabled => ?_, fun none => ?_,
      fun e => ?_⟩
    · rw [← voice, ← rumble, ← cue] at rest
      exact (congrArg (fun x : State => { x with backup := s.backup }) rest :)
    · exact (gameDay.trans (if_pos enabled)).trans (congrArg (Option.or · _) (if_pos valid))
    · by_cases enabled : maskEnables s.link.mask .gameDay = true
      · have invalid := none.resolve_right (ne_false_of_eq_true enabled)
        exact (gameDay.trans (if_pos enabled)).trans (congrArg (Option.or · _) (if_neg (ne_true_of_eq_false invalid)))
      · exact gameDay.trans (if_neg enabled)
    · intro x
      have table : (s.setTo now).entry e = x := by
        refine (setTo_entry s now e).trans ?_
        unfold x
        generalize s.entry e = y
        obtain ⟨state, trigger, due, cue, quantize, late, firedAt⟩ := y
        cases state with
        | free => exact ite_self _
        | armed =>
          cases trigger with
          | daily time => rfl
          | gameDay value => exact ite_self _
          | dateTime i => exact ite_self _
        | fired =>
          cases trigger with
          | daily time => rfl
          | gameDay value => exact ite_self _
          | dateTime i => exact ite_self _
      have fired := fired e
      have kept := kept e
      have members := members e
      rw [table] at fired kept members
      exact ⟨fun armed met => ⟨(fired armed met).trans (judgedTo_now x now true events),
        fun enabled => members.2 (.inr ⟨enabled, armed, met⟩)⟩, kept⟩
  · intro now carried reply first v exec'
    have row : exec (.calendarSet tag ⟨d, true⟩) s =
        .next ((((s.countedTo carried).setClock d).secondEvent carried).replied 0x27 tag .ok reply) :=
      exec_calendarSet_ticked serves good notCritical on started more
    clear_value carried
    have alone := exec_calendarSet (serves_calendarSet (s := first) (tag := tag) serves.1 serves.2.1 serves.place d rfl) good notCritical
    have vIs : (first.setClock d).replied 0x27 tag .ok reply = v := Host.Outcome.next.inj (alone.symm.trans exec')
    have same := setClock_replied (s := s.countedTo carried) vIs
    have set := advanced_setClock (s.countedTo carried) d
    have second := secondEvent_advanced ((s.countedTo carried).setClock d) carried
    clear alone exec' vIs
    generalize ((s.countedTo carried).setClock d).secondEvent carried = t at row second
    generalize (s.countedTo carried).setClock d = w at set second same
    obtain ⟨rest, backup, _, link, _, gameDay, _⟩ := set
    obtain ⟨record', notice', advanced, skips, crosses, stays⟩ := second
    obtain ⟨rest', backup', recordIs, link', _, gameDay', fired, kept, members, starts⟩ := advanced
    obtain ⟨recordV, entryV, gameDayV, startsV⟩ := same
    have mask : w.link.mask = s.link.mask := (congrArg Link.mask link :)
    subst recordIs
    rw [mask] at gameDay' fired members
    rw [recordV, gameDayV]
    intro index late
    have whole : { t with backup := s.backup, link := s.link, voice := s.voice, rumble := s.rumble, cue := s.cue } = s :=
      (congrArg (fun x : State =>
        { x with backup := s.backup, link := s.link, voice := s.voice, rumble := s.rumble, cue := s.cue }) rest' :).trans
        (congrArg (fun x : State => { x with backup := s.backup, link := s.link }) rest :)
    have firings : v.FiringsStarted t fun e => late = false ∧ (v.entry e).state = .armed ∧ (v.entry e).Met t.record carried :=
      starts.congr startsV (fun e => by rw [entryV]; exact ⟨rfl, rfl⟩) fun e => by rw [entryV]; exact Iff.rfl
    refine ⟨t, row, whole, firings, ?_, ?_, ?_,
      fun off => ?_, fun its => ?_, fun valid next => ?_, fun none => ?_, fun e => ?_⟩
    · exact (congrArg Backup.calendar backup' :).trans (congrArg Backup.calendar backup :)
    · exact (congrArg Link.replies link' :).trans (congrArg Link.replies link :)
    · exact (congrArg Link.inbound link' :).trans (congrArg Link.inbound link :)
    · exact (gameDay'.trans (if_neg (ne_true_of_eq_false off))).trans (gameDay.trans (if_neg (ne_true_of_eq_false off)))
    · obtain ⟨credited, noticed, some⟩ := skips its
      refine ⟨credited, fun enabled => (gameDay'.trans (if_pos enabled)).trans ?_⟩
      rw [Option.or_of_isSome some]
      exact noticed
    · obtain ⟨crossed, noticed⟩ := crosses valid next
      exact ⟨crossed, fun enabled => (gameDay'.trans (if_pos enabled)).trans (by rw [noticed]; rfl)⟩
    · obtain ⟨same, noNotice⟩ := stays none
      refine ⟨same, gameDay'.trans ?_⟩
      rw [noNotice]
      exact ite_self _
    · rw [entryV]
      refine ⟨fun armed met enabled => ⟨(fired e armed met).trans ?_, (members e).2 (.inr ⟨enabled, armed, met⟩)⟩, kept e⟩
      rw [enabled]
      exact judgedTo_enabled (w.entry e) carried w.now late

end Sys2Proof.Machine
end
